-- ==== Sys2Proof/Word.lean ====
section
/-! DEFINITION. The word types of the i960 VH: 32-bit ordinals and addresses, bytes, register
numbers (spec/10_state.md R40 to R44, spec/20_memory.md R140). -/

namespace Sys2Proof

/-- A 32-bit word: a register, an address, an ordinal or an integer in two's complement. -/
abbrev Word := BitVec 32

/-- A byte of memory. -/
abbrev Byte := BitVec 8

/-- A 5-bit register number: 0 to 15 are r0 to r15, 16 to 31 are g0 to g15 (30_encoding.md R232). -/
abbrev Reg := BitVec 5

end Sys2Proof
end

