-- ==== Sys2Proof/Config.lean ====
section
/-! DEFINITION. What the implementation fixes and the free values: opaque constants, so that no
proof can see them (spec/92_eei_decisions.md section 3, spec/93_implementation_defined.md). -/

namespace Sys2Proof

/-- A cycle this chip drives on the PCI bus as a master (65_atu_mu.md R1062, R1066;
66_dma_i2c_test.md R1213). -/
inductive PciCmd where
  | memRead | memWrite | ioRead | ioWrite | cfgRead | cfgWrite
  | memReadLine | memReadMultiple | memWriteInvalidate
  deriving DecidableEq, Repr, Inhabited

/-- One PCI cycle: command, address, active-high byte enables and write data (R1066). -/
structure PciCycle where
  cmd : PciCmd
  addr : Word
  be : BitVec 4
  data : Word
  deriving DecidableEq, Repr, Inhabited

/-- How a PCI cycle ended (R1066). -/
inductive PciStatus where
  | ok | masterAbort | targetAbort | parityError
  deriving DecidableEq, Repr, Inhabited

/-- The answer of the PCI bus to a cycle (R1066). -/
structure PciReply where
  status : PciStatus
  data : Word
  deriving DecidableEq, Repr, Inhabited

/-- FREE VALUE. An undefined 32-bit value (00_scope.md R15): `fresh` is the counter of the state,
`slot` tells apart the draws of one step. -/
opaque Config.undef (fresh slot : Nat) : BitVec 32

/-- FREE VALUE. What a memory byte that nothing has written holds (64_cpcu_memctl_arb.md R1002,
10_state.md R80), by its key in the memory. -/
opaque Config.powerUp (key : Nat) : BitVec 8

/-- FREE VALUE. The PCI bus as seen by this chip: the answer to its `n`-th cycle (R1066, D46). -/
opaque Config.pciReply (n : Nat) (c : PciCycle) : PciReply

/-- Bits 31:12 of the DEVICEID register and of the JTAG identification code (10_state.md R74). -/
opaque Config.deviceIdHigh : BitVec 20

/-- Bits 31:12 of the PDIDR register (10_state.md R75). -/
opaque Config.pdidrHigh : BitVec 20

end Sys2Proof
end

