-- ==== Sys2Proof/Machine/State.lean ====
section
/-! DEFINITION. The state of the i960 VH: plain data, every piece the spec gives the machine
(INVENTORY.md lists each with its rule), the ways the model can stop, and the state at reset. -/

namespace Sys2Proof.Machine

/-! ## Why the model stops -/

/-- The model stops with a fault of its own (an architectural fault is TAKEN, never one of these). -/
inductive Fault where
  /-- A data access or fetch in a reserved hole of the address map (20_memory.md R141: 400H to
  FFFH, 1800H to 1FFFH). Safe: the model stops where the hardware is not described. -/
  | reservedHole
  deriving DecidableEq, Repr

/-- The model has no meaning for what happens (93_implementation_defined.md, treatment `refuse`).
Every one is safe: the model stops where the spec gives no effect. -/
inductive Refusal where
  /-- Raised by no meaning: an instruction whose meaning is not written yet. -/
  | notModelled (mnemonic : String)
  /-- Fetch from the PMMR block 1000H to 17FFH (10_state.md R91 i). -/
  | fetchFromPmmr
  /-- Fetch from FEFFFF60H to FEFFFFFFH (20_memory.md R141). -/
  | fetchFromReserved
  /-- Store to FEFFFF60H to FEFFFFFFH (20_memory.md R141). -/
  | storeToReserved
  /-- Store to a reserved core MMR that faults are not defined for (10_state.md R86 item 6). -/
  | reservedMmrStore
  /-- `sysctl` modify-MMR of a reserved MMR with a non-zero mask (47_processor_mgmt.md R662). -/
  | sysctlReservedMmr
  /-- PMCON bus width code 11 (70_reset_and_hazards.md R1316). -/
  | pmconWidth
  /-- PRCB or a table in data RAM or at or above FEFFFF60H (70_reset_and_hazards.md R1318). -/
  | imageInReservedMemory
  /-- `calls` from user mode through an entry of type 01 or 11 (45_call_return.md R551). -/
  | callsReservedEntry
  /-- `ret` with return type 100, 101 or 110 (45_call_return.md R564). -/
  | retReservedType
  /-- `ret` after r0 was written without a `flushreg` (45_call_return.md R545 e, R548 f). -/
  | retModifiedPfp
  /-- Call or return after software wrote g15 while frames are cached, or a return to a frame
  other than the newest cached one (45_call_return.md R548 a, d). -/
  | frameMismatch
  /-- `icctl` load-and-lock of more than one block (47_processor_mgmt.md R640). -/
  | icctlBlocks
  /-- `sysctl` request of a reserved vector or of 248 (47_processor_mgmt.md R656). -/
  | sysctlVector
  /-- Fault table entry of type 01 or 11 at a fault (60_exceptions.md R713, R717). -/
  | faultEntryReserved
  /-- Trace or override handler not reached by a system-supervisor call (60_exceptions.md R727, R741). -/
  | faultHandlerLocal
  /-- Interrupt vector entry of type 01 or 11 (61_interrupts.md R811). -/
  | vectorReserved
  /-- ICON.mo = 10 or 11 at a hardware interrupt (61_interrupts.md R837). -/
  | iconMaskOperation
  /-- ICON written with bit 14 = 0 or bits 9:0 non-zero (61_interrupts.md R850). -/
  | iconReserved
  /-- A reserved enable or mode combination of BPCON or IPBx with PC.te = 1 (62_tracing.md R902, R905). -/
  | breakpointReserved
  /-- A fault inside the delivery of an interrupt: not described by the source. -/
  | interruptDeliveryFault
  /-- An inbound PCI access the source does not describe: both windows claim it, it translates
  into an outbound window or outside the local bus, it writes the expansion ROM, OMR0, OMR1, or
  reaches POCCDP, by the window or by a configuration cycle (65_atu_mu.md R1077, R1078, R1169,
  R1192). -/
  | inboundUndescribed
  /-- NDAR written while the DMA channel is active (66_dma_i2c_test.md R1207). -/
  | dmaNdarActive
  /-- A DMA transfer the source does not define: PCI address past FFFFFFFFH, non-zero upper
  address, local address below 1800H or in core MMR space from FF000000H up, unsupported command
  (66_dma_i2c_test.md R1208 to R1213, R1231; log 69). -/
  | dmaUndefined
  /-- An I2C setting the source calls undefined or does not describe: ICCR below 1EH or changed
  with SCL enabled, START and STOP together, its own slave address, a general call that the unit
  would answer itself (66_dma_i2c_test.md R1256, R1258, R1260, R1263). -/
  | i2cUndefined
  /-- The machine after JTAG `runbist` until reset, the core and everything outside it, or with a
  non-public or unused JTAG instruction (66_dma_i2c_test.md R1291, R1294). -/
  | testMode
  deriving DecidableEq, Repr

/-! ## Parts of the state -/

/-- A cached local register set: the address of its frame and r0 to r15 (45_call_return.md R540). -/
structure Frame where
  addr : Word
  regs : Vector Word 16
  deriving DecidableEq, Repr

/-- MODEL'S OWN. What a trace left pending in a fault record was: the address of the handler's frame
above the record, the subtype bits and instruction address written there, and the breakpoints that
contributed, as TC event flags (60_exceptions.md R771, 62_tracing.md R897). -/
structure Pending where
  frame : Word := 0
  bits : Word
  addr : Word
  flags : Word
  deriving DecidableEq, Repr

/-- Whether the core runs: 70_reset_and_hazards.md R1310, R1313; 60_exceptions.md R728;
66_dma_i2c_test.md R1292, R1294. -/
inductive RunState where
  /-- Executing instructions. -/
  | ready
  /-- Released from reset, the initialization of R1310 not yet performed. -/
  | starting
  /-- Stopped for good with a fail code (R1313, R728). -/
  | stopped (code : Word)
  /-- ONCE mode until the next reset (R1292). -/
  | once
  /-- JTAG `runbist` has run: undefined until reset (R1294). -/
  | selfTest
  deriving DecidableEq, Repr

/-- The interrupt controller (61_interrupts.md R850 to R858, R878). -/
structure Intc where
  icon : Word
  imap0 : Word
  imap1 : Word
  imap2 : Word
  ipnd : Word
  imsk : Word
  pirsr : Word
  /-- `SW_Int_Priority` (R814). -/
  swPrio : BitVec 5
  nmiPending : Bool
  blockNmi : Bool
  /-- Last level seen by the edge detector of the NMI latch (R858). -/
  nmiLevel : Bool
  /-- XINT7# to XINT0# pins, 1 = asserted (low). -/
  xint : BitVec 8
  /-- NMI# pin asserted. -/
  nmiPin : Bool
  deriving DecidableEq, Repr

/-- One timer (63_timers.md R931). -/
structure Timer where
  tmr : Word
  tcr : Word
  trr : Word
  phase : BitVec 3
  /-- TMR before a store that disabled the timer, while its one late tick may come: until the next
  instruction begins (R938). -/
  late : Option Word
  deriving DecidableEq, Repr

/-- Physical and logical memory configuration (20_memory.md R176 to R186). -/
structure BusConfig where
  /-- PMCON0_1 to PMCON14_15. -/
  pmcon : Vector Word 8
  bcon : Word
  dlmcon : Word
  lmadr0 : Word
  lmadr1 : Word
  lmmr0 : Word
  lmmr1 : Word
  deriving DecidableEq, Repr

/-- Hardware breakpoints (62_tracing.md R900 to R905). -/
structure Debug where
  ipb0 : Word
  ipb1 : Word
  dab0 : Word
  dab1 : Word
  bpcon : Word
  /-- Modification rights granted (R900). -/
  rights : Bool
  deriving DecidableEq, Repr

/-- Core and peripheral control unit (64_cpcu_memctl_arb.md R973, R975). -/
structure Cpcu where
  /-- RRCR bit 2. -/
  retry : Bool
  /-- RRCR bit 1: the core is held in reset. -/
  coreReset : Bool
  /-- CSR bits 16 and 1:0 (bits 3:2 are the pins of `Board`). -/
  csr : Word
  deriving DecidableEq, Repr

/-- Memory controller (64_cpcu_memctl_arb.md R1004 to R1034). -/
structure MemCtl where
  mbcr : Word
  mbbar0 : Word
  mbbar1 : Word
  mbrws0 : Word
  mbwws0 : Word
  mbrws1 : Word
  mbwws1 : Word
  dbcr : Word
  dbar : Word
  drws : Word
  dwws : Word
  drir : Word
  dper : Word
  bmer : Word
  mear : Word
  lpisr : Word
  deriving DecidableEq, Repr

/-- Local bus arbiter (64_cpcu_memctl_arb.md R1041, R1043). -/
structure Arbiter where
  lbacr : Word
  lbalcr : Word
  deriving DecidableEq, Repr

/-- A posted inbound write of one DWORD (65_atu_mu.md R1073). -/
structure InWrite where
  pa : Word
  data : Word
  be : BitVec 4
  deriving DecidableEq, Repr

/-- The data of an inbound read (65_atu_mu.md R1074). -/
structure InData where
  /-- PCI address of the next DWORD to be collected. -/
  pa : Word
  /-- The byte enables that the master must repeat, until it has collected the first DWORD. -/
  be : Option (BitVec 4)
  /-- DWORDs read and not collected, at rising addresses. -/
  words : List Word
  /-- Local bus address of the next DWORD that the ATU reads ahead. -/
  next : Word
  /-- DWORDs still to be read ahead. -/
  ahead : Nat
  deriving DecidableEq, Repr

/-- The delayed inbound read (65_atu_mu.md R1074): requested, with data in the ODQ, or ended in a bus
fault. -/
inductive InRead where
  | none
  | requested (pa : Word) (be : BitVec 4)
  | data (d : InData)
  | aborted (pa : Word) (be : BitVec 4)
  deriving DecidableEq, Repr

/-- A configuration cycle of a PCI master: the offset of its DWORD, its byte enables and, for a write,
its data (65_atu_mu.md R1066). -/
structure CfgCycle where
  off : BitVec 8
  be : BitVec 4
  write : Option Word
  deriving DecidableEq, Repr

/-- The delayed inbound configuration cycle (65_atu_mu.md R1075, R1076): latched, or performed by the
ATU, `data` being what a read gave, and not yet collected by the master. -/
inductive CfgSlot where
  | none
  | requested (c : CfgCycle)
  | completed (c : CfgCycle) (data : Word)
  deriving DecidableEq, Repr

/-- Address translation unit (65_atu_mu.md R1140 to R1171) and its queues (R1061). -/
structure Atu where
  vid : BitVec 16
  did : BitVec 16
  cmd : BitVec 16
  sr : BitVec 16
  rid : BitVec 8
  ccr : BitVec 24
  clsr : BitVec 8
  lt : BitVec 8
  htr : BitVec 8
  /-- ATUBISTR bits 6 and 3:0 (bit 7 is ATUCR bit 3). -/
  bist : BitVec 8
  iabar : Word
  svir : BitVec 16
  sir : BitVec 16
  erbar : Word
  ilr : BitVec 8
  ipr : BitVec 8
  ialr : Word
  iatvr : Word
  omwvr : Word
  oiowvr : Word
  erlr : Word
  ertvr : Word
  cr : Word
  isr : Word
  occar : Word
  /-- OAQ and ODQ: the outbound write the core has posted, its DWORDs still to be driven. -/
  outq : List PciCycle
  /-- IAQ and IDQ: inbound writes PCI has posted. -/
  inq : List InWrite
  /-- DWORDs that the inbound write transaction in the IAQ has carried, 0 when there is none (R1061). -/
  inCount : Nat
  /-- IDRAQ and ODQ: the inbound read in flight. -/
  rdq : InRead
  /-- The inbound configuration cycle in flight (R1075). -/
  cfg : CfgSlot
  deriving DecidableEq, Repr

/-- Messaging unit (65_atu_mu.md R1182 to R1190). -/
structure Mu where
  imr0 : Word
  imr1 : Word
  omr0 : Word
  omr1 : Word
  idr : Word
  /-- IISR bits 1:0. -/
  iisr : BitVec 2
  iimr : Word
  odr : Word
  /-- OISR bits 1:0. -/
  oisr : BitVec 2
  oimr : Word
  deriving DecidableEq, Repr

/-- A DMA channel (66_dma_i2c_test.md R1204 to R1212, R1220, R1222). -/
structure Dma where
  ccr : Word
  csr : Word
  dar : Word
  ndar : Word
  padr : Word
  ladr : Word
  bcr : Word
  dcr : Word
  /-- `dma_go` (R1220). -/
  go : Bool
  queue : List Byte
  /-- Byte count of the descriptor, bytes read from the source, bytes written to the destination. -/
  total : Nat
  rd : Nat
  wr : Nat
  /-- MODEL'S OWN: bytes of a cache line when the transfer uses Memory Write and Invalidate, decided
  for the whole of it as its descriptor is loaded; 0 when it does not (R1228). -/
  mwiLine : Nat
  deriving DecidableEq, Repr

/-- `i2c_mode` (66_dma_i2c_test.md R1265). -/
inductive I2cMode where
  | idle | masterTx | masterRx | slaveTx | slaveRx
  deriving DecidableEq, Repr

/-- I2C bus interface unit (66_dma_i2c_test.md R1251 to R1256). -/
structure I2c where
  icr : Word
  isr : Word
  isar : Word
  idbr : Word
  iccr : Word
  mode : I2cMode
  deriving DecidableEq, Repr

/-- The 16 states of the TAP controller (66_dma_i2c_test.md R1291). -/
inductive TapState where
  | testLogicReset | runTestIdle
  | selectDr | captureDr | shiftDr | exit1Dr | pauseDr | exit2Dr | updateDr
  | selectIr | captureIr | shiftIr | exit1Ir | pauseIr | exit2Ir | updateIr
  deriving DecidableEq, Repr

/-- The JTAG test access port (66_dma_i2c_test.md R1290 to R1295). -/
structure Tap where
  state : TapState
  ir : BitVec 4
  irShift : BitVec 4
  /-- Shift part of the selected data register. -/
  dr : BitVec 192
  /-- Boundary-scan update latches. -/
  bsr : BitVec 192
  /-- RUNBIST register bit (R1294). -/
  bistBit : Bool
  /-- A rising edge of TCK has come in Run-Test/Idle since it was entered: BIST begins on the first one
  only (R1294). -/
  idled : Bool
  tdo : Bool
  deriving DecidableEq, Repr

/-- The platform: pins sampled at P_RST# (70_reset_and_hazards.md R1302) and open parameters
(92_eei_decisions.md section 3). -/
structure Board where
  rstMode : Bool
  retry : Bool
  clkmode1 : Bool
  clkmode0 : Bool
  stest : Bool
  once : Bool
  /-- Failure mask of the built-in self test, 0 = pass (R1312). -/
  bistMask : BitVec 7
  emulator : Bool
  bank0Rom : Bool
  bank1Rom : Bool
  /-- DWORDs an inbound read fetches, less one (65_atu_mu.md R1074). -/
  prefetch : BitVec 4
  /-- Address ranges (first, last) where no external device answers (R1031). -/
  silent : List (Word × Word)
  deriving DecidableEq, Repr

/-- A master of the local bus that the memory controller reports errors to (64 R1030). -/
inductive Master where
  | core | atu | dma0 | dma1
  deriving DecidableEq, Repr

/-- What the other end of the I2C bus does in a master step (66_dma_i2c_test.md R1265). -/
inductive I2cReply where
  | ack | nack | lost | lostAddressed (rw : Bool) | byte (b : Byte)
  deriving DecidableEq, Repr

/-- What may happen outside the core between two of its steps (92_eei_decisions.md D57). An event
that is not enabled changes nothing. -/
inductive Event where
  /-- Levels of XINT7# to XINT0#, 1 = asserted (61_interrupts.md R878). -/
  | xint (levels : BitVec 8)
  /-- Level of NMI# (R858). -/
  | nmi (asserted : Bool)
  /-- The undefined IPND bits of inputs routed away from the core (R855). -/
  | ipndUndefined (levels : BitVec 4)
  /-- P_RST# pulse: all pins of R1302 as the new board says (70_reset_and_hazards.md R1300). -/
  | reset (board : Board)
  /-- One bus clock of the prescaler of timer 0 or 1 (63_timers.md R934). -/
  | timerClock (x : Bool)
  /-- The one late tick after a disabling store (R938). -/
  | timerLate (x : Bool)
  | pciMemWrite (pa data : Word) (be : BitVec 4)
  | pciMemRead (pa : Word) (be : BitVec 4)
  | pciReadDiscard
  | pciCfgWrite (off : BitVec 8) (data : Word) (be : BitVec 4)
  | pciCfgRead (off : BitVec 8) (be : BitVec 4)
  /-- The discard timer drops the configuration cycle that was not collected (R1076). -/
  | pciCfgDiscard
  /-- The ATU performs the latched configuration cycle (R1075). -/
  | atuCfg
  /-- The ATU performs the oldest outbound write (65_atu_mu.md R1124). -/
  | atuOut
  /-- The ATU performs the oldest inbound write (R1073). -/
  | atuIn
  /-- The ATU performs the inbound read (R1074). -/
  | atuRead
  /-- P_SERR# detected (R1132). -/
  | serr
  /-- PCI parity error on an inbound address or data phase (R1131). -/
  | inboundParity (address : Bool)
  /-- DRAM parity error on a read by a master (64_cpcu_memctl_arb.md R1030). -/
  | parityError (m : Master) (a : Word)
  | dmaIdle (x : Bool)
  | dmaFill (x : Bool)
  | dmaDrain (x : Bool)
  | dmaComplete (x : Bool)
  | dreq (asserted : Bool)
  | i2cMasterByte (r : I2cReply)
  | i2cMasterAbort
  | i2cAddressed (addr : BitVec 7) (rw : Bool)
  | i2cSlaveByte (r : I2cReply)
  | i2cStop
  | i2cBusBusy (b : Bool)
  /-- An external local bus master writes a byte of an external device (64 R1047). -/
  | extWrite (a : Word) (b : Byte)
  /-- An external agent posts an interrupt in the table (61_interrupts.md R827). -/
  | extPost (v : BitVec 8)
  /-- A rising edge of TCK (66_dma_i2c_test.md R1291). -/
  | tck (tms tdi : Bool)
  | trst
  deriving DecidableEq, Repr

/-- Who moves next: the core, or the environment (log 1). `between` holds what other agents do
between two bus accesses of one instruction (64_cpcu_memctl_arb.md R1044, R1045); where it stands
before the core it is as `env` for each. -/
inductive Turn where
  | core
  | env (e : Event)
  | between (es : List Event)
  deriving DecidableEq, Repr

/-- What the chip has done on the PCI bus (65_atu_mu.md R1066), newest first. -/
inductive PciLog where
  /-- A cycle driven as a master. -/
  | drove (c : PciCycle)
  /-- Data returned to a PCI master. -/
  | answered (a : Word) (data : Word)
  /-- A delayed write completed to its PCI master (R1075). -/
  | accepted (a : Word)
  | retried (a : Word)
  | aborted (a : Word)
  deriving DecidableEq, Repr

/-- The whole machine (INVENTORY.md, State). -/
structure State where
  g : Vector Word 16
  r : Vector Word 16
  ip : Word
  ac : Word
  pc : Word
  tc : Word
  prcb : Word
  isp : Word
  ssp : Word
  sspTe : Bool
  faultBase : Word
  ctrlBase : Word
  intBase : Word
  sptBase : Word
  unalignedFault : Bool
  /-- Cached register sets, newest first (45_call_return.md R540). -/
  rc : List Frame
  rcLimit : BitVec 3
  /-- MODEL'S OWN: the frame address the processor last wrote to g15 (R548 d). -/
  frameAddr : Word
  /-- MODEL'S OWN: software wrote r0 since the last `flushreg` or frame change (R545 e). -/
  pfpDirty : Bool
  /-- MODEL'S OWN: the frames, not current, that are to be returned to with such an r0. -/
  dirtyFrames : List Word
  /-- MODEL'S OWN: the traces left pending in fault records, newest first (62_tracing.md R897). -/
  kept : List Pending
  icEnabled : Bool
  icLocked : BitVec 8
  dcEnabled : Bool
  /-- MODEL'S OWN: words (by key) a store has replaced and a fetch may still see (20_memory.md R155). -/
  stale : List (Nat × Word)
  run : RunState
  halted : Bool
  /-- MODEL'S OWN: numbers the free values. -/
  fresh : Nat
  mem : List Host.Cell
  intc : Intc
  timer0 : Timer
  timer1 : Timer
  bus : BusConfig
  dbg : Debug
  cpcu : Cpcu
  mc : MemCtl
  arb : Arbiter
  atu : Atu
  mu : Mu
  dma0 : Dma
  dma1 : Dma
  dreq : Bool
  i2c : I2c
  tap : Tap
  board : Board
  /-- MODEL'S OWN: who moves next; empty = the core. -/
  schedule : List Turn
  /-- MODEL'S OWN: cycles driven so far, numbering the answers of the PCI bus. -/
  pciCount : Nat
  /-- MODEL'S OWN: the PCI bus as output. -/
  pciLog : List PciLog
  deriving DecidableEq, Repr

/-! ## Reset -/

/-- Reset values of the memory controller (64_cpcu_memctl_arb.md R1034). -/
def MemCtl.reset : MemCtl where
  mbcr := 0x000000F1
  mbbar0 := 0xFE000000
  mbbar1 := 0
  mbrws0 := 0x00070707
  mbwws0 := 0x00070707
  mbrws1 := 0x00070707
  mbwws1 := 0x00070707
  dbcr := 0
  dbar := 0
  drws := 0
  dwws := 0
  drir := 0x00000078
  dper := 0
  bmer := 0
  mear := 0
  lpisr := 0

/-- Reset values of the arbiter (64_cpcu_memctl_arb.md R1049). -/
def Arbiter.reset : Arbiter := { lbacr := 0, lbalcr := 0x00000FFF }

/-- Reset values of the ATU (65_atu_mu.md R1171). -/
def Atu.reset : Atu where
  vid := 0x8086
  did := 0x6960
  cmd := 0
  sr := 0x0200
  rid := 0
  ccr := 0x058000
  clsr := 0
  lt := 0
  htr := 0
  bist := 0
  iabar := 0x00000008
  svir := 0
  sir := 0
  erbar := 0
  ilr := 0xFF
  ipr := 0x01
  ialr := 0xFFFFF000
  iatvr := 0x00001000
  omwvr := 0
  oiowvr := 0
  erlr := 0
  ertvr := 0
  cr := 0
  isr := 0
  occar := 0
  outq := []
  inq := []
  inCount := 0
  rdq := .none
  cfg := .none

/-- Reset values of the messaging unit (65_atu_mu.md R1190). -/
def Mu.reset : Mu where
  imr0 := 0
  imr1 := 0
  omr0 := 0
  omr1 := 0
  idr := 0
  iisr := 0
  iimr := 0
  odr := 0
  oisr := 0
  oimr := 0

/-- Reset values of a DMA channel (66_dma_i2c_test.md R1240). -/
def Dma.reset : Dma where
  ccr := 0
  csr := 0
  dar := 0
  ndar := 0
  padr := 0
  ladr := 0
  bcr := 0
  dcr := 0
  go := false
  queue := []
  total := 0
  rd := 0
  wr := 0
  mwiLine := 0

/-- Reset values of a timer (63_timers.md R945); TCR and TRR by the model's choice (log 7). -/
def Timer.reset : Timer := { tmr := 0, tcr := 0, trr := 0, phase := 0, late := none }

/-- The interrupt controller at a hardware reset (61_interrupts.md R859); IPND by the model's
choice (log 7). -/
def Intc.reset : Intc where
  icon := 0
  imap0 := 0
  imap1 := 0
  imap2 := 0
  ipnd := 0
  imsk := 0
  pirsr := 0
  swPrio := 0
  nmiPending := false
  blockNmi := false
  nmiLevel := false
  xint := 0
  nmiPin := false

/-- The platform of `State.reset`: initialization mode 2, the default of 64_cpcu_memctl_arb.md
R976 (log 2). -/
def Board.default : Board where
  rstMode := true
  retry := true
  clkmode1 := true
  clkmode0 := true
  stest := false
  once := false
  bistMask := 0
  emulator := false
  bank0Rom := false
  bank1Rom := false
  prefetch := 0
  silent := []

/-- The machine at the release of P_RST#, the initialization of R1310 still to come
(70_reset_and_hazards.md R1304, R1306). -/
def State.reset : State where
  g := Vector.replicate 16 0
  r := Vector.replicate 16 0
  ip := 0xFE000000
  ac := 0
  pc := 0x001F2002
  tc := 0
  prcb := 0
  isp := 0
  ssp := 0
  sspTe := false
  faultBase := 0
  ctrlBase := 0
  intBase := 0
  sptBase := 0
  unalignedFault := false
  rc := []
  rcLimit := 0
  frameAddr := 0
  pfpDirty := false
  dirtyFrames := []
  kept := []
  icEnabled := false
  icLocked := 0
  dcEnabled := false
  stale := []
  run := .starting
  halted := false
  fresh := 0
  mem := []
  intc := Intc.reset
  timer0 := Timer.reset
  timer1 := Timer.reset
  bus := { pmcon := Vector.replicate 8 0, bcon := 0, dlmcon := 0, lmadr0 := 0, lmadr1 := 0,
           lmmr0 := 0, lmmr1 := 0 }
  dbg := { ipb0 := 0, ipb1 := 0, dab0 := 0, dab1 := 0, bpcon := 0, rights := false }
  cpcu := { retry := true, coreReset := false, csr := 1 }
  mc := MemCtl.reset
  arb := Arbiter.reset
  atu := Atu.reset
  mu := Mu.reset
  dma0 := Dma.reset
  dma1 := Dma.reset
  dreq := false
  i2c := { icr := 0, isr := 0, isar := 0, idbr := 0, iccr := 0, mode := .idle }
  tap := { state := .testLogicReset, ir := 0b0010, irShift := 0, dr := 0, bsr := 0,
           bistBit := false, idled := false, tdo := false }
  board := Board.default
  schedule := []
  pciCount := 0
  pciLog := []

end Sys2Proof.Machine
end

