-- ==== Sys2Proof/Machine/Eff.lean ====
section
/-! DEFINITION. Traps (the non-trace faults of spec/60_exceptions.md R711) and the result of an
operation that may trap or stop the model. -/

namespace Sys2Proof.Machine

/-- A non-trace fault that an instruction raises (60_exceptions.md R711, R733 to R739). -/
inductive Trap where
  | invalidOpcode
  | unimplemented
  | unaligned (efa : Word)
  | invalidOperand
  | overflow
  | zeroDivide
  | range
  | length
  | mismatch
  deriving DecidableEq, Repr

/-- The result of an operation on the state: a value and the state after, a trap to be taken, or
the model stops. `over`: the core has been reset or has stopped, nothing is left to do in the step. -/
inductive Eff (α : Type) where
  | ok (v : α) (s : State)
  | trap (t : Trap) (s : State)
  | over (s : State)
  | fault (f : Fault)
  | refuse (r : Refusal)

/-- Go on with the value and the state, unless the operation trapped or stopped. -/
def Eff.bind {α β : Type} (x : Eff α) (k : α → State → Eff β) : Eff β :=
  match x with
  | .ok v s => k v s
  | .trap t s => .trap t s
  | .over s => .over s
  | .fault f => .fault f
  | .refuse r => .refuse r

/-- The outcome of a step. -/
abbrev Res := Host.Outcome State Fault Refusal

/-- The step that an operation ends in: `k` goes on after it, `r` is the refusal of a trap where the
source describes none. -/
def Eff.close {α : Type} (x : Eff α) (r : Refusal) (k : α → State → Res) : Res :=
  match x with
  | .ok v s => k v s
  | .trap _ _ => .refused r
  | .over s => .next s
  | .fault f => .fault f
  | .refuse q => .refused q

end Sys2Proof.Machine
end

