-- ==== Sys2Proof/Machine/Bits.lean ====
section
/-! DEFINITION. Bit-field helpers: byte lanes, merges under byte enables, sign extension of
displacements, most significant one bit (spec/00_scope.md R15). -/

namespace Sys2Proof.Machine

/-- Bit `i` of a word. -/
def bit (v : Word) (i : Nat) : Bool := v.getLsbD i

/-- A bit as a word, at position `i`. -/
def bitAt (b : Bool) (i : Nat) : Word := if b then (1 : Word) <<< i else 0

/-- Replace bit `i` of a word. -/
def setBit (v : Word) (i : Nat) (b : Bool) : Word :=
  if b then v ||| ((1 : Word) <<< i) else v &&& ~~~((1 : Word) <<< i)

/-- Merge `new` into `old` where `mask` has ones. -/
def merge (mask new old : Word) : Word := (new &&& mask) ||| (old &&& ~~~mask)

/-- The four low bytes of a word, least significant first (20_memory.md R144). -/
def wordBytes (w : Word) : List Byte :=
  [w.extractLsb' 0 8, w.extractLsb' 8 8, w.extractLsb' 16 8, w.extractLsb' 24 8]

/-- The word with these bytes, least significant first, missing bytes 0. -/
def bytesToWord : List Byte → Word
  | [] => 0
  | b :: bs => b.setWidth 32 ||| (bytesToWord bs <<< 8)

/-- The word mask of four byte enables. -/
def laneMask (be : BitVec 4) : Word :=
  (if be.getLsbD 0 then 0x000000FF else 0) ||| (if be.getLsbD 1 then 0x0000FF00 else 0) |||
  (if be.getLsbD 2 then 0x00FF0000 else 0) ||| (if be.getLsbD 3 then 0xFF000000 else 0)

/-- Byte enables of an access of `n` bytes at byte offset `o` of its word. -/
def laneEnables (o n : Nat) : BitVec 4 := BitVec.ofNat 4 ((2 ^ n - 1) * 2 ^ o)

/-- The word containing an address. -/
def wordAddr (a : Word) : Word := a &&& 0xFFFFFFFC

/-- The byte offset of an address in its word. -/
def byteOffset (a : Word) : Nat := a.toNat % 4

/-- A field of `n` bits of a word from bit `lo`, as a number. -/
def field (v : Word) (lo n : Nat) : Nat := v.toNat / 2 ^ lo % 2 ^ n

/-- The number of the most significant one bit below `n`, if any. -/
def topBit (v : Nat) : Nat → Option Nat
  | 0 => none
  | n + 1 => if v.testBit n then some n else topBit v n

/-- The number of the least significant one bit at or above `i`, looking at `fuel` bits. -/
def lowBit (v : Nat) (i : Nat) : Nat → Option Nat
  | 0 => none
  | fuel + 1 => if v.testBit i then some i else lowBit v (i + 1) fuel

/-- An address rounded up to the next 16-byte boundary (45_call_return.md R534). -/
def align16 (a : Word) : Word := (a + 15) &&& 0xFFFFFFF0

end Sys2Proof.Machine
end

