-- ==== Sys2Proof/Machine/Intc.lean ====
section
/-! DEFINITION. Interrupt sources, status registers and input sampling
(spec/61_interrupts.md R833, R855 to R862). -/

namespace Sys2Proof.Machine

/-- The DMA channel's XINT6 level (66_dma_i2c_test.md R1227). -/
def Dma.xint6 (d : Dma) : Bool := bit d.csr 9 || bit d.csr 8

/-- The DMA channel's NMI level (66_dma_i2c_test.md R1227). -/
def Dma.nmi (d : Dma) : Bool :=
  bit d.csr 0 || bit d.csr 2 || bit d.csr 3 || bit d.csr 5 || bit d.csr 6

/-- The I2C unit's XINT7 level (66_dma_i2c_test.md R1264). -/
def I2c.xint7 (i : I2c) : Bool :=
  (bit i.isr 4 && bit i.icr 11) || (bit i.isr 5 && bit i.icr 12) || (bit i.isr 6 && bit i.icr 8) ||
  (bit i.isr 7 && bit i.icr 9) || (bit i.isr 9 && bit i.icr 13) || (bit i.isr 10 && bit i.icr 10)

/-- IISR as it reads: bits 3:2 are functions of IDR (65_atu_mu.md R1185). -/
def Mu.iisrWord (m : Mu) : Word :=
  m.iisr.setWidth 32 ||| bitAt (decide (m.idr &&& 0x7FFFFFFF ≠ 0)) 2 ||| bitAt (bit m.idr 31) 3

/-- OISR as it reads: bits 7:4 and 2 are functions of ODR (65_atu_mu.md R1188). -/
def Mu.oisrWord (m : Mu) : Word :=
  m.oisr.setWidth 32 ||| bitAt (decide (m.odr &&& 0x0FFFFFFF ≠ 0)) 2 ||| bitAt (bit m.odr 28) 4 |||
  bitAt (bit m.odr 29) 5 ||| bitAt (bit m.odr 30) 6 ||| bitAt (bit m.odr 31) 7

/-- `mu_xint7` (65_atu_mu.md R1191). -/
def Mu.xint7 (m : Mu) : Bool := decide (m.iisrWord &&& ~~~m.iimr &&& 7 ≠ 0)

/-- `mu_nmi` (65_atu_mu.md R1191). -/
def Mu.nmi (m : Mu) : Bool := decide (m.iisrWord &&& ~~~m.iimr &&& 8 ≠ 0)

/-- `mu_pci` (65_atu_mu.md R1191). -/
def Mu.pci (m : Mu) : Bool := decide (m.oisrWord &&& ~~~m.oimr &&& 7 ≠ 0)

/-- `atu_nmi` (65_atu_mu.md R1132, D49). -/
def Atu.nmi (a : Atu) : Bool :=
  (bit a.cr 4 && decide (a.isr &&& 0x1F ≠ 0)) || bit a.isr 5 || bit a.isr 6 ||
  (bit a.cr 9 && bit a.isr 4)

/-- X6ISR (61_interrupts.md R856). -/
def State.x6isr (s : State) : Word :=
  bitAt s.dma0.xint6 0 ||| bitAt s.dma1.xint6 1 ||| bitAt (s.intc.xint.getLsbD 6) 3

/-- X7ISR (61_interrupts.md R857). -/
def State.x7isr (s : State) : Word :=
  bitAt s.i2c.xint7 1 ||| bitAt s.mu.xint7 2 ||| bitAt (bit s.atu.isr 8) 3 |||
  bitAt (s.intc.xint.getLsbD 7) 4

/-- NISR (61_interrupts.md R858). -/
def State.nisr (s : State) : Word :=
  bitAt (bit s.mc.lpisr 5 || bit s.mc.lpisr 6) 0 ||| bitAt s.atu.nmi 1 ||| bitAt s.dma0.nmi 5 |||
  bitAt s.dma1.nmi 6 ||| bitAt s.mu.nmi 8 ||| bitAt s.intc.nmiPin 9

/-- The P_INTA# to P_INTD# outputs, bit 0 = A, 1 = asserted (65_atu_mu.md R1191,
61_interrupts.md R855). -/
def State.pciInterrupts (s : State) : BitVec 4 :=
  let pin := s.atu.ipr.toNat % 8
  let out (i : Nat) : Bool :=
    (s.mu.pci && pin == i + 1) || (bit s.mu.oisrWord (4 + i) && !bit s.mu.oimr (4 + i)) ||
    (s.intc.xint.getLsbD i && !bit s.intc.pirsr i)
  BitVec.ofBool (out 3) ++ BitVec.ofBool (out 2) ++ BitVec.ofBool (out 1) ++ BitVec.ofBool (out 0)

/-- `input_low` (61_interrupts.md R833): the routed core inputs XINT0 to XINT7 as IPND bits. An
input that PIRSR routes away is undefined: event `ipndUndefined`, not this (R855). -/
def State.inputs (s : State) : Word :=
  (s.intc.xint.setWidth 32 &&& s.intc.pirsr &&& 0x0F) ||| (s.intc.xint.setWidth 32 &&& 0x30) |||
  bitAt (decide (s.x6isr ≠ 0)) 6 ||| bitAt (decide (s.x7isr ≠ 0)) 7

/-- Sample the inputs: level detection of XINT7:0# into IPND (R833), rising edge of NISR into the
NMI latch (R858). Done at the start of every step; not in ONCE mode, where the clocks stand
(66_dma_i2c_test.md R1292). -/
def sampleInputs (s : State) : State :=
  let level := decide (s.nisr ≠ 0)
  if s.run = .once then s
  else
    { s with intc := { s.intc with
        ipnd := s.intc.ipnd ||| s.inputs
        nmiPending := s.intc.nmiPending || (level && !s.intc.nmiLevel)
        nmiLevel := level } }

/-- The IMAP field of source `i` (0 to 7 XINT, 12 and 13 timers; 61_interrupts.md R851). -/
def Intc.mapField (c : Intc) (i : Nat) : Nat :=
  if i < 4 then field c.imap0 (4 * i) 4
  else if i < 8 then field c.imap1 (4 * (i - 4)) 4
  else if i = 12 then field c.imap2 16 4
  else if i = 13 then field c.imap2 20 4
  else 0

/-- The best source among those listed: highest IMAP field, the earliest of the list on a tie.
`none` when no listed source is in `active` with a non-zero field (R832, R834, D26). -/
def Intc.bestSource (c : Intc) (active : Word) : List Nat → Option Nat
  | [] => none
  | i :: rest =>
    match c.bestSource active rest with
    | none => if bit active i && c.mapField i != 0 then some i else none
    | some j => if bit active i && decide (c.mapField j ≤ c.mapField i) then some i else some j

/-- The hardware source rule R834 selects: of those pending and unmasked the highest priority, on
a tie the highest IPND bit (D26). -/
def Intc.hardwareSource (c : Intc) : Option Nat :=
  let active := c.imsk &&& c.ipnd
  if active = 0 then none else c.bestSource active [13, 12, 7, 6, 5, 4, 3, 2, 1, 0]

/-- The priority of a hardware source, twice its IMAP field (R832). -/
def Intc.hardwarePriority (c : Intc) : Nat :=
  match c.hardwareSource with
  | some i => 2 * c.mapField i
  | none => 0

end Sys2Proof.Machine
end

