-- ==== Sys2Proof/Machine/Memory.lean ====
section
/-! DEFINITION. The memory: cells (key, byte) in strictly rising order of the key. A key is the
address for the data RAM and for external devices, and `d * 2^32 + offset` for the DRAM (d = 1)
and the memory banks 0 (d = 2) and 1 (d = 3), because the contents stay with the device when its
window moves (spec/64_cpcu_memctl_arb.md R1002). -/

namespace Sys2Proof.Machine

/-- Whether a list of cells is in canonical form: keys strictly rising. An unlisted key has
no value of its own (it reads as `Config.powerUp`), so no entry can repeat one (log 3). -/
def Memory.wf : List Host.Cell → Bool
  | [] => true
  | [_] => true
  | c :: d :: rest => decide (c.1 < d.1) && Memory.wf (d :: rest)

/-- The byte listed at a key. -/
def Memory.get : List Host.Cell → Nat → Option Byte
  | [], _ => none
  | (a, b) :: rest, k => if k < a then none else if k = a then some b else Memory.get rest k

/-- The byte at a key; what nothing has written is a free value (log 3). -/
def Memory.read (m : List Host.Cell) (k : Nat) : Byte := (Memory.get m k).getD (Config.powerUp k)

/-- Write a byte at a key. -/
def Memory.set : List Host.Cell → Nat → Byte → List Host.Cell
  | [], k, v => [(k, v)]
  | (a, b) :: rest, k, v =>
    if k < a then (k, v) :: (a, b) :: rest
    else if k = a then (k, v) :: rest
    else (a, b) :: Memory.set rest k v

/-- `n` bytes from a key on. -/
def Memory.readBytes (m : List Host.Cell) (k : Nat) : Nat → List Byte
  | 0 => []
  | n + 1 => Memory.read m k :: Memory.readBytes m (k + 1) n

/-- Write bytes from a key on. -/
def Memory.writeBytes (m : List Host.Cell) (k : Nat) : List Byte → List Host.Cell
  | [] => m
  | b :: bs => Memory.writeBytes (Memory.set m k b) (k + 1) bs

/-- Forget every cell with a key below `n`: its contents are undefined again (70 R1325). -/
def Memory.dropBelow (m : List Host.Cell) (n : Nat) : List Host.Cell :=
  m.filter fun c => decide (n ≤ c.1)

end Sys2Proof.Machine
end

