-- ==== Sys2Proof/Machine/Platform.lean ====
section
/-! DEFINITION. The local bus: address decode, error reports, and the hardware resets
(spec/64_cpcu_memctl_arb.md, spec/70_reset_and_hazards.md R1300 to R1306). -/

namespace Sys2Proof.Machine

/-! ## Free values -/

/-- The free value of slot `slot` of this step (00_scope.md R15; log 6). -/
def State.undef (s : State) (slot : Nat) : Word := Config.undef s.fresh slot

/-- Free values drawn before this point are used up. -/
def State.bump (s : State) : State := { s with fresh := s.fresh + 1 }

/-! ## Address decode (R1001) -/

/-- Number of DRAM leaves by DBCR bits 7:3, none for a reserved arrangement (R1010, R1012). -/
def dramLeaves (type : Nat) : Option Nat :=
  match type with
  | 0 => some 1
  | 1 => some 2
  | 2 | 3 => some 4
  | 4 | 6 => some 2
  | 5 | 7 => some 4
  | 8 => some 1
  | 9 => some 2
  | 11 => some 4
  | _ => none

/-- Total size of the DRAM in bytes, 0 when it is disabled or of a reserved type (R1010, R1012). -/
def MemCtl.dramTotal (m : MemCtl) : Nat :=
  if bit m.dbcr 0 then
    match dramLeaves (field m.dbcr 3 5) with
    | some n => n * (0x100000 * 4 ^ field m.dbcr 1 2)
    | none => 0
  else 0

/-- Size of a memory bank by its size field (R1004). -/
def bankSize (f : Nat) : Nat := if f < 8 then 0x10000 * 2 ^ f else 0x1000000

/-- Bus Master Enable: the ATU and the DMA channels may make PCI cycles (65_atu_mu.md R1143). -/
def State.busMaster (s : State) : Bool := s.atu.cmd.getLsbD 2

/-- Whether the ATU claims an outbound access (65_atu_mu.md R1120). -/
def Atu.claimsOut (a : Atu) (x : Word) : Bool :=
  a.cmd.getLsbD 2 && bit a.cr 1 &&
  ((decide (0x80000000 ≤ x.toNat) && decide (x.toNat ≤ 0x83FFFFFF)) ||
   (decide (0x90000000 ≤ x.toNat) && decide (x.toNat ≤ 0x9000FFFF)) ||
   (bit a.cr 8 && decide (0x2000 ≤ x.toNat) && decide (x.toNat ≤ 0x7FFFFFFF)))

/-- Who answers a local bus address (R1001). -/
inductive Target where
  /-- An outbound ATU window. -/
  | outbound
  /-- A byte array: the key of the addressed byte, and whether a write changes it (R1002). -/
  | memory (key : Nat) (writable : Bool)
  /-- Nobody: the bus monitor ends the access (R1030, R1031). -/
  | nobody
  deriving DecidableEq, Repr

/-- Whether an external device answers at an address (R1031). -/
def Board.answers (b : Board) (x : Word) : Bool :=
  !b.silent.any fun r => decide (r.1.toNat ≤ x.toNat) && decide (x.toNat ≤ r.2.toNat)

/-- Address decode of the local bus in its order of precedence (R1001). -/
def State.target (s : State) (x : Word) : Target :=
  let dram := (x - (s.mc.dbar &&& 0xFFF00000)).toNat
  let off0 := (x - (s.mc.mbbar0 &&& 0xFFFF0000)).toNat
  let off1 := (x - (s.mc.mbbar1 &&& 0xFFFF0000)).toNat
  if s.atu.claimsOut x then .outbound
  else if dram < s.mc.dramTotal then .memory (2 ^ 32 + dram) true
  else if bit s.mc.mbcr 0 && decide (off0 < bankSize (field s.mc.mbcr 4 4)) then
    .memory (2 * 2 ^ 32 + off0) (bit s.mc.mbcr 1 && !s.board.bank0Rom)
  else if bit s.mc.mbcr 16 && decide (off1 < bankSize (field s.mc.mbcr 20 4)) then
    .memory (3 * 2 ^ 32 + off1) (bit s.mc.mbcr 17 && !s.board.bank1Rom)
  else if s.board.answers x then .memory x.toNat true
  else .nobody

/-! ## Error reports (R1030) -/

/-- Whether an error status bit of some master is set (R1030, D40). -/
def State.errorPending (s : State) : Bool :=
  decide ((s.mc.lpisr ||| s.atu.isr ||| s.dma0.csr ||| s.dma1.csr) &&& 0x60 ≠ 0)

/-- `ReportError` (R1030): latch MEAR, set the master's status bit 5 (bus fault) or 6 (memory
fault). -/
def reportError (m : Master) (a : Word) (busFault : Bool) (s : State) : State :=
  let i := if busFault then 5 else 6
  let s := if s.errorPending then s else { s with mc := { s.mc with mear := wordAddr a } }
  match m with
  | .core => { s with mc := { s.mc with lpisr := setBit s.mc.lpisr i true } }
  | .atu => { s with atu := { s.atu with isr := setBit s.atu.isr i true } }
  | .dma0 => { s with dma0 := { s.dma0 with csr := setBit s.dma0.csr i true } }
  | .dma1 => { s with dma1 := { s.dma1 with csr := setBit s.dma1.csr i true } }

/-- The bus monitor ends an access (R1030): reported when BMER bit 0 is set. -/
def busTimeout (m : Master) (a : Word) (s : State) : State :=
  if bit s.mc.bmer 0 then reportError m a true s else s

/-! ## Hardware resets -/

/-- Reset of the core and of every unit on the local bus, but for the core and peripheral control
unit and for ISAR (R975 `LocalBusReset`; 70 R1300 b, R1304, R1306; 66 R1280). The registers of logs 7
and 8 get free values, the phase of a prescaler too; the data RAM is forgotten; other memory is kept
(D42). The model's choice (log 4): the core registers that R1304 calls undefined until R1310 gives them
a value are those of `State.reset`, here as there. The model's choice (log 7): the reserved bits of LMADRx and LMMRx and the bits of
DLMCON but its bit 1 are 0 (20_memory.md R186; 10_state.md R13 against 93 section 1). -/
def localBusReset (s : State) : State :=
  { State.reset with
    run := match s.run with
      | .once => .once
      | _ => .starting
    fresh := s.fresh + 1
    mem := Memory.dropBelow s.mem 0x400
    intc := { Intc.reset with
      pirsr := s.intc.pirsr, xint := s.intc.xint, nmiPin := s.intc.nmiPin
      ipnd := s.undef 0 &&& 0x30FF }
    timer0 := { Timer.reset with
      tcr := s.undef 1, trr := s.undef 2, phase := (s.undef 10).setWidth 3 }
    timer1 := { Timer.reset with
      tcr := s.undef 3, trr := s.undef 4, phase := (s.undef 11).setWidth 3 }
    bus := { State.reset.bus with
      lmadr0 := s.undef 5 &&& 0xFFFFF002, lmadr1 := s.undef 6 &&& 0xFFFFF002
      lmmr0 := s.undef 7 &&& 0xFFFFF000, lmmr1 := s.undef 8 &&& 0xFFFFF000 }
    mc := { MemCtl.reset with dbar := s.undef 9 &&& 0xFFF00000 }
    cpcu := { s.cpcu with coreReset := !s.board.rstMode }
    dreq := s.dreq
    i2c := { State.reset.i2c with isar := s.i2c.isar }
    tap := s.tap
    board := s.board
    schedule := s.schedule
    pciCount := s.pciCount
    pciLog := s.pciLog }

/-- P_RST# (70 R1300 a, R1302; 64 R975; 66 R1292): everything, with the pins sampled anew. The model's
choice (log 73): ISAR, which a reset does not set (66 R1280), is a free value where the reset ends the
undefined state after `runbist` (R1294); memory outside the chip and the TAP keep what they hold. -/
def pinReset (b : Board) (s : State) : State :=
  let isar := if s.run = .selfTest then s.undef 12 &&& 0x7F else s.i2c.isar
  let s := localBusReset { s with board := b, run := if b.once then .once else .starting }
  { s with
    intc := { s.intc with pirsr := 0 }
    i2c := { s.i2c with isar := isar }
    cpcu := { retry := b.rstMode && b.retry, coreReset := !b.rstMode, csr := 1 } }

end Sys2Proof.Machine
end

