-- ==== Sys2Proof/Machine/Mmr.lean ====
section
/-! DEFINITION. The core memory-mapped registers FF000000H to FFFFFFFFH (spec/10_state.md R85 to
R89, spec/61_interrupts.md R850 to R853, spec/62_tracing.md R900 to R905, spec/63_timers.md). -/

namespace Sys2Proof.Machine

/-- Supervisor mode (10_state.md R62). -/
def State.supervisor (s : State) : Bool := bit s.pc 1

/-- DEVICEID (10_state.md R74). -/
def deviceId : Word := Config.deviceIdHigh ++ 0x013#12

/-- The core MMRs (10_state.md R89). -/
inductive Mmr where
  | trr (x : Bool) | tcr (x : Bool) | tmr (x : Bool)
  | dlmcon | lmadr (x : Bool) | lmmr (x : Bool)
  | ipb (x : Bool) | dab (x : Bool) | bpcon
  | ipnd | imsk | icon | imap0 | imap1 | imap2
  | pmcon (i : Fin 8) | bcon
  | prcb | isp | ssp | deviceId
  deriving DecidableEq, Repr

/-- The register at an offset from FF000000H (10_state.md R89). -/
def mmrAt (off : Nat) : Option Mmr :=
  match off with
  | 0x0300 => some (.trr false)
  | 0x0304 => some (.tcr false)
  | 0x0308 => some (.tmr false)
  | 0x0310 => some (.trr true)
  | 0x0314 => some (.tcr true)
  | 0x0318 => some (.tmr true)
  | 0x8100 => some .dlmcon
  | 0x8108 => some (.lmadr false)
  | 0x810C => some (.lmmr false)
  | 0x8110 => some (.lmadr true)
  | 0x8114 => some (.lmmr true)
  | 0x8400 => some (.ipb false)
  | 0x8404 => some (.ipb true)
  | 0x8420 => some (.dab false)
  | 0x8424 => some (.dab true)
  | 0x8440 => some .bpcon
  | 0x8500 => some .ipnd
  | 0x8504 => some .imsk
  | 0x8510 => some .icon
  | 0x8520 => some .imap0
  | 0x8524 => some .imap1
  | 0x8528 => some .imap2
  | 0x8600 => some (.pmcon 0)
  | 0x8608 => some (.pmcon 1)
  | 0x8610 => some (.pmcon 2)
  | 0x8618 => some (.pmcon 3)
  | 0x8620 => some (.pmcon 4)
  | 0x8628 => some (.pmcon 5)
  | 0x8630 => some (.pmcon 6)
  | 0x8638 => some (.pmcon 7)
  | 0x86FC => some .bcon
  | 0x8700 => some .prcb
  | 0x8704 => some .isp
  | 0x8708 => some .ssp
  | 0x8710 => some .deviceId
  | _ => none

/-- Timer `x` of the state. -/
def State.timer (s : State) (x : Bool) : Timer := if x then s.timer1 else s.timer0

/-- Replace timer `x`. -/
def State.setTimer (s : State) (x : Bool) (t : Timer) : State :=
  if x then { s with timer1 := t } else { s with timer0 := t }

/-- The content of a register, as `sysctl` modify-MMR reads it. With auto-reload on, TMR.tc is
unpredictable (63_timers.md R932). -/
def State.mmrValue (s : State) (slot : Nat) : Mmr → Word
  | .trr x => (s.timer x).trr
  | .tcr x => (s.timer x).tcr
  | .tmr x =>
    let t := (s.timer x).tmr
    if bit t 1 && bit t 2 then (t &&& 0x3E) ||| (s.undef slot &&& 1) else t
  | .dlmcon => s.bus.dlmcon
  | .lmadr x => if x then s.bus.lmadr1 else s.bus.lmadr0
  | .lmmr x => if x then s.bus.lmmr1 else s.bus.lmmr0
  | .ipb x => if x then s.dbg.ipb1 else s.dbg.ipb0
  | .dab x => if x then s.dbg.dab1 else s.dbg.dab0
  | .bpcon => s.dbg.bpcon
  | .ipnd => s.intc.ipnd
  | .imsk => s.intc.imsk
  | .icon => s.intc.icon
  | .imap0 => s.intc.imap0
  | .imap1 => s.intc.imap1
  | .imap2 => s.intc.imap2
  | .pmcon i => s.bus.pmcon[i]
  | .bcon => s.bus.bcon
  | .prcb => s.prcb
  | .isp => s.isp
  | .ssp => s.ssp
  | .deviceId => Machine.deviceId

/-- A software access to TMR clears TMR.tc (63_timers.md R932). -/
def State.touchMmr (s : State) : Mmr → State
  | .tmr x => s.setTimer x { s.timer x with tmr := (s.timer x).tmr &&& 0x3E }
  | _ => s

/-- A word load from core MMR space (10_state.md R86, R87): IPB0, IPB1 and reserved addresses read
a free value. -/
def mmrLoad (a : Word) (slot : Nat) (s : State) : Word × State :=
  match mmrAt (a.toNat - 0xFF000000) with
  | some (.ipb _) | none => (s.undef slot, s)
  | some r => (s.mmrValue slot r, s.touchMmr r)

/-- ICON is written with bit 14 set and bits 9:0 clear, or not at all (61_interrupts.md R850). -/
def iconLegal (v : Word) : Bool := bit v 14 && decide (v &&& 0x3FF = 0)

/-- PMCON bus width 11 is reserved (20_memory.md R176). -/
def pmconLegal (v : Word) : Bool := decide (field v 22 2 ≠ 3)

/-- Write TMR (63_timers.md R932, R938): bits 5:1 stored, tc cleared, one late tick remembered when
the timer is disabled. -/
def Timer.writeMode (t : Timer) (v : Word) : Timer :=
  { t with
    tmr := v &&& 0x3E
    phase := if field v 4 2 = field t.tmr 4 2 then t.phase else 0
    late := if bit t.tmr 1 && !bit v 1 then some t.tmr else none }

/-- Store the implemented bits of a register (the write masks of its rule); read-only registers
ignore the store. A bit of IPND whose input is low cannot be cleared (61_interrupts.md R833). The model's
choice (log 19): a store to SSP drops bits 1:0, which 45_call_return.md R552
clears in the value cached from the table and leaves open for a store; one to ISP keeps all its bits. -/
def State.setMmr (s : State) (v : Word) : Mmr → State
  | .trr x => s.setTimer x { s.timer x with trr := v }
  | .tcr x => s.setTimer x { s.timer x with tcr := v }
  | .tmr x => s.setTimer x ((s.timer x).writeMode v)
  | .dlmcon => { s with bus := { s.bus with dlmcon := v &&& 2 } }
  | .lmadr x =>
    if x then { s with bus := { s.bus with lmadr1 := v &&& 0xFFFFF002 } }
    else { s with bus := { s.bus with lmadr0 := v &&& 0xFFFFF002 } }
  | .lmmr x =>
    if x then { s with bus := { s.bus with lmmr1 := v &&& 0xFFFFF001 } }
    else { s with bus := { s.bus with lmmr0 := v &&& 0xFFFFF001 } }
  | .ipb x =>
    if x then { s with dbg := { s.dbg with ipb1 := v } }
    else { s with dbg := { s.dbg with ipb0 := v } }
  | .dab x =>
    if x then { s with dbg := { s.dbg with dab1 := v } }
    else { s with dbg := { s.dbg with dab0 := v } }
  | .bpcon => { s with dbg := { s.dbg with bpcon := v &&& 0x00FF0000 } }
  | .ipnd => { s with intc := { s.intc with ipnd := (v &&& 0x30FF) ||| s.inputs } }
  | .imsk => { s with intc := { s.intc with imsk := v &&& 0x30FF } }
  | .icon => { s with intc := { s.intc with icon := v &&& 0x7C00 } }
  | .imap0 => { s with intc := { s.intc with imap0 := v &&& 0xFFFF } }
  | .imap1 => { s with intc := { s.intc with imap1 := v &&& 0xFFFF } }
  | .imap2 => { s with intc := { s.intc with imap2 := v &&& 0x00FF0000 } }
  | .pmcon i => { s with bus := { s.bus with pmcon := s.bus.pmcon.set i (v &&& 0x00C00000) } }
  | .bcon => { s with bus := { s.bus with bcon := v &&& 7 } }
  | .isp => { s with isp := v }
  | .ssp => { s with ssp := v &&& 0xFFFFFFFC }
  | .prcb | .deviceId => s

/-- The timer that guards a register with TMR.sup (63_timers.md R933). -/
def Mmr.guardTimer : Mmr → Option Bool
  | .trr x | .tcr x | .tmr x => some x
  | _ => none

/-- Registers written only with breakpoint rights (62_tracing.md R900). -/
def Mmr.needsRights : Mmr → Bool
  | .ipb _ | .dab _ | .bpcon => true
  | _ => false

/-- The register's own checks of a write, then the write (10_state.md R86 item 3). -/
def writeMmr (r : Mmr) (v : Word) (s : State) : Eff Unit :=
  let guarded :=
    match r.guardTimer with
    | some x => !s.supervisor && bit (s.timer x).tmr 3
    | none => false
  if guarded then .trap .mismatch s
  else if r.needsRights && !s.dbg.rights then .trap .unimplemented s
  else if r = .icon && !iconLegal v then .refuse .iconReserved
  else
    match r with
    | .pmcon _ => if pmconLegal v then .ok () (s.setMmr v r) else .refuse .pmconWidth
    | _ => .ok () (s.setMmr v r)

/-- A word store to core MMR space (10_state.md R86): supervisor space is closed to user mode,
implemented or not (93 section 2); a store to a reserved supervisor address is refused, to a
reserved user address it changes nothing (00_scope.md R13). -/
def mmrStore (a v : Word) (s : State) : Eff Unit :=
  let off := a.toNat - 0xFF000000
  if 0x8000 ≤ off && !s.supervisor then .trap .mismatch s
  else
    match mmrAt off with
    | some r => writeMmr r v s
    | none => if 0x8000 ≤ off then .refuse .reservedMmrStore else .ok () s

end Sys2Proof.Machine
end

