-- ==== Sys2Proof/Machine/Periph.lean ====
section
/-! DEFINITION. The peripheral memory-mapped registers 1000H to 17FFH: reads and writes from the
local bus and from PCI (spec/10_state.md R90, R91 and the device files). Reserved registers read 0
and ignore writes (D7). -/

namespace Sys2Proof.Machine

/-! ## PCI master cycles -/

/-- Drive one PCI cycle and get its answer (65_atu_mu.md R1066). -/
def drivePci (c : PciCycle) (s : State) : PciReply × State :=
  (Config.pciReply s.pciCount c,
   { s with pciCount := s.pciCount + 1, pciLog := .drove c :: s.pciLog })

/-- Status bits of a failed outbound cycle (65_atu_mu.md R1131). -/
def Atu.outboundError (a : Atu) (st : PciStatus) : Atu :=
  match st with
  | .ok => a
  | .masterAbort => { a with sr := a.sr ||| 0x2000, isr := a.isr ||| 0x08 }
  | .targetAbort => { a with sr := a.sr ||| 0x1000, isr := a.isr ||| 0x04 }
  | .parityError =>
    if a.cmd.getLsbD 6 then { a with sr := a.sr ||| 0x8100, isr := a.isr ||| 0x01 }
    else { a with sr := a.sr ||| 0x8000 }

/-- Drive an outbound cycle of the ATU and record its errors (R1131). -/
def atuDrive (c : PciCycle) (s : State) : PciReply × State :=
  match drivePci c s with
  | (r, s) => (r, { s with atu := s.atu.outboundError r.status })

/-- The ATU drives one DWORD of the outbound write it holds: an error drops the rest (R1124, R1130,
R1131). -/
def driveOutbound (c : PciCycle) (rest : List PciCycle) (s : State) : State :=
  match atuDrive c s with
  | (r, s) => { s with atu := { s.atu with outq := if r.status = .ok then rest else [] } }

/-- Perform the posted outbound write, DWORDs in order, up to the first error (R1124, R1125). -/
def drainOutbound : List PciCycle → State → State
  | [], s => s
  | c :: cs, s =>
    let s := driveOutbound c cs s
    if s.atu.outq.isEmpty then s else drainOutbound cs s

/-- One cycle of an outbound read: an error reads FFFFFFFFH (R1125, R1130). -/
def outboundRead (c : PciCycle) (s : State) : Word × State :=
  match atuDrive c s with
  | (r, s) => (if r.status = .ok then r.data else 0xFFFFFFFF, s)

/-- A DWORD of an outbound write is posted: with `cont` it goes on the transaction of the one before
(R1061, R1124). -/
def postOutbound (cont : Bool) (c : PciCycle) (s : State) : State :=
  { s with atu := { s.atu with outq := if cont then s.atu.outq ++ [c] else [c] } }

/-- Of the outbound addresses, those of the I/O window (R1120). -/
def isIoWindow (x : Word) : Bool := decide (0x90000000 ≤ x.toNat)

/-- The PCI cycle of an outbound access to local address `x` with byte enables `be` (R1121 to
R1123); on I/O the low address bits number the lowest enabled byte (R1122). -/
def Atu.outboundCycle (a : Atu) (write : Bool) (x : Word) (be : BitVec 4) (data : Word) : PciCycle :=
  if isIoWindow x then
    { cmd := if write then .ioWrite else .ioRead
      addr := (wordAddr x &&& 0xFFFF) ||| (a.oiowvr &&& 0xFFFFFFFC) |||
        BitVec.ofNat 32 ((lowBit be.toNat 0 4).getD 0)
      be := be, data := data }
  else if decide (0x80000000 ≤ x.toNat) then
    { cmd := if write then .memWrite else .memRead
      addr := (wordAddr x &&& 0x03FFFFFF) ||| (a.omwvr &&& 0xFFFFFFFC), be := be, data := data }
  else
    { cmd := if write then .memWrite else .memRead, addr := wordAddr x, be := be, data := data }

/-! ## Reads -/

/-- RRCR as it reads (64_cpcu_memctl_arb.md R975). -/
def State.rrcr (s : State) : Word := bitAt s.cpcu.retry 2 ||| bitAt s.cpcu.coreReset 1

/-- CSR as it reads: the CLKMODE pins in bits 3:2 (R973). -/
def State.csrWord (s : State) : Word :=
  s.cpcu.csr ||| bitAt s.board.clkmode1 3 ||| bitAt s.board.clkmode0 2

/-- The ATU block 1200H to 12FFH by offset (65_atu_mu.md R1140). -/
def State.atuRead (s : State) (off : Nat) : Word :=
  let a := s.atu
  match off with
  | 0x00 => a.did ++ a.vid
  | 0x04 => a.sr ++ a.cmd
  | 0x08 => a.ccr ++ a.rid
  | 0x0C => (a.bist ||| BitVec.ofBool (bit a.cr 3) ++ 0#7) ++ a.htr ++ a.lt ++ a.clsr
  | 0x10 => a.iabar
  | 0x2C => a.sir ++ a.svir
  | 0x30 => a.erbar
  | 0x3C => 0#16 ++ a.ipr ++ a.ilr
  | 0x40 => a.ialr
  | 0x44 => a.iatvr
  | 0x54 => a.omwvr
  | 0x5C => a.oiowvr
  | 0x74 => a.erlr
  | 0x78 => a.ertvr
  | 0x88 => a.cr
  | 0x90 => a.isr
  | 0xA4 => a.occar
  | 0xC4 => s.rrcr
  | 0xC8 => s.intc.pirsr
  | 0xCC => s.csrWord
  | _ => 0

/-- The messaging unit block 1300H to 13FFH by offset (65_atu_mu.md R1181). -/
def Mu.read (m : Mu) (off : Nat) : Word :=
  match off with
  | 0x10 => m.imr0
  | 0x14 => m.imr1
  | 0x18 => m.omr0
  | 0x1C => m.omr1
  | 0x20 => m.idr
  | 0x24 => m.iisrWord
  | 0x28 => m.iimr
  | 0x2C => m.odr
  | 0x30 => m.oisrWord
  | 0x34 => m.oimr
  | _ => 0

/-- An address register of a DMA channel as it reads: once data has moved, any value from the
loaded one to that plus the count (66_dma_i2c_test.md R1222, 93 section 11). -/
def Dma.moving (d : Dma) (loaded : Word) (draw : Word) : Word :=
  if d.rd = 0 then loaded else loaded + BitVec.ofNat 32 (draw.toNat % (d.total + 1))

/-- A DMA channel's registers by offset (66_dma_i2c_test.md R1202). -/
def Dma.read (d : Dma) (off : Nat) (draw : Word) : Word :=
  match off with
  | 0x00 => d.ccr
  | 0x04 => d.csr
  | 0x0C => d.dar
  | 0x10 => d.ndar
  | 0x14 => d.moving d.padr draw
  | 0x1C => d.moving d.ladr draw
  | 0x20 => d.bcr
  | 0x24 => d.dcr
  | _ => 0

/-- The memory controller's registers by offset (64_cpcu_memctl_arb.md). -/
def MemCtl.read (m : MemCtl) (off : Nat) : Word :=
  match off with
  | 0x00 => m.mbcr
  | 0x04 => m.mbbar0
  | 0x08 => m.mbrws0
  | 0x0C => m.mbwws0
  | 0x10 => m.mbbar1
  | 0x14 => m.mbrws1
  | 0x18 => m.mbwws1
  | 0x1C => m.dbcr
  | 0x20 => m.dbar
  | 0x24 => m.drws
  | 0x28 => m.dwws
  | 0x2C => m.drir
  | 0x30 => m.dper
  | 0x34 => m.bmer
  | 0x38 => m.mear
  | 0x3C => m.lpisr
  | _ => 0

/-- The I2C registers by offset (66_dma_i2c_test.md R1251). -/
def I2c.read (i : I2c) (off : Nat) : Word :=
  match off with
  | 0x00 => i.icr
  | 0x04 => i.isr
  | 0x08 => i.isar
  | 0x0C => i.idbr
  | 0x10 => i.iccr
  | _ => 0

/-- PDIDR (10_state.md R75). -/
def pdidr : Word := Config.pdidrHigh ++ 0x013#12

/-- Read the word of the PMMR block at offset `off` from 1000H, POCCDP excepted (10_state.md R90).
`slot` is the slot of a free value. -/
def State.pmmrWord (s : State) (off : Nat) (slot : Nat) : Word :=
  if off < 0x200 then 0
  else if off < 0x300 then s.atuRead (off - 0x200)
  else if off < 0x400 then s.mu.read (off - 0x300)
  else if off < 0x440 then s.dma0.read (off - 0x400) (s.undef slot)
  else if off < 0x500 then s.dma1.read (off - 0x440) (s.undef slot)
  else if off < 0x600 then s.mc.read (off - 0x500)
  else if off = 0x600 then s.arb.lbacr
  else if off = 0x604 then s.arb.lbalcr
  else if off < 0x680 then 0
  else if off < 0x700 then s.i2c.read (off - 0x680)
  else if off = 0x700 then s.nisr
  else if off = 0x704 then s.x7isr
  else if off = 0x708 then s.x6isr
  else if off = 0x710 then pdidr
  else 0

/-! ## Writes from the local bus -/

/-- Write an ATU register (65_atu_mu.md R1141 to R1168). `pci` = from a configuration cycle, where
some registers are read only. `m` is the mask of the enabled bytes. -/
def Atu.write (a : Atu) (pci : Bool) (off : Nat) (m v : Word) : Atu :=
  let own := if pci then 0 else m
  match off with
  | 0x00 =>
    { a with vid := (merge own v (a.did ++ a.vid)).extractLsb' 0 16
             did := (merge own v (a.did ++ a.vid)).extractLsb' 16 16 }
  | 0x04 =>
    { a with cmd := (merge (m &&& 0x0356) v (a.cmd.setWidth 32)).setWidth 16
             sr := a.sr &&& ~~~((m &&& v).extractLsb' 16 16 &&& 0xF900) }
  | 0x08 =>
    { a with rid := (merge own v (a.ccr ++ a.rid)).extractLsb' 0 8
             ccr := (merge own v (a.ccr ++ a.rid)).extractLsb' 8 24 }
  | 0x0C =>
    let start := bit (m &&& v) 30 && !a.bist.getLsbD 6 && bit a.cr 3
    { a with clsr := (merge m v (a.clsr.setWidth 32)).extractLsb' 0 8
             lt := (merge (m &&& 0xF800) v (a.lt.setWidth 32 <<< 8)).extractLsb' 8 8
             htr := (merge own v (a.htr.setWidth 32 <<< 16)).extractLsb' 16 8
             bist := (merge (m &&& 0x4F000000) v (a.bist.setWidth 32 <<< 24)).extractLsb' 24 8
             isr := if start then setBit a.isr 8 true else a.isr }
  | 0x10 => { a with iabar := merge (m &&& 0xFFFFF000) (v &&& a.ialr) a.iabar ||| 8 }
  | 0x2C =>
    { a with svir := (merge own v (a.sir ++ a.svir)).extractLsb' 0 16
             sir := (merge own v (a.sir ++ a.svir)).extractLsb' 16 16 }
  | 0x30 => { a with erbar := merge (m &&& 0xFFFFF001) (v &&& (a.erlr ||| 1)) a.erbar }
  | 0x3C =>
    { a with ilr := (merge m v (a.ilr.setWidth 32)).extractLsb' 0 8
             ipr := (merge (own &&& 0x0700) v (a.ipr.setWidth 32 <<< 8)).extractLsb' 8 8 }
  | 0x40 => { a with ialr := merge (own &&& 0xFFFFF000) v a.ialr }
  | 0x44 => { a with iatvr := merge (own &&& 0xFFFFFFFC) v a.iatvr }
  | 0x54 => { a with omwvr := merge (m &&& 0xFFFFFFFC) v a.omwvr }
  | 0x5C => { a with oiowvr := merge (m &&& 0xFFFFFFFC) v a.oiowvr }
  | 0x74 => { a with erlr := merge (own &&& 0xFFFFF000) v a.erlr }
  | 0x78 => { a with ertvr := merge (own &&& 0xFFFFFFFC) v a.ertvr }
  | 0x88 => { a with cr := merge (m &&& 0x3FE) v a.cr }
  | 0x90 => { a with isr := a.isr &&& ~~~(own &&& v &&& 0x17F) }
  | 0xA4 => { a with occar := merge own v a.occar }
  | _ => a

/-- Write RRCR (64_cpcu_memctl_arb.md R975): retry, release of the core, local bus reset. Only the
enabled bytes count. -/
def writeRrcr (m v : Word) (s : State) : State :=
  if bit m 0 then
    let s := { s with cpcu := { s.cpcu with
      retry := bit v 2, coreReset := s.cpcu.coreReset && bit v 1 } }
    if bit v 5 then localBusReset s else s
  else s

/-- Write the ATU block 1200H to 12FFH, the CPCU registers in it included. -/
def atuBlockWrite (pci : Bool) (off : Nat) (m v : Word) (s : State) : State :=
  match off with
  | 0xC4 => writeRrcr m v s
  | 0xC8 => { s with intc := { s.intc with pirsr := merge (m &&& 0x0F) v s.intc.pirsr } }
  | 0xCC => { s with cpcu := { s.cpcu with csr := merge (m &&& 0x00010003) v s.cpcu.csr } }
  | _ => { s with atu := s.atu.write pci off m v }

/-- Write a messaging unit register from the local bus (65_atu_mu.md R1192). -/
def Mu.write (u : Mu) (off : Nat) (m v : Word) : Mu :=
  match off with
  | 0x10 => { u with imr0 := merge m v u.imr0 }
  | 0x14 => { u with imr1 := merge m v u.imr1 }
  | 0x18 => { u with omr0 := merge m v u.omr0, oisr := u.oisr ||| 1 }
  | 0x1C => { u with omr1 := merge m v u.omr1, oisr := u.oisr ||| 2 }
  | 0x20 => { u with idr := u.idr &&& ~~~(m &&& v) }
  | 0x24 => { u with iisr := u.iisr &&& ~~~((m &&& v).setWidth 2) }
  | 0x28 => { u with iimr := merge (m &&& 0x1FF) v u.iimr }
  | 0x2C => { u with odr := u.odr ||| (m &&& v) }
  | 0x34 => { u with oimr := merge (m &&& 0xFF) v u.oimr }
  | _ => u

/-- Write a messaging unit register through the PCI window (65_atu_mu.md R1192); `none` where the
source does not describe the write. -/
def Mu.pciWrite (u : Mu) (off : Nat) (m v : Word) : Option Mu :=
  match off with
  | 0x10 => some { u with imr0 := merge m v u.imr0, iisr := u.iisr ||| 1 }
  | 0x14 => some { u with imr1 := merge m v u.imr1, iisr := u.iisr ||| 2 }
  | 0x18 | 0x1C | 0x24 | 0x28 => none
  | 0x20 => some { u with idr := u.idr ||| (m &&& v) }
  | 0x2C => some { u with odr := u.odr &&& ~~~(m &&& v) }
  | 0x30 => some { u with oisr := u.oisr &&& ~~~((m &&& v).setWidth 2) }
  | 0x34 => some { u with oimr := merge (m &&& 0xFF) v u.oimr }
  | _ => some u

/-- Write a DMA register (66_dma_i2c_test.md R1204 to R1207, R1220); `none` for a write of NDAR
while the channel is active. CCR takes only full words (10_state.md R91 c). -/
def Dma.write (d : Dma) (off : Nat) (m v : Word) : Option Dma :=
  match off with
  | 0x00 =>
    if m = 0xFFFFFFFF then
      some { d with ccr := v &&& 3, go := d.go || (!bit d.csr 10 && bit v 0) }
    else some d
  | 0x04 => some { d with csr := d.csr &&& ~~~(m &&& v &&& 0x36D) }
  | 0x10 => if bit d.csr 10 then none else some { d with ndar := merge (m &&& 0xFFFFFFE0) v d.ndar }
  | _ => some d

/-- Write a memory controller register (64_cpcu_memctl_arb.md R1004 to R1023). -/
def MemCtl.write (c : MemCtl) (off : Nat) (m v : Word) : MemCtl :=
  match off with
  | 0x00 => { c with mbcr := merge (m &&& 0x00F700F7) v c.mbcr }
  | 0x04 => { c with mbbar0 := merge (m &&& 0xFFFF0000) v c.mbbar0 }
  | 0x08 => { c with mbrws0 := merge (m &&& 0x00070707) v c.mbrws0 }
  | 0x0C => { c with mbwws0 := merge (m &&& 0x00070707) v c.mbwws0 }
  | 0x10 => { c with mbbar1 := merge (m &&& 0xFFFF0000) v c.mbbar1 }
  | 0x14 => { c with mbrws1 := merge (m &&& 0x00070707) v c.mbrws1 }
  | 0x18 => { c with mbwws1 := merge (m &&& 0x00070707) v c.mbwws1 }
  | 0x1C => { c with dbcr := merge (m &&& 0x00000FFF) v c.dbcr }
  | 0x20 => { c with dbar := merge (m &&& 0xFFF00000) v c.dbar }
  | 0x24 => { c with drws := merge (m &&& 0x00030303) v c.drws }
  | 0x28 => { c with dwws := merge (m &&& 0x00030303) v c.dwws }
  | 0x2C => { c with drir := merge (m &&& 0x000103FF) v c.drir }
  | 0x30 => { c with dper := merge (m &&& 3) v c.dper }
  | 0x34 => { c with bmer := merge (m &&& 1) v c.bmer }
  | 0x3C => { c with lpisr := c.lpisr &&& ~~~(m &&& v &&& 0x60) }
  | _ => c

/-- Write an I2C register (66_dma_i2c_test.md R1252 to R1256, R1266); `none` for a setting the
source calls undefined. The model's choice (log 72): where software sets ICR bit 5 (SCL enable) without
having programmed ICCR, as R1252 asks, the reset value 00H is taken as any other count and the unit runs;
only programming a value below 1EH is refused (R1256). -/
def I2c.write (i : I2c) (off : Nat) (m v : Word) : Option I2c :=
  match off with
  | 0x00 =>
    let icr := merge (m &&& 0x7FFF) v i.icr
    if icr &&& 3 = 3 then none
    else some { i with icr := icr, mode := if bit icr 14 then .idle else i.mode }
  | 0x04 => some { i with isr := i.isr &&& ~~~(m &&& v &&& 0x7F0) }
  | 0x08 => some { i with isar := merge (m &&& 0x7F) v i.isar }
  | 0x0C => some { i with idbr := merge (m &&& 0xFF) v i.idbr }
  | 0x10 =>
    let iccr := merge (m &&& 0xFF) v i.iccr
    if decide (m &&& 0xFF ≠ 0) && (decide (iccr.toNat < 0x1E) || (bit i.icr 5 && iccr != i.iccr)) then
      none
    else some { i with iccr := iccr }
  | _ => some i

/-- Write the word of the PMMR block at offset `off` from 1000H, POCCDP excepted. -/
def pmmrWriteWord (off : Nat) (m v : Word) (s : State) : Eff Unit :=
  if off < 0x200 then .ok () s
  else if off < 0x300 then .ok () (atuBlockWrite false (off - 0x200) m v s)
  else if off < 0x400 then .ok () { s with mu := s.mu.write (off - 0x300) m v }
  else if off < 0x440 then
    match s.dma0.write (off - 0x400) m v with
    | some d => .ok () { s with dma0 := d }
    | none => .refuse .dmaNdarActive
  else if off < 0x500 then
    match s.dma1.write (off - 0x440) m v with
    | some d => .ok () { s with dma1 := d }
    | none => .refuse .dmaNdarActive
  else if off < 0x600 then .ok () { s with mc := s.mc.write (off - 0x500) m v }
  else if off = 0x600 then
    .ok () { s with arb := { s.arb with lbacr := merge (m &&& 0x3FFF) v s.arb.lbacr } }
  else if off = 0x604 then
    .ok () { s with arb := { s.arb with lbalcr := merge (m &&& 0x0FFF) v s.arb.lbalcr } }
  else if off < 0x680 then .ok () s
  else if off < 0x700 then
    match s.i2c.write (off - 0x680) m v with
    | some i => .ok () { s with i2c := i }
    | none => .refuse .i2cUndefined
  else .ok () s

/-! ## Local bus accesses to the block -/

/-- Offset of POCCDP from 1000H (65_atu_mu.md R1169). -/
def poccdpOffset : Nat := 0x2AC

/-- The configuration cycle that an access to POCCDP asks for (R1126). -/
def Atu.configCycle (a : Atu) (write : Bool) (be : BitVec 4) (v : Word) : PciCycle :=
  { cmd := if write then .cfgWrite else .cfgRead, addr := a.occar, be := be, data := v }

/-- Whether an address is in the word of POCCDP. -/
def isPoccdp (a : Word) : Bool := (wordAddr a).toNat == 0x1000 + poccdpOffset

/-- Read from the PMMR block (10_state.md R91), POCCDP excepted: through that only the core makes
configuration cycles (65_atu_mu.md R1169; 93 section 10). -/
def pmmrRead (a : Word) (slot : Nat) (s : State) : Eff Word :=
  if isPoccdp a then .refuse .inboundUndescribed
  else .ok (s.pmmrWord ((wordAddr a).toNat - 0x1000) slot) s

/-- Write to the PMMR block with byte enables `be` (10_state.md R91), POCCDP excepted. A write that
resets the core ends what the core was doing (64_cpcu_memctl_arb.md R975). -/
def pmmrWrite (a : Word) (be : BitVec 4) (v : Word) (s : State) : Eff Unit :=
  if isPoccdp a then .refuse .inboundUndescribed
  else
    (pmmrWriteWord ((wordAddr a).toNat - 0x1000) (laneMask be) v s).bind fun _ s' =>
      if s'.run = s.run then .ok () s' else .over s'

end Sys2Proof.Machine
end

