-- ==== Sys2Proof/Machine/Bus.lean ====
section
/-! DEFINITION. The local bus as every master sees it: the parts of the address space
(spec/20_memory.md R141, R142), memory that answers, and what a fetch may still see of it (R155). -/

namespace Sys2Proof.Machine

/-- The parts of the address space as the core sees them (20_memory.md R141, R142). -/
inductive Region where
  | ram | hole | pmmr | bus | reserved | mmr
  deriving DecidableEq, Repr

/-- The region of an address (20_memory.md R141). -/
def region (a : Word) : Region :=
  let n := a.toNat
  if n < 0x400 then .ram
  else if n < 0x1000 then .hole
  else if n < 0x1800 then .pmmr
  else if n < 0x2000 then .hole
  else if n < 0xFEFFFF60 then .bus
  else if n < 0xFF000000 then .reserved
  else .mmr

/-- An access of the core at the address is a cycle of the local bus: not in the data RAM, a hole or core
MMR space (20_memory.md R142, 10_state.md R85). -/
def onLocalBus (a : Word) : Bool :=
  match region a with
  | .bus | .pmmr | .reserved => true
  | .ram | .hole | .mmr => false

/-- An access at the address is decoded by the memory controller and the ATU (64_cpcu_memctl_arb.md
R1001): a cycle of the local bus that is not a peripheral register's. -/
def decodedOnBus (a : Word) : Bool := onLocalBus a && region a != .pmmr

/-- A fresh free value, and the state in which it is used up. -/
def draw (s : State) : Word × State := (s.undef 0, s.bump)

/-- `n` bytes of a word from byte offset `o` on. -/
def laneBytes (w : Word) (o n : Nat) : List Byte := ((wordBytes w).drop o).take n

/-- A word with these bytes from byte offset `o` on, the rest 0. -/
def laneWord (bs : List Byte) (o : Nat) : Word := bytesToWord bs <<< (8 * o)

/-- The word at key `k` is about to be replaced; outside the data RAM a fetch may still see it until
an invalidate (20_memory.md R155). -/
def State.outdate (s : State) (k : Nat) : State :=
  let wk := k / 4 * 4
  { s with
    stale := if k < 0x400 then s.stale
      else (wk, bytesToWord (Memory.readBytes s.mem wk 4)) :: s.stale }

/-- Store bytes of one aligned word at a key. -/
def storeKey (k : Nat) (bs : List Byte) (s : State) : State :=
  { s.outdate k with mem := Memory.writeBytes s.mem k bs }

/-- Write the enabled bytes of a word at a key, of the lanes listed. -/
def writeLanes (k : Nat) (data : Word) (be : BitVec 4) : List Nat → List Host.Cell → List Host.Cell
  | [], m => m
  | i :: rest, m =>
    writeLanes k data be rest
      (if be.getLsbD i then Memory.set m (k + i) (data.extractLsb' (8 * i) 8) else m)

/-- Store the enabled bytes of the word at key `k`, as one access. -/
def storeLanes (k : Nat) (data : Word) (be : BitVec 4) (s : State) : State :=
  if be = 0 then s else { s.outdate k with mem := writeLanes k data be [0, 1, 2, 3] s.mem }

/-- Read `n` bytes inside one aligned word on the local bus. `outside` says what to do where the
address is in an outbound window, which only the core reaches. -/
def busRead (m : Master) (outside : Refusal) (a : Word) (n : Nat) (s : State) : Eff (List Byte) :=
  match s.target a with
  | .memory k _ => .ok (Memory.readBytes s.mem k n) s
  | .nobody => .ok (laneBytes (draw s).1 0 n) (busTimeout m a (draw s).2)
  | .outbound => .refuse outside

/-- Write bytes inside one aligned word on the local bus. -/
def busWrite (m : Master) (outside : Refusal) (a : Word) (bs : List Byte) (s : State) : Eff Unit :=
  match s.target a with
  | .memory k writable => .ok () (if writable then storeKey k bs s else s)
  | .nobody => .ok () (busTimeout m a s)
  | .outbound => .refuse outside

/-- Write the enabled bytes of the aligned word at `a` on the local bus, as one access. -/
def busWriteLanes (m : Master) (outside : Refusal) (a data : Word) (be : BitVec 4) (s : State) :
    Eff Unit :=
  match s.target a with
  | .memory k writable => .ok () (if writable then storeLanes k data be s else s)
  | .nobody => .ok () (busTimeout m a s)
  | .outbound => .refuse outside

/-- Invalidate the instruction cache and the prefetch buffer: fetches see memory (R155, D10). -/
def State.invalidateFetch (s : State) : State := { s with stale := [] }

end Sys2Proof.Machine
end

