-- ==== Sys2Proof/Machine/DmaUnit.lean ====
section
/-! DEFINITION. The two DMA channels as agents (spec/66_dma_i2c_test.md R1220 to R1229). Channel 0
is `false`, channel 1 `true`. -/

namespace Sys2Proof.Machine

/-- Channel `x`. -/
def State.dma (s : State) (x : Bool) : Dma := if x then s.dma1 else s.dma0

/-- Replace channel `x`. -/
def State.setDma (s : State) (x : Bool) (d : Dma) : State :=
  if x then { s with dma1 := d } else { s with dma0 := d }

/-- Channel `x` as a local bus master. -/
def dmaMaster (x : Bool) : Master := if x then .dma1 else .dma0

/-- CSR bit 10, channel active (R1205). -/
def Dma.active (d : Dma) : Bool := bit d.csr 10

/-- The local bus arbiter lets the channel on the bus (64_cpcu_memctl_arb.md R1041). -/
def State.dmaGranted (s : State) (x : Bool) : Bool :=
  field s.arb.lbacr (if x then 4 else 2) 2 != 3

/-- The local side may move: enabled, granted, and in demand mode DREQ# is asserted (R1222, R1229). -/
def State.dmaLocal (s : State) (x : Bool) : Bool :=
  bit (s.dma x).ccr 0 && s.dmaGranted x && (x || !bit (s.dma x).dcr 6 || s.dreq)

/-- The channel stops with an error (R1226). -/
def Dma.stop (d : Dma) (flags : Word) : Dma :=
  { d with csr := (setBit d.csr 10 false) ||| flags, queue := [] }

/-- A local bus address a channel may use (R1210, R1231): not the data RAM, a hole or the peripheral
registers. The model's choices (log 69): not core MMR space from FF000000H up, and FEFFFF60H to
FEFFFFFFH as any other address, since R141 speaks of what the core does there. -/
def dmaReaches (a : Word) : Bool := decodedOnBus a

/-- The direction of a transfer by PCI command: true from PCI to local, false the other way, none
for a code the channel does not support (R1213). -/
def Dma.fromPci (d : Dma) : Option Bool :=
  match field d.dcr 0 4 with
  | 6 | 12 | 14 => some true
  | 7 | 15 => some false
  | _ => none

/-- The channel gets a bus fault at an address (64_cpcu_memctl_arb.md R1030). -/
def State.dmaFaultAt (s : State) (a : Word) : Bool := s.target a == .nobody && bit s.mc.bmer 0

/-- A channel after an error while a descriptor was read (R1221): its registers are undefined. -/
def Dma.lost (d : Dma) (s : State) : Dma :=
  { d.stop 0 with
    dar := s.undef 1 &&& 0xFFFFFFE0
    ndar := s.undef 2 &&& 0xFFFFFFE0
    padr := s.undef 3
    ladr := s.undef 4
    bcr := s.undef 5 &&& 0x00FFFFFF
    dcr := s.undef 6 &&& 0xFF
    total := 0
    rd := 0
    wr := 0 }

/-- Read `n` words of a descriptor; on a bus fault the channel is stopped and nothing is returned
(R1221, R1226). -/
def dmaReadWords (x : Bool) (a : Word) : Nat → State → Eff (Option (List Word))
  | 0, s => .ok (some []) s
  | n + 1, s =>
    if !dmaReaches a then .refuse .dmaUndefined
    else
      (busRead (dmaMaster x) .dmaUndefined a 4 s).bind fun bs s' =>
        if s.dmaFaultAt a then .ok none (s'.setDma x ((s'.dma x).lost s')).bump
        else
          (dmaReadWords x (a + 4) n s').bind fun r s'' =>
            .ok (r.map fun ws => bytesToWord bs :: ws) s''

/-- A descriptor the source does not define: non-zero upper address, PCI or local address past
FFFFFFFFH, unsupported command (R1203, R1208 to R1213). -/
def descriptorUndefined (pad puad lad bc dc : Word) : Bool :=
  let n := field bc 0 24
  puad != 0 || decide (2 ^ 32 < pad.toNat + n) || decide (2 ^ 32 < lad.toNat + n) ||
  match field dc 0 4 with
  | 6 | 7 | 12 | 14 | 15 => false
  | _ => true

/-- Bytes of a cache line when a descriptor with control word `dc` asks for Memory Write and
Invalidate and the three conditions hold, else 0: the whole transfer is then Memory Write (R1228,
R1147). -/
def State.mwiLine (s : State) (dc : Word) : Nat :=
  if field dc 0 4 = 15 && (s.atu.clsr = 8 || s.atu.clsr = 16) && s.atu.cmd.getLsbD 4 then
    4 * s.atu.clsr.toNat
  else 0

/-- `LoadDescriptor` (R1221). -/
def loadDescriptor (x : Bool) (s : State) : Eff Unit :=
  let d := (s.dma x).ndar &&& 0xFFFFFFE0
  (dmaReadWords x d 6 s).bind fun r s =>
    match r with
    | some [nda, pad, puad, lad, bc, dc] =>
      if descriptorUndefined pad puad lad bc dc then .refuse .dmaUndefined
      else
        .ok () (s.setDma x { s.dma x with
          dar := d
          ndar := nda &&& 0xFFFFFFE0
          padr := pad
          ladr := lad
          bcr := bc &&& 0x00FFFFFF
          dcr := dc &&& 0xFF
          csr := setBit (s.dma x).csr 10 true
          queue := []
          total := field bc 0 24
          rd := 0
          wr := 0
          mwiLine := s.mwiLine dc })
    | _ => .ok () s

/-- `ChainResume` (R1224): false after a bus fault. -/
def chainResume (x : Bool) (s : State) : Eff Bool :=
  (dmaReadWords x (s.dma x).dar 1 s).bind fun r s =>
    match r with
    | some [w] =>
      .ok true (s.setDma x { s.dma x with
        ndar := w &&& 0xFFFFFFE0, ccr := setBit (s.dma x).ccr 1 false })
    | _ => .ok false s

/-- Close a channel's operation: none of them traps. -/
def closeDma (x : Eff Unit) : Res := x.close .dmaUndefined fun _ s => .next s

/-- Load the next descriptor, or leave the channel inactive when there is none (R1220, R1223). -/
def nextDescriptor (x : Bool) (s : State) : Eff Unit :=
  if (s.dma x).ndar = 0 then .ok () (s.setDma x { s.dma x with csr := setBit (s.dma x).csr 10 false })
  else loadDescriptor x s

/-- What the channel does next for a descriptor need not wait for the arbiter: it is let on the bus
(64_cpcu_memctl_arb.md R1041), or has no descriptor and no link word to read (R1220, R1223). -/
def State.dmaMayTurn (s : State) (x : Bool) : Bool :=
  s.dmaGranted x || ((s.dma x).ndar == 0 && !bit (s.dma x).ccr 1)

/-- `DmaIdleStep` (R1220): the start that a store to CCR asked for; with nothing to read it takes `go`
alone. -/
def dmaIdle (x : Bool) (s : State) : Res :=
  let d := s.dma x
  if !d.active && bit d.ccr 0 && d.go && s.dmaMayTurn x then
    let s := s.setDma x { d with go := false }
    if bit d.ccr 1 then
      closeDma ((chainResume x s).bind fun ok s =>
        if ok then nextDescriptor x s else .ok () s)
    else closeDma (nextDescriptor x s)
  else .next s

/-- The local address of byte `i` of the transfer, held at its start in demand mode with address
hold (R1222, R1212). -/
def Dma.localAddr (d : Dma) (x : Bool) (i : Nat) : Word :=
  if !x && bit d.dcr 6 && bit d.dcr 7 then d.ladr else d.ladr + BitVec.ofNat 32 i

/-- The error flags of a PCI status; a parity error counts when PATUCMD bit 6 is set (R1226). -/
def State.dmaPciError (s : State) : PciStatus → Word
  | .ok => 0
  | .masterAbort => 8
  | .targetAbort => 4
  | .parityError => if s.atu.cmd.getLsbD 6 then 1 else 0

/-- The read command of a descriptor as a cycle (R1213). -/
def Dma.readCmd (d : Dma) : PciCmd :=
  match field d.dcr 0 4 with
  | 12 => .memReadMultiple
  | 14 => .memReadLine
  | _ => .memRead

/-- The PCI address of byte `i` of the transfer (R1222). -/
def Dma.pciAddr (d : Dma) (i : Nat) : Word := d.padr + BitVec.ofNat 32 i

/-- Bytes from byte `i` of the transfer to the end of the cache line it lies in, where that goes out as
Memory Write and Invalidate, all of it being in the transfer (R1228); 0 elsewhere. -/
def Dma.lineLeft (d : Dma) (i : Nat) : Nat :=
  let off := (d.pciAddr i).toNat % d.mwiLine
  if d.mwiLine != 0 && decide (off ≤ i) && decide (i - off + d.mwiLine ≤ d.total) then d.mwiLine - off
  else 0

/-- Byte `i` of the transfer begins a whole cache line of it, to go out as Memory Write and Invalidate
(R1228). -/
def Dma.atLine (d : Dma) (i : Nat) : Bool := d.mwiLine != 0 && d.lineLeft i == d.mwiLine

/-- Bytes of the operand at address `a`: up to its word's end, at most `n` (R1222). -/
def operandSize (a : Word) (n : Nat) : Nat := min (4 - byteOffset a) n

/-- A local bus operand of `k` bytes has been moved: BCR counts down (R1211, R1222). -/
def Dma.count (d : Dma) (k : Nat) : Dma := { d with bcr := d.bcr - BitVec.ofNat 32 k }

/-- `DmaFill` from PCI (R1222): one word is read, its needed bytes are queued. The model's choice (log
69): data of a read that ended in a parity error while PATUCMD bit 6 is 0 is queued and transferred like
any other; R1222 says that such data is never transferred, R1226 that the channel takes no error. -/
def fillFromPci (x : Bool) (s : State) : Res :=
  let d := s.dma x
  let a := d.padr + BitVec.ofNat 32 d.rd
  let k := operandSize a (d.total - d.rd)
  let r := drivePci { cmd := d.readCmd, addr := wordAddr a, be := 15, data := 0 } s
  let err := s.dmaPciError r.1.status
  if err ≠ 0 then .next (r.2.setDma x (d.stop err))
  else
    .next (r.2.setDma x { d with
      queue := d.queue ++ laneBytes r.1.data (byteOffset a) k, rd := d.rd + k })

/-- Read the local bus, operand by operand, until the next `n` bytes of the transfer are queued: of each
aligned word all the bytes that are needed, so that none is read twice (R1222, R1230); a bus fault
stops the channel (R1226). `fuel` is at least the number of operands. -/
def fillBytes (x : Bool) : Nat → Nat → State → Eff Unit
  | 0, _, s => .ok () s
  | fuel + 1, n, s =>
    let d := s.dma x
    let a := d.localAddr x d.rd
    let k := operandSize a (d.total - d.rd)
    if n = 0 then .ok () s
    else if !dmaReaches a then .refuse .dmaUndefined
    else
      (busRead (dmaMaster x) .dmaUndefined (wordAddr a) 4 s).bind fun bs s' =>
        if s.dmaFaultAt (wordAddr a) then .ok () (s'.setDma x ((s'.dma x).stop 0))
        else
          fillBytes x fuel (n - k) (s'.setDma x ({ d with
            queue := d.queue ++ (bs.drop (byteOffset a)).take k, rd := d.rd + k }.count k))

/-- The bytes that the channel reads next from the local bus: those up to the end of a whole cache line
of Memory Write and Invalidate, which it does not give up the bus in (64_cpcu_memctl_arb.md R1044),
else one operand. -/
def Dma.nextFill (d : Dma) (x : Bool) : Nat :=
  if d.lineLeft d.rd = 0 then operandSize (d.localAddr x d.rd) (d.total - d.rd) else d.lineLeft d.rd

/-- The queue, of 64 bytes, is not full when the last of the operands read next is begun; what that has
beyond is held in the channel (R1222, R1230). -/
def Dma.room (d : Dma) (x : Bool) : Bool :=
  if d.fromPci = some false && d.lineLeft d.rd != 0 then decide (d.queue.length + d.nextFill x ≤ 64)
  else decide (d.queue.length < 64)

/-- `DmaFill` from the local bus (R1222). -/
def fillFromLocal (x : Bool) (s : State) : Res :=
  let n := (s.dma x).nextFill x
  closeDma (fillBytes x n n s)

/-- `DmaFill` (R1222): enabled while bytes remain to be read and the queue has room. -/
def dmaFill (x : Bool) (s : State) : Res :=
  let d := s.dma x
  if d.active && decide (d.rd < d.total) && d.room x then
    match d.fromPci with
    | some true => if s.busMaster then fillFromPci x s else .next s
    | some false => if s.dmaLocal x then fillFromLocal x s else .next s
    | none => .refused .dmaUndefined
  else .next s

/-- `DmaDrain` to the local bus (R1222). -/
def drainToLocal (x : Bool) (s : State) : Res :=
  let d := s.dma x
  let a := d.localAddr x d.wr
  let k := operandSize a d.queue.length
  if !dmaReaches a then .refused .dmaUndefined
  else
    closeDma ((busWrite (dmaMaster x) .dmaUndefined a (d.queue.take k) s).bind fun _ s' =>
      if s.dmaFaultAt a then .ok () (s'.setDma x ((s'.dma x).stop 0))
      else .ok () (s'.setDma x ({ d with queue := d.queue.drop k, wr := d.wr + k }.count k)))

/-- The next `k` queued bytes, all in one word, go out as one PCI cycle; the error flags are added up
(R1222, R1226). -/
def drainWord (cmd : PciCmd) (x : Bool) (k : Nat) (r : Word × State) : Word × State :=
  let d := r.2.dma x
  let a := d.pciAddr d.wr
  let c := drivePci
    { cmd := cmd, addr := wordAddr a, be := laneEnables (byteOffset a) k
      data := laneWord (d.queue.take k) (byteOffset a) } r.2
  (r.1 ||| r.2.dmaPciError c.1.status,
    c.2.setDma x { d with queue := d.queue.drop k, wr := d.wr + k })

/-- `n` whole words go out with Memory Write and Invalidate, the line completed even after an error
(R1226, R1228). -/
def drainLine (x : Bool) : Nat → Word × State → Word × State
  | 0, r => r
  | n + 1, r => drainLine x n (drainWord .memWriteInvalidate x 4 r)

/-- The channel after PCI writes: stopped if one of them ended in an error, its queue given up
(R1226). -/
def afterDrain (x : Bool) (r : Word × State) : State :=
  if r.1 = 0 then r.2 else r.2.setDma x ((r.2.dma x).stop r.1)

/-- `DmaDrain` to PCI (R1222, R1228): a whole cache line once the queue holds it, else one word. -/
def drainToPci (x : Bool) (s : State) : State :=
  let d := s.dma x
  if d.atLine d.wr then
    if d.queue.length < d.mwiLine then s else afterDrain x (drainLine x (d.mwiLine / 4) (0, s))
  else
    afterDrain x (drainWord .memWrite x
      (operandSize (d.pciAddr d.wr) d.queue.length) (0, s))

/-- `DmaDrain` (R1222): enabled while the queue holds bytes. -/
def dmaDrain (x : Bool) (s : State) : Res :=
  let d := s.dma x
  if d.active && !d.queue.isEmpty then
    match d.fromPci with
    | some true => if s.dmaLocal x then drainToLocal x s else .next s
    | some false => .next (if s.busMaster then drainToPci x s else s)
    | none => .refused .dmaUndefined
  else .next s

/-- Completion sets the interrupt flag that NDAR selects, when the descriptor enables it (R1223,
D54). -/
def Dma.finished (d : Dma) : Dma :=
  { d with csr := d.csr ||| bitAt (bit d.dcr 4) (if d.ndar != 0 then 9 else 8) }

/-- `DmaComplete` may happen (R1223): all bytes written, and the channel not suspended, since a
suspended one keeps every register (R1225), and let on the bus for what it reads. -/
def State.dmaCompletes (s : State) (x : Bool) : Bool :=
  let d := s.dma x
  d.active && decide (d.wr = d.total) && bit d.ccr 0 && s.dmaMayTurn x

/-- `DmaComplete` (R1223, D54): interrupt flag, then the next descriptor, a chain resume or idle. -/
def dmaComplete (x : Bool) (s : State) : Res :=
  if s.dmaCompletes x then
    let d := (s.dma x).finished
    if d.ndar != 0 then
      closeDma (nextDescriptor x (s.setDma x { d with ccr := setBit d.ccr 1 false }))
    else if bit d.ccr 1 then
      closeDma ((chainResume x (s.setDma x d)).bind fun ok s =>
        if ok then nextDescriptor x s else .ok () s)
    else closeDma (nextDescriptor x (s.setDma x d))
  else .next s

/-! ## Parity errors on what a channel reads -/

/-- Whether the channel's next read of the local bus in its transfer takes in the word at `a`
(R1222). -/
def State.dmaReadsData (s : State) (x : Bool) (a : Word) : Bool :=
  let d := s.dma x
  d.active && d.fromPci == some false && s.dmaLocal x && decide (d.rd < d.total) && d.room x &&
    (List.range (d.nextFill x)).any fun i => wordAddr (d.localAddr x (d.rd + i)) == wordAddr a

/-- The channel is about to read the local bus for a descriptor: asked for by a store to CCR, or at
completion (R1220, R1223). -/
def State.dmaTurns (s : State) (x : Bool) : Bool :=
  let d := s.dma x
  s.dmaGranted x && (s.dmaCompletes x || (!d.active && bit d.ccr 0 && d.go))

/-- The six words of the descriptor at `d` take in the word at `a` (R1203, R1221). -/
def inDescriptor (d a : Word) : Bool := decide ((wordAddr a - (d &&& 0xFFFFFFE0)).toNat < 24)

/-- What the channel is about to read for a descriptor begins with the link word of the last one: a chain
resume (R1220, R1223, R1224). -/
def Dma.resumes (d : Dma) : Bool := bit d.ccr 1 && (!d.active || d.ndar == 0)

/-- Whether the descriptor read that the channel is about to make takes in the word at `a`: at a
resume, the link word of the last descriptor and the descriptor it names (R1221, R1224). -/
def State.dmaReadsDescriptor (s : State) (x : Bool) (a : Word) : Bool :=
  let d := s.dma x
  s.dmaTurns x &&
    if d.resumes then
      wordAddr a == wordAddr d.dar ||
      match s.target d.dar with
      | .memory k _ => inDescriptor (bytesToWord (Memory.readBytes s.mem k 4)) a
      | _ => false
    else d.ndar != 0 && inDescriptor d.ndar a

/-- Bytes of the channel's next read of the local bus that lie before the word at `a` in it: words of a
Memory Write and Invalidate line (R1222, R1228). -/
def Dma.bytesBefore (d : Dma) (x : Bool) (a : Word) : Nat :=
  ((List.range (d.nextFill x)).takeWhile fun i =>
    wordAddr (d.localAddr x (d.rd + i)) != wordAddr a).length

/-- A parity error on what a channel reads at `a` stops it, the words of the line before that one counted
in BCR; in a descriptor read its registers are lost (R1221, R1226). CCR[1] has been cleared by then,
but for an error in the link word of a resume (R1223, R1224). -/
def dmaParity (x : Bool) (a : Word) (s : State) : State :=
  let d := s.dma x
  if s.dmaReadsData x a then
    let n := d.bytesBefore x a
    s.setDma x (({ d with rd := d.rd + n }.count n).stop 0)
  else
    let link := d.resumes && wordAddr a == wordAddr d.dar
    let d := if d.active then d.finished else d
    let ccr := if link then d.ccr else setBit d.ccr 1 false
    (s.setDma x { d.lost s with go := false, ccr := ccr }).bump

end Sys2Proof.Machine
end

