-- ==== Sys2Proof/Machine/I2cUnit.lean ====
section
/-! DEFINITION. The I2C bus interface unit as an agent, byte by byte (spec/66_dma_i2c_test.md R1260
to R1266, D55). -/

namespace Sys2Proof.Machine

/-- The unit takes part in the bus: enabled and not in reset (R1265). -/
def I2c.enabled (i : I2c) : Bool := bit i.icr 6 && !bit i.icr 14

/-- Set and clear bits of ISR. -/
def I2c.flags (i : I2c) (set clear : Word) : I2c := { i with isr := (i.isr &&& ~~~clear) ||| set }

/-- STOP: unit busy and R/W mode cleared, idle (R1265). -/
def I2c.stop (i : I2c) : I2c := { i.flags 0 0x005 with mode := .idle }

/-- STOP when ICR bit 1 asks for it. -/
def I2c.stopIfAsked (i : I2c) : I2c := if bit i.icr 1 then i.stop else i

/-- The byte has been transferred: ICR bit 3 is cleared (R1252). -/
def I2c.done (i : I2c) : I2c := { i with icr := setBit i.icr 3 false }

/-- The unit has been addressed as a slave (R1260, R1263). -/
def I2c.addressed (i : I2c) (rw general : Bool) : I2c :=
  { i.flags (0x204 ||| bitAt general 8 ||| bitAt rw 0) 0x009 with
    mode := if rw then .slaveTx else .slaveRx }

/-- The unit writes to its own slave address, or sends a general call that it answers itself: not
described (R1260, R1263). The model's choice (log 72): a read (R/W# = 1) from its own address, and one
from address 00H that it would answer as a general call, runs as any other transaction; address 00H with ISAR = 00H is its own also with general calls disabled. -/
def I2c.ownAddress (i : I2c) : Bool :=
  let addr := (i.idbr >>> 1) &&& 0x7F
  !bit i.idbr 0 && (decide (addr = i.isar &&& 0x7F) || (decide (addr = 0) && !bit i.icr 7))

/-- START or repeated START with the address byte in IDBR (R1258, R1260 to R1262). -/
def I2c.start (i : I2c) (r : I2cReply) : Option I2c :=
  if i.ownAddress then none
  else
    match r with
    | .ack =>
      let rx := bit i.idbr 0
      some { i.flags (0x044 ||| bitAt rx 0) 0x00B with mode := if rx then .masterRx else .masterTx }.done
    | .nack => some (i.flags 0x442 0).stop.done
    | .lost => some ({ i.flags 0x020 0 with mode := .idle } : I2c)
    | .lostAddressed rw => some ((i.flags 0x020 0).addressed rw false).done
    | .byte _ => some i

/-- A data byte sent as master (R1259, R1262). -/
def I2c.masterSend (i : I2c) (r : I2cReply) : I2c :=
  match r with
  | .ack => (i.flags 0x040 0x002).stopIfAsked.done
  | .nack => (i.flags 0x442 0).stop.done
  | _ => i

/-- A data byte received, as master or slave (R1259). -/
def I2c.receive (i : I2c) (b : Byte) : I2c := { i.flags 0x080 0 with idbr := b.setWidth 32 }

/-- `I2cMasterByte` (R1265): `none` where the source gives no effect. -/
def I2c.masterByte (i : I2c) (r : I2cReply) : Option I2c :=
  if i.enabled && bit i.icr 3 && bit i.icr 5 then
    if bit i.icr 0 then i.start r
    else
      match i.mode, r with
      | .masterTx, r => some (i.masterSend r)
      | .masterRx, .byte b => some (i.receive b).stopIfAsked.done
      | _, _ => some i
  else some i

/-- `I2cMasterAbort` (R1265). -/
def I2c.masterAbort (i : I2c) : I2c :=
  if i.enabled && bit i.icr 4 && !bit i.icr 3 && (i.mode = .masterTx || i.mode = .masterRx) then i.stop
  else i

/-- `I2cAddressed` (R1265): its own address, or the general call unless disabled. The model's choice
(log 72): with ICR bit 7 set and ISAR = 00H, address 00H is answered as its own (R1260, R1263). -/
def I2c.hearAddress (i : I2c) (addr : BitVec 7) (rw : Bool) : I2c :=
  let general := addr == 0 && !bit i.icr 7
  if i.enabled && i.mode = .idle && (general || addr.setWidth 32 == i.isar) then
    i.addressed rw general
  else i

/-- `I2cSlaveByte` (R1265). -/
def I2c.slaveByte (i : I2c) (r : I2cReply) : I2c :=
  if i.enabled && bit i.icr 3 then
    match i.mode, r with
    | .slaveRx, .byte b => ((i.receive b).flags (bitAt (bit i.icr 2) 10) 0).done
    | .slaveTx, .ack => (i.flags 0x040 0x002).done
    | .slaveTx, .nack => (i.flags 0x042 0).done
    | _, _ => i
  else i

/-- `I2cStopSeen` (R1265). -/
def I2c.stopSeen (i : I2c) : I2c :=
  if i.enabled && (i.mode = .slaveTx || i.mode = .slaveRx) then (i.flags 0x010 0).stop else i

/-- `I2cBusBusy` (R1265). -/
def I2c.busBusy (i : I2c) (b : Bool) : I2c :=
  if i.enabled && i.mode = .idle then i.flags (bitAt b 3) 0x008 else i

end Sys2Proof.Machine
end

