-- ==== Sys2Proof/Machine/Inbound.lean ====
section
/-! DEFINITION. The ATU and the messaging unit as seen from PCI, and the ATU as a local bus master
(spec/65_atu_mu.md R1066 to R1078, R1130 to R1132). -/

namespace Sys2Proof.Machine

/-- The inbound window claims a PCI address (R1070, D47). -/
def Atu.claims (a : Atu) (pa : Word) : Bool :=
  a.cmd.getLsbD 1 && decide (a.ialr &&& 0xFFFFF000 ≠ 0) && (pa &&& a.ialr) == (a.iabar &&& 0xFFFFF000)

/-- The expansion ROM window claims a PCI address (R1077). -/
def Atu.romClaims (a : Atu) (pa : Word) : Bool :=
  a.cmd.getLsbD 1 && bit a.erbar 0 && decide (a.erlr &&& 0xFFFFF000 ≠ 0) &&
  (pa &&& a.erlr) == (a.erbar &&& 0xFFFFF000)

/-- Where an inbound access goes (R1070, R1072, R1077). -/
inductive InTarget where
  /-- No window claims it. -/
  | none
  /-- A messaging unit register at this offset. -/
  | unit (off : Nat)
  /-- A local bus address. -/
  | localBus (a : Word)
  /-- The expansion ROM at this local bus address. -/
  | rom (a : Word)
  /-- Both windows claim it. -/
  | both
  deriving DecidableEq, Repr

/-- Translation in the inbound window (R1070, R1072). -/
def Atu.translate (a : Atu) (pa : Word) : InTarget :=
  let o := pa &&& ~~~a.ialr
  if o.toNat < 0x50 then .unit o.toNat else .localBus (o ||| a.iatvr)

/-- Detection and translation of an inbound address. -/
def Atu.inbound (a : Atu) (pa : Word) : InTarget :=
  match a.claims pa, a.romClaims pa with
  | true, true => .both
  | false, true => .rom ((pa &&& ~~~a.erlr) ||| a.ertvr)
  | true, false => a.translate pa
  | false, false => .none

/-- Note something on the PCI bus. -/
def State.log (s : State) (e : PciLog) : State := { s with pciLog := e :: s.pciLog }

/-- A local bus address the ATU can reach (R1078): not the data RAM, a hole or the core MMRs. The
model's choice (log 67): FEFFFF60H to FEFFFFFFH is an address as any other, since 20_memory.md R141
speaks of what the core does there. -/
def atuReaches (a : Word) : Bool := onLocalBus a

/-! ## Inbound writes -/

/-- A DWORD of an inbound write at `pa` is taken (R1061, R1073): it begins a transaction when none is
queued, or continues the queued one, which carries at most 16. -/
def Atu.takesWrite (a : Atu) (pa : Word) : Bool :=
  match a.inq.getLast? with
  | some w => pa == w.pa + 4 && decide (a.inCount < 16)
  | none => true

/-- The DWORD joins the inbound write; the first begins the count. -/
def Atu.queueWrite (a : Atu) (w : InWrite) : Atu :=
  { a with inq := a.inq ++ [w], inCount := if a.inq.isEmpty then 1 else a.inCount + 1 }

/-- The inbound write has `q` left; its transaction ends with its last DWORD, and the IAQ is cleared
(R1073). -/
def Atu.leaveWrites (a : Atu) (q : List InWrite) : Atu :=
  { a with inq := q, inCount := if q.isEmpty then 0 else a.inCount }

/-- A DWORD of an inbound write arrives (R1073): taken, or retried until the queue is empty. -/
def pciMemWrite (pa data : Word) (be : BitVec 4) (s : State) : Res :=
  let pa := wordAddr pa
  match s.atu.inbound pa with
  | .none => .next s
  | .unit _ | .localBus _ =>
    if s.atu.takesWrite pa then
      .next { s with atu := s.atu.queueWrite { pa := pa, data := data, be := be } }
    else .next (s.log (.retried pa))
  | .rom _ | .both => .refused .inboundUndescribed

/-- A bus fault on an inbound write (R1131): the rest of the transaction is dropped. -/
def Atu.writeFault (a : Atu) : Atu :=
  let a := a.leaveWrites []
  if a.cmd.getLsbD 8 then { a with sr := a.sr ||| 0x4000, isr := a.isr ||| 0x10 } else a

/-- The ATU performs the oldest DWORD of the inbound write (R1072, R1073), as one access (R1078). -/
def atuIn (s : State) : Res :=
  match s.atu.inq with
  | [] => .next s
  | w :: rest =>
    let s := { s with atu := s.atu.leaveWrites rest }
    match s.atu.translate w.pa with
    | .unit off =>
      match s.mu.pciWrite off (laneMask w.be) w.data with
      | some u => .next { s with mu := u }
      | none => .refused .inboundUndescribed
    | .localBus a =>
      let a := wordAddr a
      if !atuReaches a then .refused .inboundUndescribed
      else if region a = .pmmr then
        (pmmrWrite a w.be w.data s).close .inboundUndescribed fun _ s => .next s
      else
        (busWriteLanes .atu .inboundUndescribed a w.data w.be s).close .inboundUndescribed
          fun _ s' =>
            if s.target a = .nobody && bit s.mc.bmer 0 then .next { s' with atu := s'.atu.writeFault }
            else .next s'
    | .none | .rom _ | .both => .refused .inboundUndescribed

/-! ## Inbound reads -/

/-- The inbound read in flight becomes `r`. -/
def State.setRead (s : State) (r : InRead) : State := { s with atu := { s.atu with rdq := r } }

/-- A PCI master reads the DWORD at `pa`, already word aligned, of an inbound read in this state (R1074):
a new request is latched and retried; one that repeats a request with its data in the ODQ begins to
collect it, DWORD by DWORD; the next DWORD of a burst is answered whatever its byte enables; where the
data has run out the master is disconnected; a master that goes elsewhere has completed its
transaction, and what it left is dropped; any other is retried. -/
def pciCollect (pa : Word) (be : BitVec 4) (s : State) : State :=
  match s.atu.rdq with
  | .none => (s.setRead (.requested pa be)).log (.retried pa)
  | .requested _ _ => s.log (.retried pa)
  | .data d =>
    match d.words with
    | [] => s.log (.retried pa)
    | w :: ws =>
      if d.pa = pa ∧ (d.be = none ∨ d.be = some be) then
        let rest : InRead :=
          if ws.isEmpty then .none else .data { d with pa := pa + 4, be := none, words := ws }
        (s.setRead rest).log (.answered pa w)
      else if d.be = none then (s.setRead (.requested pa be)).log (.retried pa)
      else s.log (.retried pa)
  | .aborted p b =>
    if p = pa ∧ b = be then (s.setRead .none).log (.aborted pa) else s.log (.retried pa)

/-- A PCI master reads a DWORD (R1074). -/
def pciMemRead (pa : Word) (be : BitVec 4) (s : State) : Res :=
  match s.atu.inbound (wordAddr pa) with
  | .none => .next s
  | .both => .refused .inboundUndescribed
  | .unit _ | .localBus _ | .rom _ => .next (pciCollect (wordAddr pa) be s)

/-- A delayed read that has data, or ended in a bus fault, is dropped: the discard timer, or a master
that took no more (R1074, R1076). -/
def pciReadDiscard (s : State) : State :=
  match s.atu.rdq with
  | .data _ | .aborted _ _ => s.setRead .none
  | .none | .requested _ _ => s

/-- One DWORD read by the ATU on the local bus. -/
def atuReadWord (a : Word) (s : State) : Eff Word :=
  if region a = .pmmr then (pmmrRead a 0 s).bind fun w s => .ok w s.bump
  else if atuReaches a then
    (busRead .atu .inboundUndescribed a 4 s).bind fun bs s => .ok (bytesToWord bs) s
  else .refuse .inboundUndescribed

/-- Whether the ATU gets a bus fault at an address (64_cpcu_memctl_arb.md R1030). -/
def State.busFaultAt (s : State) (a : Word) : Bool :=
  region a != .pmmr && s.target a == .nobody && bit s.mc.bmer 0

/-- The ATU reads the first DWORD, at local address `a`, of the inbound read of `pa`; a bus fault ends
the read with a target abort (R1131). -/
def atuReadFirst (pa : Word) (be : BitVec 4) (a : Word) (s : State) : Res :=
  let faulted := s.busFaultAt a
  (atuReadWord a s).close .inboundUndescribed fun w s =>
    if faulted then
      .next { s with atu := { s.atu with
        rdq := .aborted pa be, sr := s.atu.sr ||| 0x0800, isr := s.atu.isr ||| 0x22 } }
    else
      .next (s.setRead (.data
        { pa := pa, be := some be, words := [w], next := a + 4, ahead := s.board.prefetch.toNat }))

/-- Where the ATU stops reading ahead: at a 2 Kbyte boundary, at an address that it cannot reach or that
would fault, in an outbound window (R1074). -/
def State.aheadEnds (s : State) (a : Word) : Bool :=
  a.toNat % 2048 == 0 || !atuReaches a || decide (s.target a = .outbound) || s.busFaultAt a

/-- The ATU reads one DWORD more ahead of the master (R1074). -/
def atuReadAhead (d : InData) (s : State) : Res :=
  if s.aheadEnds d.next then .next (s.setRead (.data { d with ahead := 0 }))
  else
    (atuReadWord d.next s).close .inboundUndescribed fun w s =>
      .next (s.setRead (.data
        { d with words := d.words ++ [w], next := d.next + 4, ahead := d.ahead - 1 }))

/-- The ATU performs one DWORD of the inbound read (R1072, R1074), once the ODQ holds no outbound write
(R1061): each is a local bus access of its own, between which the core may have the bus (R1078; no
burst to a peripheral register, 10_state.md R91). Of a messaging unit register it reads that one
alone (log 66). The model's choice (log 63): the window and the translation are those of the
registers when the first DWORD is read, not when the request was latched. -/
def atuRead (s : State) : Res :=
  match s.atu.rdq, s.atu.outq with
  | .requested pa be, [] =>
    let target := if s.atu.romClaims pa then s.atu.inbound pa else s.atu.translate pa
    match target with
    | .unit off =>
      .next (s.setRead (.data
        { pa := pa, be := some be, words := [s.mu.read off], next := 0, ahead := 0 }))
    | .localBus a | .rom a => atuReadFirst pa be (wordAddr a) s
    | .none | .both => .refused .inboundUndescribed
  | .data d, [] => if d.ahead = 0 then .next s else atuReadAhead d s
  | _, _ => .next s

/-! ## Configuration cycles, errors -/

/-- The configuration cycle in flight becomes `c`. -/
def State.setCfg (s : State) (c : CfgSlot) : State := { s with atu := { s.atu with cfg := c } }

/-- A PCI master makes the cycle `c` (R1075), a delayed transaction: with none in flight it is latched
and retried; the repeat of one that the ATU has performed is answered; any other is retried. -/
def pciCfgCollect (c : CfgCycle) (s : State) : State :=
  let a := c.off.setWidth 32
  match s.atu.cfg with
  | .none => (s.setCfg (.requested c)).log (.retried a)
  | .requested _ => s.log (.retried a)
  | .completed d w =>
    if d = c then (s.setCfg .none).log (if c.write.isSome then .accepted a else .answered a w)
    else s.log (.retried a)

/-- A configuration cycle of function 0 (R1075), answered with Retry while RRCR bit 2 is set. At the
place of POCCDP it is not described (R1169; 93 section 10). -/
def pciCfg (c : CfgCycle) (s : State) : Res :=
  if s.cpcu.retry then .next (s.log (.retried (c.off.setWidth 32)))
  else if c.off = 0xAC then .refused .inboundUndescribed
  else .next (pciCfgCollect c s)

/-- A configuration write (R1075). -/
def pciCfgWrite (off : BitVec 8) (data : Word) (be : BitVec 4) (s : State) : Res :=
  pciCfg { off := off &&& 0xFC, be := be, write := some data } s

/-- A configuration read (R1075). -/
def pciCfgRead (off : BitVec 8) (be : BitVec 4) (s : State) : Res :=
  pciCfg { off := off &&& 0xFC, be := be, write := none } s

/-- The ATU performs the latched configuration cycle (R1075), which then waits for its master. The
model's choices (log 89): the register is read or written here, not when the cycle was latched; a
write to RRCR that resets the local bus (64_cpcu_memctl_arb.md R975) still completes. -/
def atuCfg (s : State) : State :=
  match s.atu.cfg with
  | .requested c =>
    let off := c.off.toNat
    match c.write with
    | some v => (atuBlockWrite true off (laneMask c.be) v s).setCfg (.completed c 0)
    | none => s.setCfg (.completed c (s.atuRead off))
  | .none | .completed _ _ => s

/-- The discard timer drops a configuration cycle that has been performed and not collected; what it did
stands (R1076). -/
def pciCfgDiscard (s : State) : State :=
  match s.atu.cfg with
  | .completed _ _ => s.setCfg .none
  | .none | .requested _ => s

/-- A parity error of an inbound address or data phase (R1131): P_SERR# is asserted only with parity
checking and P_SERR# enabled (R1143). -/
def inboundParity (address : Bool) (s : State) : State :=
  let a := { s.atu with sr := s.atu.sr ||| 0x8000 }
  if address && a.cmd.getLsbD 6 && a.cmd.getLsbD 8 then
    { s with atu := { a with sr := a.sr ||| 0x4000, isr := a.isr ||| 0x10 } }
  else { s with atu := a }

/-- P_SERR# detected (R1132). -/
def serrDetected (s : State) : State := { s with atu := { s.atu with isr := s.atu.isr ||| 0x10 } }

/-- The ATU drives the next DWORD of the outbound write (R1124), while it may be a bus master
(R1143). -/
def atuOut (s : State) : State :=
  match s.atu.outq with
  | [] => s
  | c :: cs => if s.busMaster then driveOutbound c cs s else s

end Sys2Proof.Machine
end

