-- ==== Sys2Proof/Machine/TapUnit.lean ====
section
/-! DEFINITION. The JTAG test access port (spec/66_dma_i2c_test.md R1290 to R1295). -/

namespace Sys2Proof.Machine

/-- The state after a rising edge of TCK (R1291). -/
def TapState.next (t : TapState) (tms : Bool) : TapState :=
  match t, tms with
  | .testLogicReset, false => .runTestIdle
  | .testLogicReset, true => .testLogicReset
  | .runTestIdle, false => .runTestIdle
  | .runTestIdle, true => .selectDr
  | .selectDr, false => .captureDr
  | .selectDr, true => .selectIr
  | .captureDr, false => .shiftDr
  | .captureDr, true => .exit1Dr
  | .shiftDr, false => .shiftDr
  | .shiftDr, true => .exit1Dr
  | .exit1Dr, false => .pauseDr
  | .exit1Dr, true => .updateDr
  | .pauseDr, false => .pauseDr
  | .pauseDr, true => .exit2Dr
  | .exit2Dr, false => .shiftDr
  | .exit2Dr, true => .updateDr
  | .updateDr, false => .runTestIdle
  | .updateDr, true => .selectDr
  | .selectIr, false => .captureIr
  | .selectIr, true => .testLogicReset
  | .captureIr, false => .shiftIr
  | .captureIr, true => .exit1Ir
  | .shiftIr, false => .shiftIr
  | .shiftIr, true => .exit1Ir
  | .exit1Ir, false => .pauseIr
  | .exit1Ir, true => .updateIr
  | .pauseIr, false => .pauseIr
  | .pauseIr, true => .exit2Ir
  | .exit2Ir, false => .shiftIr
  | .exit2Ir, true => .updateIr
  | .updateIr, false => .runTestIdle
  | .updateIr, true => .selectDr

/-- Instruction codes that the part defines (R1291). -/
def tapDefined (ir : BitVec 4) : Bool :=
  match ir.toNat with
  | 0 | 1 | 2 | 4 | 7 | 8 | 15 => true
  | _ => false

/-- Length of the data register that an instruction selects (R1290 to R1294). -/
def tapLength (ir : BitVec 4) : Nat :=
  match ir.toNat with
  | 0 | 1 => 192
  | 2 => 32
  | _ => 1

/-- A shift register of `n` bits moves one place towards TDO. -/
def shiftIn {w : Nat} (n : Nat) (v : BitVec w) (tdi : Bool) : BitVec w :=
  (v >>> 1) ||| (if tdi then BitVec.ofNat w (2 ^ (n - 1)) else 0)

/-- The boundary-scan cells of pins whose level the model holds (R1293): NMI#, XINT0# to XINT7#,
CLKMODE0# and CLKMODE1#, DREQ#, P_RST#; with sample/preload in normal operation P_INTD# to P_INTA# too, which
the part drives: not in ONCE mode, where its outputs float, nor after `runbist`, which leaves its state
undefined until a reset (R1292, R1294). An asserted `#` pin is low. -/
def State.knownPins (s : State) : List (Nat × Bool) :=
  [(3, !s.intc.nmiPin), (13, !s.intc.xint.getLsbD 0), (14, !s.intc.xint.getLsbD 1),
   (15, !s.intc.xint.getLsbD 2), (16, !s.intc.xint.getLsbD 3), (17, !s.intc.xint.getLsbD 4),
   (18, !s.intc.xint.getLsbD 5), (22, !s.intc.xint.getLsbD 6), (23, !s.intc.xint.getLsbD 7),
   (66, s.board.clkmode0), (67, s.board.clkmode1), (68, !s.dreq), (136, true)] ++
  if s.tap.ir = 1 && s.run != .once && s.run != .selfTest then
    [(137, !s.pciInterrupts.getLsbD 3), (138, !s.pciInterrupts.getLsbD 2),
     (139, !s.pciInterrupts.getLsbD 1), (140, !s.pciInterrupts.getLsbD 0)]
  else []

/-- Put the levels of pins in their boundary-scan cells. -/
def setCells : List (Nat × Bool) → BitVec 192 → BitVec 192
  | [], v => v
  | (i, b) :: rest, v =>
    setCells rest (if b then v ||| ((1 : BitVec 192) <<< i) else v &&& ~~~((1 : BitVec 192) <<< i))

/-- What Capture-DR loads: the pins into the boundary-scan register, a free value for those that are no
part of the model; 0 into bypass; the identification code; the RUNBIST bit (R1290, R1291, R1293,
R1294). -/
def State.tapCapture (s : State) : BitVec 192 :=
  match s.tap.ir.toNat with
  | 0 | 1 =>
    setCells s.knownPins
      (s.undef 1 ++ s.undef 2 ++ s.undef 3 ++ s.undef 4 ++ s.undef 5 ++ s.undef 6)
  | 2 => Machine.deviceId.setWidth 192
  | 7 => (BitVec.ofBool s.tap.bistBit).setWidth 192
  | _ => 0

/-- What a rising edge does in the present state (R1291): BIST begins on the first one after
Run-Test/Idle is entered, so not again where the TAP has stayed there over a reset (R1294). The model's
choices (log 73): in ONCE mode, where the clocks stand, `runbist` starts no self test, and its bit keeps
the 1 (R1292, R1294); BIST is complete, its result in the RUNBIST bit, on the edge that begins it, also
where TMS = 1 on that edge or on a later one takes the TAP out of Run-Test/Idle before the time that
R1294 asks for has passed. -/
def tapAct (tdi : Bool) (s : State) : State :=
  let t := s.tap
  match t.state with
  | .captureDr => { s with tap := { t with dr := s.tapCapture } }.bump
  | .shiftDr => { s with tap := { t with dr := shiftIn (tapLength t.ir) t.dr tdi } }
  | .captureIr => { s with tap := { t with irShift := 0b0001 } }
  | .shiftIr => { s with tap := { t with irShift := shiftIn 4 t.irShift tdi } }
  | .runTestIdle =>
    if t.ir = 7 && !t.idled && s.run != .once then
      { s with
        run := .selfTest
        tap := { t with bistBit := decide (s.board.bistMask.setWidth 32 &&& (0x7C : Word) ≠ 0) } }
    else s
  | _ => s

/-- What entering a state does: latch, update, and TDO after the falling edge (R1291). -/
def Tap.enter (t : Tap) : Tap :=
  match t.state with
  | .testLogicReset => { t with ir := 0b0010 }
  | .updateIr => { t with ir := t.irShift, bistBit := t.bistBit || t.irShift == 7 }
  | .updateDr => if t.ir = 0 || t.ir = 1 then { t with bsr := t.dr } else t
  | .shiftDr => { t with tdo := t.dr.getLsbD 0 }
  | .shiftIr => { t with tdo := t.irShift.getLsbD 0 }
  | _ => t

/-- A rising edge of TCK. A non-public or unused instruction is not described. -/
def tapClock (tms tdi : Bool) (s : State) : Res :=
  let s := tapAct tdi s
  let s := { s with tap :=
    { s.tap with state := s.tap.state.next tms, idled := decide (s.tap.state = TapState.runTestIdle) }.enter }
  if tapDefined s.tap.ir then .next s else .refused .testMode

/-- TRST# asserted (R1291). -/
def tapReset (s : State) : State :=
  { s with tap := { s.tap with state := .testLogicReset, ir := 0b0010 } }

end Sys2Proof.Machine
end

