-- ==== Sys2Proof/Machine/Timers.lean ====
section
/-! DEFINITION. The two timers as agents of their own (spec/63_timers.md): a bus clock of the
prescaler, a TCLOCK tick, the late tick after a disabling store. -/

namespace Sys2Proof.Machine

/-- TINTx: the timer's pending bit in IPND, 12 or 13 (R936). -/
def postTimer (x : Bool) (s : State) : State :=
  { s with intc := { s.intc with ipnd := setBit s.intc.ipnd (if x then 13 else 12) true } }

/-- One TCLOCK tick of an enabled timer: the timer after it, and whether it signals TINTx
(R935, R937). -/
def Timer.tick (t : Timer) : Timer × Bool :=
  let count := if t.tcr = 0 then 0 else t.tcr - 1
  if count = 0 then
    if bit t.tmr 2 then ({ t with tcr := t.trr }, decide (t.tcr ≠ 0))
    else ({ t with tcr := 0, tmr := setBit (setBit t.tmr 0 true) 1 false }, true)
  else ({ t with tcr := count }, false)

/-- Bus clocks in a TCLOCK (R932, R934). -/
def Timer.divisor (t : Timer) : Nat := 2 ^ field t.tmr 4 2

/-- One bus clock of timer `x` (R934): the prescaler, and a tick when it is full. -/
def timerClock (x : Bool) (s : State) : State :=
  let t := s.timer x
  if bit t.tmr 1 then
    let phase := t.phase.toNat + 1
    if phase < t.divisor then s.setTimer x { t with phase := BitVec.ofNat 3 phase }
    else
      let r := ({ t with phase := 0 } : Timer).tick
      let s := s.setTimer x r.1
      if r.2 then postTimer x s else s
  else s

/-- The next instruction begins: a late tick can come no more (R938). -/
def endLate (s : State) : State :=
  { s with timer0 := { s.timer0 with late := none }, timer1 := { s.timer1 with late := none } }

/-- The one late tick after a store that disabled the timer, evaluated with the old TMR: only its
TINTx counts, and it comes before the next instruction (R938). -/
def timerLate (x : Bool) (s : State) : State :=
  let t := s.timer x
  match t.late with
  | some old =>
    let s' := s.setTimer x { t with late := none }
    if ({ t with tmr := old } : Timer).tick.2 then postTimer x s' else s'
  | none => s

end Sys2Proof.Machine
end

