-- ==== Sys2Proof/Machine/Env.lean ====
section
/-! DEFINITION. What happens outside the core between two of its steps or bus accesses
(spec/92_eei_decisions.md D57, spec/64_cpcu_memctl_arb.md R1045): every event of the environment and
of the agents on the chip. An event that is not enabled changes nothing. -/

namespace Sys2Proof.Machine

/-- P_RST# (70_reset_and_hazards.md R1300, R1302). With the JTAG instruction highz the part goes to
ONCE mode (66_dma_i2c_test.md R1291). -/
def resetEvent (b : Board) (s : State) : State :=
  pinReset { b with once := b.once || s.tap.ir == 8 } s

/-- IPND bits of inputs that PIRSR routes away from the core take any value (61_interrupts.md
R855). -/
def routedAway (levels : BitVec 4) (s : State) : State :=
  let away := ~~~s.intc.pirsr &&& 0x0F
  { s with intc := { s.intc with ipnd := merge away (levels.setWidth 32) s.intc.ipnd } }

/-- A parity error on a DRAM read of a master (64_cpcu_memctl_arb.md R1030; 66_dma_i2c_test.md R1226). An
address that no master issues on the local bus, or that is not decoded to the DRAM, is no DRAM read
and changes nothing (R1001). The model's choice (log 60): a read of the core or the ATU at any DRAM address
may have the error at any moment. -/
def parityError (m : Master) (a : Word) (s : State) : State :=
  let dram : Bool :=
    match s.target a with
    | .memory k _ => decide (2 ^ 32 ≤ k) && decide (k < 2 * 2 ^ 32)
    | _ => false
  let reading : Bool :=
    match m with
    | .dma0 => s.dmaReadsData false a || s.dmaReadsDescriptor false a
    | .dma1 => s.dmaReadsData true a || s.dmaReadsDescriptor true a
    | .core | .atu => true
  if bit s.mc.dper 0 && decodedOnBus a && dram && reading then
    let s := reportError m a false s
    match m with
    | .dma0 => dmaParity false a s
    | .dma1 => dmaParity true a s
    | .core | .atu => s
  else s

/-- The external bus master may have the local bus: HOLD is answered, which it is not while the core is
in reset (64_cpcu_memctl_arb.md R975, R1047), and its priority is not `disabled` (R1041). -/
def State.extGranted (s : State) : Bool := !s.cpcu.coreReset && field s.arb.lbacr 10 2 != 3

/-- The bus arbiter lets the ATU on the local bus (64_cpcu_memctl_arb.md R1041). The model's choice
(log 61): an ATU that it does not let on performs no inbound access at all, one to a messaging unit
register neither. -/
def State.atuGranted (s : State) : Bool := field s.arb.lbacr 12 2 != 3

/-- An external bus master writes a byte; it reaches only external devices (64_cpcu_memctl_arb.md
R1047, 20_memory.md R157). -/
def extWrite (a : Word) (b : Byte) (s : State) : State :=
  match s.target a with
  | .memory k _ =>
    if s.extGranted && k < 2 ^ 32 && decodedOnBus a then storeKey k [b] s
    else s
  | _ => s

/-- An external agent posts a vector in the interrupt table (61_interrupts.md R827): from PCI, or as
the external bus master in an external device. -/
def extPost (v : BitVec 8) (s : State) : State :=
  let p := v.toNat / 8
  let set (a : Word) (n : Nat) (s : State) : State :=
    match region a, s.target a with
    | .bus, .memory k true =>
      if s.atuGranted || (s.extGranted && k < 2 ^ 32) then
        storeKey k [Memory.read s.mem k ||| BitVec.ofNat 8 (2 ^ n)] s
      else s
    | _, _ => s
  set (s.intBase + BitVec.ofNat 32 (p / 8)) (p % 8)
    (set (s.intBase + 4 + BitVec.ofNat 32 p) (v.toNat % 8) s)

/-- An event of the I2C unit. -/
def i2cEvent (f : I2c → I2c) (s : State) : Res := .next { s with i2c := f s.i2c }

/-- What an event does. In ONCE mode only a reset and the test access port do anything, and the levels
of input pins are there for it to capture (66_dma_i2c_test.md R1291, R1292); after `runbist` nothing else is described (R1294). -/
def perform (e : Event) (s : State) : Res :=
  match s.run, e with
  | _, .reset b => .next (resetEvent b s)
  | _, .tck tms tdi => tapClock tms tdi s
  | _, .trst => .next (tapReset s)
  | .selfTest, _ => .refused .testMode
  | _, .xint levels => .next { s with intc := { s.intc with xint := levels } }
  | _, .nmi p => .next { s with intc := { s.intc with nmiPin := p } }
  | _, .dreq p => .next { s with dreq := p }
  | .once, _ => .next s
  | _, .ipndUndefined levels => .next (routedAway levels s)
  | _, .timerClock x => .next (timerClock x s)
  | _, .timerLate x => .next (timerLate x s)
  | _, .pciMemWrite pa data be => pciMemWrite pa data be s
  | _, .pciMemRead pa be => pciMemRead pa be s
  | _, .pciReadDiscard => .next (pciReadDiscard s)
  | _, .pciCfgWrite off data be => pciCfgWrite off data be s
  | _, .pciCfgRead off be => pciCfgRead off be s
  | _, .pciCfgDiscard => .next (pciCfgDiscard s)
  | _, .atuCfg => .next (atuCfg s)
  | _, .atuOut => .next (atuOut s)
  | _, .atuIn => if s.atuGranted then atuIn s else .next s
  | _, .atuRead => if s.atuGranted then atuRead s else .next s
  | _, .serr => .next (serrDetected s)
  | _, .inboundParity address => .next (inboundParity address s)
  | _, .parityError m a => .next (parityError m a s)
  | _, .dmaIdle x => dmaIdle x s
  | _, .dmaFill x => dmaFill x s
  | _, .dmaDrain x => dmaDrain x s
  | _, .dmaComplete x => dmaComplete x s
  | _, .i2cMasterByte r =>
    match s.i2c.masterByte r with
    | some i => .next { s with i2c := i }
    | none => .refused .i2cUndefined
  | _, .i2cMasterAbort => i2cEvent I2c.masterAbort s
  | _, .i2cAddressed addr rw => i2cEvent (fun i => i.hearAddress addr rw) s
  | _, .i2cSlaveByte r => i2cEvent (fun i => i.slaveByte r) s
  | _, .i2cStop => i2cEvent I2c.stopSeen s
  | _, .i2cBusBusy b => i2cEvent (fun i => i.busBusy b) s
  | _, .extWrite a b => .next (extWrite a b s)
  | _, .extPost v => .next (extPost v s)

end Sys2Proof.Machine
end

