-- ==== Sys2Proof/Machine/Access.lean ====
section
/-! DEFINITION. Data accesses and instruction fetches of the core: how a request is cut into bus
accesses and what other agents do between them (spec/20_memory.md R149, R150;
spec/64_cpcu_memctl_arb.md R1044, R1045), cacheability (20_memory.md R183), protection
(spec/10_state.md R80, R86), outbound accesses (spec/65_atu_mu.md R1122, R1124 to R1126), the
incoherent instruction stream (20_memory.md R155). -/

namespace Sys2Proof.Machine

/-! ## Other agents between two accesses -/

/-- Events one after the other, the interrupt inputs sampled before each. One that resets or stops
the core ends what the core was doing; those left over come after it. -/
def performAll : List Event → State → Eff Unit
  | [], s => .ok () s
  | e :: es, s =>
    match perform e (sampleInputs s) with
    | .next s' =>
      if s'.run = s.run then performAll es s'
      else .over { s' with schedule := .between es :: s'.schedule }
    | .fault f => .fault f
    | .refused r => .refuse r

/-- The core gives up the local bus between two accesses (64_cpcu_memctl_arb.md R1044, R1045): what
the schedule says comes between, happens. -/
def gap (s : State) : Eff Unit :=
  match s.schedule with
  | .between es :: rest => performAll es { s with schedule := rest }
  | _ => .ok () s

/-- The arbiter lets the core on the local bus (64_cpcu_memctl_arb.md R1041): its priority is not
`disabled`. -/
def State.coreGranted (s : State) : Bool := field s.arb.lbacr 0 2 != 3

/-- What happens outside the core in a turn. -/
def Turn.events : Turn → List Event
  | .core => []
  | .env e => [e]
  | .between es => es

/-- A core whose priority is `disabled` waits for the bus (R1041): turns pass until somebody gives it
back. When none is left nobody ever will, and the core is stuck (93 section 9; log 61). -/
def waitBus : List Turn → State → Eff Unit
  | [], s => .over { s with schedule := [] }
  | t :: rest, s =>
    (performAll t.events { s with schedule := rest }).bind fun _ s =>
      if s.coreGranted then .ok () s else waitBus rest s

/-- The core is about to make an access of the local bus: it must have the bus. -/
def takeBus (s : State) : Eff Unit := if s.coreGranted then .ok () s else waitBus s.schedule s

/-- An access after which others may have the bus. -/
def Eff.andGap {α : Type} (x : Eff α) : Eff α := x.bind fun v s => (gap s).bind fun _ s => .ok v s

/-! ## Cutting a request -/

/-- How an access of `n` bytes is cut into pieces that lie in one aligned word, low to high
(20_memory.md R149). `fuel` is at least `n`. -/
def pieces (a : Word) (n : Nat) : Nat → List (Word × Nat)
  | 0 => []
  | fuel + 1 =>
    if n = 0 then []
    else
      let k := if a.toNat % 2 = 1 || n = 1 then 1 else if a.toNat % 4 = 2 || n < 4 then 2 else 4
      (a, k) :: pieces (a + BitVec.ofNat 32 k) (n - k) fuel

/-- Whether an access of `n` bytes is not at its natural boundary (20_memory.md R147, R148). -/
def offBoundary (a : Word) (n : Nat) : Bool :=
  a.toNat % (if n = 12 then 16 else n) != 0

/-- The PMCON in force at an address: that of its region once BCON.ctv says that they are valid, until
then PMCON14_15 (20_memory.md R176, R178, R179). -/
def State.pmconAt (s : State) (a : Word) : Word :=
  if bit s.bus.bcon 0 then s.bus.pmcon[a.toNat / 2 ^ 29]'(by have := a.isLt; omega) else s.bus.pmcon[7]

/-- Bytes that one burst carries at an address: four transfers of the width in force, 4 or 8 bytes in a
region 8 or 16 bits wide, else 16 (20_memory.md R149, R176); one word of the peripheral registers,
which take no burst (10_state.md R91 a). -/
def State.burstBytes (s : State) (a : Word) : Nat :=
  match region a, field (s.pmconAt a) 22 2 with
  | .pmmr, _ => 4
  | .bus, 0 => 4
  | .bus, 1 => 8
  | _, _ => 16

/-- Whether the piece at `x` of a request of `n` bytes at `a` begins a new bus access: each does in a
request that is off its boundary, else the first of each burst (20_memory.md R149, R150). -/
def State.newAccess (s : State) (a : Word) (n : Nat) (x : Word) : Bool :=
  offBoundary a n || x.toNat % s.burstBytes a == 0

/-! ## Cacheability -/

/-- Logical memory template `x` is enabled and matches a data access at `a` (20_memory.md R183). -/
def BusConfig.templateMatches (b : BusConfig) (x : Bool) (a : Word) : Bool :=
  let lmadr := if x then b.lmadr1 else b.lmadr0
  let lmmr := if x then b.lmmr1 else b.lmmr0
  bit lmmr 0 && decide ((a ^^^ lmadr) &&& lmmr &&& 0xFFFFF000 = 0)

/-- Whether a data access at `a` is cacheable (20_memory.md R183): as the template that matches says, as
DLMCON where none does; never in the data RAM or core MMR space (R184). The model's choice (log 88):
where both templates match, which R185 calls undefined, by a free choice. -/
def State.cacheable (s : State) (a : Word) : Bool :=
  onLocalBus a &&
    match s.bus.templateMatches false a, s.bus.templateMatches true a with
    | true, true => bit (s.undef 70) 0
    | true, false => bit s.bus.lmadr0 1
    | false, true => bit s.bus.lmadr1 1
    | false, false => bit s.bus.dlmcon 1

/-- Byte enables of an outbound read of `n` bytes inside one word: a byte or short read of a cacheable
address is promoted to a word read, also while the cache is disabled (20_memory.md R191, 65_atu_mu.md
R1122; log 88). -/
def State.readEnables (s : State) (a : Word) (n : Nat) : BitVec 4 :=
  if decide (n < 4) && s.cacheable a then 0xF else laneEnables (byteOffset a) n

/-- The PCI cycle of an outbound write of the bytes `bs` inside one word. A byte or short write to the I/O
window has all byte enables active while the data cache is enabled for it (65_atu_mu.md R1122), which
takes the cache's enable and the template (20_memory.md R190). The model's choice (log 88): R1122's
`always` holds for writes too, and the bytes beyond `bs` are then free values. -/
def State.writeCycle (s : State) (a : Word) (bs : List Byte) : PciCycle :=
  let be := laneEnables (byteOffset a) bs.length
  let v := laneWord bs (byteOffset a)
  if isIoWindow a && decide (bs.length < 4) && s.dcEnabled && s.cacheable a then
    s.atu.outboundCycle true a 0xF (merge (laneMask be) v (s.undef 71))
  else s.atu.outboundCycle true a be v

/-! ## Outbound accesses -/

/-- The outbound access of the core waits (65_atu_mu.md R1124, R1125; 64_cpcu_memctl_arb.md R1046):
for the earlier outbound write to be driven, and for a write, which needs the ODQ, for inbound read
data there to be collected. Other masters run meanwhile; once the core has the bus again, what is
still there is driven, or dropped as the discard timer does (R1076). -/
def outboundWait (write : Bool) (s : State) : Eff Unit :=
  (gap s).bind fun _ s => (takeBus s).bind fun _ s =>
    let s := if write then pciReadDiscard s else s
    .ok () (if s.busMaster then drainOutbound s.atu.outq s else s)

/-- Whether an outbound access has to wait. -/
def Atu.busy (a : Atu) (write : Bool) : Bool :=
  !a.outq.isEmpty || (write && match a.rdq with
    | .data _ | .aborted _ _ => true
    | .none | .requested _ _ => false)

/-- Wait if the ATU is busy. -/
def outboundReady (write : Bool) (s : State) : Eff Unit :=
  if s.atu.busy write then outboundWait write s else .ok () s

/-! ## Pieces -/

/-- Read `n` bytes inside one word of the local bus: on PCI where the ATU claims the address. -/
def coreRead (a : Word) (n : Nat) (s : State) : Eff (List Byte) :=
  if s.target a = .outbound then
    (outboundReady false s).bind fun _ s =>
      if s.target a = .outbound then
        match outboundRead (s.atu.outboundCycle false a (s.readEnables a n) 0) s with
        | (w, s) => .ok (laneBytes w (byteOffset a) n) s.bump
      else busRead .core .inboundUndescribed a n s
  else busRead .core .inboundUndescribed a n s

/-- Write bytes inside one word of the local bus; with `cont` in the burst of the piece before. The model's
choice (log 63): the PCI address of an outbound write is fixed by the ATU's registers as they stand
when it is posted, not when it is driven (65_atu_mu.md R1124). -/
def coreWrite (cont : Bool) (a : Word) (bs : List Byte) (s : State) : Eff Unit :=
  if s.target a = .outbound then
    (if cont then .ok () s else outboundReady true s).bind fun _ s =>
      if s.target a = .outbound then
        .ok () (postOutbound cont (s.writeCycle a bs) s).bump
      else busWrite .core .inboundUndescribed a bs s
  else busWrite .core .inboundUndescribed a bs s

/-- Wait for the ATU before a configuration cycle, which it makes only as a bus master (65_atu_mu.md
R1126, R1143). -/
def configReady (write : Bool) (s : State) : Eff Unit :=
  if s.busMaster then outboundReady write s else .ok () s

/-- A load from POCCDP: a PCI configuration read, unclaimed while bus mastering is off
(65_atu_mu.md R1126, D48). -/
def configRead (a : Word) (be : BitVec 4) (s : State) : Eff Word :=
  (configReady false s).bind fun _ s =>
    if s.busMaster then
      .ok (outboundRead (s.atu.configCycle false be 0) s).1
        (outboundRead (s.atu.configCycle false be 0) s).2
    else .ok (s.undef 0) (busTimeout .core a s)

/-- A store to POCCDP: a PCI configuration write of its own (65_atu_mu.md R1126, D48). The model's choice
(log 63): it takes POCCAR as it stands when it is posted (R1124). -/
def configWrite (a : Word) (be : BitVec 4) (v : Word) (s : State) : Eff Unit :=
  (configReady true s).bind fun _ s =>
    .ok () (if s.busMaster then postOutbound false (s.atu.configCycle true be v) s
      else busTimeout .core a s)

/-- A load in FEFFFF60H to FEFFFFFFH: an access of the local bus as any other, which the bus monitor ends
where nobody answers (20_memory.md R142, 64_cpcu_memctl_arb.md R1001, R1031); its value is free
(93 section 3). -/
def reservedRead (a : Word) (n : Nat) (s : State) : Eff (List Byte) :=
  let v := laneBytes (draw s).1 0 n
  let s := (draw s).2
  .ok v (if s.target a = .nobody then busTimeout .core a s else s)

/-- Load one piece (20_memory.md R141, R142; 93 section 3). -/
def loadPiece (a : Word) (n : Nat) (s : State) : Eff (List Byte) :=
  match region a with
  | .ram => .ok (Memory.readBytes s.mem a.toNat n) s
  | .hole => .fault .reservedHole
  | .pmmr =>
    (takeBus s).bind fun _ s =>
      (if isPoccdp a then configRead a (laneEnables (byteOffset a) n) s
        else pmmrRead a 0 s).bind fun w s => .ok (laneBytes w (byteOffset a) n) s.bump
  | .bus => (takeBus s).bind fun _ s => coreRead a n s
  | .reserved => (takeBus s).bind fun _ s => reservedRead a n s
  | .mmr => .ok (wordBytes (mmrLoad a 0 s).1) (mmrLoad a 0 s).2.bump

/-- Store one piece; `cont`: in the burst of the piece before. -/
def storePiece (cont : Bool) (a : Word) (bs : List Byte) (s : State) : Eff Unit :=
  match region a with
  | .ram => .ok () (storeKey a.toNat bs s)
  | .hole => .fault .reservedHole
  | .pmmr =>
    let be := laneEnables (byteOffset a) bs.length
    let v := laneWord bs (byteOffset a)
    (takeBus s).bind fun _ s => if isPoccdp a then configWrite a be v s else pmmrWrite a be v s
  | .bus => (takeBus s).bind fun _ s => coreWrite cont a bs s
  | .reserved => .refuse .storeToReserved
  | .mmr => mmrStore a (bytesToWord bs) s

/-- Before the next of the pieces `ps`: others may have the bus where a new access begins. An
outbound read is one PCI cycle for each DWORD (65_atu_mu.md R1125). -/
def gapBefore (new : Word → Bool) (load : Bool) (ps : List (Word × Nat)) (s : State) : Eff Unit :=
  match ps with
  | [] => .ok () s
  | (a, _) :: _ =>
    if new a || (load && decide (s.target a = .outbound)) then gap s else .ok () s

/-- Load pieces in order; `new` says where a new bus access begins. -/
def loadPieces (new : Word → Bool) : List (Word × Nat) → State → Eff (List Byte)
  | [], s => .ok [] s
  | (a, n) :: ps, s =>
    (loadPiece a n s).bind fun bs s => (gapBefore new true ps s).bind fun _ s =>
      (loadPieces new ps s).bind fun cs s => .ok (bs ++ cs) s

/-- Store pieces in order; `cont`: the first is in the burst of a piece before. -/
def storePieces (new : Word → Bool) (cont : Bool) :
    List (Word × Nat) → List Byte → State → Eff Unit
  | [], _, s => .ok () s
  | (a, n) :: ps, bs, s =>
    (storePiece (cont && !new a) a (bs.take n) s).bind fun _ s =>
      (gapBefore new false ps s).bind fun _ s => storePieces new true ps (bs.drop n) s

/-- Whether an access of `n` bytes touches core MMR space. -/
def touchesMmr (a : Word) (n : Nat) : Bool := decide (0xFF000000 < a.toNat + n)

/-- A core MMR access that is not one aligned word (10_state.md R86 item 1). The model's choice: so is
one that begins below FF000000H and runs into the space (log 84). -/
def badMmrAccess (a : Word) (n : Nat) : Bool :=
  touchesMmr a n && !(n == 4 && a.toNat % 4 == 0)

/-- Whether a store hits protected data RAM (10_state.md R80, 60_exceptions.md R702). -/
def State.ramProtected (s : State) (a : Word) (n : Nat) : Bool :=
  (decide (a.toNat < 0x40) && (!s.supervisor || bit s.bus.bcon 2)) ||
  (decide (a.toNat < 0x400) && decide (0x40 < a.toNat + n) && !s.supervisor && bit s.bus.bcon 1)

/-- A data load of `n` bytes (`MemRead` of 00_scope.md R15), little endian, bytes low to high. -/
def load (a : Word) (n : Nat) (s : State) : Eff (List Byte) :=
  if badMmrAccess a n then .trap .unimplemented s
  else loadPieces (s.newAccess a n) (pieces a n n) s

/-- The protection checks of a store of `n` bytes (40_data_movement.md R281 item 1). -/
def State.storeTrap (s : State) (a : Word) (n : Nat) : Option Trap :=
  if badMmrAccess a n then some .unimplemented
  else if s.ramProtected a n then some .mismatch
  else none

/-- A data store (`MemWrite` of 00_scope.md R15). A store that traps changes nothing. -/
def store (a : Word) (bs : List Byte) (s : State) : Eff Unit :=
  match s.storeTrap a bs.length with
  | some t => .trap t s
  | none => storePieces (s.newAccess a bs.length) false (pieces a bs.length bs.length) bs s

/-- What the core waits for before it locks the bus for a read and a write of the word at `a`: for the bus
(46_fault_debug_atomic.md R609), and for the ATU in an outbound window or at POCCDP (20_memory.md R154,
65_atu_mu.md R1063); neither half waits after it. Data RAM and core MMRs take no bus cycle
(20_memory.md R142, 10_state.md R85): there, by the model's choice for the lock that R609 asks for
(log 61), it waits for nothing, also while its bus priority is `disabled`. -/
def lockReady (a : Word) (s : State) : Eff Unit :=
  if onLocalBus a then
    (takeBus s).bind fun _ s =>
      if region a = .bus && s.target a = .outbound then outboundReady true s
      else if isPoccdp a then configReady true s
      else .ok () s
  else .ok () s

/-- Load one word. -/
def loadWord (a : Word) (s : State) : Eff Word :=
  (load a 4 s).bind fun bs s => .ok (bytesToWord bs) s

/-- Store one word. -/
def storeWord (a v : Word) (s : State) : Eff Unit := store a (wordBytes v) s

/-- The words of a list of bytes. -/
def bytesToWords : List Byte → List Word
  | b0 :: b1 :: b2 :: b3 :: rest => bytesToWord [b0, b1, b2, b3] :: bytesToWords rest
  | _ => []

/-- Load `n` consecutive words as one access (20_memory.md R144). -/
def loadWords (a : Word) (n : Nat) (s : State) : Eff (List Word) :=
  (load a (4 * n) s).bind fun bs s => .ok (bytesToWords bs) s

/-- Store consecutive words as one access. -/
def storeWords (a : Word) (ws : List Word) (s : State) : Eff Unit :=
  store a (ws.flatMap wordBytes) s

/-- Store words one by one, each at its address, in the order listed. -/
def storeList : List (Word × Word) → State → Eff Unit
  | [], s => .ok () s
  | (a, w) :: rest, s =>
    (storeWord a w s).bind fun _ s =>
      (if rest.isEmpty then .ok () s else gap s).bind fun _ s => storeList rest s

/-- The words `ws` with their addresses, rising from `a`. -/
def rising (a : Word) : List Word → List (Word × Word)
  | [] => []
  | w :: ws => (a, w) :: rising (a + 4) ws

/-- Store words one by one, at rising addresses. -/
def storeEach (a : Word) (ws : List Word) (s : State) : Eff Unit := storeList (rising a ws) s

/-- Load `n` words one by one, at rising addresses. -/
def loadEach (a : Word) : Nat → State → Eff (List Word)
  | 0, s => .ok [] s
  | n + 1, s =>
    (loadWord a s).bind fun w s => (if n = 0 then .ok () s else gap s).bind fun _ s =>
      (loadEach (a + 4) n s).bind fun ws s => .ok (w :: ws) s

/-- Load `n` words one by one, at falling addresses. -/
def loadDown (a : Word) : Nat → State → Eff (List Word)
  | 0, s => .ok [] s
  | n + 1, s =>
    (loadWord a s).bind fun w s => (if n = 0 then .ok () s else gap s).bind fun _ s =>
      (loadDown (a - 4) n s).bind fun ws s => .ok (w :: ws) s

/-- The byte of memory at an address, read without side effect: `none` where no memory answers
(registers, windows, holes). What statements about memory read. -/
def State.peek (s : State) (a : Word) : Option Byte :=
  match region a with
  | .ram => some (Memory.read s.mem a.toNat)
  | .bus =>
    match s.target a with
    | .memory k _ => some (Memory.read s.mem k)
    | _ => none
  | _ => none

/-! ## Instruction fetch -/

/-- The words a fetch of a key may see: the one in memory and those that stores have replaced since
the last invalidate (20_memory.md R155). The model's choice (log 23): where a memory window has been moved
since (MBBAR, DBAR, ATUCR), the words of the memory that now answers, none of the old window's. -/
def State.fetchChoices (s : State) (k : Nat) : List Word :=
  bytesToWord (Memory.readBytes s.mem k 4) :: (s.stale.filter fun e => e.1 == k).map (·.2)

/-- Fetch the word at a word address (20_memory.md R156, R155; 93 section 3). -/
def fetchWord (a : Word) (s : State) : Eff Word :=
  match region a with
  | .ram | .mmr => .trap .unimplemented s
  | .hole => .fault .reservedHole
  | .pmmr => .refuse .fetchFromPmmr
  | .reserved => .refuse .fetchFromReserved
  | .bus =>
    (takeBus s).bind fun _ s =>
      match s.target a with
      | .outbound => (coreRead a 4 s).bind fun bs s => .ok (bytesToWord bs) s
      | .nobody => .ok (draw s).1 (busTimeout .core a (draw s).2)
      | .memory k _ =>
        match s.fetchChoices k with
        | [w] => .ok w s
        | ws => .ok (ws.getD ((draw s).1.toNat % ws.length) 0) (draw s).2

end Sys2Proof.Machine
end

