-- ==== Sys2Proof/Machine/Ops.lean ====
section
/-! DEFINITION. The named operations of the core: register access, calls and the register cache
(spec/45_call_return.md), tracing (spec/62_tracing.md), taking a fault (spec/60_exceptions.md R717)
and an interrupt (spec/61_interrupts.md R835), and the return from each. -/

namespace Sys2Proof.Machine

/-! ## Registers -/

/-- `reg[n]` (30_encoding.md R232). -/
def State.reg (s : State) (n : Reg) : Word :=
  if n.getLsbD 4 then s.g[(n.setWidth 4).toNat]'(BitVec.isLt _)
  else s.r[(n.setWidth 4).toNat]'(BitVec.isLt _)

/-- A register as an instruction operand: r2 reads a free value (10_state.md R46). -/
def State.readReg (s : State) (n : Reg) (slot : Nat) : Word :=
  if n = 2 then s.undef slot else s.reg n

/-- `reg[n] <- v`. A change of the address or return type in r0 is remembered until the next
`flushreg` (45_call_return.md R545 e). -/
def State.setReg (s : State) (n : Reg) (v : Word) : State :=
  if n.getLsbD 4 then { s with g := s.g.set (n.setWidth 4).toNat v (BitVec.isLt _) }
  else
    { s with
      r := s.r.set (n.setWidth 4).toNat v (BitVec.isLt _)
      pfpDirty := if n = 0 then s.pfpDirty || decide ((v ^^^ s.r[0]) &&& 0xFFFFFFF7 ≠ 0)
        else s.pfpDirty }

/-- Write consecutive registers from `n` on. -/
def State.setRegs (s : State) (n : Reg) : List Word → State
  | [] => s
  | v :: vs => (s.setReg n v).setRegs (n + 1) vs

/-- FP, g15 (10_state.md R42). -/
def State.fp (s : State) : Word := s.g[15]

/-- SP, r1 (10_state.md R44). -/
def State.sp (s : State) : Word := s.r[1]

/-- PFP, r0 (10_state.md R44). -/
def State.pfp (s : State) : Word := s.r[0]

/-- IP[1:0] are 0 (10_state.md R53). -/
def State.setIp (s : State) (v : Word) : State := { s with ip := v &&& 0xFFFFFFFC }

/-- The implemented bits of AC: cc, of, om, nif (10_state.md R57, D22). -/
def acMask : Word := 0x00009107

/-- The implemented bits of PC: te, em, tfp, s, p (10_state.md R62, D22). -/
def pcMask : Word := 0x001F2403

/-- The implemented bits of TC: mode bits and event flags (10_state.md R68). -/
def tcMask : Word := 0x0F0000FE

/-- Write AC; reserved bits are not stored (D22). -/
def State.setAc (s : State) (v : Word) : State := { s with ac := v &&& acMask }

/-- Write PC; reserved bits are not stored (D22). -/
def State.setPc (s : State) (v : Word) : State := { s with pc := v &&& pcMask }

/-- Write TC; reserved bits are not stored (D1). -/
def State.setTc (s : State) (v : Word) : State := { s with tc := v &&& tcMask }

/-- PC.te (10_state.md R62). -/
def State.te (s : State) : Bool := bit s.pc 0

/-- PC.p (10_state.md R62). -/
def priority (pc : Word) : Nat := field pc 16 5

/-! ## The local register cache and the call operation -/

/-- `Spill(e)` (45_call_return.md R541): the set goes to its frame, as four quad-word stores. -/
def spill (e : Frame) (s : State) : Eff Unit :=
  let quad (i : Nat) : List Word := (e.regs.toList.drop (4 * i)).take 4
  (storeWords e.addr (quad 0) s).andGap.bind fun _ s =>
  (storeWords (e.addr + 16) (quad 1) s).andGap.bind fun _ s =>
  (storeWords (e.addr + 32) (quad 2) s).andGap.bind fun _ s =>
  storeWords (e.addr + 48) (quad 3) s

/-- The trap that a spill of `e` would end in. -/
def State.spillTrap (s : State) (e : Frame) : Option Trap :=
  [0, 16, 32, 48].findSome? fun i => s.storeTrap (e.addr + i) 16

/-- Whether a push with process controls `pc` onto `n` cached sets spills the oldest (R541, R542). -/
def State.pushSpills (s : State) (pc : Word) (n : Nat) : Bool :=
  let critical := bit pc 13 && decide (28 ≤ priority pc)
  n + 1 == 8 || (!critical && decide (8 - s.rcLimit.toNat ≤ n + 1))

/-- The current set as a cache entry: pushed under FP with its low bits masked (R541, D18). -/
def State.currentFrame (s : State) : Frame := { addr := s.fp &&& 0xFFFFFFF0, regs := s.r }

/-- `PushFrame` (R541); `pc` is the process controls in force after the call's own change. Refused
after software wrote g15 while frames are cached (R548 d). The model's choice (log 30): g15 is compared
with the value the processor wrote, so that software which wrote g15 and has put the old value back
goes on as if it had written nothing. The oldest set has left the cache when its spill traps (log 40). -/
def pushFrame (pc : Word) (s : State) : Eff Unit :=
  if s.rc ≠ [] && s.fp != s.frameAddr then .refuse .frameMismatch
  else
    let all := s.currentFrame :: s.rc
    if s.pushSpills pc s.rc.length then
      match all.getLast? with
      | some e => spill e { s with rc := all.dropLast }
      | none => .ok () s
    else .ok () { s with rc := all }

/-- The data accesses a push makes, for the data breakpoints (62_tracing.md R903). -/
structure Access where
  addr : Word
  size : Nat
  write : Bool
  deriving DecidableEq, Repr

/-- The spill accesses of a push. -/
def State.pushAccesses (s : State) (pc : Word) : List Access :=
  if s.pushSpills pc s.rc.length then
    match (s.currentFrame :: s.rc).getLast? with
    | some e => [{ addr := e.addr, size := 64, write := true }]
    | none => []
  else []

/-- The registers of a new frame: r0 and r1 written, the rest free (R547). -/
def newLocals (fresh : Nat) (pfp sp : Word) : Vector Word 16 :=
  ((Vector.ofFn fun i : Fin 16 => Config.undef fresh (100 + i.val)).set 0 pfp).set 1 sp

/-- The frames to be returned to with an r0 that software changed, once the current one is left: a
`ret` that uses such an r0 is refused as in the frame itself (R545 e, R548 f). -/
def State.leaveFrame (s : State) : List Word :=
  let f := s.fp &&& 0xFFFFFFF0
  let others := s.dirtyFrames.filter (· != f)
  if s.pfpDirty then f :: others else others

/-- Make the frame at `nfp` current, with `low` the four low bits of its PFP (R534). -/
def enterFrame (nfp : Word) (low : Word) (s : State) : State :=
  { s with
    r := newLocals s.fresh ((s.fp &&& 0xFFFFFFF0) ||| low) (nfp + 64)
    g := s.g.set 15 nfp
    frameAddr := nfp
    pfpDirty := false
    dirtyFrames := s.leaveFrame.filter (· != nfp)
    fresh := s.fresh + 1 }

/-- Whether a call made under process controls `pc` is a CALL trace event, so that the new frame's
PFP.p is set (R534, 62_tracing.md R888). -/
def State.callTraced (s : State) (pc : Word) : Bool := bit pc 0 && bit s.tc 3

/-- `CallOp` (R534) with return IP `next`, return status `rrr` and process controls `pc`, which are in
force from the push on (R539). A trap in the spill leaves the registers, PC and the cache as they
were. -/
def callOp (target base : Word) (rrr : Word) (next pc : Word) (s : State) : Eff Unit :=
  match pushFrame pc (({ s with r := s.r.set 2 next } : State).setPc pc) with
  | .ok _ s' =>
    .ok () ((enterFrame (align16 base) (rrr ||| bitAt (s'.callTraced pc) 3) s').setIp target)
  | .trap t s' => .trap t { s' with r := s.r, rc := s.rc, pc := s.pc }
  | .over s => .over s
  | .fault f => .fault f
  | .refuse r => .refuse r

/-- The registers of the frame at `f` as its save area holds them, four quad-word loads (R543, R575). -/
def loadFrame (f : Word) (s : State) : Eff (List Word) :=
  (loadWords f 4 s).andGap.bind fun q0 s => (loadWords (f + 16) 4 s).andGap.bind fun q1 s =>
  (loadWords (f + 32) 4 s).andGap.bind fun q2 s => (loadWords (f + 48) 4 s).bind fun q3 s =>
    .ok (q0 ++ q1 ++ q2 ++ q3) s

/-- `PopFrame` (R543); `f` is the frame returned to. -/
def popFrame (f : Word) (s : State) : Eff Unit :=
  match s.rc with
  | e :: rest =>
    if e.addr = f then .ok () { s with r := e.regs, rc := rest } else .refuse .frameMismatch
  | [] =>
    (loadFrame f s).bind fun ws s =>
      .ok () { s with r := Vector.ofFn fun i : Fin 16 => ws.getD i.val 0 }

/-- `get_FP_and_IP` (R566). Refused after software wrote g15 while frames are cached (R548 d); by the
model's choice not where the old value is back in g15, as for `pushFrame` (log 30). The model's choice
too (log 47): where the frame fill traps, g15, the locals and IP are as before the `ret`. -/
def getFpAndIp (s : State) : Eff Unit :=
  if s.rc ≠ [] && s.fp != s.frameAddr then .refuse .frameMismatch
  else
    let f := s.pfp &&& 0xFFFFFFF0
    (popFrame f s).bind fun _ s =>
      .ok () ({ s with
        g := s.g.set 15 f
        frameAddr := f
        pfpDirty := s.dirtyFrames.contains f
        dirtyFrames := s.dirtyFrames.filter (· != f) }.setIp s.r[2])

/-! ## Tracing -/

/-- What an instruction did that a trace event may report (62_tracing.md R885). -/
structure Events where
  branch : Bool := false
  call : Bool := false
  ret : Bool := false
  supervisor : Bool := false
  mark : Bool := false
  fmark : Bool := false
  /-- No INSTRUCTION event: the `ret` of a TRACE handler (R896, D32). -/
  silent : Bool := false
  /-- Explicit data accesses. -/
  accesses : List Access := []
  /-- Implicit data accesses: a match may or may not be an event (93 section 8). -/
  implicit : List Access := []
  /-- TC flags of data breakpoints matched before the instruction changed their registers. -/
  flags : Word := 0
  deriving DecidableEq, Repr

/-- An instruction that is no trace event but INSTRUCTION. -/
def Events.none : Events := {}

/-- Whether the enable bits of DABx, or the mode bits of IPBx, are a reserved combination
(62_tracing.md R902, R905). -/
def reservedPair (n : Nat) : Bool := n == 1 || n == 2

/-- A reserved breakpoint combination is in use (R902, R905). -/
def Debug.reserved (d : Debug) : Bool :=
  reservedPair (field d.ipb0 0 2) || reservedPair (field d.ipb1 0 2) ||
  reservedPair (field d.bpcon 16 2) || reservedPair (field d.bpcon 20 2)

/-- An armed IPB matches the instruction at `a` (R895). -/
def ipbMatch (ipb a : Word) : Bool := field ipb 0 2 == 3 && wordAddr ipb == wordAddr a

/-- DABx with its four BPCON bits matches one of the accesses (R895, R902, R903). -/
def dabMatch (dab : Word) (ctl : Nat) (acc : List Access) : Bool :=
  ctl % 4 == 3 && acc.any fun x =>
    decide ((dab - x.addr).toNat < x.size) && (if x.write then ctl / 4 != 2 else ctl / 4 != 0)

/-- The data breakpoint flags TC bits 27:26 of accesses (R895, R897): implicit ones count by a free
choice for each register (R903; log 45). -/
def State.dataFlags (s : State) (explicit implicit : List Access) : Word :=
  let hit (dab : Word) (ctl i : Nat) : Bool :=
    dabMatch dab ctl explicit || (dabMatch dab ctl implicit && bit (s.undef 50) i)
  bitAt (hit s.dbg.dab0 (field s.dbg.bpcon 16 4) 0) 26 |||
  bitAt (hit s.dbg.dab1 (field s.dbg.bpcon 20 4) 1) 27

/-- The breakpoint event flags TC bits 27:24 of an instruction at `a` (R895, R897). -/
def State.breakpointFlags (s : State) (a : Word) (ev : Events) : Word :=
  bitAt (ipbMatch s.dbg.ipb0 a) 24 ||| bitAt (ipbMatch s.dbg.ipb1 a) 25 |||
  s.dataFlags ev.accesses ev.implicit ||| ev.flags

/-- The trace event set T as subtype bits, with PC.te = 1 (62_tracing.md R885). -/
def State.traceBits (s : State) (flags : Word) (ev : Events) : Word :=
  bitAt (bit s.tc 1 && !ev.silent) 1 ||| bitAt (bit s.tc 2 && ev.branch) 2 |||
  bitAt (bit s.tc 3 && ev.call) 3 ||| bitAt (bit s.tc 4 && ev.ret) 4 |||
  bitAt (bit s.tc 6 && ev.supervisor) 6 |||
  bitAt ((bit s.tc 7 && ev.mark) || ev.fmark || decide (flags ≠ 0)) 7

/-! ## Taking a fault -/

/-- Type and subtype of a trap (60_exceptions.md R711). -/
def Trap.code : Trap → Nat × Word
  | .invalidOpcode => (2, 1)
  | .unimplemented => (2, 2)
  | .unaligned _ => (2, 3)
  | .invalidOperand => (2, 4)
  | .overflow => (3, 1)
  | .zeroDivide => (3, 2)
  | .range => (5, 1)
  | .length => (7, 2)
  | .mismatch => (10, 1)

/-- Whether a pending trace survives the fault (60_exceptions.md R724). -/
def Trap.keepsTrace : Trap → Bool
  | .overflow | .zeroDivide | .range | .unaligned _ => true
  | _ => false

/-- The record word: type in bits 23:16, subtype in bits 7:0 (R711). -/
def recordWord (code : Nat × Word) : Word := (BitVec.ofNat 32 code.1 <<< 16) ||| code.2

/-- What a fault call records (60_exceptions.md R715, R717). `none` is a value the source does not
define. -/
structure FaultRecord where
  code : Nat × Word
  fip : Option Word
  rip : Option Word
  data : Option Word := none
  /-- A kept trace (R771). -/
  pending : Option Pending := none
  /-- PC and AC when the fault was generated. -/
  oldPc : Word
  oldAc : Word
  deriving DecidableEq, Repr

/-- A TRACE fault (R711). -/
def FaultRecord.isTrace (f : FaultRecord) : Bool := f.code.1 == 1

/-- The 16 words of the record from NFP - 64 up (R715, R771, D27, D28); `second` is the second
fault of an override (R727). -/
def FaultRecord.words (f : FaultRecord) (second : Option Trap) (s : State) : List Word :=
  [ match f.pending with
    | some p => 0x00010000 ||| p.bits
    | none => 0,
    match f.pending with
    | some p => p.addr
    | none => s.undef 1,
    s.undef 2, s.undef 3, s.undef 4, s.undef 5, s.undef 6, s.undef 7, s.undef 8, s.undef 9,
    f.data.getD (s.undef 10),
    match second with
    | some t => recordWord t.code
    | none => s.undef 11,
    setBit f.oldPc 10 f.pending.isSome,
    f.oldAc,
    recordWord f.code,
    f.fip.getD (s.undef 12) ]

/-- The order in which the 16 words of the record are written (R717), as places from NFP - 64 up: NFP - 4,
- 8, - 12, - 16, the fault data at NFP - 24, then the rest. The order of the rest is the model's choice
(log 38): the override word at NFP - 20 (R727), then rising. -/
def recordOrder : List Nat := [15, 14, 13, 12, 10, 11, 0, 1, 2, 3, 4, 5, 6, 7, 8, 9]

/-- The words `ws` of a record at `a`, each with its address, in the order in which they are written. -/
def recordStores (a : Word) (ws : List Word) : List (Word × Word) :=
  recordOrder.map fun i => (a + BitVec.ofNat 32 (4 * i), ws.getD i 0)

/-- How a fault handler is entered (60_exceptions.md R718 to R720). -/
inductive HandlerKind where
  | localCall
  | supervisorCall
  deriving DecidableEq, Repr

/-- A selected fault handler: how it is entered, where it is, what was read of the tables. -/
structure Handler where
  kind : HandlerKind
  target : Word
  reads : List Access
  deriving DecidableEq, Repr

/-- A word read of a table. -/
def tableRead (a : Word) : Access := { addr := a, size := 4, write := false }

/-- Read the system procedure table entry of procedure `n` for a fault call (R717): every type but 10
is local. -/
def selectProcedure (n : Nat) (reads : List Access) (s : State) : Eff Handler :=
  if 259 < n then .trap .length s
  else
    let a := s.sptBase + 48 + 4 * BitVec.ofNat 32 n
    (loadWord a s).bind fun pe s =>
      .ok { kind := if field pe 0 2 = 2 then .supervisorCall else .localCall
            target := pe &&& 0xFFFFFFFC, reads := reads ++ [tableRead a] } s

/-- Read fault table entry `tt` (R712, R713, R717). -/
def selectHandler (tt : Nat) (s : State) : Eff Handler :=
  let a := s.faultBase + 8 * BitVec.ofNat 32 tt
  (loadWord a s).bind fun e s =>
    match field e 0 2 with
    | 0 => .ok { kind := .localCall, target := e &&& 0xFFFFFFFC, reads := [tableRead a] } s
    | 2 => (gap s).bind fun _ s => selectProcedure (field e 2 30) [tableRead a] s
    | _ => .refuse .faultEntryReserved

/-- The processor stops with a fail code (70_reset_and_hazards.md R1313): one read of the local bus at
the code itself, and nothing more until a reset. -/
def failStop (code : Word) (s : State) : State :=
  match (takeBus s).bind fun _ s => busRead .core .inboundUndescribed code 4 s with
  | .ok _ s => { s with run := .stopped code }
  | .over s => s
  | _ => { s with run := .stopped code }

/-- The system error state (60_exceptions.md R728; 70 R1313). -/
def systemError (s : State) : State := failStop 0xFEFFFF68 s

/-- The address of the handler's frame (60_exceptions.md R716). -/
def faultFrame (nsp : Word) : Word := align16 nsp + 80

/-- A record at `nfp` has been written: a trace kept in it is remembered, one that lay there before is
gone (R771). -/
def State.keepTrace (s : State) (nfp : Word) (p : Option Pending) : State :=
  let others := s.kept.filter fun k => k.frame != nfp
  { s with
    kept := match p with
      | some k => { k with frame := nfp } :: others
      | none => others }

/-- The fault call for an override condition (R727, D29): supervisor mode, the record of the first
fault with the second in NFP - 20, handler through entry 0 by a system-supervisor call, PC.te = 0.
Any failure is a system error (R728). The model's choice (log 40): entry 0 is read before the frame is
pushed and the record written, as in R717's code, not after the record as R727 lists them. `pushed`:
the faulting frame is already in the cache. -/
def overrideCall (f : FaultRecord) (second : Trap) (pushed : Bool) (s : State) : Res :=
  match (gap s).bind fun _ s => (selectHandler 0 s).andGap with
  | .trap _ s => .next (systemError s)
  | .over s => .next s
  | .fault x => .fault x
  | .refuse x => .refused x
  | .ok h s =>
    if h.kind = .localCall then .refused .faultHandlerLocal
    else
      let nsp := if bit f.oldPc 1 then s.sp else s.ssp
      let s := s.setPc (setBit (setBit s.pc 1 true) 0 false)
      let s := if pushed then s else { s with r := s.r.set 2 (f.rip.getD (s.undef 13)) }
      let nfp := faultFrame nsp
      match (if pushed then Eff.ok () s else (pushFrame s.pc s).andGap).bind fun _ s =>
          storeList (recordStores (nfp - 64) (f.words (some second) s)) s.bump with
      | .ok _ s => .next (((enterFrame nfp 1 s).keepTrace nfp f.pending).setIp h.target)
      | .trap _ s => .next (systemError s)
      | .over s => .next s
      | .fault x => .fault x
      | .refuse x => .refused x

/-- PC after the fault call (R717, R720). -/
def faultPc (f : FaultRecord) (kind : HandlerKind) (s : State) : Word :=
  match kind with
  | .localCall => s.pc
  | .supervisorCall => setBit (setBit s.pc 1 true) 0 (!f.isTrace && s.sspTe)

/-- `FaultCall` (60_exceptions.md R717): TAKING A FAULT. Select the handler, save the return IP in
r2 of the faulting frame, push that frame, switch stack and mode as the handler's entry says, write
the record, enter the handler's frame; `k` goes on with the data accesses made. A fault on the way is
an override condition (R727). Others may have the bus before its first access (64_cpcu_memctl_arb.md
R1044). -/
def faultCall (f : FaultRecord) (s : State) (k : List Access → State → Res) : Res :=
  match (gap s).bind fun _ s => (selectHandler f.code.1 s).andGap with
  | .trap t s => overrideCall f t false s
  | .over s => .next s
  | .fault x => .fault x
  | .refuse x => .refused x
  | .ok h s =>
    if f.isTrace && h.kind = .localCall then .refused .faultHandlerLocal
    else
      let nsp := if h.kind = .supervisorCall && !s.supervisor then s.ssp else s.sp
      let nfp := faultFrame nsp
      let s := { s with r := s.r.set 2 (f.rip.getD (s.undef 13)) }
      let s := s.setPc (faultPc f h.kind s)
      let made := h.reads ++ s.pushAccesses s.pc ++ [{ addr := nfp - 64, size := 64, write := true }]
      match (pushFrame s.pc s).andGap.bind fun _ s =>
          storeList (recordStores (nfp - 64) (f.words none s)) s.bump with
      | .trap t s => overrideCall f t true s
      | .over s => .next s
      | .fault x => .fault x
      | .refuse x => .refused x
      | .ok _ s =>
        let p := s.te && bit s.tc 3 && !f.isTrace
        k made (((enterFrame nfp (1 ||| bitAt p 3) s).keepTrace nfp f.pending).setIp h.target)

/-- The TRACE fault (R741; 62_tracing.md R897): event flags set in TC, then the fault call. PC
is saved with its pending-trace flag cleared, unless `pending` is still to come (R771, D28). -/
def traceFault (bits flags : Word) (fip rip : Option Word) (pending : Option Pending)
    (s : State) : Res :=
  let s := s.setTc (s.tc ||| flags)
  let s := s.setPc (setBit s.pc 10 false)
  faultCall { code := (1, bits), fip := fip, rip := rip, pending := pending
              oldPc := s.pc, oldAc := s.ac } s fun _ s => .next s

/-- After a non-trace fault call that made the accesses `made`: the CALL trace of the call itself
(R706 step 7, R721), and by a free choice a data breakpoint (62_tracing.md R903). Not after an
override, which leaves PC.te = 0. -/
def traceFaultCall (made : List Access) (s : State) : Res :=
  if s.te then
    let flags := s.dataFlags [] made
    let bits := bitAt (bit s.tc 3) 3 ||| bitAt (decide (flags ≠ 0)) 7
    if bits = 0 then .next s else traceFault bits flags none (some s.ip) none s
  else .next s

/-- RIP of a trap (60_exceptions.md R733 to R739): the next instruction for ARITHMETIC, the
instruction itself for PROTECTION.LENGTH, else no defined value. -/
def Trap.rip (t : Trap) (next this : Word) : Option Word :=
  match t with
  | .overflow | .zeroDivide => some next
  | .length => some this
  | _ => none

/-- Fault data of a trap: the effective address of an unaligned access (R735). -/
def Trap.data : Trap → Option Word
  | .unaligned a => some a
  | _ => none

/-- The trace that an instruction at `s.ip` leaves pending in the record of a fault (R724): its trace
events where the fault keeps them; else only, by a free choice, a data breakpoint on an access to core
MMR space (62_tracing.md R903). -/
def State.keptTrace (s : State) (keeps : Bool) (ev : Events) : Option Pending :=
  let flags := if keeps then s.breakpointFlags s.ip ev
    else s.dataFlags [] ((ev.accesses ++ ev.implicit).filter fun x => touchesMmr x.addr x.size)
  let bits := if keeps then s.traceBits flags ev else bitAt (decide (flags ≠ 0)) 7
  if s.te && bits != 0 then some { bits := bits, addr := s.ip, flags := flags } else none

/-- An instruction at `s.ip` raises a non-trace fault (60_exceptions.md R706 steps 5 to 7): `s`
holds its effects so far, `next` is the instruction after it, `ev` what it did. Trace events on it
are kept or dropped with the fault (R724). -/
def raise (t : Trap) (ev : Events) (next : Word) (s : State) : Res :=
  if s.te && s.dbg.reserved then .refused .breakpointReserved
  else
    faultCall
      { code := t.code, fip := some s.ip, rip := t.rip next s.ip, data := t.data
        pending := s.keptTrace t.keepsTrace ev
        oldPc := s.pc, oldAc := s.ac } s.bump traceFaultCall

/-- An instruction at `a` has completed, IP stands at its successor: report its trace events
(62_tracing.md R885, 60_exceptions.md R706 step 6). -/
def traceAfter (a : Word) (ev : Events) (s : State) : Res :=
  if s.te then
    if s.dbg.reserved then .refused .breakpointReserved
    else
      let flags := s.breakpointFlags a ev
      let bits := s.traceBits flags ev
      if bits = 0 then .next s.bump else traceFault bits flags (some a) (some s.ip) none s.bump
  else .next s.bump

/-- An instruction at `s.ip` completes and goes on at `next`. -/
def retire (ev : Events) (next : Word) (s : State) : Res :=
  traceAfter s.ip ev (s.setIp next)

/-- An instruction of one word with no event of its own completes. -/
def advance (s : State) : Res := retire .none (s.ip + 4) s

/-- What becomes of an operation that may trap, in an instruction of `len` bytes whose events are
`ev`. A reset of the core ends the instruction (64_cpcu_memctl_arb.md R975). -/
def orRaise {α : Type} (ev : Events) (len : Word) (s0 : State) (x : Eff α) (k : α → State → Res) :
    Res :=
  match x with
  | .ok v s => k v s
  | .trap t s => raise t ev (s0.ip + len) { s with ip := s0.ip }
  | .over s => .next s
  | .fault f => .fault f
  | .refuse r => .refused r

/-! ## Returns -/

/-- What a return operation reads besides the frame it returns to (62_tracing.md R903). -/
def State.fillAccesses (s : State) : List Access :=
  match s.rc with
  | [] => [{ addr := s.pfp &&& 0xFFFFFFF0, size := 64, write := false }]
  | _ :: _ => []

/-- The record words PC and AC below the handler's frame. -/
def State.recordAccesses (s : State) : List Access := [tableRead (s.fp - 16), tableRead (s.fp - 12)]

/-- Prereturn trace (R567, 62_tracing.md R890): the flag is cleared, the `ret` will be executed
again. -/
def prereturnTrace (s : State) : Res :=
  let s := s.bump
  traceFault 0x20 0 none (some s.ip) none { s with r := s.r.set 0 (setBit s.pfp 3 false) }

/-- Whether a prereturn trace comes before this `ret` (R560). -/
def State.prereturn (s : State) : Bool := bit s.pfp 3 && s.te && bit s.tc 5

/-- Local return (R561). -/
def localReturn (s : State) : Res :=
  let ev : Events := { ret := true, implicit := s.fillAccesses }
  orRaise ev 4 s (getFpAndIp s) fun _ s' => traceAfter s.ip ev s'

/-- Supervisor return (R563): back to user mode with the saved trace enable `t`. The model's choice
(log 47): PC too is as before where the frame fill traps, although R563 writes it first. -/
def supervisorReturn (t : Bool) (s : State) : Res :=
  let ev : Events := { ret := true, supervisor := s.supervisor, implicit := s.fillAccesses }
  let pc := if s.supervisor then setBit (setBit s.pc 1 false) 0 t else s.pc
  orRaise ev 4 s (getFpAndIp s) fun _ s' => traceAfter s.ip ev (s'.setPc pc)

/-- Supervisor-mode restore of PC (R562, R565). -/
def restorePc (wasSupervisor : Bool) (pc : Word) (s : State) : State :=
  if wasSupervisor then s.setPc pc else s

/-- Saved PC and AC below the handler's frame (R562, R565). -/
def loadSaved (s : State) : Eff (Word × Word) :=
  (loadWord (s.fp - 16) s).andGap.bind fun pc s =>
    (loadWord (s.fp - 12) s).andGap.bind fun ac s => .ok (pc, ac) s

/-- Whether a fault return reads the resumption words: the restored PC has a pending trace, which is
lost when the return is made in user mode (60_exceptions.md R771). -/
def readsPending (wasSupervisor : Bool) (pc : Word) : Bool :=
  wasSupervisor && bit pc 0 && bit pc 10

/-- The pending trace that the resumption words `x` and `a` of the record below `f` name: the one the
fault call wrote there; else, software having altered them, with breakpoint flags by the present
registers and a free choice (log 33). -/
def State.pendingAt (s : State) (f x a : Word) : Pending :=
  let bits := x &&& 0xFF
  match s.kept.find? fun k => k.frame == f && k.bits == bits && k.addr == a with
  | some k => k
  | none =>
    { bits := bits, addr := a
      flags := if bit bits 7 then
          bitAt (ipbMatch s.dbg.ipb0 a) 24 ||| bitAt (ipbMatch s.dbg.ipb1 a) 25 |||
          bitAt (field s.dbg.bpcon 16 2 == 3 && bit (s.undef 51) 0) 26 |||
          bitAt (field s.dbg.bpcon 20 2 == 3 && bit (s.undef 51) 1) 27
        else 0 }

/-- A trace left pending by the faulting instruction: PC's flags, then the resumption words of the
record (60_exceptions.md R771). -/
def loadPending (wasSupervisor : Bool) (pc : Word) (s : State) : Eff (Option Pending) :=
  if readsPending wasSupervisor pc then
    (loadWord (s.fp - 64) s).andGap.bind fun x s => (loadWord (s.fp - 60) s).andGap.bind fun a s =>
      .ok (some (s.pendingAt s.fp x a)) s
  else .ok none s

/-- The trace events of a fault return at `a`: its own first, then the pending one
(60_exceptions.md R771, D28). -/
def traceFaultReturn (a : Word) (ev : Events) (pending : Option Pending) (s : State) : Res :=
  if s.te then
    if s.dbg.reserved then .refused .breakpointReserved
    else
      let flags := s.breakpointFlags a ev
      let bits := s.traceBits flags ev
      if bits ≠ 0 then traceFault bits flags (some a) (some s.ip) pending s.bump
      else
        match pending with
        | some p => traceFault p.bits p.flags (some p.addr) (some s.ip) none s.bump
        | none => .next s.bump
  else .next s.bump

/-- What a fault return reads of the record (R562; 60_exceptions.md R771): saved PC and AC, the type of
the fault, a pending trace. The model's choice (log 39): in this order, and before the frame
returned to is filled. -/
def loadRecord (s : State) : Eff ((Word × Word) × Word × Option Pending) :=
  let sup := s.supervisor
  (loadSaved s).bind fun saved s => (loadWord (s.fp - 8) s).andGap.bind fun code s =>
    (loadPending sup saved.1 s).bind fun pending s => .ok (saved, code, pending) s

/-- Fault return (R562; 60_exceptions.md R770, R771; 62_tracing.md R896, R897): RETURN FROM A FAULT.
AC and, in supervisor mode, PC come back from the record, the faulting frame is restored. After a
TRACE handler the event flags of TC are cleared and the `ret` is no RETURN or INSTRUCTION event. -/
def faultReturn (s : State) : Res :=
  let sup := s.supervisor
  let ev : Events :=
    { ret := true, accesses := s.recordAccesses ++ [tableRead (s.fp - 8)]
      implicit := s.fillAccesses }
  let body := (loadRecord s).bind fun v s1 => (getFpAndIp s1).bind fun _ s2 => .ok v s2
  orRaise ev 4 s body fun v s' =>
    let trace := field v.2.1 16 8 == 1
    let s' := restorePc sup v.1.1 (s'.setAc v.1.2)
    let s' := if trace then s'.setTc (s'.tc &&& 0xF0FFFFFF) else s'
    let ev := { ev with
      ret := !trace, silent := trace
      accesses := if readsPending sup v.1.1 then
        ev.accesses ++ [tableRead (s.fp - 64), tableRead (s.fp - 60)] else ev.accesses }
    traceFaultReturn s.ip ev v.2.2 s'

/-- Interrupt return (R565; 61_interrupts.md R839): RETURN FROM AN INTERRUPT. In supervisor mode PC
is restored, NMI is unblocked and nothing is traced; in user mode the `ret` is traced as it stands,
but is no RETURN event (62_tracing.md R889). -/
def interruptReturn (s : State) : Res :=
  let sup := s.supervisor
  let ev : Events := { accesses := s.recordAccesses, implicit := s.fillAccesses }
  let body : Eff (Word × Word) :=
    (loadSaved s).bind fun saved s1 => (getFpAndIp s1).bind fun _ s2 => .ok saved s2
  orRaise ev 4 s body fun v s' =>
    let s' := restorePc sup v.1 (s'.setAc v.2)
    if sup then .next { s' with intc := { s'.intc with blockNmi := false } }.bump
    else traceAfter s.ip ev s'

/-! ## Taking an interrupt -/

/-- What is delivered (61_interrupts.md R834 to R837). -/
inductive InterruptKind where
  | nmi
  | software
  | hardware (source : Nat)
  deriving DecidableEq, Repr

/-- Vector fetch (61_interrupts.md R845): NMI and, with ICON.vce, vectors xxxx0010 from data RAM,
else from the interrupt table. The model's choice (log 87): vector 248 found posted in the table is
fetched as NMI's is. -/
def vectorEntry (vec : Nat) (s : State) : Eff Word :=
  if vec = 248 then loadWord 0 s
  else if bit s.intc.icon 13 && vec % 16 == 2 then loadWord (BitVec.ofNat 32 (vec / 16 * 4)) s
  else loadWord (s.intBase + 4 + 4 * BitVec.ofNat 32 vec) s

/-- PC of an interrupt handler (R835): supervisor, interrupted, its priority, no tracing. -/
def interruptPc (prio : Nat) : Word := 0x00002002 ||| (BitVec.ofNat 32 prio <<< 16)

/-- IMSK saved in r3 and optionally cleared at a hardware interrupt (R837). -/
def saveMask (s : State) : State :=
  { s with
    r := s.r.set 3 s.intc.imsk
    intc := { s.intc with imsk := if field s.intc.icon 11 2 = 1 then 0 else s.intc.imsk } }

/-- Delivery of an interrupt (61_interrupts.md R835): TAKING AN INTERRUPT. The interrupted frame
gets its return IP and is pushed, PC, AC and the vector number go below the new frame on the
interrupt stack, PC becomes the handler's, execution goes to the vector. A fault on the way is not
described by the source. -/
def deliver (kind : InterruptKind) (vec : Nat) (s : State) : Eff Unit :=
  let prio := vec / 8
  let base := if bit s.pc 13 then s.sp else s.isp
  let nfp := align16 base + 16
  let next := s.ip
  (pushFrame (interruptPc prio) { s with r := s.r.set 2 next }).andGap.bind fun _ s =>
  (storeEach (nfp - 16) [s.pc, s.ac, BitVec.ofNat 32 vec, 0] s).andGap.bind fun _ s =>
    let s := (enterFrame nfp 7 s).setPc (interruptPc prio)
    let s := match kind with
      | .hardware _ => saveMask s
      | _ => s
    (vectorEntry vec s).bind fun entry s =>
      if bit entry 0 then .refuse .vectorReserved
      else .ok () ({ s with halted := false }.setIp entry)

/-- `check_pending_interrupts` of a software interrupt (61_interrupts.md R836): find the posted
vector in the table, clear its bits, update `SW_Int_Priority`, deliver. The model's choice (log 45): its
reads and writes of the table are no data breakpoint event (62_tracing.md R903), also where it
delivers nothing and PC.te stays 1; and (log 78) where the table lies in an outbound ATU window its
locked accesses wait for the ATU, others having the bus meanwhile (20_memory.md R154). -/
def checkTable (s : State) : Eff Unit :=
  let setPrio (x : Nat) (s : State) : State :=
    { s with intc := { s.intc with swPrio := BitVec.ofNat 5 ((topBit x 32).getD 0) } }
  (loadWord s.intBase s).bind fun x s =>
  match topBit x.toNat 32 with
  | none => (storeWord s.intBase x s).bind fun _ s => .ok () (setPrio 0 s)
  | some y =>
    if y ≠ 31 && decide (y ≤ priority s.pc) then
      (storeWord s.intBase x s).bind fun _ s => .ok () (setPrio x.toNat s)
    else
      let za := s.intBase + 4 + BitVec.ofNat 32 y
      (load za 1 s).bind fun zs s =>
      let z := (bytesToWord zs).toNat
      match topBit z 8 with
      | none =>
        let x' := setBit x y false
        (storeWord s.intBase x' s).bind fun _ s => .ok () (setPrio x'.toNat s)
      | some w =>
        let z' := z - 2 ^ w
        let x' := if z' = 0 then setBit x y false else x
        (store za [BitVec.ofNat 8 z'] s).bind fun _ s =>
        (storeWord s.intBase x' s).bind fun _ s =>
          (gap (setPrio x'.toNat s)).bind fun _ s => deliver .software (8 * y + w) s

/-- What interrupt resolution selects (61_interrupts.md R834). -/
def State.selectInterrupt (s : State) : Option InterruptKind :=
  if s.intc.nmiPending && !s.intc.blockNmi then some .nmi
  else if bit s.intc.icon 10 || s.intc.blockNmi then none
  else
    let hw := s.intc.hardwarePriority
    let sw := s.intc.swPrio.toNat
    let top := max hw sw
    if top = 31 || decide (priority s.pc < top) then
      if hw < sw then some .software
      else (s.intc.hardwareSource).map .hardware
    else none

/-- Deliver what was selected (61_interrupts.md R830, R834, R836, R837). -/
def deliverInterrupt (kind : InterruptKind) (s : State) : Eff Unit :=
  match kind with
  | .nmi => deliver .nmi 248 { s with intc := { s.intc with blockNmi := true, nmiPending := false } }
  | .software => checkTable s
  | .hardware i =>
    if 2 ≤ field s.intc.icon 11 2 then .refuse .iconMaskOperation
    else
      let vec := s.intc.mapField i * 16 + 2
      let ipnd := setBit s.intc.ipnd i false ||| s.inputs
      deliver (.hardware i) vec { s with intc := { s.intc with ipnd := ipnd } }

/-- An interrupt delivery as a step: a trap inside it is not described. -/
def takeInterrupt (kind : InterruptKind) (s : State) : Res :=
  (deliverInterrupt kind s).close .interruptDeliveryFault fun _ s => .next s.bump

end Sys2Proof.Machine
end

