-- ==== Sys2Proof/Syntax.lean ====
section
/-! DEFINITION. The instructions of the i960 VH: one constructor of `Instr` per row of
spec/opcode_table.json, its operands in assembler order (spec/30_encoding.md R223 to R246).
Fields an instruction does not use are ignored (R220) and have no place here. -/

namespace Sys2Proof

/-- A `src1` or `src2` operand of the REG format (30_encoding.md R224): a register, a literal
0 to 31, or the reserved form with the S bit set (R225), which keeps its M bit and number. -/
inductive Src where
  | reg (n : Reg)
  | lit (n : BitVec 5)
  | sfr (m : Bool) (n : BitVec 5)
  deriving DecidableEq, Repr

/-- The `src/dst` operand of the REG format (30_encoding.md R224): a register, or the form with
M3 = 1, a literal where the field is only a source and reserved where it is written (R225). For
`test<cc>` it is the src1 field, M1 in the place of M3 (R226). -/
inductive SrcDst where
  | reg (n : Reg)
  | lit (n : BitVec 5)
  deriving DecidableEq, Repr

/-- The `src1` operand of the COBR format (30_encoding.md R226): a register or a literal. -/
inductive CSrc where
  | reg (n : Reg)
  | lit (n : BitVec 5)
  deriving DecidableEq, Repr

/-- The `src2` operand of the COBR format (30_encoding.md R226): a register, or the reserved form
with S2 = 1. -/
inductive CReg where
  | reg (n : Reg)
  | sfr (n : BitVec 5)
  deriving DecidableEq, Repr

/-- The index multiplier of a MEMB address (30_encoding.md R243). -/
inductive Scale where
  | x1 | x2 | x4 | x8 | x16
  deriving DecidableEq, Repr

/-- The nine addressing modes of the MEM format (30_encoding.md R241, R242; 20_memory.md R160). -/
inductive MemOp where
  /-- MEMA mode 00: absolute offset. -/
  | absOff (off : BitVec 12)
  /-- MEMA mode 10: register indirect with offset. -/
  | regOff (abase : Reg) (off : BitVec 12)
  /-- MEMB mode 0100: register indirect. -/
  | regInd (abase : Reg)
  /-- MEMB mode 0101: IP with displacement. -/
  | ipDisp (disp : Word)
  /-- MEMB mode 0111: register indirect with index. -/
  | regIdx (abase : Reg) (scale : Scale) (index : Reg)
  /-- MEMB mode 1100: absolute displacement. -/
  | absDisp (disp : Word)
  /-- MEMB mode 1101: register indirect with displacement. -/
  | regDisp (abase : Reg) (disp : Word)
  /-- MEMB mode 1110: index with displacement. -/
  | idxDisp (scale : Scale) (index : Reg) (disp : Word)
  /-- MEMB mode 1111: register indirect with index and displacement. -/
  | regIdxDisp (abase : Reg) (scale : Scale) (index : Reg) (disp : Word)
  deriving DecidableEq, Repr

/-- Whether the address takes a second instruction word (30_encoding.md R245). -/
def MemOp.twoWords : MemOp → Bool
  | .absOff _ | .regOff _ _ | .regInd _ | .regIdx _ _ _ => false
  | .ipDisp _ | .absDisp _ | .regDisp _ _ | .idxDisp _ _ _ | .regIdxDisp _ _ _ _ => true

/-- The instructions (30_encoding.md R250 to R253). -/
inductive Instr where
  /-- REG 580H, R415. -/
  | notbit (s1 s2 : Src) (d : SrcDst)
  /-- REG 581H, R401. -/
  | and (s1 s2 : Src) (d : SrcDst)
  /-- REG 582H, R402. -/
  | andnot (s1 s2 : Src) (d : SrcDst)
  /-- REG 583H, R413. -/
  | setbit (s1 s2 : Src) (d : SrcDst)
  /-- REG 584H, R403. -/
  | notand (s1 s2 : Src) (d : SrcDst)
  /-- REG 586H, R409. -/
  | xor (s1 s2 : Src) (d : SrcDst)
  /-- REG 587H, R405. -/
  | or (s1 s2 : Src) (d : SrcDst)
  /-- REG 588H, R408. -/
  | nor (s1 s2 : Src) (d : SrcDst)
  /-- REG 589H, R410. -/
  | xnor (s1 s2 : Src) (d : SrcDst)
  /-- REG 58AH, R411. -/
  | not (s : Src) (d : SrcDst)
  /-- REG 58BH, R406. -/
  | ornot (s1 s2 : Src) (d : SrcDst)
  /-- REG 58CH, R414. -/
  | clrbit (s1 s2 : Src) (d : SrcDst)
  /-- REG 58DH, R407. -/
  | notor (s1 s2 : Src) (d : SrcDst)
  /-- REG 58EH, R404. -/
  | nand (s1 s2 : Src) (d : SrcDst)
  /-- REG 58FH, R416. -/
  | alterbit (s1 s2 : Src) (d : SrcDst)
  /-- REG 590H, R333. -/
  | addo (s1 s2 : Src) (d : SrcDst)
  /-- REG 591H, R334. -/
  | addi (s1 s2 : Src) (d : SrcDst)
  /-- REG 592H, R335. -/
  | subo (s1 s2 : Src) (d : SrcDst)
  /-- REG 593H, R336. -/
  | subi (s1 s2 : Src) (d : SrcDst)
  /-- REG 594H, R453. -/
  | cmpob (s1 s2 : Src)
  /-- REG 595H, R454. -/
  | cmpib (s1 s2 : Src)
  /-- REG 596H, R455. -/
  | cmpos (s1 s2 : Src)
  /-- REG 597H, R456. -/
  | cmpis (s1 s2 : Src)
  /-- REG 598H, R349. -/
  | shro (s1 s2 : Src) (d : SrcDst)
  /-- REG 59AH, R352. -/
  | shrdi (s1 s2 : Src) (d : SrcDst)
  /-- REG 59BH, R351. -/
  | shri (s1 s2 : Src) (d : SrcDst)
  /-- REG 59CH, R348. -/
  | shlo (s1 s2 : Src) (d : SrcDst)
  /-- REG 59DH, R353. -/
  | rotate (s1 s2 : Src) (d : SrcDst)
  /-- REG 59EH, R350. -/
  | shli (s1 s2 : Src) (d : SrcDst)
  /-- REG 5A0H, R451. -/
  | cmpo (s1 s2 : Src)
  /-- REG 5A1H, R452. -/
  | cmpi (s1 s2 : Src)
  /-- REG 5A2H, R457. -/
  | concmpo (s1 s2 : Src)
  /-- REG 5A3H, R458. -/
  | concmpi (s1 s2 : Src)
  /-- REG 5A4H, R459. -/
  | cmpinco (s1 s2 : Src) (d : SrcDst)
  /-- REG 5A5H, R460. -/
  | cmpinci (s1 s2 : Src) (d : SrcDst)
  /-- REG 5A6H, R461. -/
  | cmpdeco (s1 s2 : Src) (d : SrcDst)
  /-- REG 5A7H, R462. -/
  | cmpdeci (s1 s2 : Src) (d : SrcDst)
  /-- REG 5ACH, R421. -/
  | scanbyte (s1 s2 : Src)
  /-- REG 5ADH, R422. -/
  | bswap (s : Src) (d : SrcDst)
  /-- REG 5AEH, R463. -/
  | chkbit (s1 s2 : Src)
  /-- REG 5B0H, R337. -/
  | addc (s1 s2 : Src) (d : SrcDst)
  /-- REG 5B2H, R338. -/
  | subc (s1 s2 : Src) (d : SrcDst)
  /-- REG 5B4H, R627. -/
  | intdis
  /-- REG 5B5H, R628. -/
  | inten
  /-- REG 5CCH, R301. -/
  | mov (s : Src) (d : SrcDst)
  /-- REG 5D8H, R354. -/
  | eshro (s1 s2 : Src) (d : SrcDst)
  /-- REG 5DCH, R302. -/
  | movl (s : Src) (d : SrcDst)
  /-- REG 5ECH, R303. -/
  | movt (s : Src) (d : SrcDst)
  /-- REG 5FCH, R304. -/
  | movq (s : Src) (d : SrcDst)
  /-- REG 610H, R611. -/
  | atmod (s1 s2 : Src) (d : SrcDst)
  /-- REG 612H, R610. -/
  | atadd (s1 s2 : Src) (d : SrcDst)
  /-- REG 640H, R418. -/
  | spanbit (s : Src) (d : SrcDst)
  /-- REG 641H, R417. -/
  | scanbit (s : Src) (d : SrcDst)
  /-- REG 645H, R622. -/
  | modac (s1 s2 : Src) (d : SrcDst)
  /-- REG 650H, R420. -/
  | modify (s1 s2 : Src) (d : SrcDst)
  /-- REG 651H, R419. -/
  | extract (s1 s2 : Src) (d : SrcDst)
  /-- REG 654H, R606. -/
  | modtc (s1 s2 : Src) (d : SrcDst)
  /-- REG 655H, R621. -/
  | modpc (s1 s2 : Src) (d : SrcDst)
  /-- REG 658H, R626. -/
  | intctl (s : Src) (d : SrcDst)
  /-- REG 659H, R655. -/
  | sysctl (s1 s2 : Src) (d : SrcDst)
  /-- REG 65BH, R640. -/
  | icctl (s1 s2 : Src) (d : SrcDst)
  /-- REG 65CH, R650. -/
  | dcctl (s1 s2 : Src) (d : SrcDst)
  /-- REG 65DH, R690. -/
  | halt (s : Src)
  /-- REG 660H, R539. -/
  | calls (s : Src)
  /-- REG 66BH, R604. -/
  | mark
  /-- REG 66CH, R605. -/
  | fmark
  /-- REG 66DH, R549. -/
  | flushreg
  /-- REG 66FH, R603. -/
  | syncf
  /-- REG 670H, R346. -/
  | emul (s1 s2 : Src) (d : SrcDst)
  /-- REG 671H, R347. -/
  | ediv (s1 s2 : Src) (d : SrcDst)
  /-- REG 701H, R339. -/
  | mulo (s1 s2 : Src) (d : SrcDst)
  /-- REG 708H, R343. -/
  | remo (s1 s2 : Src) (d : SrcDst)
  /-- REG 70BH, R341. -/
  | divo (s1 s2 : Src) (d : SrcDst)
  /-- REG 741H, R340. -/
  | muli (s1 s2 : Src) (d : SrcDst)
  /-- REG 748H, R344. -/
  | remi (s1 s2 : Src) (d : SrcDst)
  /-- REG 749H, R345. -/
  | modi (s1 s2 : Src) (d : SrcDst)
  /-- REG 74BH, R342. -/
  | divi (s1 s2 : Src) (d : SrcDst)
  /-- REG 780H, R356. -/
  | addono (s1 s2 : Src) (d : SrcDst)
  /-- REG 781H, R364. -/
  | addino (s1 s2 : Src) (d : SrcDst)
  /-- REG 782H, R373. -/
  | subono (s1 s2 : Src) (d : SrcDst)
  /-- REG 783H, R381. -/
  | subino (s1 s2 : Src) (d : SrcDst)
  /-- REG 784H, R307. -/
  | selno (s1 s2 : Src) (d : SrcDst)
  /-- REG 790H, R357. -/
  | addog (s1 s2 : Src) (d : SrcDst)
  /-- REG 791H, R365. -/
  | addig (s1 s2 : Src) (d : SrcDst)
  /-- REG 792H, R374. -/
  | subog (s1 s2 : Src) (d : SrcDst)
  /-- REG 793H, R382. -/
  | subig (s1 s2 : Src) (d : SrcDst)
  /-- REG 794H, R308. -/
  | selg (s1 s2 : Src) (d : SrcDst)
  /-- REG 7A0H, R358. -/
  | addoe (s1 s2 : Src) (d : SrcDst)
  /-- REG 7A1H, R366. -/
  | addie (s1 s2 : Src) (d : SrcDst)
  /-- REG 7A2H, R375. -/
  | suboe (s1 s2 : Src) (d : SrcDst)
  /-- REG 7A3H, R383. -/
  | subie (s1 s2 : Src) (d : SrcDst)
  /-- REG 7A4H, R309. -/
  | sele (s1 s2 : Src) (d : SrcDst)
  /-- REG 7B0H, R359. -/
  | addoge (s1 s2 : Src) (d : SrcDst)
  /-- REG 7B1H, R367. -/
  | addige (s1 s2 : Src) (d : SrcDst)
  /-- REG 7B2H, R376. -/
  | suboge (s1 s2 : Src) (d : SrcDst)
  /-- REG 7B3H, R384. -/
  | subige (s1 s2 : Src) (d : SrcDst)
  /-- REG 7B4H, R310. -/
  | selge (s1 s2 : Src) (d : SrcDst)
  /-- REG 7C0H, R360. -/
  | addol (s1 s2 : Src) (d : SrcDst)
  /-- REG 7C1H, R368. -/
  | addil (s1 s2 : Src) (d : SrcDst)
  /-- REG 7C2H, R377. -/
  | subol (s1 s2 : Src) (d : SrcDst)
  /-- REG 7C3H, R385. -/
  | subil (s1 s2 : Src) (d : SrcDst)
  /-- REG 7C4H, R311. -/
  | sell (s1 s2 : Src) (d : SrcDst)
  /-- REG 7D0H, R361. -/
  | addone (s1 s2 : Src) (d : SrcDst)
  /-- REG 7D1H, R369. -/
  | addine (s1 s2 : Src) (d : SrcDst)
  /-- REG 7D2H, R378. -/
  | subone (s1 s2 : Src) (d : SrcDst)
  /-- REG 7D3H, R386. -/
  | subine (s1 s2 : Src) (d : SrcDst)
  /-- REG 7D4H, R312. -/
  | selne (s1 s2 : Src) (d : SrcDst)
  /-- REG 7E0H, R362. -/
  | addole (s1 s2 : Src) (d : SrcDst)
  /-- REG 7E1H, R370. -/
  | addile (s1 s2 : Src) (d : SrcDst)
  /-- REG 7E2H, R379. -/
  | subole (s1 s2 : Src) (d : SrcDst)
  /-- REG 7E3H, R387. -/
  | subile (s1 s2 : Src) (d : SrcDst)
  /-- REG 7E4H, R313. -/
  | selle (s1 s2 : Src) (d : SrcDst)
  /-- REG 7F0H, R363. -/
  | addoo (s1 s2 : Src) (d : SrcDst)
  /-- REG 7F1H, R371. -/
  | addio (s1 s2 : Src) (d : SrcDst)
  /-- REG 7F2H, R380. -/
  | suboo (s1 s2 : Src) (d : SrcDst)
  /-- REG 7F3H, R388. -/
  | subio (s1 s2 : Src) (d : SrcDst)
  /-- REG 7F4H, R314. -/
  | selo (s1 s2 : Src) (d : SrcDst)
  /-- COBR 20H, R465. -/
  | testno (d : SrcDst)
  /-- COBR 21H, R466. -/
  | testg (d : SrcDst)
  /-- COBR 22H, R467. -/
  | teste (d : SrcDst)
  /-- COBR 23H, R468. -/
  | testge (d : SrcDst)
  /-- COBR 24H, R469. -/
  | testl (d : SrcDst)
  /-- COBR 25H, R470. -/
  | testne (d : SrcDst)
  /-- COBR 26H, R471. -/
  | testle (d : SrcDst)
  /-- COBR 27H, R472. -/
  | testo (d : SrcDst)
  /-- COBR 30H, R505. -/
  | bbc (s1 : CSrc) (s2 : CReg) (disp : BitVec 11)
  /-- COBR 31H, R516. -/
  | cmpobg (s1 : CSrc) (s2 : CReg) (disp : BitVec 11)
  /-- COBR 32H, R517. -/
  | cmpobe (s1 : CSrc) (s2 : CReg) (disp : BitVec 11)
  /-- COBR 33H, R518. -/
  | cmpobge (s1 : CSrc) (s2 : CReg) (disp : BitVec 11)
  /-- COBR 34H, R519. -/
  | cmpobl (s1 : CSrc) (s2 : CReg) (disp : BitVec 11)
  /-- COBR 35H, R520. -/
  | cmpobne (s1 : CSrc) (s2 : CReg) (disp : BitVec 11)
  /-- COBR 36H, R521. -/
  | cmpoble (s1 : CSrc) (s2 : CReg) (disp : BitVec 11)
  /-- COBR 37H, R506. -/
  | bbs (s1 : CSrc) (s2 : CReg) (disp : BitVec 11)
  /-- COBR 38H, R508. -/
  | cmpibno (s1 : CSrc) (s2 : CReg) (disp : BitVec 11)
  /-- COBR 39H, R509. -/
  | cmpibg (s1 : CSrc) (s2 : CReg) (disp : BitVec 11)
  /-- COBR 3AH, R510. -/
  | cmpibe (s1 : CSrc) (s2 : CReg) (disp : BitVec 11)
  /-- COBR 3BH, R511. -/
  | cmpibge (s1 : CSrc) (s2 : CReg) (disp : BitVec 11)
  /-- COBR 3CH, R512. -/
  | cmpibl (s1 : CSrc) (s2 : CReg) (disp : BitVec 11)
  /-- COBR 3DH, R513. -/
  | cmpibne (s1 : CSrc) (s2 : CReg) (disp : BitVec 11)
  /-- COBR 3EH, R514. -/
  | cmpible (s1 : CSrc) (s2 : CReg) (disp : BitVec 11)
  /-- COBR 3FH, R515. -/
  | cmpibo (s1 : CSrc) (s2 : CReg) (disp : BitVec 11)
  /-- CTRL 08H, R491. -/
  | b (disp : BitVec 22)
  /-- CTRL 09H, R537. -/
  | call (disp : BitVec 22)
  /-- CTRL 0AH, R560. -/
  | ret
  /-- CTRL 0BH, R493. -/
  | bal (disp : BitVec 22)
  /-- CTRL 10H, R497. -/
  | bno (disp : BitVec 22)
  /-- CTRL 11H, R498. -/
  | bg (disp : BitVec 22)
  /-- CTRL 12H, R499. -/
  | be (disp : BitVec 22)
  /-- CTRL 13H, R500. -/
  | bge (disp : BitVec 22)
  /-- CTRL 14H, R501. -/
  | bl (disp : BitVec 22)
  /-- CTRL 15H, R502. -/
  | bne (disp : BitVec 22)
  /-- CTRL 16H, R503. -/
  | ble (disp : BitVec 22)
  /-- CTRL 17H, R504. -/
  | bo (disp : BitVec 22)
  /-- CTRL 18H, R591. -/
  | faultno
  /-- CTRL 19H, R592. -/
  | faultg
  /-- CTRL 1AH, R593. -/
  | faulte
  /-- CTRL 1BH, R594. -/
  | faultge
  /-- CTRL 1CH, R595. -/
  | faultl
  /-- CTRL 1DH, R596. -/
  | faultne
  /-- CTRL 1EH, R597. -/
  | faultle
  /-- CTRL 1FH, R598. -/
  | faulto
  /-- MEM 80H, R285. -/
  | ldob (m : MemOp) (d : Reg)
  /-- MEM 82H, R293. -/
  | stob (s : Reg) (m : MemOp)
  /-- MEM 84H, R492. -/
  | bx (m : MemOp)
  /-- MEM 85H, R494. -/
  | balx (m : MemOp) (d : Reg)
  /-- MEM 86H, R538. -/
  | callx (m : MemOp)
  /-- MEM 88H, R286. -/
  | ldos (m : MemOp) (d : Reg)
  /-- MEM 8AH, R294. -/
  | stos (s : Reg) (m : MemOp)
  /-- MEM 8CH, R300. -/
  | lda (m : MemOp) (d : Reg)
  /-- MEM 90H, R284. -/
  | ld (m : MemOp) (d : Reg)
  /-- MEM 92H, R292. -/
  | st (s : Reg) (m : MemOp)
  /-- MEM 98H, R289. -/
  | ldl (m : MemOp) (d : Reg)
  /-- MEM 9AH, R297. -/
  | stl (s : Reg) (m : MemOp)
  /-- MEM A0H, R290. -/
  | ldt (m : MemOp) (d : Reg)
  /-- MEM A2H, R298. -/
  | stt (s : Reg) (m : MemOp)
  /-- MEM B0H, R291. -/
  | ldq (m : MemOp) (d : Reg)
  /-- MEM B2H, R299. -/
  | stq (s : Reg) (m : MemOp)
  /-- MEM C0H, R287. -/
  | ldib (m : MemOp) (d : Reg)
  /-- MEM C2H, R295. -/
  | stib (s : Reg) (m : MemOp)
  /-- MEM C8H, R288. -/
  | ldis (m : MemOp) (d : Reg)
  /-- MEM CAH, R296. -/
  | stis (s : Reg) (m : MemOp)
  deriving DecidableEq, Repr

/-- Instruction length in bytes: 8 for a MEM instruction with a displacement word, else 4
(30_encoding.md R245). -/
def Instr.length : Instr → Nat
  | .ldob m _ => if m.twoWords then 8 else 4
  | .stob _ m => if m.twoWords then 8 else 4
  | .bx m => if m.twoWords then 8 else 4
  | .balx m _ => if m.twoWords then 8 else 4
  | .callx m => if m.twoWords then 8 else 4
  | .ldos m _ => if m.twoWords then 8 else 4
  | .stos _ m => if m.twoWords then 8 else 4
  | .lda m _ => if m.twoWords then 8 else 4
  | .ld m _ => if m.twoWords then 8 else 4
  | .st _ m => if m.twoWords then 8 else 4
  | .ldl m _ => if m.twoWords then 8 else 4
  | .stl _ m => if m.twoWords then 8 else 4
  | .ldt m _ => if m.twoWords then 8 else 4
  | .stt _ m => if m.twoWords then 8 else 4
  | .ldq m _ => if m.twoWords then 8 else 4
  | .stq _ m => if m.twoWords then 8 else 4
  | .ldib m _ => if m.twoWords then 8 else 4
  | .stib _ m => if m.twoWords then 8 else 4
  | .ldis m _ => if m.twoWords then 8 else 4
  | .stis _ m => if m.twoWords then 8 else 4
  | .notbit _ _ _ | .and _ _ _ | .andnot _ _ _ | .setbit _ _ _ | .notand _ _ _ | .xor _ _ _
  | .or _ _ _ | .nor _ _ _ | .xnor _ _ _ | .not _ _ | .ornot _ _ _ | .clrbit _ _ _ | .notor _ _ _
  | .nand _ _ _ | .alterbit _ _ _ | .addo _ _ _ | .addi _ _ _ | .subo _ _ _ | .subi _ _ _
  | .cmpob _ _ | .cmpib _ _ | .cmpos _ _ | .cmpis _ _ | .shro _ _ _ | .shrdi _ _ _ | .shri _ _ _
  | .shlo _ _ _ | .rotate _ _ _ | .shli _ _ _ | .cmpo _ _ | .cmpi _ _ | .concmpo _ _
  | .concmpi _ _ | .cmpinco _ _ _ | .cmpinci _ _ _ | .cmpdeco _ _ _ | .cmpdeci _ _ _
  | .scanbyte _ _ | .bswap _ _ | .chkbit _ _ | .addc _ _ _ | .subc _ _ _ | .intdis | .inten
  | .mov _ _ | .eshro _ _ _ | .movl _ _ | .movt _ _ | .movq _ _ | .atmod _ _ _ | .atadd _ _ _
  | .spanbit _ _ | .scanbit _ _ | .modac _ _ _ | .modify _ _ _ | .extract _ _ _ | .modtc _ _ _
  | .modpc _ _ _ | .intctl _ _ | .sysctl _ _ _ | .icctl _ _ _ | .dcctl _ _ _ | .halt _ | .calls _
  | .mark | .fmark | .flushreg | .syncf | .emul _ _ _ | .ediv _ _ _ | .mulo _ _ _ | .remo _ _ _
  | .divo _ _ _ | .muli _ _ _ | .remi _ _ _ | .modi _ _ _ | .divi _ _ _ | .addono _ _ _
  | .addino _ _ _ | .subono _ _ _ | .subino _ _ _ | .selno _ _ _ | .addog _ _ _ | .addig _ _ _
  | .subog _ _ _ | .subig _ _ _ | .selg _ _ _ | .addoe _ _ _ | .addie _ _ _ | .suboe _ _ _
  | .subie _ _ _ | .sele _ _ _ | .addoge _ _ _ | .addige _ _ _ | .suboge _ _ _ | .subige _ _ _
  | .selge _ _ _ | .addol _ _ _ | .addil _ _ _ | .subol _ _ _ | .subil _ _ _ | .sell _ _ _
  | .addone _ _ _ | .addine _ _ _ | .subone _ _ _ | .subine _ _ _ | .selne _ _ _ | .addole _ _ _
  | .addile _ _ _ | .subole _ _ _ | .subile _ _ _ | .selle _ _ _ | .addoo _ _ _ | .addio _ _ _
  | .suboo _ _ _ | .subio _ _ _ | .selo _ _ _ | .testno _ | .testg _ | .teste _ | .testge _
  | .testl _ | .testne _ | .testle _ | .testo _ | .bbc _ _ _ | .cmpobg _ _ _ | .cmpobe _ _ _
  | .cmpobge _ _ _ | .cmpobl _ _ _ | .cmpobne _ _ _ | .cmpoble _ _ _ | .bbs _ _ _
  | .cmpibno _ _ _ | .cmpibg _ _ _ | .cmpibe _ _ _ | .cmpibge _ _ _ | .cmpibl _ _ _
  | .cmpibne _ _ _ | .cmpible _ _ _ | .cmpibo _ _ _ | .b _ | .call _ | .ret | .bal _ | .bno _
  | .bg _ | .be _ | .bge _ | .bl _ | .bne _ | .ble _ | .bo _ | .faultno | .faultg | .faulte
  | .faultge | .faultl | .faultne | .faultle | .faulto => 4

end Sys2Proof
end

