-- ==== Sys2Proof/Machine/Operands.lean ====
section
/-! DEFINITION. Operand forms: sources, destinations, register groups, effective addresses
(spec/30_encoding.md R224 to R243, spec/10_state.md R46, R49). A form the encoding reserves has no
value: the instruction then raises OPERATION.INVALID_OPERAND (R225, R263). -/

namespace Sys2Proof

/-- Bytes of an instruction with this address, as a word (30_encoding.md R245). -/
def MemOp.len (m : MemOp) : Word := if m.twoWords then 8 else 4

end Sys2Proof

namespace Sys2Proof.Machine

/-- The value of a REG source: a register or a literal, zero-extended (R224, R233). `slot` names
the free value of a read of r2. -/
def State.src (s : State) (x : Src) (slot : Nat) : Option Word :=
  match x with
  | .reg n => some (s.readReg n slot)
  | .lit n => some (n.setWidth 32)
  | .sfr _ _ => none

/-- The value of a `src/dst` field that is only a source (R224). -/
def State.srcDst (s : State) (x : SrcDst) (slot : Nat) : Word :=
  match x with
  | .reg n => s.readReg n slot
  | .lit n => n.setWidth 32

/-- The value of a COBR src1 (R226). -/
def State.cobrSrc (s : State) (x : CSrc) (slot : Nat) : Word :=
  match x with
  | .reg n => s.readReg n slot
  | .lit n => n.setWidth 32

/-- The value of a COBR src2 (R226). -/
def State.cobrReg (s : State) (x : CReg) (slot : Nat) : Option Word :=
  match x with
  | .reg n => some (s.readReg n slot)
  | .sfr _ => none

/-- A register that may be written: not r2 (10_state.md R46). -/
def writable (n : Reg) : Option Reg := if n = 2 then none else some n

/-- The destination register, if the field names one that may be written (R225, 10_state.md R46). -/
def dest : SrcDst → Option Reg
  | .reg n => writable n
  | .lit _ => none

/-- How the lowest register of a group of `k` must be aligned (10_state.md R49). -/
def groupAlign (k : Nat) : Nat := if k ≤ 1 then 1 else if k = 2 then 2 else 4

/-- Whether a register is a proper lowest register of a group of `k` (10_state.md R49). -/
def aligned (n : Reg) (k : Nat) : Bool := n.toNat % groupAlign k == 0

/-- A destination group of `k` registers: aligned and without r2 (10_state.md R46, R49). -/
def destGroup (n : Reg) (k : Nat) : Option Reg :=
  if aligned n k && !(decide (n.toNat ≤ 2) && decide (2 < n.toNat + k)) then some n else none

/-- The destination group of a REG instruction. -/
def dests (d : SrcDst) (k : Nat) : Option Reg :=
  match d with
  | .reg n => destGroup n k
  | .lit _ => none

/-- The values of `k` registers from `n` on. -/
def State.readRegs (s : State) (n : Reg) (slot : Nat) : Nat → List Word
  | 0 => []
  | k + 1 => s.readReg n slot :: s.readRegs (n + 1) (slot + 1) k

/-- The values of a source group of `k` registers, or a literal zero-extended to the operand size
(R233, 10_state.md R49). -/
def State.srcs (s : State) (x : Src) (k : Nat) (slot : Nat) : Option (List Word) :=
  match x with
  | .reg n => if aligned n k then some (s.readRegs n slot k) else none
  | .lit n => some (n.setWidth 32 :: List.replicate (k - 1) 0)
  | .sfr _ _ => none

/-- The index multiplier (R243). -/
def scaled (x : Scale) (v : Word) : Word :=
  match x with
  | .x1 => v
  | .x2 => v <<< 1
  | .x4 => v <<< 2
  | .x8 => v <<< 3
  | .x16 => v <<< 4

/-- The effective address (R241, R242; 20_memory.md R160), modulo 2^32 (D58). -/
def State.efa (s : State) (m : MemOp) : Word :=
  match m with
  | .absOff off => off.setWidth 32
  | .regOff b off => s.readReg b 30 + off.setWidth 32
  | .regInd b => s.readReg b 30
  | .ipDisp d => s.ip + d + 8
  | .regIdx b sc x => s.readReg b 30 + scaled sc (s.readReg x 31)
  | .absDisp d => d
  | .regDisp b d => s.readReg b 30 + d
  | .idxDisp sc x d => scaled sc (s.readReg x 31) + d
  | .regIdxDisp b sc x d => s.readReg b 30 + scaled sc (s.readReg x 31) + d

/-- The target of a CTRL instruction (R229; 44_branch.md R490). -/
def State.ctrlTarget (s : State) (disp : BitVec 22) : Word := s.ip + ((disp ++ 0#2).signExtend 32)

/-- The target of a COBR instruction (R227; 44_branch.md R490). -/
def State.cobrTarget (s : State) (disp : BitVec 11) : Word := s.ip + ((disp ++ 0#2).signExtend 32)

/-- An instruction of `len` bytes has a reserved operand: OPERATION.INVALID_OPERAND, nothing else
happens (R225, R263; D2, D3, D12). -/
def invalidOperand (len : Word) (s : State) : Res := raise .invalidOperand .none (s.ip + len) s

/-- A privileged instruction in user mode: TYPE.MISMATCH (47_processor_mgmt.md R620). -/
def privileged (s : State) (k : Res) : Res :=
  if s.supervisor then k else raise .mismatch .none (s.ip + 4) s

end Sys2Proof.Machine
end

