-- ==== Sys2Proof/Machine/Flags.lean ====
section
/-! DEFINITION. The condition code and the arithmetic flags (spec/10_state.md R57 to R60), integer
overflow and zero divide (spec/41_arithmetic.md R331, R332), and the shapes that the arithmetic,
logical and compare instructions share. -/

namespace Sys2Proof.Machine

/-- AC.cc, bits 2:0 (10_state.md R58). -/
def State.cc (s : State) : BitVec 3 := s.ac.extractLsb' 0 3

/-- Write AC.cc. -/
def State.setCc (s : State) (c : BitVec 3) : State :=
  { s with ac := (s.ac &&& 0xFFFFFFF8) ||| c.setWidth 32 }

/-- The condition of ADD, SUB, SEL and BRANCH: a common bit, or both 000 (10_state.md R59). -/
def State.cond (s : State) (mask : BitVec 3) : Bool := (mask &&& s.cc != 0) || (mask == s.cc)

/-- The condition of TEST and FAULT, which treat mask 000 alike (43_compare.md R464,
46_fault_debug_atomic.md R590). -/
def State.condTest (s : State) (mask : BitVec 3) : Bool :=
  if mask = 0 then s.cc == 0 else mask &&& s.cc != 0

/-- `Compare(a, b)` of mathematical values (43_compare.md R450). -/
def compareCc (a b : Int) : BitVec 3 := if a < b then 0b100 else if a = b then 0b010 else 0b001

/-- The condition code that reports a truth value (43_compare.md R463). -/
def boolCc (b : Bool) : BitVec 3 := if b then 0b010 else 0b000

/-- The bit number of a bit instruction (42_logical_bit.md R412). -/
def bitNumber (v : Word) : Nat := v.toNat % 32

/-- A result that 32-bit two's complement cannot represent (41_arithmetic.md R331). -/
def overflows (t : Int) : Bool := decide (t < -2147483648) || decide (2147483647 < t)

/-- `IntOverflow()` at the end of an instruction of `len` bytes, its result written
(41_arithmetic.md R331): AC.of when AC.om masks it, else the fault. -/
def intOverflow (ev : Events) (len : Word) (s : State) : Res :=
  if bit s.ac 12 then retire ev (s.ip + len) { s with ac := setBit s.ac 8 true }
  else raise .overflow ev (s.ip + len) s

/-- An integer result: its low 32 bits are written, then overflow is signalled (R330, R331). -/
def integerResult (t : Int) (r : Reg) (s : State) : Res :=
  let s := s.setReg r (BitVec.ofInt 32 t)
  if overflows t then intOverflow .none 4 s else advance s

/-- Division by zero (R332): the destination registers become free values, then the fault. -/
def zeroDivide (r : Reg) (n : Nat) (s : State) : Res :=
  raise .zeroDivide .none (s.ip + 4) (s.setRegs r ((List.range n).map fun i => s.undef (20 + i)))

/-! ## Shapes of instructions -/

/-- `op src1, src2, dst`: what to do with the two values and the destination. -/
def withDst (s1 s2 : Src) (d : SrcDst) (s : State) (k : Word → Word → Reg → Res) : Res :=
  match s.src s1 30, s.src s2 31, dest d with
  | some a, some b, some r => k a b r
  | _, _, _ => invalidOperand 4 s

/-- `op src1, src2`: no destination. -/
def withSrcs (s1 s2 : Src) (s : State) (k : Word → Word → Res) : Res :=
  match s.src s1 30, s.src s2 31 with
  | some a, some b => k a b
  | _, _ => invalidOperand 4 s

/-- `op src, dst`. -/
def withSrcDst (x : Src) (d : SrcDst) (s : State) (k : Word → Reg → Res) : Res :=
  match s.src x 30, dest d with
  | some a, some r => k a r
  | _, _ => invalidOperand 4 s

/-- An instruction that writes one register with a function of its operands. -/
def binary (f : Word → Word → Word) (s1 s2 : Src) (d : SrcDst) (s : State) : Res :=
  withDst s1 s2 d s fun a b r => advance (s.setReg r (f a b))

/-- One source, one destination. -/
def unary (f : Word → Word) (x : Src) (d : SrcDst) (s : State) : Res :=
  withSrcDst x d s fun a r => advance (s.setReg r (f a))

/-- An integer instruction with the exact result `f src1 src2` (R331). -/
def integerOp (f : Int → Int → Int) (s1 s2 : Src) (d : SrcDst) (s : State) : Res :=
  withDst s1 s2 d s fun a b r => integerResult (f a.toInt b.toInt) r s

/-- A conditional instruction: the operands are checked, then the condition decides
(41_arithmetic.md R355, R372). -/
def conditional (mask : BitVec 3) (s1 s2 : Src) (d : SrcDst) (s : State)
    (k : Word → Word → Reg → Res) : Res :=
  withDst s1 s2 d s fun a b r => if s.cond mask then k a b r else advance s

/-- A compare instruction: `f` gives the new condition code (43_compare.md R450). -/
def compareOp (f : Word → Word → BitVec 3) (s1 s2 : Src) (s : State) : Res :=
  withSrcs s1 s2 s fun a b => advance (s.setCc (f a b))

/-- Compare, then increment or decrement (43_compare.md R459 to R462). -/
def compareStep (f : Word → Word → BitVec 3) (delta : Word) (s1 s2 : Src) (d : SrcDst) (s : State) :
    Res :=
  withDst s1 s2 d s fun a b r => advance ((s.setCc (f a b)).setReg r (b + delta))

/-- Ordinal comparison (R451). -/
def compareOrdinal (a b : Word) : BitVec 3 := compareCc a.toNat b.toNat

/-- Integer comparison (R452). -/
def compareInteger (a b : Word) : BitVec 3 := compareCc a.toInt b.toInt

end Sys2Proof.Machine
end

