-- ==== Sys2Proof/Machine/Arith.lean ====
section
/-! DEFINITION. Arithmetic: add, subtract, multiply, divide, shift, rotate, extended and conditional
forms (spec/41_arithmetic.md). -/

namespace Sys2Proof.Machine

/-- Carry and integer overflow of a 33-bit sum in the condition code (R337, R338). -/
def carryCc (sum : Nat) (ovf : Bool) : BitVec 3 :=
  BitVec.ofNat 3 (2 * (sum / 2 ^ 32 % 2) + ovf.toNat)

/-- The carry in, AC.cc bit 1 (R337). -/
def State.carry (s : State) : Nat := (s.cc.getLsbD 1).toNat

/-- A division: by zero it faults, else `f src1 src2` is the result (R332, R341 to R345). -/
def divideOp (f : Word → Word → Reg → Res) (s1 s2 : Src) (d : SrcDst) (s : State) : Res :=
  withDst s1 s2 d s fun a b r => if a = 0 then zeroDivide r 1 s else f a b r

/-- `modi` (R345): the remainder brought to the sign of the divisor. -/
def modulo (b a : Int) : Int :=
  if b * a < 0 ∧ b.tmod a ≠ 0 then b.tmod a + a else b.tmod a

/-- The shift loop of `shli` (R350): the value and the shifts not made. -/
def shiftInteger (v : Word) : Nat → Word × Nat
  | 0 => (v, 0)
  | n + 1 => if v.getLsbD 31 == v.getLsbD 30 then shiftInteger (v <<< 1) n else (v, n + 1)

/-- Arithmetic shift right by at most 32 (R351). -/
def shiftRightInteger (len v : Word) : Word := v.sshiftRight (min len.toNat 32)

/-- Shift right dividing (R352): the quotient by 2^n, truncated. -/
def shiftDivide (len v : Word) : Word := BitVec.ofInt 32 (v.toInt.tdiv (2 ^ min len.toNat 32))

/-- The 64-bit ordinal in a pair of words, low first (R347, R354). -/
def longValue : List Word → Nat
  | lo :: hi :: _ => hi.toNat * 2 ^ 32 + lo.toNat
  | _ => 0

/-- `addo` (590H, R333). -/
def execAddo (s1 s2 : Src) (d : SrcDst) (s : State) : Res := binary (fun a b => b + a) s1 s2 d s

/-- `addi` (591H, R334). -/
def execAddi (s1 s2 : Src) (d : SrcDst) (s : State) : Res := integerOp (fun a b => a + b) s1 s2 d s

/-- `subo` (592H, R335). -/
def execSubo (s1 s2 : Src) (d : SrcDst) (s : State) : Res := binary (fun a b => b - a) s1 s2 d s

/-- `subi` (593H, R336). -/
def execSubi (s1 s2 : Src) (d : SrcDst) (s : State) : Res := integerOp (fun a b => b - a) s1 s2 d s

/-- `addc` (5B0H, R337): add with carry. -/
def execAddc (s1 s2 : Src) (d : SrcDst) (s : State) : Res :=
  withDst s1 s2 d s fun a b r =>
    let t := a.toNat + b.toNat + s.carry
    let v := BitVec.ofNat 32 t
    let ovf := (b.getLsbD 31 == a.getLsbD 31) && (b.getLsbD 31 != v.getLsbD 31)
    advance ((s.setReg r v).setCc (carryCc t ovf))

/-- `subc` (5B2H, R338): subtract with carry. -/
def execSubc (s1 s2 : Src) (d : SrcDst) (s : State) : Res :=
  withDst s1 s2 d s fun a b r =>
    let t := b.toNat + (~~~a).toNat + s.carry
    let v := BitVec.ofNat 32 t
    let ovf := (b.getLsbD 31 != a.getLsbD 31) && (b.getLsbD 31 != v.getLsbD 31)
    advance ((s.setReg r v).setCc (carryCc t ovf))

/-- `mulo` (701H, R339). -/
def execMulo (s1 s2 : Src) (d : SrcDst) (s : State) : Res :=
  binary (fun a b => BitVec.ofNat 32 (b.toNat * a.toNat)) s1 s2 d s

/-- `muli` (741H, R340). -/
def execMuli (s1 s2 : Src) (d : SrcDst) (s : State) : Res := integerOp (fun a b => a * b) s1 s2 d s

/-- `divo` (70BH, R341). -/
def execDivo (s1 s2 : Src) (d : SrcDst) (s : State) : Res :=
  divideOp (fun a b r => advance (s.setReg r (b.udiv a))) s1 s2 d s

/-- `divi` (74BH, R342): truncated; -2^31 / -1 overflows. -/
def execDivi (s1 s2 : Src) (d : SrcDst) (s : State) : Res :=
  divideOp (fun a b r => integerResult (b.toInt.tdiv a.toInt) r s) s1 s2 d s

/-- `remo` (708H, R343). -/
def execRemo (s1 s2 : Src) (d : SrcDst) (s : State) : Res :=
  divideOp (fun a b r => advance (s.setReg r (b.umod a))) s1 s2 d s

/-- `remi` (748H, R344). -/
def execRemi (s1 s2 : Src) (d : SrcDst) (s : State) : Res :=
  divideOp (fun a b r => advance (s.setReg r (BitVec.ofInt 32 (b.toInt.tmod a.toInt)))) s1 s2 d s

/-- `modi` (749H, R345). -/
def execModi (s1 s2 : Src) (d : SrcDst) (s : State) : Res :=
  divideOp (fun a b r => advance (s.setReg r (BitVec.ofInt 32 (modulo b.toInt a.toInt)))) s1 s2 d s

/-- `emul` (670H, R346): the 64-bit product, low word first. -/
def execEmul (s1 s2 : Src) (d : SrcDst) (s : State) : Res :=
  match s.src s1 30, s.src s2 31, dests d 2 with
  | some a, some b, some r =>
    let p := a.toNat * b.toNat
    advance (s.setRegs r [BitVec.ofNat 32 p, BitVec.ofNat 32 (p / 2 ^ 32)])
  | _, _, _ => invalidOperand 4 s

/-- `ediv` (671H, R347): remainder, then quotient; both undefined when the quotient does not fit. -/
def execEdiv (s1 s2 : Src) (d : SrcDst) (s : State) : Res :=
  match s.src s1 30, s.srcs s2 2 40, dests d 2 with
  | some a, some ws, some r =>
    let n := longValue ws
    if a = 0 then zeroDivide r 2 s
    else if 2 ^ 32 ≤ n / a.toNat then advance (s.setRegs r [s.undef 20, s.undef 21])
    else advance (s.setRegs r [BitVec.ofNat 32 (n % a.toNat), BitVec.ofNat 32 (n / a.toNat)])
  | _, _, _ => invalidOperand 4 s

/-- `shlo` (59CH, R348). -/
def execShlo (s1 s2 : Src) (d : SrcDst) (s : State) : Res :=
  binary (fun a b => if a.toNat < 32 then b <<< a.toNat else 0) s1 s2 d s

/-- `shro` (598H, R349). -/
def execShro (s1 s2 : Src) (d : SrcDst) (s : State) : Res :=
  binary (fun a b => if a.toNat < 32 then b >>> a.toNat else 0) s1 s2 d s

/-- `shli` (59EH, R350): shifts as far as the sign allows. -/
def execShli (s1 s2 : Src) (d : SrcDst) (s : State) : Res :=
  withDst s1 s2 d s fun a b r =>
    let v := shiftInteger b (min a.toNat 32)
    if v.2 = 0 then advance (s.setReg r v.1) else intOverflow .none 4 (s.setReg r v.1)

/-- `shri` (59BH, R351). -/
def execShri (s1 s2 : Src) (d : SrcDst) (s : State) : Res := binary shiftRightInteger s1 s2 d s

/-- `shrdi` (59AH, R352). -/
def execShrdi (s1 s2 : Src) (d : SrcDst) (s : State) : Res := binary shiftDivide s1 s2 d s

/-- `rotate` (59DH, R353). -/
def execRotate (s1 s2 : Src) (d : SrcDst) (s : State) : Res :=
  binary (fun a b => b.rotateLeft (a.toNat % 32)) s1 s2 d s

/-- `eshro` (5D8H, R354): the low word of a 64-bit shift right. -/
def execEshro (s1 s2 : Src) (d : SrcDst) (s : State) : Res :=
  match s.src s1 30, s.srcs s2 2 40, dest d with
  | some a, some ws, some r => advance (s.setReg r (BitVec.ofNat 32 (longValue ws / 2 ^ (a.toNat % 32))))
  | _, _, _ => invalidOperand 4 s

/-- `addono` (780H, R356). -/
def execAddono (s1 s2 : Src) (d : SrcDst) (s : State) : Res :=
  conditional 0b000 s1 s2 d s fun a b r => advance (s.setReg r (b + a))

/-- `addog` (790H, R357). -/
def execAddog (s1 s2 : Src) (d : SrcDst) (s : State) : Res :=
  conditional 0b001 s1 s2 d s fun a b r => advance (s.setReg r (b + a))

/-- `addoe` (7A0H, R358). -/
def execAddoe (s1 s2 : Src) (d : SrcDst) (s : State) : Res :=
  conditional 0b010 s1 s2 d s fun a b r => advance (s.setReg r (b + a))

/-- `addoge` (7B0H, R359). -/
def execAddoge (s1 s2 : Src) (d : SrcDst) (s : State) : Res :=
  conditional 0b011 s1 s2 d s fun a b r => advance (s.setReg r (b + a))

/-- `addol` (7C0H, R360). -/
def execAddol (s1 s2 : Src) (d : SrcDst) (s : State) : Res :=
  conditional 0b100 s1 s2 d s fun a b r => advance (s.setReg r (b + a))

/-- `addone` (7D0H, R361). -/
def execAddone (s1 s2 : Src) (d : SrcDst) (s : State) : Res :=
  conditional 0b101 s1 s2 d s fun a b r => advance (s.setReg r (b + a))

/-- `addole` (7E0H, R362). -/
def execAddole (s1 s2 : Src) (d : SrcDst) (s : State) : Res :=
  conditional 0b110 s1 s2 d s fun a b r => advance (s.setReg r (b + a))

/-- `addoo` (7F0H, R363). -/
def execAddoo (s1 s2 : Src) (d : SrcDst) (s : State) : Res :=
  conditional 0b111 s1 s2 d s fun a b r => advance (s.setReg r (b + a))

/-- `addino` (781H, R364). -/
def execAddino (s1 s2 : Src) (d : SrcDst) (s : State) : Res :=
  conditional 0b000 s1 s2 d s fun a b r => integerResult (a.toInt + b.toInt) r s

/-- `addig` (791H, R365). -/
def execAddig (s1 s2 : Src) (d : SrcDst) (s : State) : Res :=
  conditional 0b001 s1 s2 d s fun a b r => integerResult (a.toInt + b.toInt) r s

/-- `addie` (7A1H, R366). -/
def execAddie (s1 s2 : Src) (d : SrcDst) (s : State) : Res :=
  conditional 0b010 s1 s2 d s fun a b r => integerResult (a.toInt + b.toInt) r s

/-- `addige` (7B1H, R367). -/
def execAddige (s1 s2 : Src) (d : SrcDst) (s : State) : Res :=
  conditional 0b011 s1 s2 d s fun a b r => integerResult (a.toInt + b.toInt) r s

/-- `addil` (7C1H, R368). -/
def execAddil (s1 s2 : Src) (d : SrcDst) (s : State) : Res :=
  conditional 0b100 s1 s2 d s fun a b r => integerResult (a.toInt + b.toInt) r s

/-- `addine` (7D1H, R369). -/
def execAddine (s1 s2 : Src) (d : SrcDst) (s : State) : Res :=
  conditional 0b101 s1 s2 d s fun a b r => integerResult (a.toInt + b.toInt) r s

/-- `addile` (7E1H, R370). -/
def execAddile (s1 s2 : Src) (d : SrcDst) (s : State) : Res :=
  conditional 0b110 s1 s2 d s fun a b r => integerResult (a.toInt + b.toInt) r s

/-- `addio` (7F1H, R371). -/
def execAddio (s1 s2 : Src) (d : SrcDst) (s : State) : Res :=
  conditional 0b111 s1 s2 d s fun a b r => integerResult (a.toInt + b.toInt) r s

/-- `subono` (782H, R373). -/
def execSubono (s1 s2 : Src) (d : SrcDst) (s : State) : Res :=
  conditional 0b000 s1 s2 d s fun a b r => advance (s.setReg r (b - a))

/-- `subog` (792H, R374). -/
def execSubog (s1 s2 : Src) (d : SrcDst) (s : State) : Res :=
  conditional 0b001 s1 s2 d s fun a b r => advance (s.setReg r (b - a))

/-- `suboe` (7A2H, R375). -/
def execSuboe (s1 s2 : Src) (d : SrcDst) (s : State) : Res :=
  conditional 0b010 s1 s2 d s fun a b r => advance (s.setReg r (b - a))

/-- `suboge` (7B2H, R376). -/
def execSuboge (s1 s2 : Src) (d : SrcDst) (s : State) : Res :=
  conditional 0b011 s1 s2 d s fun a b r => advance (s.setReg r (b - a))

/-- `subol` (7C2H, R377). -/
def execSubol (s1 s2 : Src) (d : SrcDst) (s : State) : Res :=
  conditional 0b100 s1 s2 d s fun a b r => advance (s.setReg r (b - a))

/-- `subone` (7D2H, R378). -/
def execSubone (s1 s2 : Src) (d : SrcDst) (s : State) : Res :=
  conditional 0b101 s1 s2 d s fun a b r => advance (s.setReg r (b - a))

/-- `subole` (7E2H, R379). -/
def execSubole (s1 s2 : Src) (d : SrcDst) (s : State) : Res :=
  conditional 0b110 s1 s2 d s fun a b r => advance (s.setReg r (b - a))

/-- `suboo` (7F2H, R380). -/
def execSuboo (s1 s2 : Src) (d : SrcDst) (s : State) : Res :=
  conditional 0b111 s1 s2 d s fun a b r => advance (s.setReg r (b - a))

/-- `subino` (783H, R381). -/
def execSubino (s1 s2 : Src) (d : SrcDst) (s : State) : Res :=
  conditional 0b000 s1 s2 d s fun a b r => integerResult (b.toInt - a.toInt) r s

/-- `subig` (793H, R382). -/
def execSubig (s1 s2 : Src) (d : SrcDst) (s : State) : Res :=
  conditional 0b001 s1 s2 d s fun a b r => integerResult (b.toInt - a.toInt) r s

/-- `subie` (7A3H, R383). -/
def execSubie (s1 s2 : Src) (d : SrcDst) (s : State) : Res :=
  conditional 0b010 s1 s2 d s fun a b r => integerResult (b.toInt - a.toInt) r s

/-- `subige` (7B3H, R384). -/
def execSubige (s1 s2 : Src) (d : SrcDst) (s : State) : Res :=
  conditional 0b011 s1 s2 d s fun a b r => integerResult (b.toInt - a.toInt) r s

/-- `subil` (7C3H, R385). -/
def execSubil (s1 s2 : Src) (d : SrcDst) (s : State) : Res :=
  conditional 0b100 s1 s2 d s fun a b r => integerResult (b.toInt - a.toInt) r s

/-- `subine` (7D3H, R386). -/
def execSubine (s1 s2 : Src) (d : SrcDst) (s : State) : Res :=
  conditional 0b101 s1 s2 d s fun a b r => integerResult (b.toInt - a.toInt) r s

/-- `subile` (7E3H, R387). -/
def execSubile (s1 s2 : Src) (d : SrcDst) (s : State) : Res :=
  conditional 0b110 s1 s2 d s fun a b r => integerResult (b.toInt - a.toInt) r s

/-- `subio` (7F3H, R388). -/
def execSubio (s1 s2 : Src) (d : SrcDst) (s : State) : Res :=
  conditional 0b111 s1 s2 d s fun a b r => integerResult (b.toInt - a.toInt) r s

end Sys2Proof.Machine
end

