-- ==== Sys2Proof/Machine/Branch.lean ====
section
/-! DEFINITION. Branch instructions (spec/44_branch.md). -/

namespace Sys2Proof.Machine

/-- A taken branch in an instruction (R490, 62_tracing.md R887). -/
def takeBranch (target : Word) (s : State) : Res := retire { branch := true } target s

/-- A branch that may be taken, in an instruction of four bytes (R490). -/
def branchIf (c : Bool) (target : Word) (s : State) : Res :=
  if c then takeBranch target s else advance s

/-- `bb<c>` (R505, R506): branch when the bit of src2 that src1 names equals `want`; the bit goes to
the condition code. -/
def checkBitBranch (want : Bool) (s1 : CSrc) (s2 : CReg) (disp : BitVec 11) (s : State) : Res :=
  match s.cobrReg s2 31 with
  | some v =>
    let b := bit v (bitNumber (s.cobrSrc s1 30))
    branchIf (b == want) (s.cobrTarget disp) (s.setCc (boolCc b))
  | none => invalidOperand 4 s

/-- `cmp<t>b<cc>` (R507): compare, then branch on the new condition code. -/
def compareBranch (f : Word → Word → BitVec 3) (mask : BitVec 3) (s1 : CSrc) (s2 : CReg)
    (disp : BitVec 11) (s : State) : Res :=
  match s.cobrReg s2 31 with
  | some v =>
    let c := f (s.cobrSrc s1 30) v
    branchIf (mask &&& c != 0) (s.cobrTarget disp) (s.setCc c)
  | none => invalidOperand 4 s

/-- `bal` and `balx`: a CALL event, which sets the prereturn flag of the current frame
(R493, 62_tracing.md R888). -/
def branchAndLink (r : Reg) (next target : Word) (s : State) : Res :=
  let s' := s.setReg r next
  let s' := if s.callTraced s.pc then { s' with r := s'.r.set 0 (setBit s'.pfp 3 true) } else s'
  retire { call := true } target s'

/-- `b` (08H, R491). -/
def execB (disp : BitVec 22) (s : State) : Res := takeBranch (s.ctrlTarget disp) s

/-- `bx` (84H, R492). -/
def execBx (m : MemOp) (s : State) : Res := takeBranch (s.efa m) s

/-- `bal` (0BH, R493): the link is g14. -/
def execBal (disp : BitVec 22) (s : State) : Res :=
  branchAndLink 30 (s.ip + 4) (s.ctrlTarget disp) s

/-- `balx` (85H, R494). -/
def execBalx (m : MemOp) (d : Reg) (s : State) : Res :=
  match destGroup d 1 with
  | some r => branchAndLink r (s.ip + m.len) (s.efa m) s
  | none => invalidOperand m.len s

/-- `bno` (10H, R497). -/
def execBno (disp : BitVec 22) (s : State) : Res := branchIf (s.cond 0b000) (s.ctrlTarget disp) s

/-- `bg` (11H, R498). -/
def execBg (disp : BitVec 22) (s : State) : Res := branchIf (s.cond 0b001) (s.ctrlTarget disp) s

/-- `be` (12H, R499). -/
def execBe (disp : BitVec 22) (s : State) : Res := branchIf (s.cond 0b010) (s.ctrlTarget disp) s

/-- `bge` (13H, R500). -/
def execBge (disp : BitVec 22) (s : State) : Res := branchIf (s.cond 0b011) (s.ctrlTarget disp) s

/-- `bl` (14H, R501). -/
def execBl (disp : BitVec 22) (s : State) : Res := branchIf (s.cond 0b100) (s.ctrlTarget disp) s

/-- `bne` (15H, R502). -/
def execBne (disp : BitVec 22) (s : State) : Res := branchIf (s.cond 0b101) (s.ctrlTarget disp) s

/-- `ble` (16H, R503). -/
def execBle (disp : BitVec 22) (s : State) : Res := branchIf (s.cond 0b110) (s.ctrlTarget disp) s

/-- `bo` (17H, R504). -/
def execBo (disp : BitVec 22) (s : State) : Res := branchIf (s.cond 0b111) (s.ctrlTarget disp) s

/-- `bbc` (30H, R505). -/
def execBbc (s1 : CSrc) (s2 : CReg) (disp : BitVec 11) (s : State) : Res :=
  checkBitBranch false s1 s2 disp s

/-- `bbs` (37H, R506). -/
def execBbs (s1 : CSrc) (s2 : CReg) (disp : BitVec 11) (s : State) : Res :=
  checkBitBranch true s1 s2 disp s

/-- `cmpibno` (38H, R508). -/
def execCmpibno (s1 : CSrc) (s2 : CReg) (disp : BitVec 11) (s : State) : Res :=
  compareBranch compareInteger 0b000 s1 s2 disp s

/-- `cmpibg` (39H, R509). -/
def execCmpibg (s1 : CSrc) (s2 : CReg) (disp : BitVec 11) (s : State) : Res :=
  compareBranch compareInteger 0b001 s1 s2 disp s

/-- `cmpibe` (3AH, R510). -/
def execCmpibe (s1 : CSrc) (s2 : CReg) (disp : BitVec 11) (s : State) : Res :=
  compareBranch compareInteger 0b010 s1 s2 disp s

/-- `cmpibge` (3BH, R511). -/
def execCmpibge (s1 : CSrc) (s2 : CReg) (disp : BitVec 11) (s : State) : Res :=
  compareBranch compareInteger 0b011 s1 s2 disp s

/-- `cmpibl` (3CH, R512). -/
def execCmpibl (s1 : CSrc) (s2 : CReg) (disp : BitVec 11) (s : State) : Res :=
  compareBranch compareInteger 0b100 s1 s2 disp s

/-- `cmpibne` (3DH, R513). -/
def execCmpibne (s1 : CSrc) (s2 : CReg) (disp : BitVec 11) (s : State) : Res :=
  compareBranch compareInteger 0b101 s1 s2 disp s

/-- `cmpible` (3EH, R514). -/
def execCmpible (s1 : CSrc) (s2 : CReg) (disp : BitVec 11) (s : State) : Res :=
  compareBranch compareInteger 0b110 s1 s2 disp s

/-- `cmpibo` (3FH, R515). -/
def execCmpibo (s1 : CSrc) (s2 : CReg) (disp : BitVec 11) (s : State) : Res :=
  compareBranch compareInteger 0b111 s1 s2 disp s

/-- `cmpobg` (31H, R516). -/
def execCmpobg (s1 : CSrc) (s2 : CReg) (disp : BitVec 11) (s : State) : Res :=
  compareBranch compareOrdinal 0b001 s1 s2 disp s

/-- `cmpobe` (32H, R517). -/
def execCmpobe (s1 : CSrc) (s2 : CReg) (disp : BitVec 11) (s : State) : Res :=
  compareBranch compareOrdinal 0b010 s1 s2 disp s

/-- `cmpobge` (33H, R518). -/
def execCmpobge (s1 : CSrc) (s2 : CReg) (disp : BitVec 11) (s : State) : Res :=
  compareBranch compareOrdinal 0b011 s1 s2 disp s

/-- `cmpobl` (34H, R519). -/
def execCmpobl (s1 : CSrc) (s2 : CReg) (disp : BitVec 11) (s : State) : Res :=
  compareBranch compareOrdinal 0b100 s1 s2 disp s

/-- `cmpobne` (35H, R520). -/
def execCmpobne (s1 : CSrc) (s2 : CReg) (disp : BitVec 11) (s : State) : Res :=
  compareBranch compareOrdinal 0b101 s1 s2 disp s

/-- `cmpoble` (36H, R521). -/
def execCmpoble (s1 : CSrc) (s2 : CReg) (disp : BitVec 11) (s : State) : Res :=
  compareBranch compareOrdinal 0b110 s1 s2 disp s

end Sys2Proof.Machine
end

