-- ==== Sys2Proof/Machine/CallReturn.lean ====
section
/-! DEFINITION. Calls and returns (spec/45_call_return.md). -/

namespace Sys2Proof.Machine

/-- A call instruction of `len` bytes (R534): `rrr` and `pc` as the kind of call says, `table` what it
has read of the system procedure table. -/
def callInstruction (target base rrr pc : Word) (supervisor : Bool) (table : List Access) (len : Word)
    (s : State) : Res :=
  let ev : Events :=
    { call := true, supervisor := supervisor, implicit := table ++ s.pushAccesses pc }
  orRaise ev len s (callOp target base rrr (s.ip + len) pc s) fun _ s' => traceAfter s.ip ev s'

/-- A local call (R530, R537). -/
def localCall (target : Word) (table : List Access) (len : Word) (s : State) : Res :=
  callInstruction target s.sp 0 s.pc false table len s

/-- A system-supervisor call from user mode (R539, R555): supervisor stack, supervisor mode, the old
trace enable in the return type, the new one from the system procedure table. -/
def supervisorCall (target : Word) (table : List Access) (s : State) : Res :=
  callInstruction target s.ssp (2 ||| bitAt s.te 0) (setBit (setBit s.pc 1 true) 0 s.sspTe) true table
    4 s

/-- The call through the system procedure table entry `e` read at `a` (R539, R551). -/
def systemCall (a e : Word) (s : State) : Res :=
  let target := e &&& 0xFFFFFFFC
  let table : List Access := [tableRead a]
  if s.supervisor || field e 0 2 = 0 then localCall target table 4 s
  else if field e 0 2 = 2 then supervisorCall target table s
  else .refused .callsReservedEntry

/-- Spill every cached set, oldest first (R544). -/
def flushFrames : List Frame → State → Eff Unit
  | [], s => .ok () s
  | e :: older, s =>
    (flushFrames older s).bind fun _ s =>
      (if older.isEmpty then .ok () s else gap s).bind fun _ s => spill e s

/-- Spill every cached set, unless one of the spills would trap: a fault of an instruction comes
before execution and leaves memory as it was (60_exceptions.md R730, R739). -/
def flushCache (s : State) : Eff Unit :=
  match s.rc.reverse.findSome? s.spillTrap with
  | some t => .trap t s
  | none => flushFrames s.rc s

/-- `call` (09H, R537). -/
def execCall (disp : BitVec 22) (s : State) : Res := localCall (s.ctrlTarget disp) [] 4 s

/-- `callx` (86H, R538). -/
def execCallx (m : MemOp) (s : State) : Res := localCall (s.efa m) [] m.len s

/-- `calls` (660H, R539). -/
def execCalls (x : Src) (s : State) : Res :=
  match s.src x 30 with
  | some n =>
    if 259 < n.toNat then raise .length .none (s.ip + 4) s
    else
      let a := s.sptBase + 48 + 4 * n
      orRaise { implicit := [tableRead a] } 4 s (loadWord a s).andGap (systemCall a)
  | none => invalidOperand 4 s

/-- `ret` (0AH, R560). -/
def execRet (s : State) : Res :=
  if s.prereturn then prereturnTrace s
  else if s.pfpDirty then .refused .retModifiedPfp
  else
    match field s.pfp 0 3 with
    | 0 => localReturn s
    | 1 => faultReturn s
    | 2 => supervisorReturn false s
    | 3 => supervisorReturn true s
    | 7 => interruptReturn s
    | _ => .refused .retReservedType

/-- `flushreg` (66DH, R549). -/
def execFlushreg (s : State) : Res :=
  let ev : Events :=
    { implicit := s.rc.map fun e => { addr := e.addr, size := 64, write := true } }
  orRaise ev 4 s (flushCache s) fun _ s' =>
    retire ev (s.ip + 4) { s' with rc := [], pfpDirty := false, dirtyFrames := [] }

end Sys2Proof.Machine
end

