-- ==== Sys2Proof/Machine/Compare.lean ====
section
/-! DEFINITION. Comparison instructions (spec/43_compare.md). -/

namespace Sys2Proof.Machine

/-- The low byte or half word of a word as an ordinal (R453, R455). -/
def lowOrdinal (n : Nat) (v : Word) : Int := (v.setWidth n).toNat

/-- The low byte or half word of a word as an integer (R454, R456). -/
def lowInteger (n : Nat) (v : Word) : Int := (v.setWidth n).toInt

/-- `concmp` (R457): unless AC.cc[2] is set, 010 or 001 by the test. -/
def conditionalCompare (le : Word → Word → Bool) (s1 s2 : Src) (s : State) : Res :=
  compareOp (fun a b => if s.cc.getLsbD 2 then s.cc else if le a b then 0b010 else 0b001) s1 s2 s

/-- `test<cc>` (R464): 1 or 0. -/
def testOp (mask : BitVec 3) (d : SrcDst) (s : State) : Res :=
  match dest d with
  | some r => advance (s.setReg r (if s.condTest mask then 1 else 0))
  | none => invalidOperand 4 s

/-- `cmpo` (5A0H, R451). -/
def execCmpo (s1 s2 : Src) (s : State) : Res := compareOp compareOrdinal s1 s2 s

/-- `cmpi` (5A1H, R452). -/
def execCmpi (s1 s2 : Src) (s : State) : Res := compareOp compareInteger s1 s2 s

/-- `cmpob` (594H, R453). -/
def execCmpob (s1 s2 : Src) (s : State) : Res :=
  compareOp (fun a b => compareCc (lowOrdinal 8 a) (lowOrdinal 8 b)) s1 s2 s

/-- `cmpib` (595H, R454). -/
def execCmpib (s1 s2 : Src) (s : State) : Res :=
  compareOp (fun a b => compareCc (lowInteger 8 a) (lowInteger 8 b)) s1 s2 s

/-- `cmpos` (596H, R455). -/
def execCmpos (s1 s2 : Src) (s : State) : Res :=
  compareOp (fun a b => compareCc (lowOrdinal 16 a) (lowOrdinal 16 b)) s1 s2 s

/-- `cmpis` (597H, R456). -/
def execCmpis (s1 s2 : Src) (s : State) : Res :=
  compareOp (fun a b => compareCc (lowInteger 16 a) (lowInteger 16 b)) s1 s2 s

/-- `concmpo` (5A2H, R457). -/
def execConcmpo (s1 s2 : Src) (s : State) : Res :=
  conditionalCompare (fun a b => decide (a.toNat ≤ b.toNat)) s1 s2 s

/-- `concmpi` (5A3H, R458). -/
def execConcmpi (s1 s2 : Src) (s : State) : Res :=
  conditionalCompare (fun a b => decide (a.toInt ≤ b.toInt)) s1 s2 s

/-- `cmpinco` (5A4H, R459). -/
def execCmpinco (s1 s2 : Src) (d : SrcDst) (s : State) : Res :=
  compareStep compareOrdinal 1 s1 s2 d s

/-- `cmpinci` (5A5H, R460). -/
def execCmpinci (s1 s2 : Src) (d : SrcDst) (s : State) : Res :=
  compareStep compareInteger 1 s1 s2 d s

/-- `cmpdeco` (5A6H, R461). -/
def execCmpdeco (s1 s2 : Src) (d : SrcDst) (s : State) : Res :=
  compareStep compareOrdinal (-1) s1 s2 d s

/-- `cmpdeci` (5A7H, R462). -/
def execCmpdeci (s1 s2 : Src) (d : SrcDst) (s : State) : Res :=
  compareStep compareInteger (-1) s1 s2 d s

/-- `chkbit` (5AEH, R463). -/
def execChkbit (s1 s2 : Src) (s : State) : Res :=
  compareOp (fun a b => boolCc (bit b (bitNumber a))) s1 s2 s

/-- `testno` (20H, R465). -/
def execTestno (d : SrcDst) (s : State) : Res := testOp 0b000 d s

/-- `testg` (21H, R466). -/
def execTestg (d : SrcDst) (s : State) : Res := testOp 0b001 d s

/-- `teste` (22H, R467). -/
def execTeste (d : SrcDst) (s : State) : Res := testOp 0b010 d s

/-- `testge` (23H, R468). -/
def execTestge (d : SrcDst) (s : State) : Res := testOp 0b011 d s

/-- `testl` (24H, R469). -/
def execTestl (d : SrcDst) (s : State) : Res := testOp 0b100 d s

/-- `testne` (25H, R470). -/
def execTestne (d : SrcDst) (s : State) : Res := testOp 0b101 d s

/-- `testle` (26H, R471). -/
def execTestle (d : SrcDst) (s : State) : Res := testOp 0b110 d s

/-- `testo` (27H, R472). -/
def execTesto (d : SrcDst) (s : State) : Res := testOp 0b111 d s

end Sys2Proof.Machine
end

