-- ==== Sys2Proof/Machine/FaultAtomic.lean ====
section
/-! DEFINITION. Conditional faults, synchronization, marks, trace controls and atomic accesses
(spec/46_fault_debug_atomic.md). -/

namespace Sys2Proof.Machine

/-- `fault<cc>` (R590). -/
def faultIf (mask : BitVec 3) (s : State) : Res :=
  if s.condTest mask then raise .range .none (s.ip + 4) s else advance s

/-- A locked read and write of the word at `a`, no other agent between them (20_memory.md R154): in an
outbound window a PCI read and a PCI write (65_atu_mu.md R1063; log 78), what they wait for waited for
before. A write that traps undoes the read (60_exceptions.md R739). -/
def readModifyWrite (a : Word) (f : Word → Word) (s : State) : Eff Word :=
  (lockReady a s).bind fun _ s =>
    match (loadWord a s).bind fun w s => (storeWord a (f w) s).bind fun _ s => .ok w s with
    | .trap t _ => .trap t s
    | x => x

/-- An atomic read-modify-write of the word at `a` (R609): `f` gives the word to write; the word read
goes to `r`. -/
def atomicOp (a : Word) (f : Word → Word) (r : Reg) (s : State) : Res :=
  let a := wordAddr a
  let ev : Events :=
    { accesses := [{ addr := a, size := 4, write := false }, { addr := a, size := 4, write := true }] }
  orRaise ev 4 s (readModifyWrite a f s) fun w s' => retire ev (s.ip + 4) (s'.setReg r w)

/-- `faultno` (18H, R591). -/
def execFaultno (s : State) : Res := faultIf 0b000 s

/-- `faultg` (19H, R592). -/
def execFaultg (s : State) : Res := faultIf 0b001 s

/-- `faulte` (1AH, R593). -/
def execFaulte (s : State) : Res := faultIf 0b010 s

/-- `faultge` (1BH, R594). -/
def execFaultge (s : State) : Res := faultIf 0b011 s

/-- `faultl` (1CH, R595). -/
def execFaultl (s : State) : Res := faultIf 0b100 s

/-- `faultne` (1DH, R596). -/
def execFaultne (s : State) : Res := faultIf 0b101 s

/-- `faultle` (1EH, R597). -/
def execFaultle (s : State) : Res := faultIf 0b110 s

/-- `faulto` (1FH, R598). -/
def execFaulto (s : State) : Res := faultIf 0b111 s

/-- `syncf` (66FH, R603): every fault is precise, nothing to wait for (D21). -/
def execSyncf (s : State) : Res := advance s

/-- `mark` (66BH, R604). -/
def execMark (s : State) : Res := retire { mark := true } (s.ip + 4) s

/-- `fmark` (66CH, R605). -/
def execFmark (s : State) : Res := retire { fmark := true } (s.ip + 4) s

/-- `modtc` (654H, R606): mode bits written under the mask, event flags only cleared. -/
def execModtc (s1 s2 : Src) (d : SrcDst) (s : State) : Res :=
  withDst s1 s2 d s fun mask v r =>
    let writable := (0x0F000000 &&& s.tc &&& mask) ||| (0x000000FE &&& mask)
    advance ((s.setTc (merge writable v s.tc)).setReg r s.tc)

/-- `atadd` (612H, R610). -/
def execAtadd (s1 s2 : Src) (d : SrcDst) (s : State) : Res :=
  withDst s1 s2 d s fun a v r => atomicOp a (fun w => w + v) r s

/-- `atmod` (610H, R611). -/
def execAtmod (s1 s2 : Src) (d : SrcDst) (s : State) : Res :=
  withDst s1 s2 d s fun a mask r => atomicOp a (fun w => merge mask (s.readReg r 32) w) r s

end Sys2Proof.Machine
end

