-- ==== Sys2Proof/Machine/Logical.lean ====
section
/-! DEFINITION. Logical, bit, bit-field and byte instructions (spec/42_logical_bit.md). -/

namespace Sys2Proof.Machine

/-- A bit of a word by number, as a word (R412). -/
def oneBit (n : Word) : Word := (1 : Word) <<< bitNumber n

/-- The lowest `len` bits, all of them from 32 on (R419). -/
def lowMask (len : Word) : Word := if 32 ≤ len.toNat then 0xFFFFFFFF else ((1 : Word) <<< len.toNat) - 1

/-- The number of the most significant one bit, and whether there is one, written to a register and
the condition code (R417, R418). -/
def scanOp (v : Word) (r : Reg) (s : State) : Res :=
  match topBit v.toNat 32 with
  | some i => advance ((s.setReg r (BitVec.ofNat 32 i)).setCc 0b010)
  | none => advance ((s.setReg r 0xFFFFFFFF).setCc 0b000)

/-- Some byte lane of two words is equal (R421). -/
def sameByte (a b : Word) : Bool :=
  a.extractLsb' 0 8 == b.extractLsb' 0 8 || a.extractLsb' 8 8 == b.extractLsb' 8 8 ||
  a.extractLsb' 16 8 == b.extractLsb' 16 8 || a.extractLsb' 24 8 == b.extractLsb' 24 8

/-- Bytes in reverse order (R422). -/
def swapBytes (v : Word) : Word :=
  v.extractLsb' 0 8 ++ v.extractLsb' 8 8 ++ v.extractLsb' 16 8 ++ v.extractLsb' 24 8

/-- An instruction whose src/dst is read and written (R419, R420). -/
def modifyOp (f : Word → Word → Word → Word) (s1 s2 : Src) (d : SrcDst) (s : State) : Res :=
  withDst s1 s2 d s fun a b r => advance (s.setReg r (f a b (s.readReg r 32)))

/-- `and` (581H, R401). -/
def execAnd (s1 s2 : Src) (d : SrcDst) (s : State) : Res := binary (fun a b => b &&& a) s1 s2 d s

/-- `andnot` (582H, R402). -/
def execAndnot (s1 s2 : Src) (d : SrcDst) (s : State) : Res :=
  binary (fun a b => b &&& ~~~a) s1 s2 d s

/-- `notand` (584H, R403). -/
def execNotand (s1 s2 : Src) (d : SrcDst) (s : State) : Res :=
  binary (fun a b => ~~~b &&& a) s1 s2 d s

/-- `nand` (58EH, R404). -/
def execNand (s1 s2 : Src) (d : SrcDst) (s : State) : Res :=
  binary (fun a b => ~~~b ||| ~~~a) s1 s2 d s

/-- `or` (587H, R405). -/
def execOr (s1 s2 : Src) (d : SrcDst) (s : State) : Res := binary (fun a b => b ||| a) s1 s2 d s

/-- `ornot` (58BH, R406). -/
def execOrnot (s1 s2 : Src) (d : SrcDst) (s : State) : Res :=
  binary (fun a b => b ||| ~~~a) s1 s2 d s

/-- `notor` (58DH, R407). -/
def execNotor (s1 s2 : Src) (d : SrcDst) (s : State) : Res :=
  binary (fun a b => ~~~b ||| a) s1 s2 d s

/-- `nor` (588H, R408). -/
def execNor (s1 s2 : Src) (d : SrcDst) (s : State) : Res :=
  binary (fun a b => ~~~b &&& ~~~a) s1 s2 d s

/-- `xor` (586H, R409). -/
def execXor (s1 s2 : Src) (d : SrcDst) (s : State) : Res :=
  binary (fun a b => (b ||| a) &&& ~~~(b &&& a)) s1 s2 d s

/-- `xnor` (589H, R410). -/
def execXnor (s1 s2 : Src) (d : SrcDst) (s : State) : Res :=
  binary (fun a b => ~~~(b ||| a) ||| (b &&& a)) s1 s2 d s

/-- `not` (58AH, R411). -/
def execNot (x : Src) (d : SrcDst) (s : State) : Res := unary (fun a => ~~~a) x d s

/-- `setbit` (583H, R413). -/
def execSetbit (s1 s2 : Src) (d : SrcDst) (s : State) : Res :=
  binary (fun a b => b ||| oneBit a) s1 s2 d s

/-- `clrbit` (58CH, R414). -/
def execClrbit (s1 s2 : Src) (d : SrcDst) (s : State) : Res :=
  binary (fun a b => b &&& ~~~oneBit a) s1 s2 d s

/-- `notbit` (580H, R415). -/
def execNotbit (s1 s2 : Src) (d : SrcDst) (s : State) : Res :=
  binary (fun a b => b ^^^ oneBit a) s1 s2 d s

/-- `alterbit` (58FH, R416). -/
def execAlterbit (s1 s2 : Src) (d : SrcDst) (s : State) : Res :=
  binary (fun a b => if s.cc.getLsbD 1 then b ||| oneBit a else b &&& ~~~oneBit a) s1 s2 d s

/-- `scanbit` (641H, R417): most significant 1 bit. -/
def execScanbit (x : Src) (d : SrcDst) (s : State) : Res := withSrcDst x d s fun a r => scanOp a r s

/-- `spanbit` (640H, R418): most significant 0 bit. -/
def execSpanbit (x : Src) (d : SrcDst) (s : State) : Res :=
  withSrcDst x d s fun a r => scanOp (~~~a) r s

/-- `extract` (651H, R419). -/
def execExtract (s1 s2 : Src) (d : SrcDst) (s : State) : Res :=
  modifyOp (fun a b c => (if 32 ≤ a.toNat then 0 else c >>> a.toNat) &&& lowMask b) s1 s2 d s

/-- `modify` (650H, R420). -/
def execModify (s1 s2 : Src) (d : SrcDst) (s : State) : Res :=
  modifyOp (fun a b c => merge a b c) s1 s2 d s

/-- `scanbyte` (5ACH, R421). -/
def execScanbyte (s1 s2 : Src) (s : State) : Res :=
  compareOp (fun a b => boolCc (sameByte a b)) s1 s2 s

/-- `bswap` (5ADH, R422). -/
def execBswap (x : Src) (d : SrcDst) (s : State) : Res := unary swapBytes x d s

end Sys2Proof.Machine
end

