-- ==== Sys2Proof/Machine/Movement.lean ====
section
/-! DEFINITION. Data movement: loads, stores, address loads, moves, selects
(spec/40_data_movement.md). -/

namespace Sys2Proof.Machine

/-- The natural boundary of an access of `n` bytes (R280): a triple word has that of a quad word. -/
def boundary (n : Nat) : Nat := if n = 12 then 16 else n

/-- An access that is not on its natural boundary while the fault is enabled (R280). -/
def State.unaligned (s : State) (a : Word) (n : Nat) : Bool :=
  s.unalignedFault && a.toNat % boundary n != 0

/-- After an access of `n` bytes at `a` has been made: OPERATION.UNALIGNED, or the end of the
instruction (R280, R281). -/
def finishAccess (a : Word) (n : Nat) (ev : Events) (next : Word) (s : State) : Res :=
  if s.unaligned a n then raise (.unaligned a) ev next s else retire ev next s

/-- A data access of an instruction, for the data breakpoints (62_tracing.md R903). -/
def access (a : Word) (n : Nat) (write : Bool) : Events :=
  { accesses := [{ addr := a, size := n, write := write }] }

/-- A load of `n` bytes into `k` registers (R283): destination check, load, write, alignment fault.
`f` turns the bytes into register values. -/
def loadOp (n k : Nat) (f : List Byte → List Word) (m : MemOp) (d : Reg) (s : State) : Res :=
  match destGroup d k with
  | none => invalidOperand m.len s
  | some r =>
    let a := s.efa m
    let ev := access a n false
    orRaise ev m.len s (load a n s) fun bs s' =>
      finishAccess a n ev (s'.ip + m.len) (s'.setRegs r (f bs))

/-- A store of `n` bytes of `k` registers (R281, R297): protection, source alignment, store,
alignment fault. -/
def storeOp (n k : Nat) (x : Reg) (m : MemOp) (s : State) : Res :=
  let a := s.efa m
  match s.storeTrap a n with
  | some t => raise t (access a n true) (s.ip + m.len) s
  | none =>
    if aligned x k then
      let bs := ((s.readRegs x 40 k).flatMap wordBytes).take n
      orRaise (access a n true) m.len s (store a bs s) fun _ s' =>
        finishAccess a n (access a n true) (s'.ip + m.len) s'
    else invalidOperand m.len s

/-- A store of an integer of `n` bytes (R295, R296): integer overflow unless the bits above are all
zeros or all ones; an alignment fault comes first. -/
def storeIntegerOp (n : Nat) (x : Reg) (m : MemOp) (s : State) : Res :=
  let a := s.efa m
  let ev := access a n true
  let v := s.readReg x 40
  let upper := field v (8 * n) (32 - 8 * n)
  orRaise ev m.len s (store a ((wordBytes v).take n) s) fun _ s' =>
    if s'.unaligned a n then raise (.unaligned a) ev (s'.ip + m.len) s'
    else if upper = 0 || upper = 2 ^ (32 - 8 * n) - 1 then
      retire ev (s'.ip + m.len) s'
    else intOverflow ev m.len s'

/-- A move of `k` registers or of a literal with zeros above it (R301 to R305). -/
def moveOp (k : Nat) (x : Src) (d : SrcDst) (s : State) : Res :=
  match s.srcs x k 40, dests d k with
  | some vs, some r => advance (s.setRegs r vs)
  | _, _ => invalidOperand 4 s

/-- `sel<cc>` (R306): src2 if the condition holds, else src1. -/
def selectOp (mask : BitVec 3) (s1 s2 : Src) (d : SrcDst) (s : State) : Res :=
  withDst s1 s2 d s fun a b r => advance (s.setReg r (if s.cond mask then b else a))

/-- `ld` (90H, R284). -/
def execLd (m : MemOp) (d : Reg) (s : State) : Res := loadOp 4 1 bytesToWords m d s

/-- `ldob` (80H, R285). -/
def execLdob (m : MemOp) (d : Reg) (s : State) : Res :=
  loadOp 1 1 (fun bs => [bytesToWord bs]) m d s

/-- `ldos` (88H, R286). -/
def execLdos (m : MemOp) (d : Reg) (s : State) : Res :=
  loadOp 2 1 (fun bs => [bytesToWord bs]) m d s

/-- `ldib` (C0H, R287). -/
def execLdib (m : MemOp) (d : Reg) (s : State) : Res :=
  loadOp 1 1 (fun bs => [((bytesToWord bs).setWidth 8).signExtend 32]) m d s

/-- `ldis` (C8H, R288). -/
def execLdis (m : MemOp) (d : Reg) (s : State) : Res :=
  loadOp 2 1 (fun bs => [((bytesToWord bs).setWidth 16).signExtend 32]) m d s

/-- `ldl` (98H, R289). -/
def execLdl (m : MemOp) (d : Reg) (s : State) : Res := loadOp 8 2 bytesToWords m d s

/-- `ldt` (A0H, R290). -/
def execLdt (m : MemOp) (d : Reg) (s : State) : Res := loadOp 12 3 bytesToWords m d s

/-- `ldq` (B0H, R291). -/
def execLdq (m : MemOp) (d : Reg) (s : State) : Res := loadOp 16 4 bytesToWords m d s

/-- `st` (92H, R292). -/
def execSt (x : Reg) (m : MemOp) (s : State) : Res := storeOp 4 1 x m s

/-- `stob` (82H, R293). -/
def execStob (x : Reg) (m : MemOp) (s : State) : Res := storeOp 1 1 x m s

/-- `stos` (8AH, R294). -/
def execStos (x : Reg) (m : MemOp) (s : State) : Res := storeOp 2 1 x m s

/-- `stib` (C2H, R295). -/
def execStib (x : Reg) (m : MemOp) (s : State) : Res := storeIntegerOp 1 x m s

/-- `stis` (CAH, R296). -/
def execStis (x : Reg) (m : MemOp) (s : State) : Res := storeIntegerOp 2 x m s

/-- `stl` (9AH, R297). -/
def execStl (x : Reg) (m : MemOp) (s : State) : Res := storeOp 8 2 x m s

/-- `stt` (A2H, R298). -/
def execStt (x : Reg) (m : MemOp) (s : State) : Res := storeOp 12 3 x m s

/-- `stq` (B2H, R299). -/
def execStq (x : Reg) (m : MemOp) (s : State) : Res := storeOp 16 4 x m s

/-- `lda` (8CH, R300): the effective address itself, no memory access. -/
def execLda (m : MemOp) (d : Reg) (s : State) : Res :=
  match destGroup d 1 with
  | some r => retire .none (s.ip + m.len) (s.setReg r (s.efa m))
  | none => invalidOperand m.len s

/-- `mov` (5CCH, R301). -/
def execMov (x : Src) (d : SrcDst) (s : State) : Res := moveOp 1 x d s

/-- `movl` (5DCH, R302). -/
def execMovl (x : Src) (d : SrcDst) (s : State) : Res := moveOp 2 x d s

/-- `movt` (5ECH, R303). -/
def execMovt (x : Src) (d : SrcDst) (s : State) : Res := moveOp 3 x d s

/-- `movq` (5FCH, R304). -/
def execMovq (x : Src) (d : SrcDst) (s : State) : Res := moveOp 4 x d s

/-- `selno` (784H, R307). -/
def execSelno (s1 s2 : Src) (d : SrcDst) (s : State) : Res := selectOp 0b000 s1 s2 d s

/-- `selg` (794H, R308). -/
def execSelg (s1 s2 : Src) (d : SrcDst) (s : State) : Res := selectOp 0b001 s1 s2 d s

/-- `sele` (7A4H, R309). -/
def execSele (s1 s2 : Src) (d : SrcDst) (s : State) : Res := selectOp 0b010 s1 s2 d s

/-- `selge` (7B4H, R310). -/
def execSelge (s1 s2 : Src) (d : SrcDst) (s : State) : Res := selectOp 0b011 s1 s2 d s

/-- `sell` (7C4H, R311). -/
def execSell (s1 s2 : Src) (d : SrcDst) (s : State) : Res := selectOp 0b100 s1 s2 d s

/-- `selne` (7D4H, R312). -/
def execSelne (s1 s2 : Src) (d : SrcDst) (s : State) : Res := selectOp 0b101 s1 s2 d s

/-- `selle` (7E4H, R313). -/
def execSelle (s1 s2 : Src) (d : SrcDst) (s : State) : Res := selectOp 0b110 s1 s2 d s

/-- `selo` (7F4H, R314). -/
def execSelo (s1 s2 : Src) (d : SrcDst) (s : State) : Res := selectOp 0b111 s1 s2 d s

end Sys2Proof.Machine
end

