-- ==== Sys2Proof/Machine/Init.lean ====
section
/-! DEFINITION. Initialization of the core (spec/70_reset_and_hazards.md R1310 to R1335): the
sequence after a hardware reset, and the PRCB processing that `sysctl` reinitialize shares. -/

namespace Sys2Proof.Machine

/-- A structure of the memory image overlaps data RAM or FEFFFF60H and above (R1318). -/
def reservedImage (base : Word) (size : Nat) : Bool :=
  decide (base.toNat < 0x400) || decide (0xFEFFFF60 < base.toNat + size)

/-- A base that is not word aligned (R1318). -/
def misaligned (base : Word) : Bool := base.toNat % 4 != 0

/-- The pointers of a PRCB are cached, AC and the fault configuration loaded (R1322, R1325 up to
the alignment check); `p0` to `p5` are the PRCB words at 00H to 14H. -/
def loadPointers (p0 p1 p2 p3 p4 p5 : Word) (s : State) : State :=
  { s with
    faultBase := p0
    ctrlBase := p1
    ac := p2 &&& acMask
    unalignedFault := !bit p3 30
    intc := { s.intc with blockNmi := false }
    intBase := p4
    sptBase := p5 }

/-- A timer after PRCB processing (R1325; 63_timers.md R945): mode bits cleared, the prescaler at its
start (log 55), count and reload value undefined (63_timers.md R940, R941; 90_conflicts.md C41, which
R1330 gives way to; log 81). -/
def Timer.cleared (tcr trr : Word) : Timer :=
  { tmr := 0, tcr := tcr, trr := trr, phase := 0, late := none }

/-- The control registers are loaded from the words of the control table at 10H to 58H
(R1324, R1325). -/
def loadControls (ws : List Word) (s : State) : State :=
  let w (off : Nat) : Word := ws.getD ((off - 0x10) / 4) 0
  ((((((((((((s.setMmr (w 0x10) .imap0).setMmr (w 0x14) .imap1).setMmr (w 0x18) .imap2).setMmr
    (w 0x1C) .icon).setMmr (w 0x20) (.pmcon 0)).setMmr (w 0x28) (.pmcon 1)).setMmr (w 0x30)
    (.pmcon 2)).setMmr (w 0x38) (.pmcon 3)).setMmr (w 0x40) (.pmcon 4)).setMmr (w 0x48)
    (.pmcon 5)).setMmr (w 0x50) (.pmcon 6)).setMmr (w 0x58) (.pmcon 7))

/-- ICON and the bus widths in a control table are values the source defines (R1324;
61_interrupts.md R850, 20_memory.md R176). -/
def controlsRefused (ws : List Word) : Option Refusal :=
  if !iconLegal (ws.getD 3 0) then some .iconReserved
  else if (List.range 8).all fun i => pmconLegal (ws.getD (4 + 2 * i) 0) then none
  else some .pmconWidth

/-- The registers and the register cache after PRCB processing (R1325): FP = ISP, SP above it, PFP
= FP, no cached frame; r2 to r15 destroyed. -/
def firstFrame (isp limit : Word) (s : State) : State :=
  { s with
    isp := isp
    g := s.g.set 15 isp
    r := newLocals s.fresh isp (isp + 64)
    rc := []
    rcLimit := limit.extractLsb' 8 3
    frameAddr := isp
    pfpDirty := false
    dirtyFrames := []
    kept := [] }

/-- The NMI vector goes to word 0 of the data RAM, the rest of which is lost (R1325). -/
def cacheNmiVector (v : Word) (s : State) : State :=
  { s with mem := Memory.writeBytes (Memory.dropBelow s.mem 0x400) 0 (wordBytes v) }

/-- The last part of `Process_PRCB`: the words that are no pointers, the tables, the timers. -/
def processTables (p : Word) (s : State) : Eff Unit :=
  (loadWord (p + 0x1C) s).andGap.bind fun isp s =>
  (loadWord (p + 0x20) s).andGap.bind fun iccw s =>
  (loadWord (s.intBase + 996) s).andGap.bind fun nmi s =>
  (loadWord (s.sptBase + 0x0C) s).andGap.bind fun ssp s =>
  (loadWord (p + 0x24) s).andGap.bind fun limit s =>
  (loadEach (s.ctrlBase + 0x10) 19 s).andGap.bind fun ws s =>
  (loadWord (s.ctrlBase + 0x68) s).andGap.bind fun tc s =>
  (loadWord (s.ctrlBase + 0x6C) s).bind fun bcon s =>
    match controlsRefused ws with
    | some r => .refuse r
    | none =>
      let s := (loadControls ws (cacheNmiVector nmi (firstFrame isp limit s))).setTc tc
      let s := s.setMmr bcon .bcon
      .ok () { s with
        icEnabled := !bit iccw 16
        ssp := ssp &&& 0xFFFFFFFC
        sspTe := bit ssp 0
        dbg := { s.dbg with ipb0 := 0, ipb1 := 0, dab0 := 0, dab1 := 0 }
        timer0 := Timer.cleared (s.undef 60) (s.undef 61)
        timer1 := Timer.cleared (s.undef 62) (s.undef 63)
        fresh := s.fresh + 1 }

/-- `Process_PRCB` (R1325). Where a structure is not word aligned the processor stops (R1318, D44). -/
def processPrcb (p : Word) (s : State) : Eff Unit :=
  if reservedImage p 0x28 then .refuse .imageInReservedMemory
  else
    (loadEach p 6 { s with prcb := p }).andGap.bind fun ws s =>
      let w (i : Nat) : Word := ws.getD i 0
      let s := loadPointers (w 0) (w 1) (w 2) (w 3) (w 4) (w 5) s
      if misaligned p || misaligned s.faultBase || misaligned s.ctrlBase || misaligned s.intBase ||
          misaligned s.sptBase then
        .over (failStop 0xFEFFFF70 s)
      else if reservedImage s.faultBase 256 || reservedImage s.ctrlBase 112 ||
          reservedImage s.intBase 1028 || reservedImage s.sptBase 1088 then
        .refuse .imageInReservedMemory
      else processTables p s

/-- The global registers but g15 are destroyed (R1310, R1330). -/
def destroyGlobals (s : State) : State :=
  { s with
    g := (Vector.ofFn fun i : Fin 16 => s.undef (120 + i.val)).set 15 s.g[15]
    fresh := s.fresh + 1 }

/-- One addition of the bus confidence test with the carry of the one before (R1314). -/
def addWithCarry (x : Nat) (acc : Nat × Nat) : Nat × Nat :=
  let t := x + acc.1 + acc.2
  (t % 2 ^ 32, t / 2 ^ 32 % 2)

/-- The sum of the bus confidence test (R1314): the check words as they are read, from 5 down to 0, then
the two pointers. -/
def confidenceSum (firstIp prcbPtr : Word) (checks : List Word) : Nat :=
  let acc := checks.foldl (fun acc w => addWithCarry w.toNat acc) (0xFFFFFFFF, 0)
  (addWithCarry (prcbPtr.toNat + firstIp.toNat) acc).1

/-- The core state of R1304 and the first statements of R1310. -/
def enterInitialize (s : State) : State :=
  { s with
    icEnabled := false
    icLocked := 0
    dcEnabled := false
    stale := []
    pc := 0x001F2002
    intc := { s.intc with imsk := 0 }
    bus := { s.bus with
      dlmcon := setBit s.bus.dlmcon 1 false
      lmmr0 := setBit s.bus.lmmr0 0 false
      lmmr1 := setBit s.bus.lmmr1 0 false } }

/-- The first instruction pointer, the PRCB pointer and the check words 5 to 0 of the boot record
(R1314, R1316), the bus width byte put in PMCON14_15. -/
def readBootRecord (s : State) : Eff (Word × Word × List Word) :=
  (load 0xFEFFFF38 1 s).andGap.bind fun bs s =>
    let width := (bytesToWord bs &&& 0xC0) <<< 16
    if pmconLegal width then
      let s := { s with bus := { s.bus with pmcon := s.bus.pmcon.set 7 width } }
      (loadWord 0xFEFFFF40 s).andGap.bind fun firstIp s =>
      (loadWord 0xFEFFFF44 s).andGap.bind fun prcbPtr s =>
      (loadDown 0xFEFFFF5C 6 s).andGap.bind fun checks s => .ok (firstIp, prcbPtr, checks) s
    else .refuse .pmconWidth

/-- After the boot record: bus confidence test, PRCB, registers, first instruction
(R1310, R1314, R1320, R1335). -/
def startUp (boot : Word × Word × List Word) (s : State) : Eff Unit :=
  if confidenceSum boot.1 boot.2.1 boot.2.2 = 0 then
    (processPrcb boot.2.1 s).bind fun _ s =>
      let s := destroyGlobals s
      .ok () ({ s with g := s.g.set 0 Machine.deviceId }.setIp boot.1)
  else .over (failStop 0xFEFFFF64 s)

/-- `CoreInitialize` (R1310), one step; a failure stops the processor (R1312, R1313). From its first
bus access on the core runs (`ready`), so that a reset between two accesses shows. -/
def coreInitialize (s : State) : Res :=
  let mask := s.board.bistMask.setWidth 32 &&& 0x7C
  if s.board.stest && mask != 0 then .next (failStop (0xFEFFFF80 ||| mask) s)
  else
    match (readBootRecord (enterInitialize { s with run := .ready })).bind startUp with
    | .ok _ s => .next s.bump
    | .trap _ s => .next (systemError s)
    | .over s => .next s
    | .fault f => .fault f
    | .refuse r => .refused r

/-- Reinitialization (47_processor_mgmt.md R661; R1330) with the PRCB at `p` and the start address
`start`. -/
def reinitialize (p start : Word) (s : State) : Eff Unit :=
  let s := { s with icEnabled := false, icLocked := 0, dcEnabled := false, stale := [] }
  (processPrcb p s).bind fun _ s => .ok () ((destroyGlobals s).setIp start)

end Sys2Proof.Machine
end

