-- ==== Sys2Proof/Machine/ProcMgmt.lean ====
section
/-! DEFINITION. Processor management (spec/47_processor_mgmt.md). -/

namespace Sys2Proof.Machine

/-- Enable or disable interrupts, ICON.gie: 0, 1, or 2 for no change (R625, R626, R690). -/
def setInterrupts (f : Word) (s : State) : Option State :=
  if f = 0 then some { s with intc := { s.intc with icon := setBit s.intc.icon 10 true } }
  else if f = 1 then some { s with intc := { s.intc with icon := setBit s.intc.icon 10 false } }
  else if f = 2 then some s
  else none

/-- Invalidate and unlock the instruction cache (R640). -/
def invalidateCache (s : State) : State := { s.invalidateFetch with icLocked := 0 }

/-- Load and lock `n` blocks of the instruction cache (R640). -/
def lockCache (n : Word) (s : State) : Res :=
  if 1 < n.toNat then .refused .icctlBlocks
  else advance { invalidateCache s with icLocked := n.setWidth 8 }

/-- The free words that stand for the contents of cache sets (R642, R652), `k` words a set; with
`zero` the first word of a set is 0. -/
def setWords (k n : Nat) (zero : Bool) (s : State) : List Word :=
  (List.range (k * n)).map fun i => if zero && i % k == 0 then 0 else s.undef (200 + i)

/-- Store words one by one, unless one of the stores would trap: a fault of an instruction comes before
execution and leaves memory as it was (60_exceptions.md R730, R739). -/
def storeAll (a : Word) (ws : List Word) (s : State) : Eff Unit :=
  match (List.range ws.length).findSome? fun i => s.storeTrap (a + BitVec.ofNat 32 (4 * i)) 4 with
  | some t => .trap t s
  | none => storeEach a ws s

/-- Store cache sets to memory (R642, R652): a cache of `sets` sets of `k` words. -/
def storeSets (sets k : Nat) (zero : Bool) (range a : Word) (s : State) : Res :=
  let first := field range 0 16
  let last := min (field range 16 16) (sets - 1)
  if last < first || a.toNat % 4 != 0 then invalidOperand 4 s
  else
    let n := last - first + 1
    let ev : Events := { implicit := [{ addr := a, size := 4 * k * n, write := true }] }
    orRaise ev 4 s (storeAll a (setWords k n zero s) s) fun _ s' => retire ev (s.ip + 4) s'

/-- Write a status word to the destination, or the destination is not allowed (R640, R650). -/
def giveStatus (v : Word) (d : SrcDst) (s : State) : Res :=
  match dest d with
  | some r => advance (s.setReg r v)
  | none => invalidOperand 4 s

/-- `icctl` by its function (R640). Where a function only reads src/dst (3, 6) a literal there is its
value, as for any source (30_encoding.md R224; log 49). -/
def cacheControl (f : Nat) (s2 : Src) (d : SrcDst) (s : State) : Res :=
  match f with
  | 0 => advance { s with icEnabled := false }
  | 1 => advance { s with icEnabled := true }
  | 2 => advance (invalidateCache s)
  | 3 =>
    match s.src s2 31 with
    | some _ => lockCache (s.srcDst d 32) s
    | none => invalidOperand 4 s
  | 4 => giveStatus (0x00019220 ||| bitAt s.icEnabled 0) d s
  | 5 => giveStatus (0x00080001 ||| (s.icLocked.setWidth 32 <<< 24)) d s
  | 6 =>
    match s.src s2 31 with
    | some a => storeSets 512 13 false (s.srcDst d 32) a s
    | none => invalidOperand 4 s
  | _ => invalidOperand 4 s

/-- `dcctl` by its function (R650). A literal src/dst as for `icctl` (log 49). -/
def dataCacheControl (f : Nat) (s2 : Src) (d : SrcDst) (s : State) : Res :=
  match f with
  | 0 => advance { s with dcEnabled := false }
  | 1 => advance { s with dcEnabled := true }
  | 2 | 3 | 8 => advance s
  | 4 => giveStatus (0x00008220 ||| bitAt s.dcEnabled 0) d s
  | 6 =>
    match s.src s2 31 with
    | some a => storeSets 256 7 true (s.srcDst d 32) a s
    | none => invalidOperand 4 s
  | _ => invalidOperand 4 s

/-- The highest priority in a pending priorities word (R656). -/
def highestPriority (w : Word) : BitVec 5 := BitVec.ofNat 5 ((topBit w.toNat 32).getD 0)

/-- Post vector `v` in the interrupt table and update the software priority (R656): no other agent comes
between the locked read and the write that unlocks. The model's choice (log 78): where the table lies
in an outbound ATU window, which R656 and 20_memory.md R154 leave open, its accesses there wait for
the ATU as others do, and others may have the bus meanwhile. -/
def postInterrupt (v : Nat) (s : State) : Eff Unit :=
  let p := v / 8
  let finish (w : Word) (s : State) : Eff Unit :=
    (storeWord s.intBase w s).bind fun _ s =>
      .ok () { s with intc := { s.intc with swPrio := highestPriority w } }
  (loadWord s.intBase s).bind fun w s =>
  if p = 0 then finish w s
  else
    let za := s.intBase + 4 + BitVec.ofNat 32 p
    (load za 1 s).bind fun bs s =>
    (store za [(bytesToWord bs).setWidth 8 ||| BitVec.ofNat 8 (2 ^ (v % 8))] s).bind fun _ s =>
      finish (setBit w p true) s

/-- Vectors that cannot be posted (R656; 61_interrupts.md R812). -/
def reservedVector (v : Nat) : Bool := decide (244 ≤ v) && decide (v ≤ 251)

/-- `sysctl` message 00H (R656). -/
def requestInterrupt (v : Nat) (s : State) : Res :=
  if reservedVector v then .refused .sysctlVector
  else
    let made : List Access := tableRead s.intBase ::
      if v < 8 then [] else [{ addr := s.intBase + 4 + BitVec.ofNat 32 (v / 8), size := 1, write := false }]
    let ev : Events := { implicit := made ++ made.map fun x => { x with write := true } }
    orRaise ev 4 s (postInterrupt v s) fun _ s' => retire ev (s.ip + 4) s'

/-- `sysctl` message 02H (R660). Load and lock also enables a disabled cache, which stays disabled
until a mode other than disable (20_memory.md R171, 70_reset_and_hazards.md R1322; log 83). -/
def configureCache (mode : Nat) (s2 : Src) (s : State) : Res :=
  if mode % 2 = 1 then advance { s with icEnabled := false }
  else
    match mode with
    | 0 => advance { s with icEnabled := true }
    | 4 | 6 =>
      match s.src s2 31 with
      | some _ => lockCache 1 { s with icEnabled := true }
      | none => invalidOperand 4 s
    | _ => invalidOperand 4 s

/-- The data accesses of a reinitialization (70_reset_and_hazards.md R1325) that has left `s`: the PRCB,
the tables it names, the NMI vector. -/
def State.imageAccesses (s : State) : List Access :=
  [{ addr := s.prcb, size := 24, write := false }, { addr := s.prcb + 0x1C, size := 12, write := false },
   tableRead (s.intBase + 996), tableRead (s.sptBase + 0x0C),
   { addr := s.ctrlBase + 0x10, size := 76, write := false },
   { addr := s.ctrlBase + 0x68, size := 8, write := false }, { addr := 0, size := 4, write := true }]

/-- `sysctl` message 03H (R661): the next instruction is at `start`. A literal src/dst as for `icctl`
(log 49). The data breakpoint registers, which it clears last, may have matched before (62_tracing.md
R903). The model's choice (log 43): IPB0 and IPB1 are judged after it has cleared them, so that neither
matches the `sysctl` itself (R895). -/
def reinitializeCore (s2 : Src) (d : SrcDst) (s : State) : Res :=
  match s.src s2 31 with
  | some start =>
    orRaise .none 4 s (reinitialize (s.srcDst d 32) start s) fun _ s' =>
      traceAfter s.ip { flags := s.dataFlags [] s'.imageAccesses } s'
  | none => invalidOperand 4 s

/-- Whether a read of the register by `sysctl` raises OPERATION.UNIMPLEMENTED: of IPB0 and IPB1 before the
modification rights are granted (10_state.md R88, Sysctl-RwG; log 41). -/
def State.mmrReadFaults (s : State) (r : Mmr) : Bool :=
  match r with
  | .ipb _ => !s.dbg.rights
  | _ => false

/-- `sysctl` message 05H on a register of the core MMR space (R662), its accesses being `ev`: with mask
0 a pure read. The model's choice: a mask that is not 0 on a read-only register (DEVICEID, the PRCB pointer) gives its value and
writes nothing, as a store there is ignored (10_state.md R88; log 85). -/
def modifyMmr (r : Mmr) (v mask : Word) (d : Reg) (ev : Events) (s : State) : Res :=
  let old := s.mmrValue 21 r
  let change : Eff Unit :=
    if mask ≠ 0 then writeMmr r (merge mask v old) s
    else if s.mmrReadFaults r then .trap .unimplemented s
    else .ok () (s.touchMmr r)
  orRaise ev 4 s change fun _ s' => retire ev (s.ip + 4) (s'.setReg d old)

/-- `sysctl` message 05H (R662): `off` is the offset from FF000000H. Its read, and its write unless the
mask is 0, are implicit data accesses (62_tracing.md R903). -/
def modifyRegister (off : Nat) (s2 : Src) (d : SrcDst) (s : State) : Res :=
  match s.src s2 31, dest d with
  | some v, some r =>
    let mask := s.readReg r 32
    let a := 0xFF000000 + BitVec.ofNat 32 off
    let ev : Events := { implicit := [tableRead a, { addr := a, size := 4, write := mask != 0 }] }
    if off % 4 ≠ 0 then raise .unimplemented ev (s.ip + 4) s
    else
      match mmrAt off with
      | some m => modifyMmr m v mask r ev s
      | none =>
        if mask = 0 then retire ev (s.ip + 4) (s.setReg r (s.undef 21))
        else .refused .sysctlReservedMmr
  | _, _ => invalidOperand 4 s

/-- `sysctl` message 06H (R663; D30). -/
def requestBreakpoints (d : SrcDst) (s : State) : Res :=
  match dest d with
  | some r =>
    if s.board.emulator then advance (s.setReg r 0)
    else advance ({ s with dbg := { s.dbg with rights := true } }.setReg r 0x22)
  | none => invalidOperand 4 s

/-- `sysctl` by its message type (R655); `a` is the value of src1. -/
def systemControl (a : Word) (s2 : Src) (d : SrcDst) (s : State) : Res :=
  match field a 8 8 with
  | 0 => requestInterrupt (field a 0 8) s
  | 1 => advance (invalidateCache s)
  | 2 => configureCache (field a 0 8) s2 s
  | 3 => reinitializeCore s2 d s
  | 5 => modifyRegister (field a 16 16) s2 d s
  | 6 => requestBreakpoints d s
  | _ => invalidOperand 4 s

/-- `modpc` (655H, R621): the src1 field is never read. -/
def execModpc (_s1 s2 : Src) (d : SrcDst) (s : State) : Res :=
  match s.src s2 31, dest d with
  | some mask, some r =>
    if mask = 0 then advance (s.setReg r s.pc)
    else
      privileged s
        (advance ((s.setPc (merge mask (s.readReg r 32) s.pc)).setReg r s.pc))
  | _, _ => invalidOperand 4 s

/-- `modac` (645H, R622). -/
def execModac (s1 s2 : Src) (d : SrcDst) (s : State) : Res :=
  withDst s1 s2 d s fun mask v r => advance ((s.setAc (merge mask v s.ac)).setReg r s.ac)

/-- `intctl` (658H, R626). -/
def execIntctl (x : Src) (d : SrcDst) (s : State) : Res :=
  withSrcDst x d s fun f r => privileged s
    (match setInterrupts f s with
     | some s' => advance (s'.setReg r (if bit s.intc.icon 10 then 0 else 1))
     | none => invalidOperand 4 s)

/-- `intdis` (5B4H, R627). -/
def execIntdis (s : State) : Res :=
  privileged s (advance { s with intc := { s.intc with icon := setBit s.intc.icon 10 true } })

/-- `inten` (5B5H, R628). -/
def execInten (s : State) : Res :=
  privileged s (advance { s with intc := { s.intc with icon := setBit s.intc.icon 10 false } })

/-- `icctl` (65BH, R640). -/
def execIcctl (s1 s2 : Src) (d : SrcDst) (s : State) : Res :=
  match s.src s1 30 with
  | some a => privileged s (cacheControl (field a 0 8) s2 d s)
  | none => invalidOperand 4 s

/-- `dcctl` (65CH, R650). -/
def execDcctl (s1 s2 : Src) (d : SrcDst) (s : State) : Res :=
  match s.src s1 30 with
  | some a => privileged s (dataCacheControl (field a 0 8) s2 d s)
  | none => invalidOperand 4 s

/-- `sysctl` (659H, R655). -/
def execSysctl (s1 s2 : Src) (d : SrcDst) (s : State) : Res :=
  match s.src s1 30 with
  | some a => privileged s (systemControl a s2 d s)
  | none => invalidOperand 4 s

/-- `halt` (65DH, R690). -/
def execHalt (x : Src) (s : State) : Res :=
  match s.src x 30 with
  | some f => privileged s
    (match setInterrupts f s with
     | some s' => advance { s' with halted := true }
     | none => invalidOperand 4 s)
  | none => invalidOperand 4 s

end Sys2Proof.Machine
end

