-- ==== Sys2Proof/Machine/Dispatch.lean ====
section
/-! DEFINITION. The meaning of every instruction: one arm per constructor, one direct call each. -/

namespace Sys2Proof.Machine

/-- What an instruction does at a state whose IP is its address. -/
def exec (i : Instr) (s : State) : Host.Outcome State Fault Refusal :=
  match i with
  | .notbit s1 s2 d => Sys2Proof.Machine.execNotbit s1 s2 d s
  | .and s1 s2 d => Sys2Proof.Machine.execAnd s1 s2 d s
  | .andnot s1 s2 d => Sys2Proof.Machine.execAndnot s1 s2 d s
  | .setbit s1 s2 d => Sys2Proof.Machine.execSetbit s1 s2 d s
  | .notand s1 s2 d => Sys2Proof.Machine.execNotand s1 s2 d s
  | .xor s1 s2 d => Sys2Proof.Machine.execXor s1 s2 d s
  | .or s1 s2 d => Sys2Proof.Machine.execOr s1 s2 d s
  | .nor s1 s2 d => Sys2Proof.Machine.execNor s1 s2 d s
  | .xnor s1 s2 d => Sys2Proof.Machine.execXnor s1 s2 d s
  | .not x d => Sys2Proof.Machine.execNot x d s
  | .ornot s1 s2 d => Sys2Proof.Machine.execOrnot s1 s2 d s
  | .clrbit s1 s2 d => Sys2Proof.Machine.execClrbit s1 s2 d s
  | .notor s1 s2 d => Sys2Proof.Machine.execNotor s1 s2 d s
  | .nand s1 s2 d => Sys2Proof.Machine.execNand s1 s2 d s
  | .alterbit s1 s2 d => Sys2Proof.Machine.execAlterbit s1 s2 d s
  | .addo s1 s2 d => Sys2Proof.Machine.execAddo s1 s2 d s
  | .addi s1 s2 d => Sys2Proof.Machine.execAddi s1 s2 d s
  | .subo s1 s2 d => Sys2Proof.Machine.execSubo s1 s2 d s
  | .subi s1 s2 d => Sys2Proof.Machine.execSubi s1 s2 d s
  | .cmpob s1 s2 => Sys2Proof.Machine.execCmpob s1 s2 s
  | .cmpib s1 s2 => Sys2Proof.Machine.execCmpib s1 s2 s
  | .cmpos s1 s2 => Sys2Proof.Machine.execCmpos s1 s2 s
  | .cmpis s1 s2 => Sys2Proof.Machine.execCmpis s1 s2 s
  | .shro s1 s2 d => Sys2Proof.Machine.execShro s1 s2 d s
  | .shrdi s1 s2 d => Sys2Proof.Machine.execShrdi s1 s2 d s
  | .shri s1 s2 d => Sys2Proof.Machine.execShri s1 s2 d s
  | .shlo s1 s2 d => Sys2Proof.Machine.execShlo s1 s2 d s
  | .rotate s1 s2 d => Sys2Proof.Machine.execRotate s1 s2 d s
  | .shli s1 s2 d => Sys2Proof.Machine.execShli s1 s2 d s
  | .cmpo s1 s2 => Sys2Proof.Machine.execCmpo s1 s2 s
  | .cmpi s1 s2 => Sys2Proof.Machine.execCmpi s1 s2 s
  | .concmpo s1 s2 => Sys2Proof.Machine.execConcmpo s1 s2 s
  | .concmpi s1 s2 => Sys2Proof.Machine.execConcmpi s1 s2 s
  | .cmpinco s1 s2 d => Sys2Proof.Machine.execCmpinco s1 s2 d s
  | .cmpinci s1 s2 d => Sys2Proof.Machine.execCmpinci s1 s2 d s
  | .cmpdeco s1 s2 d => Sys2Proof.Machine.execCmpdeco s1 s2 d s
  | .cmpdeci s1 s2 d => Sys2Proof.Machine.execCmpdeci s1 s2 d s
  | .scanbyte s1 s2 => Sys2Proof.Machine.execScanbyte s1 s2 s
  | .bswap x d => Sys2Proof.Machine.execBswap x d s
  | .chkbit s1 s2 => Sys2Proof.Machine.execChkbit s1 s2 s
  | .addc s1 s2 d => Sys2Proof.Machine.execAddc s1 s2 d s
  | .subc s1 s2 d => Sys2Proof.Machine.execSubc s1 s2 d s
  | .intdis => Sys2Proof.Machine.execIntdis s
  | .inten => Sys2Proof.Machine.execInten s
  | .mov x d => Sys2Proof.Machine.execMov x d s
  | .eshro s1 s2 d => Sys2Proof.Machine.execEshro s1 s2 d s
  | .movl x d => Sys2Proof.Machine.execMovl x d s
  | .movt x d => Sys2Proof.Machine.execMovt x d s
  | .movq x d => Sys2Proof.Machine.execMovq x d s
  | .atmod s1 s2 d => Sys2Proof.Machine.execAtmod s1 s2 d s
  | .atadd s1 s2 d => Sys2Proof.Machine.execAtadd s1 s2 d s
  | .spanbit x d => Sys2Proof.Machine.execSpanbit x d s
  | .scanbit x d => Sys2Proof.Machine.execScanbit x d s
  | .modac s1 s2 d => Sys2Proof.Machine.execModac s1 s2 d s
  | .modify s1 s2 d => Sys2Proof.Machine.execModify s1 s2 d s
  | .extract s1 s2 d => Sys2Proof.Machine.execExtract s1 s2 d s
  | .modtc s1 s2 d => Sys2Proof.Machine.execModtc s1 s2 d s
  | .modpc s1 s2 d => Sys2Proof.Machine.execModpc s1 s2 d s
  | .intctl x d => Sys2Proof.Machine.execIntctl x d s
  | .sysctl s1 s2 d => Sys2Proof.Machine.execSysctl s1 s2 d s
  | .icctl s1 s2 d => Sys2Proof.Machine.execIcctl s1 s2 d s
  | .dcctl s1 s2 d => Sys2Proof.Machine.execDcctl s1 s2 d s
  | .halt x => Sys2Proof.Machine.execHalt x s
  | .calls x => Sys2Proof.Machine.execCalls x s
  | .mark => Sys2Proof.Machine.execMark s
  | .fmark => Sys2Proof.Machine.execFmark s
  | .flushreg => Sys2Proof.Machine.execFlushreg s
  | .syncf => Sys2Proof.Machine.execSyncf s
  | .emul s1 s2 d => Sys2Proof.Machine.execEmul s1 s2 d s
  | .ediv s1 s2 d => Sys2Proof.Machine.execEdiv s1 s2 d s
  | .mulo s1 s2 d => Sys2Proof.Machine.execMulo s1 s2 d s
  | .remo s1 s2 d => Sys2Proof.Machine.execRemo s1 s2 d s
  | .divo s1 s2 d => Sys2Proof.Machine.execDivo s1 s2 d s
  | .muli s1 s2 d => Sys2Proof.Machine.execMuli s1 s2 d s
  | .remi s1 s2 d => Sys2Proof.Machine.execRemi s1 s2 d s
  | .modi s1 s2 d => Sys2Proof.Machine.execModi s1 s2 d s
  | .divi s1 s2 d => Sys2Proof.Machine.execDivi s1 s2 d s
  | .addono s1 s2 d => Sys2Proof.Machine.execAddono s1 s2 d s
  | .addino s1 s2 d => Sys2Proof.Machine.execAddino s1 s2 d s
  | .subono s1 s2 d => Sys2Proof.Machine.execSubono s1 s2 d s
  | .subino s1 s2 d => Sys2Proof.Machine.execSubino s1 s2 d s
  | .selno s1 s2 d => Sys2Proof.Machine.execSelno s1 s2 d s
  | .addog s1 s2 d => Sys2Proof.Machine.execAddog s1 s2 d s
  | .addig s1 s2 d => Sys2Proof.Machine.execAddig s1 s2 d s
  | .subog s1 s2 d => Sys2Proof.Machine.execSubog s1 s2 d s
  | .subig s1 s2 d => Sys2Proof.Machine.execSubig s1 s2 d s
  | .selg s1 s2 d => Sys2Proof.Machine.execSelg s1 s2 d s
  | .addoe s1 s2 d => Sys2Proof.Machine.execAddoe s1 s2 d s
  | .addie s1 s2 d => Sys2Proof.Machine.execAddie s1 s2 d s
  | .suboe s1 s2 d => Sys2Proof.Machine.execSuboe s1 s2 d s
  | .subie s1 s2 d => Sys2Proof.Machine.execSubie s1 s2 d s
  | .sele s1 s2 d => Sys2Proof.Machine.execSele s1 s2 d s
  | .addoge s1 s2 d => Sys2Proof.Machine.execAddoge s1 s2 d s
  | .addige s1 s2 d => Sys2Proof.Machine.execAddige s1 s2 d s
  | .suboge s1 s2 d => Sys2Proof.Machine.execSuboge s1 s2 d s
  | .subige s1 s2 d => Sys2Proof.Machine.execSubige s1 s2 d s
  | .selge s1 s2 d => Sys2Proof.Machine.execSelge s1 s2 d s
  | .addol s1 s2 d => Sys2Proof.Machine.execAddol s1 s2 d s
  | .addil s1 s2 d => Sys2Proof.Machine.execAddil s1 s2 d s
  | .subol s1 s2 d => Sys2Proof.Machine.execSubol s1 s2 d s
  | .subil s1 s2 d => Sys2Proof.Machine.execSubil s1 s2 d s
  | .sell s1 s2 d => Sys2Proof.Machine.execSell s1 s2 d s
  | .addone s1 s2 d => Sys2Proof.Machine.execAddone s1 s2 d s
  | .addine s1 s2 d => Sys2Proof.Machine.execAddine s1 s2 d s
  | .subone s1 s2 d => Sys2Proof.Machine.execSubone s1 s2 d s
  | .subine s1 s2 d => Sys2Proof.Machine.execSubine s1 s2 d s
  | .selne s1 s2 d => Sys2Proof.Machine.execSelne s1 s2 d s
  | .addole s1 s2 d => Sys2Proof.Machine.execAddole s1 s2 d s
  | .addile s1 s2 d => Sys2Proof.Machine.execAddile s1 s2 d s
  | .subole s1 s2 d => Sys2Proof.Machine.execSubole s1 s2 d s
  | .subile s1 s2 d => Sys2Proof.Machine.execSubile s1 s2 d s
  | .selle s1 s2 d => Sys2Proof.Machine.execSelle s1 s2 d s
  | .addoo s1 s2 d => Sys2Proof.Machine.execAddoo s1 s2 d s
  | .addio s1 s2 d => Sys2Proof.Machine.execAddio s1 s2 d s
  | .suboo s1 s2 d => Sys2Proof.Machine.execSuboo s1 s2 d s
  | .subio s1 s2 d => Sys2Proof.Machine.execSubio s1 s2 d s
  | .selo s1 s2 d => Sys2Proof.Machine.execSelo s1 s2 d s
  | .testno d => Sys2Proof.Machine.execTestno d s
  | .testg d => Sys2Proof.Machine.execTestg d s
  | .teste d => Sys2Proof.Machine.execTeste d s
  | .testge d => Sys2Proof.Machine.execTestge d s
  | .testl d => Sys2Proof.Machine.execTestl d s
  | .testne d => Sys2Proof.Machine.execTestne d s
  | .testle d => Sys2Proof.Machine.execTestle d s
  | .testo d => Sys2Proof.Machine.execTesto d s
  | .bbc s1 s2 disp => Sys2Proof.Machine.execBbc s1 s2 disp s
  | .cmpobg s1 s2 disp => Sys2Proof.Machine.execCmpobg s1 s2 disp s
  | .cmpobe s1 s2 disp => Sys2Proof.Machine.execCmpobe s1 s2 disp s
  | .cmpobge s1 s2 disp => Sys2Proof.Machine.execCmpobge s1 s2 disp s
  | .cmpobl s1 s2 disp => Sys2Proof.Machine.execCmpobl s1 s2 disp s
  | .cmpobne s1 s2 disp => Sys2Proof.Machine.execCmpobne s1 s2 disp s
  | .cmpoble s1 s2 disp => Sys2Proof.Machine.execCmpoble s1 s2 disp s
  | .bbs s1 s2 disp => Sys2Proof.Machine.execBbs s1 s2 disp s
  | .cmpibno s1 s2 disp => Sys2Proof.Machine.execCmpibno s1 s2 disp s
  | .cmpibg s1 s2 disp => Sys2Proof.Machine.execCmpibg s1 s2 disp s
  | .cmpibe s1 s2 disp => Sys2Proof.Machine.execCmpibe s1 s2 disp s
  | .cmpibge s1 s2 disp => Sys2Proof.Machine.execCmpibge s1 s2 disp s
  | .cmpibl s1 s2 disp => Sys2Proof.Machine.execCmpibl s1 s2 disp s
  | .cmpibne s1 s2 disp => Sys2Proof.Machine.execCmpibne s1 s2 disp s
  | .cmpible s1 s2 disp => Sys2Proof.Machine.execCmpible s1 s2 disp s
  | .cmpibo s1 s2 disp => Sys2Proof.Machine.execCmpibo s1 s2 disp s
  | .b disp => Sys2Proof.Machine.execB disp s
  | .call disp => Sys2Proof.Machine.execCall disp s
  | .ret => Sys2Proof.Machine.execRet s
  | .bal disp => Sys2Proof.Machine.execBal disp s
  | .bno disp => Sys2Proof.Machine.execBno disp s
  | .bg disp => Sys2Proof.Machine.execBg disp s
  | .be disp => Sys2Proof.Machine.execBe disp s
  | .bge disp => Sys2Proof.Machine.execBge disp s
  | .bl disp => Sys2Proof.Machine.execBl disp s
  | .bne disp => Sys2Proof.Machine.execBne disp s
  | .ble disp => Sys2Proof.Machine.execBle disp s
  | .bo disp => Sys2Proof.Machine.execBo disp s
  | .faultno => Sys2Proof.Machine.execFaultno s
  | .faultg => Sys2Proof.Machine.execFaultg s
  | .faulte => Sys2Proof.Machine.execFaulte s
  | .faultge => Sys2Proof.Machine.execFaultge s
  | .faultl => Sys2Proof.Machine.execFaultl s
  | .faultne => Sys2Proof.Machine.execFaultne s
  | .faultle => Sys2Proof.Machine.execFaultle s
  | .faulto => Sys2Proof.Machine.execFaulto s
  | .ldob m d => Sys2Proof.Machine.execLdob m d s
  | .stob x m => Sys2Proof.Machine.execStob x m s
  | .bx m => Sys2Proof.Machine.execBx m s
  | .balx m d => Sys2Proof.Machine.execBalx m d s
  | .callx m => Sys2Proof.Machine.execCallx m s
  | .ldos m d => Sys2Proof.Machine.execLdos m d s
  | .stos x m => Sys2Proof.Machine.execStos x m s
  | .lda m d => Sys2Proof.Machine.execLda m d s
  | .ld m d => Sys2Proof.Machine.execLd m d s
  | .st x m => Sys2Proof.Machine.execSt x m s
  | .ldl m d => Sys2Proof.Machine.execLdl m d s
  | .stl x m => Sys2Proof.Machine.execStl x m s
  | .ldt m d => Sys2Proof.Machine.execLdt m d s
  | .stt x m => Sys2Proof.Machine.execStt x m s
  | .ldq m d => Sys2Proof.Machine.execLdq m d s
  | .stq x m => Sys2Proof.Machine.execStq x m s
  | .ldib m d => Sys2Proof.Machine.execLdib m d s
  | .stib x m => Sys2Proof.Machine.execStib x m s
  | .ldis m d => Sys2Proof.Machine.execLdis m d s
  | .stis x m => Sys2Proof.Machine.execStis x m s

end Sys2Proof.Machine
end

