-- ==== Sys2Proof/Decode.lean ====
section
/-! DEFINITION. The decoder, total on any bytes and rejecting by name, and the encoder
(spec/30_encoding.md). Bit fields are pulled out here, once. -/

namespace Sys2Proof

/-- Why bytes are no instruction: an undefined opcode (30_encoding.md R254), the reserved MEMB
mode 0110 (R244), a reserved scale (R243), or fewer bytes than the instruction has (R245). -/
inductive DecodeError where
  | undefinedOpcode
  | reservedMode
  | reservedScale
  | truncated
  deriving DecidableEq, Repr

/-- A word from its bytes, the first at the lowest address: little endian (20_memory.md R144). -/
def wordOfBytes (b0 b1 b2 b3 : Byte) : Word := b3 ++ b2 ++ b1 ++ b0

/-- The bytes of a word, least significant first (20_memory.md R144). -/
def bytesOfWord (w : Word) : List Byte :=
  [w.extractLsb' 0 8, w.extractLsb' 8 8, w.extractLsb' 16 8, w.extractLsb' 24 8]

/-- Bits 31:24, the opcode of every format (30_encoding.md R220). -/
def opcode8 (w : Word) : BitVec 8 := w.extractLsb' 24 8

/-- The 12-bit opcode of the REG format: bits 31:24 and 10:7 (30_encoding.md R223). -/
def opcode12 (w : Word) : BitVec 12 := w.extractLsb' 24 8 ++ w.extractLsb' 7 4

/-- A REG source operand from its S bit, M bit and number (30_encoding.md R224, R225). -/
def Src.ofBits (s m : Bool) (n : BitVec 5) : Src :=
  if s then .sfr m n else if m then .lit n else .reg n

/-- A `src/dst` operand from its M bit and number (30_encoding.md R224). -/
def SrcDst.ofBits (m : Bool) (n : BitVec 5) : SrcDst := if m then .lit n else .reg n

/-- A COBR src1 operand from M1 and its number (30_encoding.md R226). -/
def CSrc.ofBits (m : Bool) (n : BitVec 5) : CSrc := if m then .lit n else .reg n

/-- A COBR src2 operand from S2 and its number (30_encoding.md R226). -/
def CReg.ofBits (s : Bool) (n : BitVec 5) : CReg := if s then .sfr n else .reg n

/-- The scale field (30_encoding.md R243); `101` to `111` are reserved. -/
def Scale.ofBits (b : BitVec 3) : Option Scale :=
  match b.toNat with
  | 0 => some .x1
  | 1 => some .x2
  | 2 => some .x4
  | 3 => some .x8
  | 4 => some .x16
  | _ => none

/-- The REG src1 operand: bits 4:0, S1 = bit 5, M1 = bit 11 (30_encoding.md R223). -/
def regSrc1 (w : Word) : Src := .ofBits (w.getLsbD 5) (w.getLsbD 11) (w.extractLsb' 0 5)

/-- The REG src2 operand: bits 18:14, S2 = bit 6, M2 = bit 12 (30_encoding.md R223). -/
def regSrc2 (w : Word) : Src := .ofBits (w.getLsbD 6) (w.getLsbD 12) (w.extractLsb' 14 5)

/-- The REG src/dst operand: bits 23:19, M3 = bit 13 (30_encoding.md R223). -/
def regSrcDst (w : Word) : SrcDst := .ofBits (w.getLsbD 13) (w.extractLsb' 19 5)

/-- The COBR src1 operand: bits 23:19, M1 = bit 13 (30_encoding.md R226). -/
def cobrSrc1 (w : Word) : CSrc := .ofBits (w.getLsbD 13) (w.extractLsb' 19 5)

/-- The COBR src2 operand: bits 18:14, S2 = bit 0 (30_encoding.md R226). -/
def cobrSrc2 (w : Word) : CReg := .ofBits (w.getLsbD 0) (w.extractLsb' 14 5)

/-- The destination of `test<cc>`: the COBR src1 field (30_encoding.md R226). -/
def testDst (w : Word) : SrcDst := .ofBits (w.getLsbD 13) (w.extractLsb' 19 5)

/-- The COBR displacement, bits 12:2, in words (30_encoding.md R226). -/
def cobrDisp (w : Word) : BitVec 11 := w.extractLsb' 2 11

/-- The CTRL displacement, bits 23:2, in words (30_encoding.md R229). -/
def ctrlDisp (w : Word) : BitVec 22 := w.extractLsb' 2 22

/-- The MEM src/dst register, bits 23:19 (30_encoding.md R240). -/
def memReg (w : Word) : Reg := w.extractLsb' 19 5

/-- Take one word off a list of bytes. -/
def takeWord : List Byte → Except DecodeError (Word × List Byte)
  | b0 :: b1 :: b2 :: b3 :: rest => .ok (wordOfBytes b0 b1 b2 b3, rest)
  | _ => .error .truncated

/-- A MEMB address with a displacement word (30_encoding.md R242, R245). -/
def withDisp (k : Word → MemOp) (rest : List Byte) : Except DecodeError (MemOp × List Byte) :=
  match takeWord rest with
  | .ok (d, rest') => .ok (k d, rest')
  | .error e => .error e

/-- The address of a MEM instruction (30_encoding.md R241 to R244): bit 12 selects MEMA or MEMB,
bits 13:10 the MEMB mode. A mode that uses no scale ignores the scale field. -/
def decodeMemOp (w : Word) (rest : List Byte) : Except DecodeError (MemOp × List Byte) :=
  let abase : Reg := w.extractLsb' 14 5
  let index : Reg := w.extractLsb' 0 5
  let scale := Scale.ofBits (w.extractLsb' 7 3)
  if w.getLsbD 12 then
    match (w.extractLsb' 10 4).toNat, scale with
    | 0x4, _ => .ok (.regInd abase, rest)
    | 0x5, _ => withDisp .ipDisp rest
    | 0x6, _ => .error .reservedMode
    | 0xC, _ => withDisp .absDisp rest
    | 0xD, _ => withDisp (.regDisp abase) rest
    | 0x7, some sc => .ok (.regIdx abase sc index, rest)
    | 0xE, some sc => withDisp (.idxDisp sc index) rest
    | 0xF, some sc => withDisp (.regIdxDisp abase sc index) rest
    | _, _ => .error .reservedScale
  else if w.getLsbD 13 then .ok (.regOff abase (w.extractLsb' 0 12), rest)
  else .ok (.absOff (w.extractLsb' 0 12), rest)

/-- The REG instruction with a 12-bit opcode (30_encoding.md R250). -/
def decodeReg (op : Nat) (s1 s2 : Src) (d : SrcDst) : Option Instr :=
  match op with
  | 0x580 => some (.notbit s1 s2 d)
  | 0x581 => some (.and s1 s2 d)
  | 0x582 => some (.andnot s1 s2 d)
  | 0x583 => some (.setbit s1 s2 d)
  | 0x584 => some (.notand s1 s2 d)
  | 0x586 => some (.xor s1 s2 d)
  | 0x587 => some (.or s1 s2 d)
  | 0x588 => some (.nor s1 s2 d)
  | 0x589 => some (.xnor s1 s2 d)
  | 0x58A => some (.not s1 d)
  | 0x58B => some (.ornot s1 s2 d)
  | 0x58C => some (.clrbit s1 s2 d)
  | 0x58D => some (.notor s1 s2 d)
  | 0x58E => some (.nand s1 s2 d)
  | 0x58F => some (.alterbit s1 s2 d)
  | 0x590 => some (.addo s1 s2 d)
  | 0x591 => some (.addi s1 s2 d)
  | 0x592 => some (.subo s1 s2 d)
  | 0x593 => some (.subi s1 s2 d)
  | 0x594 => some (.cmpob s1 s2)
  | 0x595 => some (.cmpib s1 s2)
  | 0x596 => some (.cmpos s1 s2)
  | 0x597 => some (.cmpis s1 s2)
  | 0x598 => some (.shro s1 s2 d)
  | 0x59A => some (.shrdi s1 s2 d)
  | 0x59B => some (.shri s1 s2 d)
  | 0x59C => some (.shlo s1 s2 d)
  | 0x59D => some (.rotate s1 s2 d)
  | 0x59E => some (.shli s1 s2 d)
  | 0x5A0 => some (.cmpo s1 s2)
  | 0x5A1 => some (.cmpi s1 s2)
  | 0x5A2 => some (.concmpo s1 s2)
  | 0x5A3 => some (.concmpi s1 s2)
  | 0x5A4 => some (.cmpinco s1 s2 d)
  | 0x5A5 => some (.cmpinci s1 s2 d)
  | 0x5A6 => some (.cmpdeco s1 s2 d)
  | 0x5A7 => some (.cmpdeci s1 s2 d)
  | 0x5AC => some (.scanbyte s1 s2)
  | 0x5AD => some (.bswap s1 d)
  | 0x5AE => some (.chkbit s1 s2)
  | 0x5B0 => some (.addc s1 s2 d)
  | 0x5B2 => some (.subc s1 s2 d)
  | 0x5B4 => some .intdis
  | 0x5B5 => some .inten
  | 0x5CC => some (.mov s1 d)
  | 0x5D8 => some (.eshro s1 s2 d)
  | 0x5DC => some (.movl s1 d)
  | 0x5EC => some (.movt s1 d)
  | 0x5FC => some (.movq s1 d)
  | 0x610 => some (.atmod s1 s2 d)
  | 0x612 => some (.atadd s1 s2 d)
  | 0x640 => some (.spanbit s1 d)
  | 0x641 => some (.scanbit s1 d)
  | 0x645 => some (.modac s1 s2 d)
  | 0x650 => some (.modify s1 s2 d)
  | 0x651 => some (.extract s1 s2 d)
  | 0x654 => some (.modtc s1 s2 d)
  | 0x655 => some (.modpc s1 s2 d)
  | 0x658 => some (.intctl s1 d)
  | 0x659 => some (.sysctl s1 s2 d)
  | 0x65B => some (.icctl s1 s2 d)
  | 0x65C => some (.dcctl s1 s2 d)
  | 0x65D => some (.halt s1)
  | 0x660 => some (.calls s1)
  | 0x66B => some .mark
  | 0x66C => some .fmark
  | 0x66D => some .flushreg
  | 0x66F => some .syncf
  | 0x670 => some (.emul s1 s2 d)
  | 0x671 => some (.ediv s1 s2 d)
  | 0x701 => some (.mulo s1 s2 d)
  | 0x708 => some (.remo s1 s2 d)
  | 0x70B => some (.divo s1 s2 d)
  | 0x741 => some (.muli s1 s2 d)
  | 0x748 => some (.remi s1 s2 d)
  | 0x749 => some (.modi s1 s2 d)
  | 0x74B => some (.divi s1 s2 d)
  | 0x780 => some (.addono s1 s2 d)
  | 0x781 => some (.addino s1 s2 d)
  | 0x782 => some (.subono s1 s2 d)
  | 0x783 => some (.subino s1 s2 d)
  | 0x784 => some (.selno s1 s2 d)
  | 0x790 => some (.addog s1 s2 d)
  | 0x791 => some (.addig s1 s2 d)
  | 0x792 => some (.subog s1 s2 d)
  | 0x793 => some (.subig s1 s2 d)
  | 0x794 => some (.selg s1 s2 d)
  | 0x7A0 => some (.addoe s1 s2 d)
  | 0x7A1 => some (.addie s1 s2 d)
  | 0x7A2 => some (.suboe s1 s2 d)
  | 0x7A3 => some (.subie s1 s2 d)
  | 0x7A4 => some (.sele s1 s2 d)
  | 0x7B0 => some (.addoge s1 s2 d)
  | 0x7B1 => some (.addige s1 s2 d)
  | 0x7B2 => some (.suboge s1 s2 d)
  | 0x7B3 => some (.subige s1 s2 d)
  | 0x7B4 => some (.selge s1 s2 d)
  | 0x7C0 => some (.addol s1 s2 d)
  | 0x7C1 => some (.addil s1 s2 d)
  | 0x7C2 => some (.subol s1 s2 d)
  | 0x7C3 => some (.subil s1 s2 d)
  | 0x7C4 => some (.sell s1 s2 d)
  | 0x7D0 => some (.addone s1 s2 d)
  | 0x7D1 => some (.addine s1 s2 d)
  | 0x7D2 => some (.subone s1 s2 d)
  | 0x7D3 => some (.subine s1 s2 d)
  | 0x7D4 => some (.selne s1 s2 d)
  | 0x7E0 => some (.addole s1 s2 d)
  | 0x7E1 => some (.addile s1 s2 d)
  | 0x7E2 => some (.subole s1 s2 d)
  | 0x7E3 => some (.subile s1 s2 d)
  | 0x7E4 => some (.selle s1 s2 d)
  | 0x7F0 => some (.addoo s1 s2 d)
  | 0x7F1 => some (.addio s1 s2 d)
  | 0x7F2 => some (.suboo s1 s2 d)
  | 0x7F3 => some (.subio s1 s2 d)
  | 0x7F4 => some (.selo s1 s2 d)
  | _ => none

/-- The COBR instruction with an 8-bit opcode (30_encoding.md R251); `t` is the src1 field as a
destination. -/
def decodeCobr (op : Nat) (s1 : CSrc) (s2 : CReg) (disp : BitVec 11) (t : SrcDst) : Option Instr :=
  match op with
  | 0x20 => some (.testno t)
  | 0x21 => some (.testg t)
  | 0x22 => some (.teste t)
  | 0x23 => some (.testge t)
  | 0x24 => some (.testl t)
  | 0x25 => some (.testne t)
  | 0x26 => some (.testle t)
  | 0x27 => some (.testo t)
  | 0x30 => some (.bbc s1 s2 disp)
  | 0x31 => some (.cmpobg s1 s2 disp)
  | 0x32 => some (.cmpobe s1 s2 disp)
  | 0x33 => some (.cmpobge s1 s2 disp)
  | 0x34 => some (.cmpobl s1 s2 disp)
  | 0x35 => some (.cmpobne s1 s2 disp)
  | 0x36 => some (.cmpoble s1 s2 disp)
  | 0x37 => some (.bbs s1 s2 disp)
  | 0x38 => some (.cmpibno s1 s2 disp)
  | 0x39 => some (.cmpibg s1 s2 disp)
  | 0x3A => some (.cmpibe s1 s2 disp)
  | 0x3B => some (.cmpibge s1 s2 disp)
  | 0x3C => some (.cmpibl s1 s2 disp)
  | 0x3D => some (.cmpibne s1 s2 disp)
  | 0x3E => some (.cmpible s1 s2 disp)
  | 0x3F => some (.cmpibo s1 s2 disp)
  | _ => none

/-- The CTRL instruction with an 8-bit opcode (30_encoding.md R252). -/
def decodeCtrl (op : Nat) (disp : BitVec 22) : Option Instr :=
  match op with
  | 0x08 => some (.b disp)
  | 0x09 => some (.call disp)
  | 0x0A => some .ret
  | 0x0B => some (.bal disp)
  | 0x10 => some (.bno disp)
  | 0x11 => some (.bg disp)
  | 0x12 => some (.be disp)
  | 0x13 => some (.bge disp)
  | 0x14 => some (.bl disp)
  | 0x15 => some (.bne disp)
  | 0x16 => some (.ble disp)
  | 0x17 => some (.bo disp)
  | 0x18 => some .faultno
  | 0x19 => some .faultg
  | 0x1A => some .faulte
  | 0x1B => some .faultge
  | 0x1C => some .faultl
  | 0x1D => some .faultne
  | 0x1E => some .faultle
  | 0x1F => some .faulto
  | _ => none

/-- The MEM instruction with an 8-bit opcode (30_encoding.md R253). -/
def decodeMem (op : Nat) (r : Reg) (m : MemOp) : Option Instr :=
  match op with
  | 0x80 => some (.ldob m r)
  | 0x82 => some (.stob r m)
  | 0x84 => some (.bx m)
  | 0x85 => some (.balx m r)
  | 0x86 => some (.callx m)
  | 0x88 => some (.ldos m r)
  | 0x8A => some (.stos r m)
  | 0x8C => some (.lda m r)
  | 0x90 => some (.ld m r)
  | 0x92 => some (.st r m)
  | 0x98 => some (.ldl m r)
  | 0x9A => some (.stl r m)
  | 0xA0 => some (.ldt m r)
  | 0xA2 => some (.stt r m)
  | 0xB0 => some (.ldq m r)
  | 0xB2 => some (.stq r m)
  | 0xC0 => some (.ldib m r)
  | 0xC2 => some (.stib r m)
  | 0xC8 => some (.ldis m r)
  | 0xCA => some (.stis r m)
  | _ => none

/-- An instruction or an undefined opcode (30_encoding.md R254). -/
def orUndefined (i : Option Instr) (rest : List Byte) : Except DecodeError (Instr × List Byte) :=
  match i with
  | some i => .ok (i, rest)
  | none => .error .undefinedOpcode

/-- Decode the instruction whose first word is `w` and whose later bytes are `rest`: the opcode
range selects the format (30_encoding.md R221). A MEM opcode is checked before its address, so
that an undefined opcode never asks for a second word. -/
def decodeWord (w : Word) (rest : List Byte) : Except DecodeError (Instr × List Byte) :=
  let op := (opcode8 w).toNat
  if op < 0x20 then orUndefined (decodeCtrl op (ctrlDisp w)) rest
  else if op < 0x40 then
    orUndefined (decodeCobr op (cobrSrc1 w) (cobrSrc2 w) (cobrDisp w) (testDst w)) rest
  else if op < 0x80 then
    orUndefined (decodeReg (opcode12 w).toNat (regSrc1 w) (regSrc2 w) (regSrcDst w)) rest
  else if (decodeMem op 0 (.absOff 0)).isNone then .error .undefinedOpcode
  else
    match decodeMemOp w rest with
    | .ok (m, rest') => orUndefined (decodeMem op (memReg w) m) rest'
    | .error e => .error e

/-- Decode the instruction at the head of a list of bytes; the rest of the list comes back. -/
def decode (bs : List Byte) : Except DecodeError (Instr × List Byte) :=
  match takeWord bs with
  | .ok (w, rest) => decodeWord w rest
  | .error e => .error e

/-- S bit, M bit and number of a REG source operand. -/
def Src.sBit : Src → Bool
  | .sfr _ _ => true
  | _ => false

/-- The M bit of a REG source operand. -/
def Src.mBit : Src → Bool
  | .reg _ => false
  | .lit _ => true
  | .sfr m _ => m

/-- The number field of a REG source operand. -/
def Src.num : Src → BitVec 5
  | .reg n | .lit n | .sfr _ n => n

/-- The M bit of a `src/dst` operand. -/
def SrcDst.mBit : SrcDst → Bool
  | .reg _ => false
  | .lit _ => true

/-- The number field of a `src/dst` operand. -/
def SrcDst.num : SrcDst → BitVec 5
  | .reg n | .lit n => n

/-- The M1 bit of a COBR src1 operand. -/
def CSrc.mBit : CSrc → Bool
  | .reg _ => false
  | .lit _ => true

/-- The number field of a COBR src1 operand. -/
def CSrc.num : CSrc → BitVec 5
  | .reg n | .lit n => n

/-- The S2 bit of a COBR src2 operand. -/
def CReg.sBit : CReg → Bool
  | .reg _ => false
  | .sfr _ => true

/-- The number field of a COBR src2 operand. -/
def CReg.num : CReg → BitVec 5
  | .reg n | .sfr n => n

/-- The scale field (30_encoding.md R243). -/
def Scale.bits : Scale → BitVec 3
  | .x1 => 0
  | .x2 => 1
  | .x4 => 2
  | .x8 => 3
  | .x16 => 4

/-- A REG word (30_encoding.md R223). -/
def regWord (op : BitVec 12) (s1 s2 : Src) (d : SrcDst) : Word :=
  op.extractLsb' 4 8 ++ d.num ++ s2.num ++ BitVec.ofBool d.mBit ++ BitVec.ofBool s2.mBit ++
    BitVec.ofBool s1.mBit ++ op.extractLsb' 0 4 ++ BitVec.ofBool s2.sBit ++
    BitVec.ofBool s1.sBit ++ s1.num

/-- A COBR word, T = 0 (30_encoding.md R226). -/
def cobrWord (op : BitVec 8) (s1 : CSrc) (s2 : CReg) (disp : BitVec 11) : Word :=
  op ++ s1.num ++ s2.num ++ BitVec.ofBool s1.mBit ++ disp ++ 0#1 ++ BitVec.ofBool s2.sBit

/-- A `test<cc>` word: the destination in the src1 field (30_encoding.md R226). -/
def testWord (op : BitVec 8) (d : SrcDst) : Word :=
  op ++ d.num ++ 0#5 ++ BitVec.ofBool d.mBit ++ 0#13

/-- A CTRL word, T = 0 (30_encoding.md R229). -/
def ctrlWord (op : BitVec 8) (disp : BitVec 22) : Word := op ++ disp ++ 0#2

/-- A MEMB word: mode, scale, bits 6:5 zero, index (30_encoding.md R242). -/
def membWord (op : BitVec 8) (r abase : Reg) (mode : BitVec 4) (scale : BitVec 3) (index : Reg) :
    Word :=
  op ++ r ++ abase ++ mode ++ scale ++ 0#2 ++ index

/-- The words of a MEM instruction (30_encoding.md R240 to R242). -/
def memWords (op : BitVec 8) (r : Reg) : MemOp → List Word
  | .absOff off => [op ++ r ++ 0#5 ++ 0#2 ++ off]
  | .regOff abase off => [op ++ r ++ abase ++ 2#2 ++ off]
  | .regInd abase => [membWord op r abase 0x4 0 0]
  | .ipDisp disp => [membWord op r 0 0x5 0 0, disp]
  | .regIdx abase scale index => [membWord op r abase 0x7 scale.bits index]
  | .absDisp disp => [membWord op r 0 0xC 0 0, disp]
  | .regDisp abase disp => [membWord op r abase 0xD 0 0, disp]
  | .idxDisp scale index disp => [membWord op r 0 0xE scale.bits index, disp]
  | .regIdxDisp abase scale index disp => [membWord op r abase 0xF scale.bits index, disp]

/-- The words of an instruction (30_encoding.md R250 to R253); fields it does not use are 0. -/
def encode : Instr → List Word
  | .notbit s1 s2 d => [regWord 0x580 s1 s2 d]
  | .and s1 s2 d => [regWord 0x581 s1 s2 d]
  | .andnot s1 s2 d => [regWord 0x582 s1 s2 d]
  | .setbit s1 s2 d => [regWord 0x583 s1 s2 d]
  | .notand s1 s2 d => [regWord 0x584 s1 s2 d]
  | .xor s1 s2 d => [regWord 0x586 s1 s2 d]
  | .or s1 s2 d => [regWord 0x587 s1 s2 d]
  | .nor s1 s2 d => [regWord 0x588 s1 s2 d]
  | .xnor s1 s2 d => [regWord 0x589 s1 s2 d]
  | .not s d => [regWord 0x58A s (.reg 0) d]
  | .ornot s1 s2 d => [regWord 0x58B s1 s2 d]
  | .clrbit s1 s2 d => [regWord 0x58C s1 s2 d]
  | .notor s1 s2 d => [regWord 0x58D s1 s2 d]
  | .nand s1 s2 d => [regWord 0x58E s1 s2 d]
  | .alterbit s1 s2 d => [regWord 0x58F s1 s2 d]
  | .addo s1 s2 d => [regWord 0x590 s1 s2 d]
  | .addi s1 s2 d => [regWord 0x591 s1 s2 d]
  | .subo s1 s2 d => [regWord 0x592 s1 s2 d]
  | .subi s1 s2 d => [regWord 0x593 s1 s2 d]
  | .cmpob s1 s2 => [regWord 0x594 s1 s2 (.reg 0)]
  | .cmpib s1 s2 => [regWord 0x595 s1 s2 (.reg 0)]
  | .cmpos s1 s2 => [regWord 0x596 s1 s2 (.reg 0)]
  | .cmpis s1 s2 => [regWord 0x597 s1 s2 (.reg 0)]
  | .shro s1 s2 d => [regWord 0x598 s1 s2 d]
  | .shrdi s1 s2 d => [regWord 0x59A s1 s2 d]
  | .shri s1 s2 d => [regWord 0x59B s1 s2 d]
  | .shlo s1 s2 d => [regWord 0x59C s1 s2 d]
  | .rotate s1 s2 d => [regWord 0x59D s1 s2 d]
  | .shli s1 s2 d => [regWord 0x59E s1 s2 d]
  | .cmpo s1 s2 => [regWord 0x5A0 s1 s2 (.reg 0)]
  | .cmpi s1 s2 => [regWord 0x5A1 s1 s2 (.reg 0)]
  | .concmpo s1 s2 => [regWord 0x5A2 s1 s2 (.reg 0)]
  | .concmpi s1 s2 => [regWord 0x5A3 s1 s2 (.reg 0)]
  | .cmpinco s1 s2 d => [regWord 0x5A4 s1 s2 d]
  | .cmpinci s1 s2 d => [regWord 0x5A5 s1 s2 d]
  | .cmpdeco s1 s2 d => [regWord 0x5A6 s1 s2 d]
  | .cmpdeci s1 s2 d => [regWord 0x5A7 s1 s2 d]
  | .scanbyte s1 s2 => [regWord 0x5AC s1 s2 (.reg 0)]
  | .bswap s d => [regWord 0x5AD s (.reg 0) d]
  | .chkbit s1 s2 => [regWord 0x5AE s1 s2 (.reg 0)]
  | .addc s1 s2 d => [regWord 0x5B0 s1 s2 d]
  | .subc s1 s2 d => [regWord 0x5B2 s1 s2 d]
  | .intdis => [regWord 0x5B4 (.reg 0) (.reg 0) (.reg 0)]
  | .inten => [regWord 0x5B5 (.reg 0) (.reg 0) (.reg 0)]
  | .mov s d => [regWord 0x5CC s (.reg 0) d]
  | .eshro s1 s2 d => [regWord 0x5D8 s1 s2 d]
  | .movl s d => [regWord 0x5DC s (.reg 0) d]
  | .movt s d => [regWord 0x5EC s (.reg 0) d]
  | .movq s d => [regWord 0x5FC s (.reg 0) d]
  | .atmod s1 s2 d => [regWord 0x610 s1 s2 d]
  | .atadd s1 s2 d => [regWord 0x612 s1 s2 d]
  | .spanbit s d => [regWord 0x640 s (.reg 0) d]
  | .scanbit s d => [regWord 0x641 s (.reg 0) d]
  | .modac s1 s2 d => [regWord 0x645 s1 s2 d]
  | .modify s1 s2 d => [regWord 0x650 s1 s2 d]
  | .extract s1 s2 d => [regWord 0x651 s1 s2 d]
  | .modtc s1 s2 d => [regWord 0x654 s1 s2 d]
  | .modpc s1 s2 d => [regWord 0x655 s1 s2 d]
  | .intctl s d => [regWord 0x658 s (.reg 0) d]
  | .sysctl s1 s2 d => [regWord 0x659 s1 s2 d]
  | .icctl s1 s2 d => [regWord 0x65B s1 s2 d]
  | .dcctl s1 s2 d => [regWord 0x65C s1 s2 d]
  | .halt s => [regWord 0x65D s (.reg 0) (.reg 0)]
  | .calls s => [regWord 0x660 s (.reg 0) (.reg 0)]
  | .mark => [regWord 0x66B (.reg 0) (.reg 0) (.reg 0)]
  | .fmark => [regWord 0x66C (.reg 0) (.reg 0) (.reg 0)]
  | .flushreg => [regWord 0x66D (.reg 0) (.reg 0) (.reg 0)]
  | .syncf => [regWord 0x66F (.reg 0) (.reg 0) (.reg 0)]
  | .emul s1 s2 d => [regWord 0x670 s1 s2 d]
  | .ediv s1 s2 d => [regWord 0x671 s1 s2 d]
  | .mulo s1 s2 d => [regWord 0x701 s1 s2 d]
  | .remo s1 s2 d => [regWord 0x708 s1 s2 d]
  | .divo s1 s2 d => [regWord 0x70B s1 s2 d]
  | .muli s1 s2 d => [regWord 0x741 s1 s2 d]
  | .remi s1 s2 d => [regWord 0x748 s1 s2 d]
  | .modi s1 s2 d => [regWord 0x749 s1 s2 d]
  | .divi s1 s2 d => [regWord 0x74B s1 s2 d]
  | .addono s1 s2 d => [regWord 0x780 s1 s2 d]
  | .addino s1 s2 d => [regWord 0x781 s1 s2 d]
  | .subono s1 s2 d => [regWord 0x782 s1 s2 d]
  | .subino s1 s2 d => [regWord 0x783 s1 s2 d]
  | .selno s1 s2 d => [regWord 0x784 s1 s2 d]
  | .addog s1 s2 d => [regWord 0x790 s1 s2 d]
  | .addig s1 s2 d => [regWord 0x791 s1 s2 d]
  | .subog s1 s2 d => [regWord 0x792 s1 s2 d]
  | .subig s1 s2 d => [regWord 0x793 s1 s2 d]
  | .selg s1 s2 d => [regWord 0x794 s1 s2 d]
  | .addoe s1 s2 d => [regWord 0x7A0 s1 s2 d]
  | .addie s1 s2 d => [regWord 0x7A1 s1 s2 d]
  | .suboe s1 s2 d => [regWord 0x7A2 s1 s2 d]
  | .subie s1 s2 d => [regWord 0x7A3 s1 s2 d]
  | .sele s1 s2 d => [regWord 0x7A4 s1 s2 d]
  | .addoge s1 s2 d => [regWord 0x7B0 s1 s2 d]
  | .addige s1 s2 d => [regWord 0x7B1 s1 s2 d]
  | .suboge s1 s2 d => [regWord 0x7B2 s1 s2 d]
  | .subige s1 s2 d => [regWord 0x7B3 s1 s2 d]
  | .selge s1 s2 d => [regWord 0x7B4 s1 s2 d]
  | .addol s1 s2 d => [regWord 0x7C0 s1 s2 d]
  | .addil s1 s2 d => [regWord 0x7C1 s1 s2 d]
  | .subol s1 s2 d => [regWord 0x7C2 s1 s2 d]
  | .subil s1 s2 d => [regWord 0x7C3 s1 s2 d]
  | .sell s1 s2 d => [regWord 0x7C4 s1 s2 d]
  | .addone s1 s2 d => [regWord 0x7D0 s1 s2 d]
  | .addine s1 s2 d => [regWord 0x7D1 s1 s2 d]
  | .subone s1 s2 d => [regWord 0x7D2 s1 s2 d]
  | .subine s1 s2 d => [regWord 0x7D3 s1 s2 d]
  | .selne s1 s2 d => [regWord 0x7D4 s1 s2 d]
  | .addole s1 s2 d => [regWord 0x7E0 s1 s2 d]
  | .addile s1 s2 d => [regWord 0x7E1 s1 s2 d]
  | .subole s1 s2 d => [regWord 0x7E2 s1 s2 d]
  | .subile s1 s2 d => [regWord 0x7E3 s1 s2 d]
  | .selle s1 s2 d => [regWord 0x7E4 s1 s2 d]
  | .addoo s1 s2 d => [regWord 0x7F0 s1 s2 d]
  | .addio s1 s2 d => [regWord 0x7F1 s1 s2 d]
  | .suboo s1 s2 d => [regWord 0x7F2 s1 s2 d]
  | .subio s1 s2 d => [regWord 0x7F3 s1 s2 d]
  | .selo s1 s2 d => [regWord 0x7F4 s1 s2 d]
  | .testno d => [testWord 0x20 d]
  | .testg d => [testWord 0x21 d]
  | .teste d => [testWord 0x22 d]
  | .testge d => [testWord 0x23 d]
  | .testl d => [testWord 0x24 d]
  | .testne d => [testWord 0x25 d]
  | .testle d => [testWord 0x26 d]
  | .testo d => [testWord 0x27 d]
  | .bbc s1 s2 disp => [cobrWord 0x30 s1 s2 disp]
  | .cmpobg s1 s2 disp => [cobrWord 0x31 s1 s2 disp]
  | .cmpobe s1 s2 disp => [cobrWord 0x32 s1 s2 disp]
  | .cmpobge s1 s2 disp => [cobrWord 0x33 s1 s2 disp]
  | .cmpobl s1 s2 disp => [cobrWord 0x34 s1 s2 disp]
  | .cmpobne s1 s2 disp => [cobrWord 0x35 s1 s2 disp]
  | .cmpoble s1 s2 disp => [cobrWord 0x36 s1 s2 disp]
  | .bbs s1 s2 disp => [cobrWord 0x37 s1 s2 disp]
  | .cmpibno s1 s2 disp => [cobrWord 0x38 s1 s2 disp]
  | .cmpibg s1 s2 disp => [cobrWord 0x39 s1 s2 disp]
  | .cmpibe s1 s2 disp => [cobrWord 0x3A s1 s2 disp]
  | .cmpibge s1 s2 disp => [cobrWord 0x3B s1 s2 disp]
  | .cmpibl s1 s2 disp => [cobrWord 0x3C s1 s2 disp]
  | .cmpibne s1 s2 disp => [cobrWord 0x3D s1 s2 disp]
  | .cmpible s1 s2 disp => [cobrWord 0x3E s1 s2 disp]
  | .cmpibo s1 s2 disp => [cobrWord 0x3F s1 s2 disp]
  | .b disp => [ctrlWord 0x08 disp]
  | .call disp => [ctrlWord 0x09 disp]
  | .ret => [ctrlWord 0x0A 0]
  | .bal disp => [ctrlWord 0x0B disp]
  | .bno disp => [ctrlWord 0x10 disp]
  | .bg disp => [ctrlWord 0x11 disp]
  | .be disp => [ctrlWord 0x12 disp]
  | .bge disp => [ctrlWord 0x13 disp]
  | .bl disp => [ctrlWord 0x14 disp]
  | .bne disp => [ctrlWord 0x15 disp]
  | .ble disp => [ctrlWord 0x16 disp]
  | .bo disp => [ctrlWord 0x17 disp]
  | .faultno => [ctrlWord 0x18 0]
  | .faultg => [ctrlWord 0x19 0]
  | .faulte => [ctrlWord 0x1A 0]
  | .faultge => [ctrlWord 0x1B 0]
  | .faultl => [ctrlWord 0x1C 0]
  | .faultne => [ctrlWord 0x1D 0]
  | .faultle => [ctrlWord 0x1E 0]
  | .faulto => [ctrlWord 0x1F 0]
  | .ldob m r => memWords 0x80 r m
  | .stob r m => memWords 0x82 r m
  | .bx m => memWords 0x84 0 m
  | .balx m r => memWords 0x85 r m
  | .callx m => memWords 0x86 0 m
  | .ldos m r => memWords 0x88 r m
  | .stos r m => memWords 0x8A r m
  | .lda m r => memWords 0x8C r m
  | .ld m r => memWords 0x90 r m
  | .st r m => memWords 0x92 r m
  | .ldl m r => memWords 0x98 r m
  | .stl r m => memWords 0x9A r m
  | .ldt m r => memWords 0xA0 r m
  | .stt r m => memWords 0xA2 r m
  | .ldq m r => memWords 0xB0 r m
  | .stq r m => memWords 0xB2 r m
  | .ldib m r => memWords 0xC0 r m
  | .stib r m => memWords 0xC2 r m
  | .ldis m r => memWords 0xC8 r m
  | .stis r m => memWords 0xCA r m

/-- The bytes of an instruction as they lie in memory (20_memory.md R144). -/
def encodeBytes (i : Instr) : List Byte := (encode i).flatMap bytesOfWord

/-- The instruction the decoder reads from the low `nbits` bits of `w`, first word lowest, every
higher bit 0. -/
def decodeTableWord (nbits w : Nat) : Option Instr :=
  let w := w % 2 ^ nbits
  let w0 : Word := BitVec.ofNat 32 w
  let w1 : Word := BitVec.ofNat 32 (w / 2 ^ 32)
  match decode (bytesOfWord w0 ++ bytesOfWord w1) with
  | .ok (i, _) => some i
  | .error _ => none

end Sys2Proof
end

