-- ==== Sys2Proof/Machine/Fetch.lean ====
section
/-! DEFINITION. Fetch and decode of the instruction at IP (spec/20_memory.md R156,
spec/30_encoding.md R245, R263). -/

namespace Sys2Proof.Machine

/-- The decoded instruction, or why the bytes are none. -/
abbrev Decoded := Except DecodeError (Instr × List Byte)

/-- Fetch the word at IP, and the one after it when the instruction has two (30_encoding.md R245);
others may have the bus after each (64_cpcu_memctl_arb.md R1044). -/
def fetchInstr (s : State) : Eff Decoded :=
  (fetchWord s.ip s).andGap.bind fun w s =>
    match decode (bytesOfWord w) with
    | .error .truncated =>
      (fetchWord (s.ip + 4) s).andGap.bind fun d s => .ok (decode (bytesOfWord w ++ bytesOfWord d)) s
    | r => .ok r s

/-- The 8 bytes of an instruction whose first `nbits` bits are `w`, the rest 0. -/
def placedBytes (nbits w : Nat) : List Byte :=
  (List.range 8).map fun i => if 8 * i < nbits then BitVec.ofNat 8 (w / 2 ^ (8 * i)) else 0

/-- An address a whole instruction can be fetched from. -/
def State.fetchable (s : State) (a : Word) : Bool :=
  match region a, s.target a, region (a + 4), s.target (a + 4) with
  | .bus, .memory _ _, .bus, .memory _ _ => true
  | _, _, _, _ => false

/-- The core about to fetch at `a`: initialized, released from reset, not halted, the environment
idle, the bus not taken from the core. -/
def State.aboutToFetch (s : State) (a : Word) : State :=
  { s with
    run := .ready
    halted := false
    schedule := []
    cpcu := { s.cpcu with coreReset := false }
    arb := { s.arb with lbacr := if field s.arb.lbacr 0 2 = 3 then 0 else s.arb.lbacr }
    ip := a }

/-- Put bytes in the memory that answers at `a`, with no older word left for a fetch to see. -/
def placeBytes (a : Word) (bs : List Byte) (s : State) : State :=
  match s.target a with
  | .memory k _ =>
    { s with
      mem := Memory.writeBytes s.mem k bs
      stale := s.stale.filter fun e => e.1 != k / 4 * 4 }
  | _ => s

/-- An instruction placed where the next step fetches. -/
def placeInstr (nbits w : Nat) (s : State) : State :=
  let s := s.aboutToFetch (if s.fetchable s.ip then s.ip else 0xFE000000)
  let bs := placedBytes nbits w
  placeBytes (s.ip + 4) (bs.drop 4) (placeBytes s.ip (bs.take 4) s)

end Sys2Proof.Machine
end

