-- ==== Sys2Proof/Machine/Cycle.lean ====
section
/-! DEFINITION. One step of the core (spec/60_exceptions.md R706): interrupt resolution, fetch,
decode, execution. -/

namespace Sys2Proof.Machine

/-- Fetch and execute the instruction at IP (R706 steps 3 to 7; 30_encoding.md R263); the late tick
of a timer can come no more (63_timers.md R938). -/
def runInstr (s : State) : Res :=
  match fetchInstr (endLate s) with
  | .ok (.ok i) s => exec i.1 s
  | .ok (.error _) s => raise .invalidOpcode .none (s.ip + 4) s
  | .trap t s => raise t .none (s.ip + 4) s
  | .over s => .next s
  | .fault f => .fault f
  | .refuse r => .refused r

/-- The core cannot move: held in reset (64_cpcu_memctl_arb.md R975), or its bus priority is
`disabled` (R1041). -/
def State.coreHeld (s : State) : Bool := s.cpcu.coreReset || !s.coreGranted

/-- A step of the core: an interrupt if one is selected, else the next instruction (R706,
61_interrupts.md R834; 70_reset_and_hazards.md R1310, R1313). -/
def coreStep (s : State) : Res :=
  match s.run with
  | .stopped _ | .once => .next s
  | .selfTest => .refused .testMode
  | .starting => if s.coreHeld then .next s else coreInitialize s
  | .ready =>
    if s.coreHeld then .next s
    else
      match s.selectInterrupt with
      | some k => takeInterrupt k s
      | none => if s.halted then .next s else runInstr s

end Sys2Proof.Machine
end

