-- ==== Sys2Proof/Machine/Step.lean ====
section
/-! DEFINITION. One step of the machine: the next turn of the schedule, the core when it is empty;
the interrupt inputs are sampled first (spec/61_interrupts.md R833). -/

namespace Sys2Proof.Machine

/-- One step. -/
def step (s : State) : Host.Outcome State Fault Refusal :=
  match s.schedule with
  | [] => coreStep (sampleInputs s)
  | .core :: rest => coreStep (sampleInputs { s with schedule := rest })
  | .env e :: rest => perform e (sampleInputs { s with schedule := rest })
  | .between es :: rest =>
    (performAll es { s with schedule := rest }).close .interruptDeliveryFault fun _ s => .next s

/-- The state with an instruction placed where `step` fetches next (log 5). -/
def State.withFetchWord (s : State) (nbits w : Nat) : State := placeInstr nbits w s

end Sys2Proof.Machine
end

