-- ==== Sys2Proof/WellFormed.lean ====
section
/-! DEFINITION. Well-formed instructions: no operand form that the encoding reserves, no misaligned
register group, no write to r2 (spec/30_encoding.md R225, spec/10_state.md R46, R49). The processor
answers an ill-formed one with OPERATION.INVALID_OPERAND. Where the use of a field depends on values
(`sysctl`, `icctl`, `dcctl`), that use is checked when the instruction runs. -/

namespace Sys2Proof

/-- A source that is a register or a literal (30_encoding.md R224, R225). -/
def Src.ok : Src → Bool
  | .reg _ | .lit _ => true
  | .sfr _ _ => false

/-- The lowest register of a group of `k` is a multiple of 2 for a pair, of 4 for three or four
(10_state.md R49). -/
def groupAligned (n : Reg) (k : Nat) : Bool :=
  n.toNat % (if k ≤ 1 then 1 else if k = 2 then 2 else 4) == 0

/-- A source group of `k` registers, or a literal (10_state.md R49; 92 D16). -/
def Src.groupOk (x : Src) (k : Nat) : Bool :=
  match x with
  | .reg n => groupAligned n k
  | .lit _ => true
  | .sfr _ _ => false

/-- A destination group of `k` registers: aligned, r2 not among them (10_state.md R46, R49). -/
def destGroupOk (n : Reg) (k : Nat) : Bool :=
  groupAligned n k && !(decide (n.toNat ≤ 2) && decide (2 < n.toNat + k))

/-- A destination field that names a register group that may be written (30_encoding.md R225). -/
def SrcDst.destOk (d : SrcDst) (k : Nat) : Bool :=
  match d with
  | .reg n => destGroupOk n k
  | .lit _ => false

/-- A COBR src2 that is a register (30_encoding.md R226). -/
def CReg.ok : CReg → Bool
  | .reg _ => true
  | .sfr _ => false

/-- Whether an instruction is well-formed. -/
def Instr.wellFormed (i : Instr) : Bool :=
  match i with
  | .notbit s1 s2 d => s1.ok && s2.ok && d.destOk 1
  | .and s1 s2 d => s1.ok && s2.ok && d.destOk 1
  | .andnot s1 s2 d => s1.ok && s2.ok && d.destOk 1
  | .setbit s1 s2 d => s1.ok && s2.ok && d.destOk 1
  | .notand s1 s2 d => s1.ok && s2.ok && d.destOk 1
  | .xor s1 s2 d => s1.ok && s2.ok && d.destOk 1
  | .or s1 s2 d => s1.ok && s2.ok && d.destOk 1
  | .nor s1 s2 d => s1.ok && s2.ok && d.destOk 1
  | .xnor s1 s2 d => s1.ok && s2.ok && d.destOk 1
  | .not x d => x.ok && d.destOk 1
  | .ornot s1 s2 d => s1.ok && s2.ok && d.destOk 1
  | .clrbit s1 s2 d => s1.ok && s2.ok && d.destOk 1
  | .notor s1 s2 d => s1.ok && s2.ok && d.destOk 1
  | .nand s1 s2 d => s1.ok && s2.ok && d.destOk 1
  | .alterbit s1 s2 d => s1.ok && s2.ok && d.destOk 1
  | .addo s1 s2 d => s1.ok && s2.ok && d.destOk 1
  | .addi s1 s2 d => s1.ok && s2.ok && d.destOk 1
  | .subo s1 s2 d => s1.ok && s2.ok && d.destOk 1
  | .subi s1 s2 d => s1.ok && s2.ok && d.destOk 1
  | .cmpob s1 s2 => s1.ok && s2.ok
  | .cmpib s1 s2 => s1.ok && s2.ok
  | .cmpos s1 s2 => s1.ok && s2.ok
  | .cmpis s1 s2 => s1.ok && s2.ok
  | .shro s1 s2 d => s1.ok && s2.ok && d.destOk 1
  | .shrdi s1 s2 d => s1.ok && s2.ok && d.destOk 1
  | .shri s1 s2 d => s1.ok && s2.ok && d.destOk 1
  | .shlo s1 s2 d => s1.ok && s2.ok && d.destOk 1
  | .rotate s1 s2 d => s1.ok && s2.ok && d.destOk 1
  | .shli s1 s2 d => s1.ok && s2.ok && d.destOk 1
  | .cmpo s1 s2 => s1.ok && s2.ok
  | .cmpi s1 s2 => s1.ok && s2.ok
  | .concmpo s1 s2 => s1.ok && s2.ok
  | .concmpi s1 s2 => s1.ok && s2.ok
  | .cmpinco s1 s2 d => s1.ok && s2.ok && d.destOk 1
  | .cmpinci s1 s2 d => s1.ok && s2.ok && d.destOk 1
  | .cmpdeco s1 s2 d => s1.ok && s2.ok && d.destOk 1
  | .cmpdeci s1 s2 d => s1.ok && s2.ok && d.destOk 1
  | .scanbyte s1 s2 => s1.ok && s2.ok
  | .bswap x d => x.ok && d.destOk 1
  | .chkbit s1 s2 => s1.ok && s2.ok
  | .addc s1 s2 d => s1.ok && s2.ok && d.destOk 1
  | .subc s1 s2 d => s1.ok && s2.ok && d.destOk 1
  | .intdis => true
  | .inten => true
  | .mov x d => x.ok && d.destOk 1
  | .eshro s1 s2 d => s1.ok && s2.groupOk 2 && d.destOk 1
  | .movl x d => x.groupOk 2 && d.destOk 2
  | .movt x d => x.groupOk 3 && d.destOk 3
  | .movq x d => x.groupOk 4 && d.destOk 4
  | .atmod s1 s2 d => s1.ok && s2.ok && d.destOk 1
  | .atadd s1 s2 d => s1.ok && s2.ok && d.destOk 1
  | .spanbit x d => x.ok && d.destOk 1
  | .scanbit x d => x.ok && d.destOk 1
  | .modac s1 s2 d => s1.ok && s2.ok && d.destOk 1
  | .modify s1 s2 d => s1.ok && s2.ok && d.destOk 1
  | .extract s1 s2 d => s1.ok && s2.ok && d.destOk 1
  | .modtc s1 s2 d => s1.ok && s2.ok && d.destOk 1
  | .modpc _ s2 d => s2.ok && d.destOk 1
  | .intctl x d => x.ok && d.destOk 1
  | .sysctl s1 s2 _ => s1.ok && s2.ok
  | .icctl s1 s2 _ => s1.ok && s2.ok
  | .dcctl s1 s2 _ => s1.ok && s2.ok
  | .halt x => x.ok
  | .calls x => x.ok
  | .mark => true
  | .fmark => true
  | .flushreg => true
  | .syncf => true
  | .emul s1 s2 d => s1.ok && s2.ok && d.destOk 2
  | .ediv s1 s2 d => s1.ok && s2.groupOk 2 && d.destOk 2
  | .mulo s1 s2 d => s1.ok && s2.ok && d.destOk 1
  | .remo s1 s2 d => s1.ok && s2.ok && d.destOk 1
  | .divo s1 s2 d => s1.ok && s2.ok && d.destOk 1
  | .muli s1 s2 d => s1.ok && s2.ok && d.destOk 1
  | .remi s1 s2 d => s1.ok && s2.ok && d.destOk 1
  | .modi s1 s2 d => s1.ok && s2.ok && d.destOk 1
  | .divi s1 s2 d => s1.ok && s2.ok && d.destOk 1
  | .addono s1 s2 d => s1.ok && s2.ok && d.destOk 1
  | .addino s1 s2 d => s1.ok && s2.ok && d.destOk 1
  | .subono s1 s2 d => s1.ok && s2.ok && d.destOk 1
  | .subino s1 s2 d => s1.ok && s2.ok && d.destOk 1
  | .selno s1 s2 d => s1.ok && s2.ok && d.destOk 1
  | .addog s1 s2 d => s1.ok && s2.ok && d.destOk 1
  | .addig s1 s2 d => s1.ok && s2.ok && d.destOk 1
  | .subog s1 s2 d => s1.ok && s2.ok && d.destOk 1
  | .subig s1 s2 d => s1.ok && s2.ok && d.destOk 1
  | .selg s1 s2 d => s1.ok && s2.ok && d.destOk 1
  | .addoe s1 s2 d => s1.ok && s2.ok && d.destOk 1
  | .addie s1 s2 d => s1.ok && s2.ok && d.destOk 1
  | .suboe s1 s2 d => s1.ok && s2.ok && d.destOk 1
  | .subie s1 s2 d => s1.ok && s2.ok && d.destOk 1
  | .sele s1 s2 d => s1.ok && s2.ok && d.destOk 1
  | .addoge s1 s2 d => s1.ok && s2.ok && d.destOk 1
  | .addige s1 s2 d => s1.ok && s2.ok && d.destOk 1
  | .suboge s1 s2 d => s1.ok && s2.ok && d.destOk 1
  | .subige s1 s2 d => s1.ok && s2.ok && d.destOk 1
  | .selge s1 s2 d => s1.ok && s2.ok && d.destOk 1
  | .addol s1 s2 d => s1.ok && s2.ok && d.destOk 1
  | .addil s1 s2 d => s1.ok && s2.ok && d.destOk 1
  | .subol s1 s2 d => s1.ok && s2.ok && d.destOk 1
  | .subil s1 s2 d => s1.ok && s2.ok && d.destOk 1
  | .sell s1 s2 d => s1.ok && s2.ok && d.destOk 1
  | .addone s1 s2 d => s1.ok && s2.ok && d.destOk 1
  | .addine s1 s2 d => s1.ok && s2.ok && d.destOk 1
  | .subone s1 s2 d => s1.ok && s2.ok && d.destOk 1
  | .subine s1 s2 d => s1.ok && s2.ok && d.destOk 1
  | .selne s1 s2 d => s1.ok && s2.ok && d.destOk 1
  | .addole s1 s2 d => s1.ok && s2.ok && d.destOk 1
  | .addile s1 s2 d => s1.ok && s2.ok && d.destOk 1
  | .subole s1 s2 d => s1.ok && s2.ok && d.destOk 1
  | .subile s1 s2 d => s1.ok && s2.ok && d.destOk 1
  | .selle s1 s2 d => s1.ok && s2.ok && d.destOk 1
  | .addoo s1 s2 d => s1.ok && s2.ok && d.destOk 1
  | .addio s1 s2 d => s1.ok && s2.ok && d.destOk 1
  | .suboo s1 s2 d => s1.ok && s2.ok && d.destOk 1
  | .subio s1 s2 d => s1.ok && s2.ok && d.destOk 1
  | .selo s1 s2 d => s1.ok && s2.ok && d.destOk 1
  | .testno d => d.destOk 1
  | .testg d => d.destOk 1
  | .teste d => d.destOk 1
  | .testge d => d.destOk 1
  | .testl d => d.destOk 1
  | .testne d => d.destOk 1
  | .testle d => d.destOk 1
  | .testo d => d.destOk 1
  | .bbc _ s2 _ => s2.ok
  | .cmpobg _ s2 _ => s2.ok
  | .cmpobe _ s2 _ => s2.ok
  | .cmpobge _ s2 _ => s2.ok
  | .cmpobl _ s2 _ => s2.ok
  | .cmpobne _ s2 _ => s2.ok
  | .cmpoble _ s2 _ => s2.ok
  | .bbs _ s2 _ => s2.ok
  | .cmpibno _ s2 _ => s2.ok
  | .cmpibg _ s2 _ => s2.ok
  | .cmpibe _ s2 _ => s2.ok
  | .cmpibge _ s2 _ => s2.ok
  | .cmpibl _ s2 _ => s2.ok
  | .cmpibne _ s2 _ => s2.ok
  | .cmpible _ s2 _ => s2.ok
  | .cmpibo _ s2 _ => s2.ok
  | .b _ => true
  | .call _ => true
  | .ret => true
  | .bal _ => true
  | .bno _ => true
  | .bg _ => true
  | .be _ => true
  | .bge _ => true
  | .bl _ => true
  | .bne _ => true
  | .ble _ => true
  | .bo _ => true
  | .faultno => true
  | .faultg => true
  | .faulte => true
  | .faultge => true
  | .faultl => true
  | .faultne => true
  | .faultle => true
  | .faulto => true
  | .ldob _ d => destGroupOk d 1
  | .stob _ _ => true
  | .bx _ => true
  | .balx _ d => destGroupOk d 1
  | .callx _ => true
  | .ldos _ d => destGroupOk d 1
  | .stos _ _ => true
  | .lda _ d => destGroupOk d 1
  | .ld _ d => destGroupOk d 1
  | .st _ _ => true
  | .ldl _ d => destGroupOk d 2
  | .stl x _ => groupAligned x 2
  | .ldt _ d => destGroupOk d 3
  | .stt x _ => groupAligned x 3
  | .ldq _ d => destGroupOk d 4
  | .stq x _ => groupAligned x 4
  | .ldib _ d => destGroupOk d 1
  | .stib _ _ => true
  | .ldis _ d => destGroupOk d 1
  | .stis _ _ => true

end Sys2Proof
end

