-- ==== Sys2Proof/Safety.lean ====
section
/-! DEFINITION. What a safe step is, the invariant of the machine, and the words that statements
about instructions use: what an instruction leaves, and where memory lies. -/

namespace Sys2Proof.Machine

/-- A step that ends in a next state: the model did not stop. -/
def State.safe (s : State) : Bool :=
  match step s with
  | .next _ => true
  | .fault _ | .refused _ => false

/-- THE INVARIANT. The memory is in canonical form, the registers with reserved bits hold only
implemented bits (10_state.md R53, R57, R62, R68), at most seven register sets are cached
(45_call_return.md R540), under frame addresses of 16 bytes (10_state.md R42). -/
structure State.Legal (s : State) : Prop where
  mem : Memory.wf s.mem = true
  ip : s.ip &&& 3 = 0
  ac : s.ac &&& ~~~acMask = 0
  pc : s.pc &&& ~~~pcMask = 0
  tc : s.tc &&& ~~~tcMask = 0
  cached : s.rc.length ≤ 7
  frames : ∀ e ∈ s.rc, e.addr &&& 15 = 0

/-! ## Where memory lies -/

/-- The key of the memory byte that answers a load at an address: data RAM, or a memory on the
local bus. `none` for registers, windows and holes. -/
def State.cell (s : State) (a : Word) : Option Nat :=
  match region a with
  | .ram => some a.toNat
  | .bus =>
    match s.target a with
    | .memory k _ => some k
    | _ => none
  | _ => none

/-- The key of the memory byte that a store at an address changes. -/
def State.cellW (s : State) (a : Word) : Option Nat :=
  match region a with
  | .ram => some a.toNat
  | .bus =>
    match s.target a with
    | .memory k true => some k
    | _ => none
  | _ => none

/-- The `n` bytes from `a` on are the bytes of one memory from key `k` on. -/
def State.plain (s : State) (a : Word) (n k : Nat) : Prop :=
  ∀ i, i < n → s.cell (a + BitVec.ofNat 32 i) = some (k + i)

/-- The same, for a store. -/
def State.plainW (s : State) (a : Word) (n k : Nat) : Prop :=
  ∀ i, i < n → s.cellW (a + BitVec.ofNat 32 i) = some (k + i)

/-- Four bytes of one memory from `a` on hold the word `v`, little endian (20_memory.md R144). -/
def State.holds (s : State) (a v : Word) : Prop :=
  ∃ k, s.plain a 4 k ∧ Memory.readBytes s.mem k 4 = wordBytes v

/-- `n` bytes from `a` on may be stored: one memory answers and no protection check fails
(40_data_movement.md R281). -/
def State.mayStore (s : State) (a : Word) (n : Nat) : Prop :=
  s.storeTrap a n = none ∧ ∃ k, s.plainW a n k

/-- The bytes `bs` lie in memory from `a` on. -/
def State.bytesAt (s : State) (a : Word) (bs : List Byte) : Prop :=
  ∀ i (h : i < bs.length), s.peek (a + BitVec.ofNat 32 i) = some bs[i]

/-- `x` is none of the `n` addresses from `a` on. -/
def outside (a : Word) (n : Nat) (x : Word) : Prop := ∀ i, i < n → x ≠ a + BitVec.ofNat 32 i

/-! ## What an instruction leaves -/

/-- The registers from `n` on, each with its value. -/
def group (n : Reg) : List Word → List (Reg × Word)
  | [] => []
  | v :: vs => (n, v) :: group (n + 1) vs

/-- `t` is `s` after an instruction that writes the registers `regs` and nothing else but AC and IP:
the values written, and the frame: every other register, every byte of memory and every other part
of the state but the model's own counter of free values is unchanged. -/
structure Effect (s t : State) (regs : List (Reg × Word)) (ac next : Word) : Prop where
  written : ∀ p, p ∈ regs → t.reg p.1 = p.2
  others : ∀ n, (∀ p, p ∈ regs → n ≠ p.1) → t.reg n = s.reg n
  ac : t.ac = ac
  ip : t.ip = next &&& 0xFFFFFFFC
  memory : ∀ a, t.peek a = s.peek a
  rest : t = { s with
    g := t.g, r := t.r, pfpDirty := t.pfpDirty, ac := t.ac, ip := t.ip, fresh := t.fresh }

/-- `t` is `s` after an instruction that stores `bs` at `a` and changes nothing else but AC and IP:
the bytes stored, and the frame: every byte elsewhere, every register and every other part of the
state but what a fetch may still see of the old words is unchanged. -/
structure StoreEffect (s t : State) (a : Word) (bs : List Byte) (ac next : Word) : Prop where
  stored : t.bytesAt a bs
  memory : ∀ x, outside a bs.length x → t.peek x = s.peek x
  registers : ∀ n, t.reg n = s.reg n
  ac : t.ac = ac
  ip : t.ip = next &&& 0xFFFFFFFC
  rest : t = { s with
    mem := t.mem, stale := t.stale, ac := t.ac, ip := t.ip, fresh := t.fresh }

/-- The state after an instruction of one word with no effect but its own, which `s` holds: IP moves
on, the counter of free values too. -/
def State.nextInstr (s : State) : State := (s.setIp (s.ip + 4)).bump

/-- AC with its condition code, bits 2:0, replaced (10_state.md R58). -/
def withCc (ac : Word) (c : BitVec 3) : Word := ac.extractLsb' 3 29 ++ c

/-- A value that 32-bit two's complement represents (41_arithmetic.md R331). -/
abbrev fits (t : Int) : Prop := -2147483648 ≤ t ∧ t ≤ 2147483647

/-- AC after an integer instruction with exact result `t`, the overflow fault masked: AC.of, bit 8,
set when `t` does not fit (41_arithmetic.md R331). -/
def overflowAc (ac : Word) (t : Int) : Word :=
  if -2147483648 ≤ t ∧ t ≤ 2147483647 then ac else ac ||| 0x100

/-- The instructions whose operand fields are checked before anything else (30_encoding.md R263): all
but the quad and double word stores, checked after the protection of the bytes (40_data_movement.md
R281), and the control messages, checked after the mode (47_processor_mgmt.md R620). -/
def operandsFirst : Instr → Bool
  | .stl _ _ | .stt _ _ | .stq _ _ | .sysctl _ _ _ | .icctl _ _ _ | .dcctl _ _ _ => false
  | _ => true

/-- The core has the local bus, and to itself until its next turn: its priority is not `disabled`
(64_cpcu_memctl_arb.md R1041) and no other agent comes between two accesses of the instruction
(R1045). -/
def State.undisturbed (s : State) : Prop :=
  s.coreGranted = true ∧ ∀ es rest, s.schedule ≠ .between es :: rest

/-- An access of `n` bytes at `a` is one bus access: at its natural boundary, no longer than a burst
(20_memory.md R149, R150). -/
def State.oneAccess (s : State) (a : Word) (n : Nat) : Bool :=
  !offBoundary a n && decide (n ≤ s.burstBytes a)

/-- The core has the bus, and no other agent comes into its access of `n` bytes at `a`: it is one bus
access, or none is due. -/
def State.alone (s : State) (a : Word) (n : Nat) : Prop :=
  s.coreGranted = true ∧ (s.undisturbed ∨ s.oneAccess a n = true)

/-! ## Calls, returns, exceptions -/

/-- A frame may be pushed without a spill and without a refusal: the set fits in the cache, and
software has not moved FP while frames are cached (45_call_return.md R541, R548 d). -/
def State.canPush (s : State) (pc : Word) : Prop :=
  (s.rc = [] ∨ s.fp = s.frameAddr) ∧ s.pushSpills pc s.rc.length = false

/-- `t` is `s` after a call (45_call_return.md R534) to `target` with the new frame at `nfp`, the
return IP `ret`, PFP[3:0] = `low` and process controls `pc`: the caller's set is cached with the
return IP in r2, and the frame: the other globals, AC, every byte of memory and every other part
of the state are unchanged; r2 to r15 of the new set are not said (R547). -/
structure CallEffect (s t : State) (target nfp ret low pc : Word) : Prop where
  ip : t.ip = target &&& 0xFFFFFFFC
  fp : t.fp = nfp
  sp : t.sp = nfp + 64
  pfp : t.pfp = (s.fp &&& 0xFFFFFFF0) ||| low
  saved : t.rc = { addr := s.fp &&& 0xFFFFFFF0, regs := s.r.set 2 ret } :: s.rc
  globals : ∀ n : Reg, 16 ≤ n.toNat → n ≠ 31 → t.reg n = s.reg n
  memory : ∀ a, t.peek a = s.peek a
  rest : t = { s with
    g := t.g, r := t.r, rc := t.rc, frameAddr := t.frameAddr, pfpDirty := t.pfpDirty
    dirtyFrames := t.dirtyFrames
    ip := t.ip, pc := pc, fresh := t.fresh }

/-- `t` is `s` after a call as above whose push spills the oldest set `e` (45_call_return.md R541): its
16 registers lie at its frame address, the cache holds the others, the memory elsewhere is
unchanged. -/
structure SpillingCallEffect (s t : State) (e : Frame) (target nfp ret low pc : Word) : Prop where
  ip : t.ip = target &&& 0xFFFFFFFC
  fp : t.fp = nfp
  sp : t.sp = nfp + 64
  pfp : t.pfp = (s.fp &&& 0xFFFFFFF0) ||| low
  saved : t.rc = (({ addr := s.fp &&& 0xFFFFFFF0, regs := s.r.set 2 ret } : Frame) :: s.rc).dropLast
  spilled : t.bytesAt e.addr (e.regs.toList.flatMap wordBytes)
  globals : ∀ n : Reg, 16 ≤ n.toNat → n ≠ 31 → t.reg n = s.reg n
  memory : ∀ x, outside e.addr 64 x → t.peek x = s.peek x
  rest : t = { s with
    g := t.g, r := t.r, rc := t.rc, frameAddr := t.frameAddr, pfpDirty := t.pfpDirty
    dirtyFrames := t.dirtyFrames
    ip := t.ip, pc := pc, fresh := t.fresh, mem := t.mem, stale := t.stale }

/-- The newest cached frame is `e`, the one the current PFP names, and r0 is as the call left it
(45_call_return.md R543, R548, R566). -/
def State.returnsTo (s : State) (e : Frame) (older : List Frame) : Prop :=
  s.rc = e :: older ∧ e.addr = s.pfp &&& 0xFFFFFFF0 ∧ s.fp = s.frameAddr ∧ s.pfpDirty = false

/-- `t` is `s` after a return (45_call_return.md R566) to the frame at `f` with the registers `regs`,
the cache then holding `rc`: and the frame: the other globals, every byte of memory and every other
part of the state but AC, PC and the NMI block are unchanged. -/
structure ReturnEffect (s t : State) (f : Word) (regs : Vector Word 16) (rc : List Frame)
    (ac pc : Word) (block : Bool) : Prop where
  ip : t.ip = regs[2] &&& 0xFFFFFFFC
  fp : t.fp = f
  locals : t.r = regs
  cache : t.rc = rc
  globals : ∀ n : Reg, 16 ≤ n.toNat → n ≠ 31 → t.reg n = s.reg n
  memory : ∀ a, t.peek a = s.peek a
  rest : t = { s with
    g := t.g, r := t.r, rc := t.rc, frameAddr := t.frameAddr, pfpDirty := t.pfpDirty
    dirtyFrames := t.dirtyFrames
    ip := t.ip, ac := ac, pc := pc, intc := { s.intc with blockNmi := block }, fresh := t.fresh }

/-- `t` is `s` after a fault call (60_exceptions.md R715, R717) of type and subtype `code` on the
instruction at `fip`, to `target` with the handler's frame at `nfp` and process controls `pc`: the
faulting frame is cached, its r2 the return IP where there is one; the record lies below the new
frame: fault IP, type, AC, PC with its pending-trace bit clear, and the fault data where there is one
(R735); and the frame: the other globals, AC, memory outside the record and every other part of the
state are unchanged. -/
structure FaultEntry (s t : State) (code : Nat × Word) (fip : Word) (rip data : Option Word)
    (target nfp pc : Word) : Prop where
  ip : t.ip = target
  fp : t.fp = nfp
  sp : t.sp = nfp + 64
  pfp : t.pfp = (s.fp &&& 0xFFFFFFF0) ||| 1
  saved : ∃ e, t.rc = e :: s.rc ∧ e.addr = s.fp &&& 0xFFFFFFF0 ∧
    (∀ v, rip = some v → e.regs[2] = v) ∧ ∀ i : Fin 16, i ≠ 2 → e.regs[i] = s.r[i]
  faultIp : t.bytesAt (nfp - 4) (wordBytes fip)
  faultType : t.bytesAt (nfp - 8) (wordBytes ((BitVec.ofNat 32 code.1 <<< 16) ||| code.2))
  savedAc : t.bytesAt (nfp - 12) (wordBytes s.ac)
  savedPc : t.bytesAt (nfp - 16) (wordBytes (setBit s.pc 10 false))
  faultData : ∀ v, data = some v → t.bytesAt (nfp - 24) (wordBytes v)
  globals : ∀ n : Reg, 16 ≤ n.toNat → n ≠ 31 → t.reg n = s.reg n
  memory : ∀ x, outside (nfp - 64) 64 x → t.peek x = s.peek x
  rest : t = { s with
    g := t.g, r := t.r, rc := t.rc, frameAddr := t.frameAddr, pfpDirty := t.pfpDirty
    dirtyFrames := t.dirtyFrames
    ip := t.ip, pc := pc, fresh := t.fresh, mem := t.mem, stale := t.stale, kept := t.kept }

/-- `t` is `s` after an interrupt with vector number `vec` is delivered (61_interrupts.md R835): to
`target` with the new frame at `nfp`, PC of a handler of priority `vec / 8`; PC, AC and the vector
number lie below the new frame; and the frame as for a fault, but for the interrupt controller. -/
structure InterruptEntry (s t : State) (vec : Nat) (target nfp : Word) : Prop where
  ip : t.ip = target
  fp : t.fp = nfp
  sp : t.sp = nfp + 64
  pfp : t.pfp = (s.fp &&& 0xFFFFFFF0) ||| 7
  pc : t.pc = 0x00002002 ||| (BitVec.ofNat 32 (vec / 8) <<< 16)
  saved : t.rc = { addr := s.fp &&& 0xFFFFFFF0, regs := s.r.set 2 s.ip } :: s.rc
  savedPc : t.bytesAt (nfp - 16) (wordBytes s.pc)
  savedAc : t.bytesAt (nfp - 12) (wordBytes s.ac)
  vector : t.bytesAt (nfp - 8) (wordBytes (BitVec.ofNat 32 vec))
  globals : ∀ n : Reg, 16 ≤ n.toNat → n ≠ 31 → t.reg n = s.reg n
  memory : ∀ x, outside (nfp - 16) 16 x → t.peek x = s.peek x
  rest : t = { s with
    g := t.g, r := t.r, rc := t.rc, frameAddr := t.frameAddr, pfpDirty := t.pfpDirty
    dirtyFrames := t.dirtyFrames
    ip := t.ip, pc := t.pc, fresh := t.fresh, mem := t.mem, stale := t.stale
    intc := t.intc, halted := false }

/-! ## Initialization -/

/-- What PRCB processing reads (70_reset_and_hazards.md R1325): the words of the PRCB at 00H to 24H
that it uses, the NMI vector, the supervisor stack pointer, and the words of the control table at 10H
to 58H, 68H and 6CH. -/
structure Image where
  faultBase : Word
  ctrlBase : Word
  ac : Word
  faultConfig : Word
  intBase : Word
  sptBase : Word
  isp : Word
  cacheConfig : Word
  limit : Word
  nmi : Word
  ssp : Word
  controls : List Word
  tc : Word
  bcon : Word

/-- The image `i` stands in memory with its PRCB at `p`: its structures word aligned, outside the data
RAM and below FEFFFF60H (R1318), ICON and the bus widths in its control table values that the source
defines (61_interrupts.md R850, 20_memory.md R176). -/
structure State.HasImage (s : State) (p : Word) (i : Image) : Prop where
  words : ∀ x ∈ [(p, i.faultBase), (p + 4, i.ctrlBase), (p + 8, i.ac), (p + 12, i.faultConfig),
    (p + 16, i.intBase), (p + 20, i.sptBase), (p + 28, i.isp), (p + 32, i.cacheConfig),
    (p + 36, i.limit), (i.intBase + 996, i.nmi), (i.sptBase + 12, i.ssp), (i.ctrlBase + 104, i.tc),
    (i.ctrlBase + 108, i.bcon)], s.holds x.1 x.2
  length : i.controls.length = 19
  controls : ∀ j (h : j < i.controls.length),
    s.holds (i.ctrlBase + 16 + BitVec.ofNat 32 (4 * j)) i.controls[j]
  placed : ∀ x ∈ [(p, 40), (i.faultBase, 256), (i.ctrlBase, 112), (i.intBase, 1028),
    (i.sptBase, 1088)], x.1 &&& 3 = 0 ∧ 0x400 ≤ x.1.toNat ∧ x.1.toNat + x.2 ≤ 0xFEFFFF60
  icon : (i.controls.getD 3 0).getLsbD 14 = true ∧ i.controls.getD 3 0 &&& 0x3FF = 0
  widths : ∀ j, j < 8 → (i.controls.getD (4 + 2 * j) 0).toNat / 2 ^ 22 % 4 ≠ 3

/-- `t` is `s` after PRCB processing (R1325) of the image `i` with its PRCB at `p`: the pointers, the
stack of the first frame, AC, TC and the control registers (reserved bits not stored), the NMI vector
in word 0 of the data RAM, breakpoints cleared, timers stopped, no cached frame; the memory outside
the data RAM is unchanged. -/
structure Loaded (s t : State) (p : Word) (i : Image) : Prop where
  pointers : t.prcb = p ∧ t.faultBase = i.faultBase ∧ t.ctrlBase = i.ctrlBase ∧
    t.intBase = i.intBase ∧ t.sptBase = i.sptBase ∧ t.isp = i.isp
  frame : t.fp = i.isp ∧ t.sp = i.isp + 64 ∧ t.pfp = i.isp ∧ t.rc = []
  limit : t.rcLimit.toNat = i.limit.toNat / 2 ^ 8 % 8
  supervisorStack : t.ssp = i.ssp &&& 0xFFFFFFFC ∧ t.sspTe = i.ssp.getLsbD 0
  ac : t.ac = i.ac &&& 0x00009107
  faultConfig : t.unalignedFault = !i.faultConfig.getLsbD 30
  caches : t.icEnabled = !i.cacheConfig.getLsbD 16 ∧ t.dcEnabled = false ∧ t.icLocked = 0
  tc : t.tc = i.tc &&& 0x0F0000FE
  maps : t.intc.imap0 = i.controls.getD 0 0 &&& 0xFFFF ∧
    t.intc.imap1 = i.controls.getD 1 0 &&& 0xFFFF ∧
    t.intc.imap2 = i.controls.getD 2 0 &&& 0x00FF0000
  icon : t.intc.icon = i.controls.getD 3 0 &&& 0x7C00
  pmcon : ∀ j : Fin 8, t.bus.pmcon[j] = i.controls.getD (4 + 2 * j.val) 0 &&& 0x00C00000
  bcon : t.bus.bcon = i.bcon &&& 7
  nmi : t.intc.blockNmi = false ∧ t.bytesAt 0 (wordBytes i.nmi)
  breakpoints : t.dbg.ipb0 = 0 ∧ t.dbg.ipb1 = 0 ∧ t.dbg.dab0 = 0 ∧ t.dbg.dab1 = 0
  timers : t.timer0.tmr = 0 ∧ t.timer1.tmr = 0
  memory : ∀ x : Word, 0x400 ≤ x.toNat → t.peek x = s.peek x
  units : t.cpcu = s.cpcu ∧ t.mc = s.mc ∧ t.arb = s.arb ∧ t.atu = s.atu ∧ t.mu = s.mu ∧
    t.dma0 = s.dma0 ∧ t.dma1 = s.dma1 ∧ t.i2c = s.i2c ∧ t.tap = s.tap

/-- The record area of `n` bytes below `nfp` may be written, word by word. -/
def State.mayRecord (s : State) (nfp : Word) (n : Nat) : Prop :=
  (∃ k, s.plainW (nfp - BitVec.ofNat 32 n) n k) ∧
  ∀ i, i < n / 4 → s.storeTrap (nfp - BitVec.ofNat 32 n + BitVec.ofNat 32 (4 * i)) 4 = none

end Sys2Proof.Machine
end

