-- ==== Sys2Proof/Certificates/Slice0/Obligations.lean ====
section
/-! DEFINITION. The statements for the provers: what the numbered rules of the spec say that the machine
and its instructions do. `te = false` is the machine with tracing off (PC.te, 62_tracing.md R885). -/

open Sys2Proof Sys2Proof.Machine

/-- At reset PC is 001F2002H (supervisor, interrupted, priority 31, tracing off), IMSK, PIRSR, the
breakpoint registers and the timer modes are 0, no frame is cached, and every register of the memory
controller, the arbiter, the ATU, the messaging unit and both DMA channels whose rule prints a reset
value holds it, the queues and delayed transactions empty (DBAR in its bits 19:0). MBCR = F1H is
ruling D39 of the spec (log 59). The model's own choices here: the core waits for the initialization
of R1310 (log 5), with both caches off until then (log 83). The values the spec leaves undefined
(logs 4, 7, 8, 10) are not stated. (R62, R99, R853, R859, R945, R1034, R1049, R1171, R1190, R1240,
R540, R1310) -/
def Obligations.ResetValues : Prop :=
  let s := State.reset
  (s.pc = 0x001F2002 ∧ s.intc.imsk = 0 ∧ s.intc.pirsr = 0 ∧ s.dbg.ipb0 = 0 ∧ s.dbg.ipb1 = 0 ∧
    s.dbg.dab0 = 0 ∧ s.dbg.dab1 = 0 ∧ s.dbg.bpcon = 0 ∧ s.timer0.tmr = 0 ∧ s.timer1.tmr = 0 ∧ s.rc
    = [] ∧ s.run = .starting ∧ s.icEnabled = false ∧ s.dcEnabled = false) ∧
    (s.mc.mbcr = 0x000000F1 ∧ s.mc.mbbar0 = 0xFE000000 ∧ s.mc.mbbar1 = 0 ∧ s.mc.mbrws0 = 0x00070707
    ∧ s.mc.mbwws0 = 0x00070707 ∧ s.mc.mbrws1 = 0x00070707 ∧ s.mc.mbwws1 = 0x00070707 ∧ s.mc.dbcr =
    0 ∧ s.mc.dbar &&& 0x000FFFFF = 0 ∧ s.mc.drws = 0 ∧ s.mc.dwws = 0 ∧ s.mc.drir = 0x00000078 ∧
    s.mc.dper = 0 ∧ s.mc.bmer = 0 ∧ s.mc.mear = 0 ∧ s.mc.lpisr = 0) ∧
    (s.arb.lbacr = 0 ∧ s.arb.lbalcr = 0x00000FFF) ∧
    (s.atu.vid = 0x8086 ∧ s.atu.did = 0x6960 ∧ s.atu.cmd = 0 ∧ s.atu.sr = 0x0200 ∧ s.atu.ccr =
    0x058000 ∧ s.atu.clsr = 0 ∧ s.atu.lt = 0 ∧ s.atu.htr = 0 ∧ s.atu.bist = 0 ∧ s.atu.iabar =
    0x00000008 ∧ s.atu.svir = 0 ∧ s.atu.sir = 0 ∧ s.atu.erbar = 0 ∧ s.atu.ilr = 0xFF ∧ s.atu.ipr =
    0x01 ∧ s.atu.ialr = 0xFFFFF000 ∧ s.atu.iatvr = 0x00001000 ∧ s.atu.omwvr = 0 ∧ s.atu.oiowvr = 0
    ∧ s.atu.erlr = 0 ∧ s.atu.ertvr = 0 ∧ s.atu.cr = 0 ∧ s.atu.isr = 0 ∧ s.atu.occar = 0 ∧
    s.atu.outq = [] ∧ s.atu.inq = [] ∧ s.atu.rdq = .none ∧ s.atu.cfg = .none) ∧
    (s.mu.imr0 = 0 ∧ s.mu.imr1 = 0 ∧ s.mu.omr0 = 0 ∧ s.mu.omr1 = 0 ∧ s.mu.idr = 0 ∧ s.mu.iisr = 0 ∧
    s.mu.iimr = 0 ∧ s.mu.odr = 0 ∧ s.mu.oisr = 0 ∧ s.mu.oimr = 0) ∧
    (s.dma0.ccr = 0 ∧ s.dma0.csr = 0 ∧ s.dma0.dar = 0 ∧ s.dma0.ndar = 0 ∧ s.dma0.padr = 0 ∧
    s.dma0.ladr = 0 ∧ s.dma0.bcr = 0 ∧ s.dma0.dcr = 0 ∧ s.dma0.go = false ∧ s.dma0.queue = []) ∧
    (s.dma1.ccr = 0 ∧ s.dma1.csr = 0 ∧ s.dma1.dar = 0 ∧ s.dma1.ndar = 0 ∧ s.dma1.padr = 0 ∧
    s.dma1.ladr = 0 ∧ s.dma1.bcr = 0 ∧ s.dma1.dcr = 0 ∧ s.dma1.go = false ∧ s.dma1.queue = [])

/-- The state at reset satisfies the invariant: its memory in canonical form, only implemented bits
in IP, AC, PC and TC, at most seven frames cached (none is). The values of IP, AC and TC there are
the model's choice (log 4). (R53, R57, R62, R68, R540) -/
def Obligations.ResetIsLegal : Prop :=
  State.Legal State.reset

/-- From every state whose memory is in canonical form, whose IP, AC, PC and TC hold only
implemented bits, and which caches at most seven frames at 16-byte addresses, every step that ends
in a next state, whatever instruction, fault, interrupt or event it takes, ends in such a state.
That reserved bits of AC, PC and TC and the low bits of IP are not stored, and that frame addresses
are masked, are rulings D1, D22, D4 and D18 (logs 13, 32, 17, 30). (R53, R57, R62, R68, R540, R541,
R42) -/
def Obligations.StepKeepsLegal : Prop :=
  ∀ s t : State, s.Legal → step s = .next t → t.Legal

/-- For every instruction, with every operand at every value its encoding admits, the bytes of the
encoder decode to it and leave whatever follows; so two instructions never share an encoding. No bit
of an operand field is dropped. (R220, R223, R226, R229, R240, R241, R242, R243, R245, R250, R252,
R253) -/
def Obligations.DecodeEncodeAgree : Prop :=
  (∀ (i : Instr) (rest : List Byte), decode (encodeBytes i ++ rest) = .ok (i, rest)) ∧
    ∀ (i j : Instr) (rest rest' : List Byte),
      encodeBytes i ++ rest = encodeBytes j ++ rest' → i = j ∧ rest = rest'

/-- A few instruction words printed in the rules decode to the instruction beside them: ld, addo,
lda with a displacement word, b, bbc, calls, sysctl. (R284, R333, R300, R491, R505, R539, R655) -/
def Obligations.PrintedWordsDecode : Prop :=
  decodeTableWord 32 0x90991000 = some (.ld (.regInd 4) 19) ∧
    decodeTableWord 32 0x59BE4015 = some (.addo (.reg 21) (.reg 25) (.reg 23)) ∧
    decodeTableWord 64 0x123456788C803000 = some (.lda (.absDisp 0x12345678) 16) ∧
    decodeTableWord 32 0x08FFFFF8 = some (.b (-2)) ∧
    decodeTableWord 32 0x3051A020 = some (.bbc (.lit 10) (.reg 6) 8) ∧
    decodeTableWord 32 0x66000803 = some (.calls (.lit 3)) ∧
    decodeTableWord 32 0x65AD4495 = some (.sysctl (.reg 21) (.reg 21) (.reg 21))

/-- When it is the core's turn (the schedule empty or a core turn first, with no agent's access due
inside it), no interrupt is selected after the inputs are sampled, and the word at IP (with the next
word where it asks for one) decodes to an instruction, the step is that instruction run on the state
with the inputs sampled and the late timer ticks over; where the opcode is undefined, the step
raises OPERATION.INVALID_OPCODE in that state. The words are read from memory; no older word is left
for a fetch to see. That an undefined opcode is reported before any other fault of the instruction
is ruling D15 (log 28). (R706, R245, R263, R254, R735, R833, R834, R938, R1045) -/
def Obligations.StepRunsDecodedInstruction : Prop :=
  ∀ (s : State) (k : Nat) (w : Bool) (rest : List Turn),
    (s.schedule = [] ∧ rest = [] ∨ s.schedule = .core :: rest) → (∀ es l, rest ≠ .between es :: l) →
    let u := endLate (sampleInputs { s with schedule := rest })
    s.run = .ready → s.coreHeld = false → u.selectInterrupt = none → s.halted = false →
    region s.ip = .bus → s.target s.ip = .memory k w → (∀ e, e ∈ s.stale → e.1 ≠ k) →
    (∀ i, decode (Memory.readBytes s.mem k 4) = .ok (i, []) → step s = exec i u) ∧
    (decode (Memory.readBytes s.mem k 4) = .error .undefinedOpcode →
      step s = raise .invalidOpcode .none (s.ip + 4) u) ∧
    ∀ (i : Instr) (k' : Nat) (w' : Bool), region (s.ip + 4) = .bus →
      s.target (s.ip + 4) = .memory k' w' → (∀ e, e ∈ s.stale → e.1 ≠ k') →
      decode (Memory.readBytes s.mem k 4) = .error .truncated →
      decode (Memory.readBytes s.mem k 4 ++ Memory.readBytes s.mem k' 4) = .ok (i, []) →
      step s = exec i u

/-- A register reads what was last written to it and no other register changes; a group of up to
four written from register n on reads back in order. A register operand reads its register (r2, as
an operand, a free value), a literal is zero-extended, a reserved form has no value. A source group
of k registers is n and the k - 1 after it when n is properly aligned, nothing otherwise; a literal
group is the literal above zeros. A destination is its register unless that is r2 or a literal; a
destination group must be aligned and without r2. Rulings: that r2, and a group holding it, is no
destination is D2 (log 14); that a misaligned group gives nothing and a literal group is never
alignment-checked D3 and D16 (log 16); that a reserved operand form has no value D12 (log 27). (R40,
R43, R46, R49, R224, R225, R226, R232, R233) -/
def Obligations.RegistersAndOperands : Prop :=
  ∀ (s : State) (n m : Reg) (v : Word) (vs : List Word) (l : BitVec 5) (slot k : Nat)
    (q : BitVec 5) (p : Bool),
    (s.setReg n v).reg m = (if m = n then v else s.reg m) ∧
    (vs.length ≤ 4 → (s.setRegs n vs).reg m = (vs[(m - n).toNat]?).getD (s.reg m)) ∧
    (n ≠ 2 → s.readReg n slot = s.reg n ∧ s.src (.reg n) slot = some (s.reg n) ∧
      s.srcDst (.reg n) slot = s.reg n ∧ s.cobrSrc (.reg n) slot = s.reg n ∧
      s.cobrReg (.reg n) slot = some (s.reg n) ∧ dest (.reg n) = some n) ∧
    (s.src (.lit l) slot = some (l.setWidth 32) ∧ s.srcDst (.lit l) slot = l.setWidth 32 ∧
      s.cobrSrc (.lit l) slot = l.setWidth 32 ∧ dest (.lit l) = none ∧ dest (.reg 2) = none) ∧
    (s.src (.sfr p q) slot = none ∧ s.srcs (.sfr p q) k slot = none ∧
      s.cobrReg (.sfr q) slot = none) ∧
    (1 ≤ k → k ≤ 4 →
      let proper : Prop := n.toNat % (if k = 1 then 1 else if k = 2 then 2 else 4) = 0
      let group : List Reg := (List.range k).map fun j => n + BitVec.ofNat 5 j
      (proper → 2 ∉ group → s.srcs (.reg n) k slot = some (group.map s.reg)) ∧
      (¬ proper → s.srcs (.reg n) k slot = none) ∧
      s.srcs (.lit l) k slot = some (l.setWidth 32 :: List.replicate (k - 1) 0) ∧
      (proper → 2 ∉ group → destGroup n k = some n ∧ dests (.reg n) k = some n) ∧
      (¬ proper ∨ 2 ∈ group → destGroup n k = none ∧ dests (.reg n) k = none) ∧
      dests (.lit l) k = none)

/-- Bytes stored where one memory answers and no protection applies, by a core that has the bus, in
one bus access or with no other agent due between two, are read back, byte by byte, at the addresses
stored to; every other address reads as before; the canonical form of the memory is kept. (R140,
R144, R281) -/
def Obligations.MemoryWriteReadsBack : Prop :=
  ∀ (s : State) (a : Word) (bs : List Byte), s.mayStore a bs.length →
    (s.undisturbed ∨ s.coreGranted = true ∧ bs.length ∈ [1, 2, 4, 8, 12, 16] ∧
      s.oneAccess a bs.length = true) →
    ∃ t, store a bs s = .ok () t ∧ t.bytesAt a bs ∧
      (∀ x, outside a bs.length x → t.peek x = s.peek x) ∧
      (Memory.wf s.mem = true → Memory.wf t.mem = true)

/-- addo, subo, mulo, shlo, shro, shri, shrdi and rotate complete for all operands: the destination
holds the value the rule gives, IP moves to the next instruction, and no other register, no flag and
no byte of memory changes. The opcodes of the cited rules are those the encoder writes. (R335, R339,
R348, R349, R351) -/
def Obligations.OrdinalArithmetic : Prop :=
  ∀ (s : State) (s1 s2 : Src) (d : SrcDst) (a b : Word) (r : Reg), s.te = false →
    s.src s1 30 = some a → s.src s2 31 = some b → dest d = some r →
    (∃ t, exec (.addo s1 s2 d) s = .next t ∧
      Effect s t [(r, b + a)] s.ac (s.ip + 4)) ∧
    (∃ t, exec (.subo s1 s2 d) s = .next t ∧
      Effect s t [(r, b - a)] s.ac (s.ip + 4)) ∧
    (encode (.subo s1 s2 d)).map opcode12 = [0x592] ∧
    (∃ t, exec (.mulo s1 s2 d) s = .next t ∧
      Effect s t [(r, BitVec.ofNat 32 (b.toNat * a.toNat))] s.ac (s.ip + 4)) ∧
    (encode (.mulo s1 s2 d)).map opcode12 = [0x701] ∧
    (∃ t, exec (.shlo s1 s2 d) s = .next t ∧
      Effect s t [(r, if a.toNat < 32 then b <<< a.toNat else 0)] s.ac (s.ip + 4)) ∧
    (encode (.shlo s1 s2 d)).map opcode12 = [0x59C] ∧
    (∃ t, exec (.shro s1 s2 d) s = .next t ∧
      Effect s t [(r, BitVec.ofNat 32 (if a.toNat < 32 then b.toNat / 2 ^ a.toNat
        else 0))] s.ac (s.ip + 4)) ∧
    (encode (.shro s1 s2 d)).map opcode12 = [0x598] ∧
    (∃ t, exec (.shri s1 s2 d) s = .next t ∧
      Effect s t [(r, BitVec.ofInt 32 (b.toInt / 2 ^ min a.toNat 32))] s.ac (s.ip + 4)) ∧
    (encode (.shri s1 s2 d)).map opcode12 = [0x59B] ∧
    (∃ t, exec (.shrdi s1 s2 d) s = .next t ∧
      Effect s t [(r, BitVec.ofInt 32 (b.toInt.tdiv (2 ^ min a.toNat 32)))] s.ac (s.ip + 4)) ∧
    (∃ t, exec (.rotate s1 s2 d) s = .next t ∧
      Effect s t [(r, (b <<< (a.toNat % 32)) ||| (b >>> (32 - a.toNat % 32)))] s.ac (s.ip + 4))

/-- divo, remo, remi and modi with src1 not 0 complete: the quotient or remainder the rule gives,
nothing else changed; divi is stated with the integer instructions. (R341, R343, R344, R345) -/
def Obligations.DivisionResults : Prop :=
  ∀ (s : State) (s1 s2 : Src) (d : SrcDst) (a b : Word) (r : Reg), s.te = false →
    s.src s1 30 = some a → s.src s2 31 = some b → dest d = some r → a ≠ 0 →
    (∃ t, exec (.divo s1 s2 d) s = .next t ∧
      Effect s t [(r, BitVec.ofNat 32 (b.toNat / a.toNat))] s.ac (s.ip + 4)) ∧
    (∃ t, exec (.remo s1 s2 d) s = .next t ∧
      Effect s t [(r, BitVec.ofNat 32 (b.toNat - b.toNat / a.toNat * a.toNat))] s.ac (s.ip + 4)) ∧
    (∃ t, exec (.remi s1 s2 d) s = .next t ∧
      Effect s t [(r, BitVec.ofInt 32 (b.toInt - b.toInt.tdiv a.toInt * a.toInt))] s.ac
        (s.ip + 4)) ∧
    (∃ t, exec (.modi s1 s2 d) s = .next t ∧
      Effect s t [(r, BitVec.ofInt 32
        (if b.toInt * a.toInt < 0 ∧ b.toInt - b.toInt.tdiv a.toInt * a.toInt ≠ 0
         then b.toInt - b.toInt.tdiv a.toInt * a.toInt + a.toInt
         else b.toInt - b.toInt.tdiv a.toInt * a.toInt))] s.ac (s.ip + 4))

/-- addi, subi, muli and (src1 not 0) divi complete when the exact result fits in 32 bits or AC.om
masks the overflow: the destination holds the low 32 bits of the exact result, AC.of is set when it
does not fit and kept when it does, nothing else changes. That divi truncates its quotient toward
zero is R342's own derivation, from R344 and R352: the page it quotes says only src2 / src1. (R331,
R334, R336, R340, R342) -/
def Obligations.IntegerArithmetic : Prop :=
  ∀ (s : State) (s1 s2 : Src) (d : SrcDst) (a b : Word) (r : Reg), s.te = false →
    s.src s1 30 = some a → s.src s2 31 = some b → dest d = some r →
    ((fits (a.toInt + b.toInt) ∨ bit s.ac 12 = true) →
      ∃ t, exec (.addi s1 s2 d) s = .next t ∧
        Effect s t [(r, BitVec.ofInt 32 (a.toInt + b.toInt))] (overflowAc s.ac
          (a.toInt + b.toInt)) (s.ip + 4)) ∧
    ((fits (b.toInt - a.toInt) ∨ bit s.ac 12 = true) →
      ∃ t, exec (.subi s1 s2 d) s = .next t ∧
        Effect s t [(r, BitVec.ofInt 32 (b.toInt - a.toInt))] (overflowAc s.ac
          (b.toInt - a.toInt)) (s.ip + 4)) ∧
    ((fits (a.toInt * b.toInt) ∨ bit s.ac 12 = true) →
      ∃ t, exec (.muli s1 s2 d) s = .next t ∧
        Effect s t [(r, BitVec.ofInt 32 (a.toInt * b.toInt))] (overflowAc s.ac
          (a.toInt * b.toInt)) (s.ip + 4)) ∧
    (a ≠ 0 → (fits (b.toInt.tdiv a.toInt) ∨ bit s.ac 12 = true) →
      ∃ t, exec (.divi s1 s2 d) s = .next t ∧
        Effect s t [(r, BitVec.ofInt 32 (b.toInt.tdiv a.toInt))] (overflowAc s.ac
          (b.toInt.tdiv a.toInt)) (s.ip + 4))

/-- shli: with n the shift count, at most 32, and k at most n the greatest shift that does not
overflow, the destination holds src * 2^k. Where k = n nothing else changes; where k < n integer
overflow is signalled: AC.of set when AC.om masks it, else the fault. (R331, R350) -/
def Obligations.ShiftLeftInteger : Prop :=
  ∀ (s : State) (s1 s2 : Src) (d : SrcDst) (a b : Word) (r : Reg) (k : Nat), s.te = false →
    s.src s1 30 = some a → s.src s2 31 = some b → dest d = some r →
    k ≤ min a.toNat 32 → fits (b.toInt * 2 ^ k) →
    (k = min a.toNat 32 →
      ∃ t, exec (.shli s1 s2 d) s = .next t ∧
        Effect s t [(r, BitVec.ofInt 32 (b.toInt * 2 ^ k))] s.ac (s.ip + 4)) ∧
    (k < min a.toNat 32 → ¬ fits (b.toInt * 2 ^ (k + 1)) →
      (bit s.ac 12 = true → ∃ t, exec (.shli s1 s2 d) s = .next t ∧
        Effect s t [(r, BitVec.ofInt 32 (b.toInt * 2 ^ k))] (s.ac ||| 0x100) (s.ip + 4)) ∧
      (bit s.ac 12 = false → exec (.shli s1 s2 d) s =
        raise .overflow .none (s.ip + 4) (s.setReg r (BitVec.ofInt 32 (b.toInt * 2 ^ k)))))

/-- addc and subc complete: with c = AC.cc[1], the destination holds the low 32 bits of the 33-bit
sum, AC.cc is 0, the carry out, and whether the signed result overflows; nothing else changes.
(R337, R338) -/
def Obligations.CarryArithmetic : Prop :=
  ∀ (s : State) (s1 s2 : Src) (d : SrcDst) (a b : Word) (r : Reg), s.te = false →
    s.src s1 30 = some a → s.src s2 31 = some b → dest d = some r →
    let c : Nat := (s.cc.getLsbD 1).toNat
    let add := a.toNat + b.toNat + c
    let sub := b.toNat + (~~~a).toNat + c
    (∃ t, exec (.addc s1 s2 d) s = .next t ∧
      Effect s t [(r, BitVec.ofNat 32 add)] (withCc s.ac
        (0#1 ++ BitVec.ofBool (decide (2 ^ 32 ≤ add)) ++
          BitVec.ofBool ((b.getLsbD 31 == a.getLsbD 31) && (b.getLsbD 31 != add.testBit 31))))
            (s.ip + 4)) ∧
    (∃ t, exec (.subc s1 s2 d) s = .next t ∧
      Effect s t [(r, BitVec.ofNat 32 sub)] (withCc s.ac
        (0#1 ++ BitVec.ofBool (decide (2 ^ 32 ≤ sub)) ++
          BitVec.ofBool ((b.getLsbD 31 != a.getLsbD 31) && (b.getLsbD 31 != sub.testBit 31))))
            (s.ip + 4))

/-- emul writes the 64-bit product, low word first. ediv of the 64-bit src2 (low word lo, high word
hi) by src1 not 0 writes the remainder, then the quotient, where the quotient fits in 32 bits; where
it does not, it completes and the two destination registers hold free values. eshro writes the low
word of the 64-bit source shifted right. Nothing else changes. (R346, R347, R354) -/
def Obligations.ExtendedArithmetic : Prop :=
  ∀ (s : State) (s1 s2 : Src) (d : SrcDst) (a b lo hi : Word) (r : Reg), s.te = false →
    s.src s1 30 = some a →
    (s.src s2 31 = some b → dests d 2 = some r →
      ∃ t, exec (.emul s1 s2 d) s = .next t ∧
        Effect s t (group r [BitVec.ofNat 32 (a.toNat * b.toNat),
          BitVec.ofNat 32 (a.toNat * b.toNat / 2 ^ 32)]) s.ac (s.ip + 4)) ∧
    (s.srcs s2 2 40 = some [lo, hi] → dests d 2 = some r → a ≠ 0 →
      ((hi.toNat * 2 ^ 32 + lo.toNat) / a.toNat < 2 ^ 32 →
        ∃ t, exec (.ediv s1 s2 d) s = .next t ∧
          Effect s t (group r [BitVec.ofNat 32 ((hi.toNat * 2 ^ 32 + lo.toNat) % a.toNat),
            BitVec.ofNat 32 ((hi.toNat * 2 ^ 32 + lo.toNat) / a.toNat)]) s.ac (s.ip + 4)) ∧
      (2 ^ 32 ≤ (hi.toNat * 2 ^ 32 + lo.toNat) / a.toNat →
        ∃ t q m, exec (.ediv s1 s2 d) s = .next t ∧ Effect s t (group r [q, m]) s.ac (s.ip + 4))) ∧
    (s.srcs s2 2 40 = some [lo, hi] → dest d = some r →
      ∃ t, exec (.eshro s1 s2 d) s = .next t ∧
        Effect s t [(r, BitVec.ofNat 32 ((hi.toNat * 2 ^ 32 + lo.toNat) / 2 ^ (a.toNat % 32)))] s.ac
          (s.ip + 4))

/-- addi, subi, muli and (src1 not 0) divi with an exact result that does not fit and AC.om = 0
raise ARITHMETIC.INTEGER_OVERFLOW at the instruction, the low 32 bits of the result already in the
destination. divo, divi, remo, remi, modi and ediv with src1 = 0 raise ARITHMETIC.ZERO_DIVIDE in a
state that differs from the one before only in the destination registers, whose values are not said.
That every fault, the overflow of muli included, is raised at its instruction, with the next one as
return IP, whatever AC.nif is, is ruling D21 (R765, log 32): R761 lets it come late with AC.nif = 0.
(R331, R332, R334, R336, R340, R341, R342, R343, R344, R345, R347, R765) -/
def Obligations.ArithmeticFaults : Prop :=
  (∀ (s : State) (s1 s2 : Src) (d : SrcDst) (a b : Word) (r : Reg),
    s.src s1 30 = some a → s.src s2 31 = some b → dest d = some r → bit s.ac 12 = false →
    (¬ fits (a.toInt + b.toInt) →
      exec (.addi s1 s2 d) s = raise .overflow .none (s.ip + 4) (s.setReg r (BitVec.ofInt 32
        (a.toInt + b.toInt)))) ∧
    (¬ fits (b.toInt - a.toInt) →
      exec (.subi s1 s2 d) s = raise .overflow .none (s.ip + 4) (s.setReg r (BitVec.ofInt 32
        (b.toInt - a.toInt)))) ∧
    (¬ fits (a.toInt * b.toInt) →
      exec (.muli s1 s2 d) s = raise .overflow .none (s.ip + 4) (s.setReg r (BitVec.ofInt 32
        (a.toInt * b.toInt)))) ∧
    (a ≠ 0 → ¬ fits (b.toInt.tdiv a.toInt) →
      exec (.divi s1 s2 d) s = raise .overflow .none (s.ip + 4) (s.setReg r (BitVec.ofInt 32
        (b.toInt.tdiv a.toInt))))) ∧
  ∀ (s : State) (s1 s2 : Src) (d : SrcDst) (b : Word) (ws : List Word) (r : Reg),
    s.src s1 30 = some 0 →
    (s.src s2 31 = some b → dest d = some r → ∃ v,
      exec (.divo s1 s2 d) s = raise .zeroDivide .none (s.ip + 4) (s.setReg r v) ∧
      exec (.divi s1 s2 d) s = raise .zeroDivide .none (s.ip + 4) (s.setReg r v) ∧
      exec (.remo s1 s2 d) s = raise .zeroDivide .none (s.ip + 4) (s.setReg r v) ∧
      exec (.remi s1 s2 d) s = raise .zeroDivide .none (s.ip + 4) (s.setReg r v) ∧
      exec (.modi s1 s2 d) s = raise .zeroDivide .none (s.ip + 4) (s.setReg r v)) ∧
    (s.srcs s2 2 40 = some ws → dests d 2 = some r → ∃ v v',
      exec (.ediv s1 s2 d) s = raise .zeroDivide .none (s.ip + 4) (s.setRegs r [v, v']))

/-- addono to addoo complete: when AC.cc meets the condition the rule gives (000; bit 0; bit 1; bits
1:0; bit 2; bits 2 or 0; bits 2:1; any) the destination holds src2 + src1, else no register changes;
nothing else changes. Opcodes as the rules print them. (R356, R357, R358, R359, R360, R361, R362,
R363) -/
def Obligations.AddOrdinalConditional : Prop :=
  ∀ (s : State) (s1 s2 : Src) (d : SrcDst) (a b : Word) (r : Reg), s.te = false →
    s.src s1 30 = some a → s.src s2 31 = some b → dest d = some r →
    (∃ t, exec (.addono s1 s2 d) s = .next t ∧
      Effect s t (if s.cc = 0 then [(r, b + a)] else []) s.ac (s.ip + 4)) ∧
    (encode (.addono s1 s2 d)).map opcode12 = [0x780] ∧
    (∃ t, exec (.addog s1 s2 d) s = .next t ∧
      Effect s t (if s.cc.getLsbD 0 = true then [(r, b + a)] else []) s.ac (s.ip + 4)) ∧
    (encode (.addog s1 s2 d)).map opcode12 = [0x790] ∧
    (∃ t, exec (.addoe s1 s2 d) s = .next t ∧
      Effect s t (if s.cc.getLsbD 1 = true then [(r, b + a)] else []) s.ac (s.ip + 4)) ∧
    (encode (.addoe s1 s2 d)).map opcode12 = [0x7A0] ∧
    (∃ t, exec (.addoge s1 s2 d) s = .next t ∧
      Effect s t (if s.cc.extractLsb' 0 2 ≠ 0 then [(r, b + a)] else []) s.ac (s.ip + 4)) ∧
    (encode (.addoge s1 s2 d)).map opcode12 = [0x7B0] ∧
    (∃ t, exec (.addol s1 s2 d) s = .next t ∧
      Effect s t (if s.cc.getLsbD 2 = true then [(r, b + a)] else []) s.ac (s.ip + 4)) ∧
    (encode (.addol s1 s2 d)).map opcode12 = [0x7C0] ∧
    (∃ t, exec (.addone s1 s2 d) s = .next t ∧
      Effect s t (if (s.cc.getLsbD 2 = true ∨ s.cc.getLsbD 0 = true) then [(r,
        b + a)] else []) s.ac (s.ip + 4)) ∧
    (encode (.addone s1 s2 d)).map opcode12 = [0x7D0] ∧
    (∃ t, exec (.addole s1 s2 d) s = .next t ∧
      Effect s t (if s.cc.extractLsb' 1 2 ≠ 0 then [(r, b + a)] else []) s.ac (s.ip + 4)) ∧
    (encode (.addole s1 s2 d)).map opcode12 = [0x7E0] ∧
    (∃ t, exec (.addoo s1 s2 d) s = .next t ∧
      Effect s t (if s.cc ≠ 0 then [(r, b + a)] else []) s.ac (s.ip + 4)) ∧
    (encode (.addoo s1 s2 d)).map opcode12 = [0x7F0]

/-- subono to suboo complete: when AC.cc meets the condition the destination holds src2 - src1, else
no register changes; nothing else changes. Opcodes as the rules print them. (R373, R374, R375, R376,
R377, R378, R379, R380) -/
def Obligations.SubOrdinalConditional : Prop :=
  ∀ (s : State) (s1 s2 : Src) (d : SrcDst) (a b : Word) (r : Reg), s.te = false →
    s.src s1 30 = some a → s.src s2 31 = some b → dest d = some r →
    (∃ t, exec (.subono s1 s2 d) s = .next t ∧
      Effect s t (if s.cc = 0 then [(r, b - a)] else []) s.ac (s.ip + 4)) ∧
    (encode (.subono s1 s2 d)).map opcode12 = [0x782] ∧
    (∃ t, exec (.subog s1 s2 d) s = .next t ∧
      Effect s t (if s.cc.getLsbD 0 = true then [(r, b - a)] else []) s.ac (s.ip + 4)) ∧
    (encode (.subog s1 s2 d)).map opcode12 = [0x792] ∧
    (∃ t, exec (.suboe s1 s2 d) s = .next t ∧
      Effect s t (if s.cc.getLsbD 1 = true then [(r, b - a)] else []) s.ac (s.ip + 4)) ∧
    (encode (.suboe s1 s2 d)).map opcode12 = [0x7A2] ∧
    (∃ t, exec (.suboge s1 s2 d) s = .next t ∧
      Effect s t (if s.cc.extractLsb' 0 2 ≠ 0 then [(r, b - a)] else []) s.ac (s.ip + 4)) ∧
    (encode (.suboge s1 s2 d)).map opcode12 = [0x7B2] ∧
    (∃ t, exec (.subol s1 s2 d) s = .next t ∧
      Effect s t (if s.cc.getLsbD 2 = true then [(r, b - a)] else []) s.ac (s.ip + 4)) ∧
    (encode (.subol s1 s2 d)).map opcode12 = [0x7C2] ∧
    (∃ t, exec (.subone s1 s2 d) s = .next t ∧
      Effect s t (if (s.cc.getLsbD 2 = true ∨ s.cc.getLsbD 0 = true) then [(r,
        b - a)] else []) s.ac (s.ip + 4)) ∧
    (encode (.subone s1 s2 d)).map opcode12 = [0x7D2] ∧
    (∃ t, exec (.subole s1 s2 d) s = .next t ∧
      Effect s t (if s.cc.extractLsb' 1 2 ≠ 0 then [(r, b - a)] else []) s.ac (s.ip + 4)) ∧
    (encode (.subole s1 s2 d)).map opcode12 = [0x7E2] ∧
    (∃ t, exec (.suboo s1 s2 d) s = .next t ∧
      Effect s t (if s.cc ≠ 0 then [(r, b - a)] else []) s.ac (s.ip + 4)) ∧
    (encode (.suboo s1 s2 d)).map opcode12 = [0x7F2]

/-- addino to addio: when AC.cc does not meet the condition they complete and nothing but IP
changes. When it does, and the exact sum fits or AC.om masks the overflow, they complete: the
destination holds the sum, AC.of is set if it overflowed; an overflow not masked raises
ARITHMETIC.INTEGER_OVERFLOW with the sum written. Opcodes as the rules print them. (R364, R365,
R366, R367, R368, R369, R370, R371) -/
def Obligations.AddIntegerConditional : Prop :=
  ∀ (s : State) (s1 s2 : Src) (d : SrcDst) (a b : Word) (r : Reg), s.te = false →
    s.src s1 30 = some a → s.src s2 31 = some b → dest d = some r →
    ((s.cc = 0 → fits (a.toInt + b.toInt) ∨ bit s.ac 12 = true) → ∃ t,
      exec (.addino s1 s2 d) s = .next t ∧
      Effect s t (if s.cc = 0 then [(r, BitVec.ofInt 32 (a.toInt + b.toInt))] else [])
        (if s.cc = 0 then overflowAc s.ac (a.toInt + b.toInt) else s.ac) (s.ip + 4)) ∧
    (s.cc = 0 → ¬ fits (a.toInt + b.toInt) → bit s.ac 12 = false →
      exec (.addino s1 s2 d) s = raise .overflow .none (s.ip + 4) (s.setReg r (BitVec.ofInt 32
        (a.toInt + b.toInt)))) ∧
    (encode (.addino s1 s2 d)).map opcode12 = [0x781] ∧
    ((s.cc.getLsbD 0 = true → fits (a.toInt + b.toInt) ∨ bit s.ac 12 = true) → ∃ t,
      exec (.addig s1 s2 d) s = .next t ∧
      Effect s t (if s.cc.getLsbD 0 = true then [(r, BitVec.ofInt 32 (a.toInt + b.toInt))] else [])
        (if s.cc.getLsbD 0 = true then overflowAc s.ac (a.toInt + b.toInt) else s.ac) (s.ip + 4)) ∧
    (s.cc.getLsbD 0 = true → ¬ fits (a.toInt + b.toInt) → bit s.ac 12 = false →
      exec (.addig s1 s2 d) s = raise .overflow .none (s.ip + 4) (s.setReg r (BitVec.ofInt 32
        (a.toInt + b.toInt)))) ∧
    (encode (.addig s1 s2 d)).map opcode12 = [0x791] ∧
    ((s.cc.getLsbD 1 = true → fits (a.toInt + b.toInt) ∨ bit s.ac 12 = true) → ∃ t,
      exec (.addie s1 s2 d) s = .next t ∧
      Effect s t (if s.cc.getLsbD 1 = true then [(r, BitVec.ofInt 32 (a.toInt + b.toInt))] else [])
        (if s.cc.getLsbD 1 = true then overflowAc s.ac (a.toInt + b.toInt) else s.ac) (s.ip + 4)) ∧
    (s.cc.getLsbD 1 = true → ¬ fits (a.toInt + b.toInt) → bit s.ac 12 = false →
      exec (.addie s1 s2 d) s = raise .overflow .none (s.ip + 4) (s.setReg r (BitVec.ofInt 32
        (a.toInt + b.toInt)))) ∧
    (encode (.addie s1 s2 d)).map opcode12 = [0x7A1] ∧
    ((s.cc.extractLsb' 0 2 ≠ 0 → fits (a.toInt + b.toInt) ∨ bit s.ac 12 = true) → ∃ t,
      exec (.addige s1 s2 d) s = .next t ∧
      Effect s t (if s.cc.extractLsb' 0 2 ≠ 0 then [(r,
        BitVec.ofInt 32 (a.toInt + b.toInt))] else [])
        (if s.cc.extractLsb' 0 2 ≠ 0 then overflowAc s.ac (a.toInt + b.toInt)
          else s.ac) (s.ip + 4)) ∧
    (s.cc.extractLsb' 0 2 ≠ 0 → ¬ fits (a.toInt + b.toInt) → bit s.ac 12 = false →
      exec (.addige s1 s2 d) s = raise .overflow .none (s.ip + 4) (s.setReg r (BitVec.ofInt 32
        (a.toInt + b.toInt)))) ∧
    (encode (.addige s1 s2 d)).map opcode12 = [0x7B1] ∧
    ((s.cc.getLsbD 2 = true → fits (a.toInt + b.toInt) ∨ bit s.ac 12 = true) → ∃ t,
      exec (.addil s1 s2 d) s = .next t ∧
      Effect s t (if s.cc.getLsbD 2 = true then [(r, BitVec.ofInt 32 (a.toInt + b.toInt))] else [])
        (if s.cc.getLsbD 2 = true then overflowAc s.ac (a.toInt + b.toInt) else s.ac) (s.ip + 4)) ∧
    (s.cc.getLsbD 2 = true → ¬ fits (a.toInt + b.toInt) → bit s.ac 12 = false →
      exec (.addil s1 s2 d) s = raise .overflow .none (s.ip + 4) (s.setReg r (BitVec.ofInt 32
        (a.toInt + b.toInt)))) ∧
    (encode (.addil s1 s2 d)).map opcode12 = [0x7C1] ∧
    (((s.cc.getLsbD 2 = true ∨ s.cc.getLsbD 0 = true) → fits (a.toInt + b.toInt) ∨
      bit s.ac 12 = true) → ∃ t, exec (.addine s1 s2 d) s = .next t ∧
      Effect s t (if (s.cc.getLsbD 2 = true ∨ s.cc.getLsbD 0 = true) then [(r,
        BitVec.ofInt 32 (a.toInt + b.toInt))] else [])
        (if (s.cc.getLsbD 2 = true ∨ s.cc.getLsbD 0 = true)
          then overflowAc s.ac (a.toInt + b.toInt) else s.ac) (s.ip + 4)) ∧
    ((s.cc.getLsbD 2 = true ∨ s.cc.getLsbD 0 = true) → ¬ fits (a.toInt + b.toInt) →
      bit s.ac 12 = false →
      exec (.addine s1 s2 d) s = raise .overflow .none (s.ip + 4) (s.setReg r (BitVec.ofInt 32
        (a.toInt + b.toInt)))) ∧
    (encode (.addine s1 s2 d)).map opcode12 = [0x7D1] ∧
    ((s.cc.extractLsb' 1 2 ≠ 0 → fits (a.toInt + b.toInt) ∨ bit s.ac 12 = true) → ∃ t,
      exec (.addile s1 s2 d) s = .next t ∧
      Effect s t (if s.cc.extractLsb' 1 2 ≠ 0 then [(r,
        BitVec.ofInt 32 (a.toInt + b.toInt))] else [])
        (if s.cc.extractLsb' 1 2 ≠ 0 then overflowAc s.ac (a.toInt + b.toInt)
          else s.ac) (s.ip + 4)) ∧
    (s.cc.extractLsb' 1 2 ≠ 0 → ¬ fits (a.toInt + b.toInt) → bit s.ac 12 = false →
      exec (.addile s1 s2 d) s = raise .overflow .none (s.ip + 4) (s.setReg r (BitVec.ofInt 32
        (a.toInt + b.toInt)))) ∧
    (encode (.addile s1 s2 d)).map opcode12 = [0x7E1] ∧
    ((s.cc ≠ 0 → fits (a.toInt + b.toInt) ∨ bit s.ac 12 = true) → ∃ t,
      exec (.addio s1 s2 d) s = .next t ∧
      Effect s t (if s.cc ≠ 0 then [(r, BitVec.ofInt 32 (a.toInt + b.toInt))] else [])
        (if s.cc ≠ 0 then overflowAc s.ac (a.toInt + b.toInt) else s.ac) (s.ip + 4)) ∧
    (s.cc ≠ 0 → ¬ fits (a.toInt + b.toInt) → bit s.ac 12 = false →
      exec (.addio s1 s2 d) s = raise .overflow .none (s.ip + 4) (s.setReg r (BitVec.ofInt 32
        (a.toInt + b.toInt)))) ∧
    (encode (.addio s1 s2 d)).map opcode12 = [0x7F1]

/-- subino to subio: when AC.cc does not meet the condition they complete and nothing but IP
changes. When it does, and the exact difference src2 - src1 fits or AC.om masks the overflow, they
complete: the destination holds the difference, AC.of is set if it overflowed; an overflow not
masked raises ARITHMETIC.INTEGER_OVERFLOW with the difference written. Opcodes as the rules print
them. (R381, R382, R383, R384, R385, R386, R387, R388) -/
def Obligations.SubIntegerConditional : Prop :=
  ∀ (s : State) (s1 s2 : Src) (d : SrcDst) (a b : Word) (r : Reg), s.te = false →
    s.src s1 30 = some a → s.src s2 31 = some b → dest d = some r →
    ((s.cc = 0 → fits (b.toInt - a.toInt) ∨ bit s.ac 12 = true) → ∃ t,
      exec (.subino s1 s2 d) s = .next t ∧
      Effect s t (if s.cc = 0 then [(r, BitVec.ofInt 32 (b.toInt - a.toInt))] else [])
        (if s.cc = 0 then overflowAc s.ac (b.toInt - a.toInt) else s.ac) (s.ip + 4)) ∧
    (s.cc = 0 → ¬ fits (b.toInt - a.toInt) → bit s.ac 12 = false →
      exec (.subino s1 s2 d) s = raise .overflow .none (s.ip + 4) (s.setReg r (BitVec.ofInt 32
        (b.toInt - a.toInt)))) ∧
    (encode (.subino s1 s2 d)).map opcode12 = [0x783] ∧
    ((s.cc.getLsbD 0 = true → fits (b.toInt - a.toInt) ∨ bit s.ac 12 = true) → ∃ t,
      exec (.subig s1 s2 d) s = .next t ∧
      Effect s t (if s.cc.getLsbD 0 = true then [(r, BitVec.ofInt 32 (b.toInt - a.toInt))] else [])
        (if s.cc.getLsbD 0 = true then overflowAc s.ac (b.toInt - a.toInt) else s.ac) (s.ip + 4)) ∧
    (s.cc.getLsbD 0 = true → ¬ fits (b.toInt - a.toInt) → bit s.ac 12 = false →
      exec (.subig s1 s2 d) s = raise .overflow .none (s.ip + 4) (s.setReg r (BitVec.ofInt 32
        (b.toInt - a.toInt)))) ∧
    (encode (.subig s1 s2 d)).map opcode12 = [0x793] ∧
    ((s.cc.getLsbD 1 = true → fits (b.toInt - a.toInt) ∨ bit s.ac 12 = true) → ∃ t,
      exec (.subie s1 s2 d) s = .next t ∧
      Effect s t (if s.cc.getLsbD 1 = true then [(r, BitVec.ofInt 32 (b.toInt - a.toInt))] else [])
        (if s.cc.getLsbD 1 = true then overflowAc s.ac (b.toInt - a.toInt) else s.ac) (s.ip + 4)) ∧
    (s.cc.getLsbD 1 = true → ¬ fits (b.toInt - a.toInt) → bit s.ac 12 = false →
      exec (.subie s1 s2 d) s = raise .overflow .none (s.ip + 4) (s.setReg r (BitVec.ofInt 32
        (b.toInt - a.toInt)))) ∧
    (encode (.subie s1 s2 d)).map opcode12 = [0x7A3] ∧
    ((s.cc.extractLsb' 0 2 ≠ 0 → fits (b.toInt - a.toInt) ∨ bit s.ac 12 = true) → ∃ t,
      exec (.subige s1 s2 d) s = .next t ∧
      Effect s t (if s.cc.extractLsb' 0 2 ≠ 0 then [(r,
        BitVec.ofInt 32 (b.toInt - a.toInt))] else [])
        (if s.cc.extractLsb' 0 2 ≠ 0 then overflowAc s.ac (b.toInt - a.toInt)
          else s.ac) (s.ip + 4)) ∧
    (s.cc.extractLsb' 0 2 ≠ 0 → ¬ fits (b.toInt - a.toInt) → bit s.ac 12 = false →
      exec (.subige s1 s2 d) s = raise .overflow .none (s.ip + 4) (s.setReg r (BitVec.ofInt 32
        (b.toInt - a.toInt)))) ∧
    (encode (.subige s1 s2 d)).map opcode12 = [0x7B3] ∧
    ((s.cc.getLsbD 2 = true → fits (b.toInt - a.toInt) ∨ bit s.ac 12 = true) → ∃ t,
      exec (.subil s1 s2 d) s = .next t ∧
      Effect s t (if s.cc.getLsbD 2 = true then [(r, BitVec.ofInt 32 (b.toInt - a.toInt))] else [])
        (if s.cc.getLsbD 2 = true then overflowAc s.ac (b.toInt - a.toInt) else s.ac) (s.ip + 4)) ∧
    (s.cc.getLsbD 2 = true → ¬ fits (b.toInt - a.toInt) → bit s.ac 12 = false →
      exec (.subil s1 s2 d) s = raise .overflow .none (s.ip + 4) (s.setReg r (BitVec.ofInt 32
        (b.toInt - a.toInt)))) ∧
    (encode (.subil s1 s2 d)).map opcode12 = [0x7C3] ∧
    (((s.cc.getLsbD 2 = true ∨ s.cc.getLsbD 0 = true) → fits (b.toInt - a.toInt) ∨
      bit s.ac 12 = true) → ∃ t, exec (.subine s1 s2 d) s = .next t ∧
      Effect s t (if (s.cc.getLsbD 2 = true ∨ s.cc.getLsbD 0 = true) then [(r,
        BitVec.ofInt 32 (b.toInt - a.toInt))] else [])
        (if (s.cc.getLsbD 2 = true ∨ s.cc.getLsbD 0 = true)
          then overflowAc s.ac (b.toInt - a.toInt) else s.ac) (s.ip + 4)) ∧
    ((s.cc.getLsbD 2 = true ∨ s.cc.getLsbD 0 = true) → ¬ fits (b.toInt - a.toInt) →
      bit s.ac 12 = false →
      exec (.subine s1 s2 d) s = raise .overflow .none (s.ip + 4) (s.setReg r (BitVec.ofInt 32
        (b.toInt - a.toInt)))) ∧
    (encode (.subine s1 s2 d)).map opcode12 = [0x7D3] ∧
    ((s.cc.extractLsb' 1 2 ≠ 0 → fits (b.toInt - a.toInt) ∨ bit s.ac 12 = true) → ∃ t,
      exec (.subile s1 s2 d) s = .next t ∧
      Effect s t (if s.cc.extractLsb' 1 2 ≠ 0 then [(r,
        BitVec.ofInt 32 (b.toInt - a.toInt))] else [])
        (if s.cc.extractLsb' 1 2 ≠ 0 then overflowAc s.ac (b.toInt - a.toInt)
          else s.ac) (s.ip + 4)) ∧
    (s.cc.extractLsb' 1 2 ≠ 0 → ¬ fits (b.toInt - a.toInt) → bit s.ac 12 = false →
      exec (.subile s1 s2 d) s = raise .overflow .none (s.ip + 4) (s.setReg r (BitVec.ofInt 32
        (b.toInt - a.toInt)))) ∧
    (encode (.subile s1 s2 d)).map opcode12 = [0x7E3] ∧
    ((s.cc ≠ 0 → fits (b.toInt - a.toInt) ∨ bit s.ac 12 = true) → ∃ t,
      exec (.subio s1 s2 d) s = .next t ∧
      Effect s t (if s.cc ≠ 0 then [(r, BitVec.ofInt 32 (b.toInt - a.toInt))] else [])
        (if s.cc ≠ 0 then overflowAc s.ac (b.toInt - a.toInt) else s.ac) (s.ip + 4)) ∧
    (s.cc ≠ 0 → ¬ fits (b.toInt - a.toInt) → bit s.ac 12 = false →
      exec (.subio s1 s2 d) s = raise .overflow .none (s.ip + 4) (s.setReg r (BitVec.ofInt 32
        (b.toInt - a.toInt)))) ∧
    (encode (.subio s1 s2 d)).map opcode12 = [0x7F3]

/-- and, andnot, notand, nand, or, ornot, notor, nor, xor, xnor and not complete for all operands
with the bitwise result of their rule; no flag, no other register and no memory changes. (R401,
R402, R403, R404, R405, R406, R407, R408, R409, R410, R411) -/
def Obligations.LogicalResults : Prop :=
  ∀ (s : State) (s1 s2 : Src) (d : SrcDst) (a b : Word) (r : Reg), s.te = false →
    s.src s1 30 = some a → s.src s2 31 = some b → dest d = some r →
    (∃ t, exec (.and s1 s2 d) s = .next t ∧
      Effect s t [(r, b &&& a)] s.ac (s.ip + 4)) ∧
    (∃ t, exec (.andnot s1 s2 d) s = .next t ∧
      Effect s t [(r, b &&& ~~~a)] s.ac (s.ip + 4)) ∧
    (∃ t, exec (.notand s1 s2 d) s = .next t ∧
      Effect s t [(r, ~~~b &&& a)] s.ac (s.ip + 4)) ∧
    (∃ t, exec (.nand s1 s2 d) s = .next t ∧
      Effect s t [(r, ~~~(b &&& a))] s.ac (s.ip + 4)) ∧
    (∃ t, exec (.or s1 s2 d) s = .next t ∧
      Effect s t [(r, b ||| a)] s.ac (s.ip + 4)) ∧
    (∃ t, exec (.ornot s1 s2 d) s = .next t ∧
      Effect s t [(r, b ||| ~~~a)] s.ac (s.ip + 4)) ∧
    (∃ t, exec (.notor s1 s2 d) s = .next t ∧
      Effect s t [(r, ~~~b ||| a)] s.ac (s.ip + 4)) ∧
    (∃ t, exec (.nor s1 s2 d) s = .next t ∧
      Effect s t [(r, ~~~(b ||| a))] s.ac (s.ip + 4)) ∧
    (∃ t, exec (.xor s1 s2 d) s = .next t ∧
      Effect s t [(r, b ^^^ a)] s.ac (s.ip + 4)) ∧
    (∃ t, exec (.xnor s1 s2 d) s = .next t ∧
      Effect s t [(r, ~~~(b ^^^ a))] s.ac (s.ip + 4)) ∧
    (∃ t, exec (.not s1 d) s = .next t ∧
      Effect s t [(r, ~~~a)] s.ac (s.ip + 4))

/-- setbit, clrbit, notbit and alterbit complete: bit (bitpos mod 32) of the result is 1, 0, the
complement of the source bit, or AC.cc[1]; every other bit is that of src. scanbit: for src = 0 the
destination is FFFFFFFFH and AC.cc 000; else the number of the most significant 1 bit and 010.
spanbit: the same of the 0 bits. Nothing else changes. (R412, R413, R414, R415, R416, R417, R418) -/
def Obligations.BitAndScanResults : Prop :=
  ∀ (s : State) (s1 s2 : Src) (d : SrcDst) (a b : Word) (r : Reg), s.te = false →
    s.src s1 30 = some a → s.src s2 31 = some b → dest d = some r →
    (∃ u v w x : Word,
    (∀ j : Nat, j < 32 →
      u.getLsbD j = (if j = a.toNat % 32 then true else b.getLsbD j) ∧
      v.getLsbD j = (if j = a.toNat % 32 then false else b.getLsbD j) ∧
      w.getLsbD j = (if j = a.toNat % 32 then !b.getLsbD j else b.getLsbD j) ∧
      x.getLsbD j = (if j = a.toNat % 32 then s.cc.getLsbD 1 else b.getLsbD j)) ∧
    (∃ t, exec (.setbit s1 s2 d) s = .next t ∧
      Effect s t [(r, u)] s.ac (s.ip + 4)) ∧
    (∃ t, exec (.clrbit s1 s2 d) s = .next t ∧
      Effect s t [(r, v)] s.ac (s.ip + 4)) ∧
    (∃ t, exec (.notbit s1 s2 d) s = .next t ∧
      Effect s t [(r, w)] s.ac (s.ip + 4)) ∧
    (∃ t, exec (.alterbit s1 s2 d) s = .next t ∧
      Effect s t [(r, x)] s.ac (s.ip + 4))) ∧
    (a = 0 → ∃ t, exec (.scanbit s1 d) s = .next t ∧
      Effect s t [(r, 0xFFFFFFFF)] (withCc s.ac 0b000) (s.ip + 4)) ∧
    (∀ i, i < 32 → a.getLsbD i = true → (∀ j, i < j → j < 32 → a.getLsbD j = false) →
      ∃ t, exec (.scanbit s1 d) s = .next t ∧
        Effect s t [(r, BitVec.ofNat 32 i)] (withCc s.ac 0b010) (s.ip + 4)) ∧
    (a = 0xFFFFFFFF → ∃ t, exec (.spanbit s1 d) s = .next t ∧
      Effect s t [(r, 0xFFFFFFFF)] (withCc s.ac 0b000) (s.ip + 4)) ∧
    (∀ i, i < 32 → a.getLsbD i = false → (∀ j, i < j → j < 32 → a.getLsbD j = true) →
      ∃ t, exec (.spanbit s1 d) s = .next t ∧
        Effect s t [(r, BitVec.ofNat 32 i)] (withCc s.ac 0b010) (s.ip + 4))

/-- extract: bit i of the result is bit i + bitpos of src/dst for i below len, 0 above or past bit
31. modify: src where mask is 1, the old src/dst elsewhere. bswap: the bytes of src in reverse
order. scanbyte: AC.cc 010 when some byte lane of the operands is equal, else 000. chkbit: AC.cc 010
when bit (bitpos mod 32) of src is 1, else 000. Nothing else changes. That bswap writes the register
of the src/dst field is ruling D17 (log 29). (R419, R420, R421, R422, R463) -/
def Obligations.FieldAndByteResults : Prop :=
  ∀ (s : State) (s1 s2 : Src) (d : SrcDst) (a b : Word) (r : Reg), s.te = false →
    s.src s1 30 = some a → s.src s2 31 = some b → dest d = some r →
    (∃ v : Word, (∀ i, i < 32 → v.getLsbD i =
        (decide (i < b.toNat) && decide (a.toNat + i < 32) && (s.reg r).getLsbD (a.toNat + i))) ∧
      ∃ t, exec (.extract s1 s2 d) s = .next t ∧ Effect s t [(r, v)] s.ac (s.ip + 4)) ∧
    (∃ v : Word, (∀ i, i < 32 → v.getLsbD i =
        (if a.getLsbD i = true then b.getLsbD i else (s.reg r).getLsbD i)) ∧
      ∃ t, exec (.modify s1 s2 d) s = .next t ∧ Effect s t [(r, v)] s.ac (s.ip + 4)) ∧
    (∃ t, exec (.bswap s1 d) s = .next t ∧
      Effect s t [(r, a.extractLsb' 0 8 ++ a.extractLsb' 8 8 ++ a.extractLsb' 16 8 ++ a.extractLsb' 24 8)] s.ac (s.ip + 4)) ∧
    (∃ t, exec (.scanbyte s1 s2) s = .next t ∧
      Effect s t [] (withCc s.ac (if ∃ k : Fin 4, a.extractLsb' (8 * k) 8 = b.extractLsb' (8 * k) 8
          then 0b010 else 0b000)) (s.ip + 4)) ∧
    (∃ t, exec (.chkbit s1 s2) s = .next t ∧
      Effect s t [] (withCc s.ac (if b.getLsbD (a.toNat % 32) = true then 0b010
        else 0b000)) (s.ip + 4))

/-- cmpo, cmpi, cmpob, cmpib, cmpos and cmpis complete: AC.cc is 100 when src1 < src2, 010 when
equal, 001 when greater, of the whole words, low bytes or low half words, unsigned or signed.
concmpo and concmpi complete: AC does not change when AC.cc[2] is 1; else AC.cc is 010 when src1 <=
src2 (unsigned, signed), else 001. No register and nothing else changes. (R450, R453, R455, R458) -/
def Obligations.CompareResults : Prop :=
  ∀ (s : State) (s1 s2 : Src) (a b : Word), s.te = false →
    s.src s1 30 = some a → s.src s2 31 = some b →
    (∃ t, exec (.cmpo s1 s2) s = .next t ∧
      Effect s t [] (withCc s.ac (if a.toNat < b.toNat then 0b100 else if a.toNat = b.toNat
        then 0b010 else 0b001)) (s.ip + 4)) ∧
    (∃ t, exec (.cmpi s1 s2) s = .next t ∧
      Effect s t [] (withCc s.ac (if a.toInt < b.toInt then 0b100 else if a.toInt = b.toInt
        then 0b010 else 0b001)) (s.ip + 4)) ∧
    (∃ t, exec (.cmpob s1 s2) s = .next t ∧
      Effect s t [] (withCc s.ac (if a.toNat % 2 ^ 8 < b.toNat % 2 ^ 8 then 0b100
        else if a.toNat % 2 ^ 8 = b.toNat % 2 ^ 8 then 0b010 else 0b001)) (s.ip + 4)) ∧
    (encode (.cmpob s1 s2)).map opcode12 = [0x594] ∧
    (∃ t, exec (.cmpib s1 s2) s = .next t ∧
      Effect s t [] (withCc s.ac (if (a.extractLsb' 0 8).toInt < (b.extractLsb' 0 8).toInt
        then 0b100 else if (a.extractLsb' 0 8).toInt = (b.extractLsb' 0 8).toInt then 0b010
        else 0b001)) (s.ip + 4)) ∧
    (∃ t, exec (.cmpos s1 s2) s = .next t ∧
      Effect s t [] (withCc s.ac (if a.toNat % 2 ^ 16 < b.toNat % 2 ^ 16 then 0b100
        else if a.toNat % 2 ^ 16 = b.toNat % 2 ^ 16 then 0b010 else 0b001)) (s.ip + 4)) ∧
    (encode (.cmpos s1 s2)).map opcode12 = [0x596] ∧
    (∃ t, exec (.cmpis s1 s2) s = .next t ∧
      Effect s t [] (withCc s.ac (if (a.extractLsb' 0 16).toInt < (b.extractLsb' 0 16).toInt
        then 0b100 else if (a.extractLsb' 0 16).toInt = (b.extractLsb' 0 16).toInt then 0b010
        else 0b001)) (s.ip + 4)) ∧
    (∃ t, exec (.concmpo s1 s2) s = .next t ∧
      Effect s t [] (if s.cc.getLsbD 2 = true then s.ac
        else withCc s.ac (if a.toNat ≤ b.toNat then 0b010 else 0b001)) (s.ip + 4)) ∧
    (∃ t, exec (.concmpi s1 s2) s = .next t ∧
      Effect s t [] (if s.cc.getLsbD 2 = true then s.ac
        else withCc s.ac (if a.toInt ≤ b.toInt then 0b010 else 0b001)) (s.ip + 4)) ∧
    (encode (.concmpi s1 s2)).map opcode12 = [0x5A3]

/-- cmpinco, cmpinci, cmpdeco and cmpdeci complete: AC.cc from the compare of src1 with src2 before
the change (unsigned, signed), the destination src2 + 1 or src2 - 1 modulo 2^32, no overflow
signalled, nothing else changed. (R461) -/
def Obligations.CompareAndStepResults : Prop :=
  ∀ (s : State) (s1 s2 : Src) (d : SrcDst) (a b : Word) (r : Reg), s.te = false →
    s.src s1 30 = some a → s.src s2 31 = some b → dest d = some r →
    (∃ t, exec (.cmpinco s1 s2 d) s = .next t ∧
      Effect s t [(r, b + 1)] (withCc s.ac (if a.toNat < b.toNat then 0b100 else if a.toNat =
        b.toNat then 0b010 else 0b001)) (s.ip + 4)) ∧
    (∃ t, exec (.cmpinci s1 s2 d) s = .next t ∧
      Effect s t [(r, b + 1)] (withCc s.ac (if a.toInt < b.toInt then 0b100 else if a.toInt =
        b.toInt then 0b010 else 0b001)) (s.ip + 4)) ∧
    (∃ t, exec (.cmpdeco s1 s2 d) s = .next t ∧
      Effect s t [(r, b - 1)] (withCc s.ac (if a.toNat < b.toNat then 0b100 else if a.toNat =
        b.toNat then 0b010 else 0b001)) (s.ip + 4)) ∧
    (encode (.cmpdeco s1 s2 d)).map opcode12 = [0x5A6] ∧
    (∃ t, exec (.cmpdeci s1 s2 d) s = .next t ∧
      Effect s t [(r, b - 1)] (withCc s.ac (if a.toInt < b.toInt then 0b100 else if a.toInt =
        b.toInt then 0b010 else 0b001)) (s.ip + 4))

/-- testno to testo complete: the destination holds 1 when AC.cc meets the condition the rule gives,
else 0; AC, every other register and memory unchanged. Opcodes as the rules print them. (R465, R466,
R467, R468, R469, R470, R471, R472) -/
def Obligations.TestConditionCode : Prop :=
  ∀ (s : State) (d : SrcDst) (r : Reg), s.te = false → dest d = some r →
    (∃ t, exec (.testno d) s = .next t ∧
      Effect s t [(r, if s.cc = 0 then 1 else 0)] s.ac (s.ip + 4)) ∧
    (encode (.testno d)).map opcode8 = [0x20] ∧
    (∃ t, exec (.testg d) s = .next t ∧
      Effect s t [(r, if s.cc.getLsbD 0 = true then 1 else 0)] s.ac (s.ip + 4)) ∧
    (encode (.testg d)).map opcode8 = [0x21] ∧
    (∃ t, exec (.teste d) s = .next t ∧
      Effect s t [(r, if s.cc.getLsbD 1 = true then 1 else 0)] s.ac (s.ip + 4)) ∧
    (encode (.teste d)).map opcode8 = [0x22] ∧
    (∃ t, exec (.testge d) s = .next t ∧
      Effect s t [(r, if s.cc.extractLsb' 0 2 ≠ 0 then 1 else 0)] s.ac (s.ip + 4)) ∧
    (encode (.testge d)).map opcode8 = [0x23] ∧
    (∃ t, exec (.testl d) s = .next t ∧
      Effect s t [(r, if s.cc.getLsbD 2 = true then 1 else 0)] s.ac (s.ip + 4)) ∧
    (encode (.testl d)).map opcode8 = [0x24] ∧
    (∃ t, exec (.testne d) s = .next t ∧
      Effect s t [(r, if (s.cc.getLsbD 2 = true ∨
        s.cc.getLsbD 0 = true) then 1 else 0)] s.ac (s.ip + 4)) ∧
    (encode (.testne d)).map opcode8 = [0x25] ∧
    (∃ t, exec (.testle d) s = .next t ∧
      Effect s t [(r, if s.cc.extractLsb' 1 2 ≠ 0 then 1 else 0)] s.ac (s.ip + 4)) ∧
    (encode (.testle d)).map opcode8 = [0x26] ∧
    (∃ t, exec (.testo d) s = .next t ∧
      Effect s t [(r, if s.cc ≠ 0 then 1 else 0)] s.ac (s.ip + 4)) ∧
    (encode (.testo d)).map opcode8 = [0x27]

/-- selno to selo complete: the destination holds src2 when AC.cc meets the condition the rule
gives, else src1; AC, every other register and memory unchanged. Opcodes as the rules print them.
(R307, R308, R309, R310, R311, R312, R313, R314) -/
def Obligations.SelectByConditionCode : Prop :=
  ∀ (s : State) (s1 s2 : Src) (d : SrcDst) (a b : Word) (r : Reg), s.te = false →
    s.src s1 30 = some a → s.src s2 31 = some b → dest d = some r →
    (∃ t, exec (.selno s1 s2 d) s = .next t ∧
      Effect s t [(r, if s.cc = 0 then b else a)] s.ac (s.ip + 4)) ∧
    (encode (.selno s1 s2 d)).map opcode12 = [0x784] ∧
    (∃ t, exec (.selg s1 s2 d) s = .next t ∧
      Effect s t [(r, if s.cc.getLsbD 0 = true then b else a)] s.ac (s.ip + 4)) ∧
    (encode (.selg s1 s2 d)).map opcode12 = [0x794] ∧
    (∃ t, exec (.sele s1 s2 d) s = .next t ∧
      Effect s t [(r, if s.cc.getLsbD 1 = true then b else a)] s.ac (s.ip + 4)) ∧
    (encode (.sele s1 s2 d)).map opcode12 = [0x7A4] ∧
    (∃ t, exec (.selge s1 s2 d) s = .next t ∧
      Effect s t [(r, if s.cc.extractLsb' 0 2 ≠ 0 then b else a)] s.ac (s.ip + 4)) ∧
    (encode (.selge s1 s2 d)).map opcode12 = [0x7B4] ∧
    (∃ t, exec (.sell s1 s2 d) s = .next t ∧
      Effect s t [(r, if s.cc.getLsbD 2 = true then b else a)] s.ac (s.ip + 4)) ∧
    (encode (.sell s1 s2 d)).map opcode12 = [0x7C4] ∧
    (∃ t, exec (.selne s1 s2 d) s = .next t ∧
      Effect s t [(r, if (s.cc.getLsbD 2 = true ∨
        s.cc.getLsbD 0 = true) then b else a)] s.ac (s.ip + 4)) ∧
    (encode (.selne s1 s2 d)).map opcode12 = [0x7D4] ∧
    (∃ t, exec (.selle s1 s2 d) s = .next t ∧
      Effect s t [(r, if s.cc.extractLsb' 1 2 ≠ 0 then b else a)] s.ac (s.ip + 4)) ∧
    (encode (.selle s1 s2 d)).map opcode12 = [0x7E4] ∧
    (∃ t, exec (.selo s1 s2 d) s = .next t ∧
      Effect s t [(r, if s.cc ≠ 0 then b else a)] s.ac (s.ip + 4)) ∧
    (encode (.selo s1 s2 d)).map opcode12 = [0x7F4]

/-- mov, movl, movt and movq complete for a source group that may be read and a destination group
that may be written: the destination registers hold the source values, read before any is written (a
literal above zeros); nothing else changes. That movl, movt and movq take any literal, also one that
is no multiple of the group, is ruling D16 (log 16). (R301, R302, R303, R304) -/
def Obligations.MoveResults : Prop :=
  ∀ (s : State) (x : Src) (d : SrcDst) (a b c e : Word) (r : Reg), s.te = false →
    (s.srcs x 1 40 = some [a] → dests d 1 = some r →
      ∃ t, exec (.mov x d) s = .next t ∧ Effect s t (group r [a]) s.ac (s.ip + 4)) ∧
    (s.srcs x 2 40 = some [a, b] → dests d 2 = some r →
      ∃ t, exec (.movl x d) s = .next t ∧ Effect s t (group r [a, b]) s.ac (s.ip + 4)) ∧
    (s.srcs x 3 40 = some [a, b, c] → dests d 3 = some r →
      ∃ t, exec (.movt x d) s = .next t ∧ Effect s t (group r [a, b, c]) s.ac (s.ip + 4)) ∧
    (s.srcs x 4 40 = some [a, b, c, e] → dests d 4 = some r →
      ∃ t, exec (.movq x d) s = .next t ∧ Effect s t (group r [a, b, c, e]) s.ac (s.ip + 4)) ∧
    (∀ n : BitVec 5, s.srcs (.lit n) 1 40 = some [n.setWidth 32] ∧
      s.srcs (.lit n) 2 40 = some [n.setWidth 32, 0] ∧
      s.srcs (.lit n) 3 40 = some [n.setWidth 32, 0, 0] ∧
        s.srcs (.lit n) 4 40 = some [n.setWidth 32, 0, 0, 0])

/-- lda completes with the effective address of each of the nine modes (offset, register plus
offset, register, IP + 8 plus displacement, register plus scaled index, displacement, register plus
displacement, scaled index plus displacement, register plus scaled index plus displacement), modulo
2^32; IP moves by 4, or 8 with a displacement word; nothing else changes. The scale multiplies by 1,
2, 4, 8 or 16. (R241, R242, R243, R245, R300, R160, R161) -/
def Obligations.LoadAddressModes : Prop :=
  ∀ (s : State) (r b x : Reg) (off : BitVec 12) (disp : Word) (sc : Scale) (n : Nat), s.te = false →
    r ≠ 2 →
    n = (match sc with | .x1 => 1 | .x2 => 2 | .x4 => 4 | .x8 => 8 | .x16 => 16) →
    (∃ t, exec (.lda (.absOff off) r) s = .next t ∧ Effect s t [(r,
      BitVec.ofNat 32 off.toNat)] s.ac (s.ip + 4)) ∧
    (∃ t, exec (.lda (.regOff b off) r) s = .next t ∧ Effect s t [(r,
      s.readReg b 30 + BitVec.ofNat 32 off.toNat)] s.ac (s.ip + 4)) ∧
    (∃ t, exec (.lda (.regInd b) r) s = .next t ∧ Effect s t [(r,
      s.readReg b 30)] s.ac (s.ip + 4)) ∧
    (∃ t, exec (.lda (.ipDisp disp) r) s = .next t ∧ Effect s t [(r,
      s.ip + 8 + disp)] s.ac (s.ip + 8)) ∧
    (∃ t, exec (.lda (.regIdx b sc x) r) s = .next t ∧ Effect s t [(r,
      s.readReg b 30 + s.readReg x 31 * BitVec.ofNat 32 n)] s.ac (s.ip + 4)) ∧
    (∃ t, exec (.lda (.absDisp disp) r) s = .next t ∧ Effect s t [(r, disp)] s.ac (s.ip + 8)) ∧
    (∃ t, exec (.lda (.regDisp b disp) r) s = .next t ∧ Effect s t [(r,
      s.readReg b 30 + disp)] s.ac (s.ip + 8)) ∧
    (∃ t, exec (.lda (.idxDisp sc x disp) r) s = .next t ∧ Effect s t [(r,
      s.readReg x 31 * BitVec.ofNat 32 n + disp)] s.ac (s.ip + 8)) ∧
    (∃ t, exec (.lda (.regIdxDisp b sc x disp) r) s = .next t ∧ Effect s t [(r,
      s.readReg b 30 + s.readReg x 31 * BitVec.ofNat 32 n + disp)] s.ac (s.ip + 8))

/-- ld, ldob, ldos, ldib, ldis, ldl, ldt and ldq complete where one memory answers the bytes at the
effective address, the address is at its natural boundary or the unaligned fault is off, the core
has the bus, and the load is one bus access or no other agent is due inside it: the destination
registers hold the little-endian value, zero-extended, sign-extended, or word by word; no memory, no
flag and no other register changes. (R280, R283, R284, R285, R286, R287, R288, R289, R290, R291,
R144, R146) -/
def Obligations.LoadResults : Prop :=
  ∀ (s : State) (m : MemOp) (d r : Reg) (x y : Byte) (a b c e : Word), s.te = false →
    (∀ key, s.plain (s.efa m) 4 key → s.bytesAt (s.efa m) (wordBytes a) →
      (s.unalignedFault = false ∨ (s.efa m).toNat % 4 = 0) → s.alone (s.efa m) 4 →
        destGroup d 1 = some r →
      ∃ t, exec (.ld m d) s = .next t ∧ Effect s t [(r, a)] s.ac (s.ip + m.len)) ∧
    (∀ key, s.plain (s.efa m) 1 key → s.bytesAt (s.efa m) [x] → s.alone (s.efa m) 1 →
      destGroup d 1 = some r →
      ∃ t, exec (.ldob m d) s = .next t ∧ Effect s t [(r, x.setWidth 32)] s.ac (s.ip + m.len)) ∧
    (∀ key, s.plain (s.efa m) 2 key → s.bytesAt (s.efa m) [x, y] →
      (s.unalignedFault = false ∨ (s.efa m).toNat % 2 = 0) → s.alone (s.efa m) 2 →
        destGroup d 1 = some r →
      ∃ t, exec (.ldos m d) s = .next t ∧ Effect s t [(r,
        (y ++ x).setWidth 32)] s.ac (s.ip + m.len)) ∧
    (∀ key, s.plain (s.efa m) 1 key → s.bytesAt (s.efa m) [x] → s.alone (s.efa m) 1 →
      destGroup d 1 = some r →
      ∃ t, exec (.ldib m d) s = .next t ∧ Effect s t [(r, x.signExtend 32)] s.ac (s.ip + m.len)) ∧
    (∀ key, s.plain (s.efa m) 2 key → s.bytesAt (s.efa m) [x, y] →
      (s.unalignedFault = false ∨ (s.efa m).toNat % 2 = 0) → s.alone (s.efa m) 2 →
        destGroup d 1 = some r →
      ∃ t, exec (.ldis m d) s = .next t ∧ Effect s t [(r,
        (y ++ x).signExtend 32)] s.ac (s.ip + m.len)) ∧
    (∀ key, s.plain (s.efa m) 8 key → s.bytesAt (s.efa m) (wordBytes a ++ wordBytes b) →
      (s.unalignedFault = false ∨ (s.efa m).toNat % 8 = 0) → s.alone (s.efa m) 8 →
        destGroup d 2 = some r →
      ∃ t, exec (.ldl m d) s = .next t ∧ Effect s t (group r [a, b]) s.ac (s.ip + m.len)) ∧
    (∀ key, s.plain (s.efa m) 12 key → s.bytesAt (s.efa m)
      (wordBytes a ++ wordBytes b ++ wordBytes c) →
      (s.unalignedFault = false ∨ (s.efa m).toNat % 16 = 0) → s.alone (s.efa m) 12 →
        destGroup d 3 = some r →
      ∃ t, exec (.ldt m d) s = .next t ∧ Effect s t (group r [a, b, c]) s.ac (s.ip + m.len)) ∧
    (∀ key, s.plain (s.efa m) 16 key → s.bytesAt (s.efa m)
      (wordBytes a ++ wordBytes b ++ wordBytes c ++ wordBytes e) →
      (s.unalignedFault = false ∨ (s.efa m).toNat % 16 = 0) → s.alone (s.efa m) 16 →
        destGroup d 4 = some r →
      ∃ t, exec (.ldq m d) s = .next t ∧ Effect s t (group r [a, b, c, e]) s.ac (s.ip + m.len))

/-- st, stob, stos, stl, stt and stq complete where the bytes at the effective address may be
stored, the address is at its natural boundary or the unaligned fault is off, the core has the bus,
and the store is one bus access or no other agent is due inside it: the low bytes of the register,
or two, three or four registers, lie there little-endian (of r2, which no operand can read, a free
value); every byte outside is as before, no register and no flag changes. (R281, R292, R293, R294,
R297, R298, R299, R144) -/
def Obligations.StoreResults : Prop :=
  ∀ (s : State) (x : Reg) (m : MemOp), s.te = false →
    (s.mayStore (s.efa m) 4 → aligned x 1 = true → (s.unalignedFault = false ∨
      (s.efa m).toNat % 4 = 0) → s.alone (s.efa m) 4 →
      ∃ t, exec (.st x m) s = .next t ∧
        StoreEffect s t (s.efa m) (wordBytes (s.readReg x 40)) s.ac (s.ip + m.len)) ∧
    (s.mayStore (s.efa m) 1 → aligned x 1 = true → s.alone (s.efa m) 1 →
      ∃ t, exec (.stob x m) s = .next t ∧
        StoreEffect s t (s.efa m) [(s.readReg x 40).extractLsb' 0 8] s.ac (s.ip + m.len)) ∧
    (s.mayStore (s.efa m) 2 → aligned x 1 = true → (s.unalignedFault = false ∨
      (s.efa m).toNat % 2 = 0) → s.alone (s.efa m) 2 →
      ∃ t, exec (.stos x m) s = .next t ∧
        StoreEffect s t (s.efa m) [(s.readReg x 40).extractLsb' 0 8,
          (s.readReg x 40).extractLsb' 8 8] s.ac (s.ip + m.len)) ∧
    (s.mayStore (s.efa m) 8 → aligned x 2 = true → (s.unalignedFault = false ∨
      (s.efa m).toNat % 8 = 0) → s.alone (s.efa m) 8 →
      ∃ t, exec (.stl x m) s = .next t ∧
        StoreEffect s t (s.efa m) (wordBytes (s.readReg x 40) ++ wordBytes (s.readReg
          (x + 1) 41)) s.ac (s.ip + m.len)) ∧
    (s.mayStore (s.efa m) 12 → aligned x 3 = true → (s.unalignedFault = false ∨
      (s.efa m).toNat % 16 = 0) → s.alone (s.efa m) 12 →
      ∃ t, exec (.stt x m) s = .next t ∧
        StoreEffect s t (s.efa m) (wordBytes (s.readReg x 40) ++ wordBytes (s.readReg
          (x + 1) 41) ++ wordBytes (s.readReg (x + 2) 42)) s.ac (s.ip + m.len)) ∧
    (s.mayStore (s.efa m) 16 → aligned x 4 = true → (s.unalignedFault = false ∨
      (s.efa m).toNat % 16 = 0) → s.alone (s.efa m) 16 →
      ∃ t, exec (.stq x m) s = .next t ∧
        StoreEffect s t (s.efa m) (wordBytes (s.readReg x 40) ++ wordBytes (s.readReg
          (x + 1) 41) ++ wordBytes (s.readReg (x + 2) 42) ++ wordBytes (s.readReg
          (x + 3) 43)) s.ac (s.ip + m.len))

/-- stib and stis, where the bytes may be stored, no alignment fault applies, the core has the bus
and no other agent is due inside the store: the low byte or half word is stored; when the bits above
are all zeros or all ones nothing else changes; else, with AC.om = 1, AC.of is set, and with AC.om =
0 the instruction raises ARITHMETIC.INTEGER_OVERFLOW with the bytes in memory and nothing else
changed. Every byte outside and every register is as before. (R295, R296, R331) -/
def Obligations.StoreIntegerResults : Prop :=
  ∀ (s : State) (x : Reg) (m : MemOp), s.te = false →
    (s.mayStore (s.efa m) 1 → s.alone (s.efa m) 1 →
      ((s.readReg x 40).toNat / 2 ^ 8 = 0 ∨ (s.readReg x 40).toNat / 2 ^ 8 = 2 ^ 24 - 1 →
        ∃ t, exec (.stib x m) s = .next t ∧
          StoreEffect s t (s.efa m) [(s.readReg x 40).extractLsb' 0 8] s.ac (s.ip + m.len)) ∧
      ((s.readReg x 40).toNat / 2 ^ 8 ≠ 0 → (s.readReg x 40).toNat / 2 ^ 8 ≠ 2 ^ 24 - 1 →
        bit s.ac 12 = true →
        ∃ t, exec (.stib x m) s = .next t ∧
          StoreEffect s t (s.efa m) [(s.readReg x 40).extractLsb' 0 8] (s.ac ||| 0x100)
            (s.ip + m.len)) ∧
      ((s.readReg x 40).toNat / 2 ^ 8 ≠ 0 → (s.readReg x 40).toNat / 2 ^ 8 ≠ 2 ^ 24 - 1 →
        bit s.ac 12 = false →
        ∃ t, t.bytesAt (s.efa m) [(s.readReg x 40).extractLsb' 0 8] ∧
          (∀ z, outside (s.efa m) 1 z → t.peek z = s.peek z) ∧
            t = { s with mem := t.mem, stale := t.stale } ∧
          exec (.stib x m) s = raise .overflow (access (s.efa m) 1 true) (s.ip + m.len) t)) ∧
    (s.mayStore (s.efa m) 2 → (s.unalignedFault = false ∨ (s.efa m).toNat % 2 = 0) →
      s.alone (s.efa m) 2 →
      ((s.readReg x 40).toNat / 2 ^ 16 = 0 ∨ (s.readReg x 40).toNat / 2 ^ 16 = 2 ^ 16 - 1 →
        ∃ t, exec (.stis x m) s = .next t ∧
          StoreEffect s t (s.efa m) [(s.readReg x 40).extractLsb' 0 8,
            (s.readReg x 40).extractLsb' 8 8] s.ac (s.ip + m.len)) ∧
      ((s.readReg x 40).toNat / 2 ^ 16 ≠ 0 → (s.readReg x 40).toNat / 2 ^ 16 ≠ 2 ^ 16 - 1 →
        bit s.ac 12 = true →
        ∃ t, exec (.stis x m) s = .next t ∧
          StoreEffect s t (s.efa m) [(s.readReg x 40).extractLsb' 0 8,
            (s.readReg x 40).extractLsb' 8 8] (s.ac ||| 0x100) (s.ip + m.len)) ∧
      ((s.readReg x 40).toNat / 2 ^ 16 ≠ 0 → (s.readReg x 40).toNat / 2 ^ 16 ≠ 2 ^ 16 - 1 →
        bit s.ac 12 = false →
        ∃ t, t.bytesAt (s.efa m) [(s.readReg x 40).extractLsb' 0 8,
          (s.readReg x 40).extractLsb' 8 8] ∧
          (∀ z, outside (s.efa m) 2 z → t.peek z = s.peek z) ∧
            t = { s with mem := t.mem, stale := t.stale } ∧
          exec (.stis x m) s = raise .overflow (access (s.efa m) 2 true) (s.ip + m.len) t))

/-- With the unaligned fault enabled, every load and store of two bytes or more at an effective
address off its natural boundary (2, 4, 8, or 16 for triple and quad words), where one memory
answers and no other agent is due inside the access, makes the access and then raises
OPERATION.UNALIGNED with the effective address as fault data: a load with its destination written, a
store with the bytes in memory and nothing else changed. With the fault disabled the same access
completes with no fault (stis stated with the overflow masked). (R148, R280, R281, R284, R286, R288,
R289, R291, R292, R297, R299, R735) -/
def Obligations.UnalignedAccessFaults : Prop :=
  ∀ (s : State) (m : MemOp) (d r x : Reg) (u v : Byte) (a b c e : Word), s.undisturbed →
    (∀ key, (s.efa m).toNat % 4 ≠ 0 → s.plain (s.efa m) 4 key → s.bytesAt (s.efa m) (wordBytes a) →
      destGroup d 1 = some r →
      (s.unalignedFault = true → exec (.ld m d) s =
        raise (.unaligned (s.efa m)) (access (s.efa m) 4 false) (s.ip + m.len) (s.setRegs r [a])) ∧
      (s.unalignedFault = false → s.te = false → ∃ t, exec (.ld m d) s = .next t ∧
        t.reg r = ([a]).headD 0)) ∧
    (∀ key, (s.efa m).toNat % 2 ≠ 0 → s.plain (s.efa m) 2 key → s.bytesAt (s.efa m) [u, v] →
      destGroup d 1 = some r →
      (s.unalignedFault = true → exec (.ldos m d) s =
        raise (.unaligned (s.efa m)) (access (s.efa m) 2 false) (s.ip + m.len)
          (s.setRegs r [(v ++ u).setWidth 32])) ∧
      (s.unalignedFault = false → s.te = false → ∃ t, exec (.ldos m d) s = .next t ∧
        t.reg r = ([(v ++ u).setWidth 32]).headD 0)) ∧
    (∀ key, (s.efa m).toNat % 2 ≠ 0 → s.plain (s.efa m) 2 key → s.bytesAt (s.efa m) [u, v] →
      destGroup d 1 = some r →
      (s.unalignedFault = true → exec (.ldis m d) s =
        raise (.unaligned (s.efa m)) (access (s.efa m) 2 false) (s.ip + m.len)
          (s.setRegs r [(v ++ u).signExtend 32])) ∧
      (s.unalignedFault = false → s.te = false → ∃ t, exec (.ldis m d) s = .next t ∧
        t.reg r = ([(v ++ u).signExtend 32]).headD 0)) ∧
    (∀ key, (s.efa m).toNat % 8 ≠ 0 → s.plain (s.efa m) 8 key →
      s.bytesAt (s.efa m) (wordBytes a ++ wordBytes b) →
      destGroup d 2 = some r →
      (s.unalignedFault = true → exec (.ldl m d) s =
        raise (.unaligned (s.efa m)) (access (s.efa m) 8 false) (s.ip + m.len) (s.setRegs r [a,
          b])) ∧
      (s.unalignedFault = false → s.te = false → ∃ t, exec (.ldl m d) s = .next t ∧ t.reg r = ([a,
        b]).headD 0)) ∧
    (∀ key, (s.efa m).toNat % 16 ≠ 0 → s.plain (s.efa m) 12 key →
      s.bytesAt (s.efa m) (wordBytes a ++ wordBytes b ++ wordBytes c) →
      destGroup d 3 = some r →
      (s.unalignedFault = true → exec (.ldt m d) s =
        raise (.unaligned (s.efa m)) (access (s.efa m) 12 false) (s.ip + m.len) (s.setRegs r [a,
          b, c])) ∧
      (s.unalignedFault = false → s.te = false → ∃ t, exec (.ldt m d) s = .next t ∧ t.reg r = ([a,
        b, c]).headD 0)) ∧
    (∀ key, (s.efa m).toNat % 16 ≠ 0 → s.plain (s.efa m) 16 key →
      s.bytesAt (s.efa m) (wordBytes a ++ wordBytes b ++ wordBytes c ++ wordBytes e) →
      destGroup d 4 = some r →
      (s.unalignedFault = true → exec (.ldq m d) s =
        raise (.unaligned (s.efa m)) (access (s.efa m) 16 false) (s.ip + m.len) (s.setRegs r [a,
          b, c, e])) ∧
      (s.unalignedFault = false → s.te = false → ∃ t, exec (.ldq m d) s = .next t ∧ t.reg r = ([a,
        b, c, e]).headD 0)) ∧
    ((s.efa m).toNat % 4 ≠ 0 → s.mayStore (s.efa m) 4 → aligned x 1 = true →
      (s.unalignedFault = true → ∃ t, t.bytesAt (s.efa m) (wordBytes (s.readReg x 40)) ∧
          (∀ z, outside (s.efa m) 4 z → t.peek z = s.peek z) ∧
            t = { s with mem := t.mem, stale := t.stale } ∧
          exec (.st x m) s = raise (.unaligned (s.efa m)) (access (s.efa m) 4 true)
            (s.ip + m.len) t) ∧
      (s.unalignedFault = false → s.te = false → ∃ t, exec (.st x m) s = .next t ∧
        t.bytesAt (s.efa m) (wordBytes (s.readReg x 40)))) ∧
    ((s.efa m).toNat % 2 ≠ 0 → s.mayStore (s.efa m) 2 → aligned x 1 = true →
      (s.unalignedFault = true → ∃ t, t.bytesAt (s.efa m) [(s.readReg x 40).extractLsb' 0 8,
        (s.readReg x 40).extractLsb' 8 8] ∧
          (∀ z, outside (s.efa m) 2 z → t.peek z = s.peek z) ∧
            t = { s with mem := t.mem, stale := t.stale } ∧
          exec (.stos x m) s = raise (.unaligned (s.efa m)) (access (s.efa m) 2 true)
            (s.ip + m.len) t) ∧
      (s.unalignedFault = false → s.te = false → ∃ t, exec (.stos x m) s = .next t ∧
        t.bytesAt (s.efa m) [(s.readReg x 40).extractLsb' 0 8, (s.readReg x 40).extractLsb' 8 8])) ∧
    ((s.efa m).toNat % 8 ≠ 0 → s.mayStore (s.efa m) 8 → aligned x 2 = true →
      (s.unalignedFault = true → ∃ t, t.bytesAt (s.efa m) (wordBytes
        (s.readReg x 40) ++ wordBytes (s.readReg (x + 1) 41)) ∧
          (∀ z, outside (s.efa m) 8 z → t.peek z = s.peek z) ∧
            t = { s with mem := t.mem, stale := t.stale } ∧
          exec (.stl x m) s = raise (.unaligned (s.efa m)) (access (s.efa m) 8 true)
            (s.ip + m.len) t) ∧
      (s.unalignedFault = false → s.te = false → ∃ t, exec (.stl x m) s = .next t ∧
        t.bytesAt (s.efa m) (wordBytes (s.readReg x 40) ++ wordBytes (s.readReg (x + 1) 41)))) ∧
    ((s.efa m).toNat % 16 ≠ 0 → s.mayStore (s.efa m) 12 → aligned x 3 = true →
      (s.unalignedFault = true → ∃ t, t.bytesAt (s.efa m) (wordBytes
        (s.readReg x 40) ++ wordBytes (s.readReg (x + 1) 41) ++ wordBytes (s.readReg (x + 2) 42)) ∧
          (∀ z, outside (s.efa m) 12 z → t.peek z = s.peek z) ∧
            t = { s with mem := t.mem, stale := t.stale } ∧
          exec (.stt x m) s = raise (.unaligned (s.efa m)) (access (s.efa m) 12 true)
            (s.ip + m.len) t) ∧
      (s.unalignedFault = false → s.te = false → ∃ t, exec (.stt x m) s = .next t ∧
        t.bytesAt (s.efa m) (wordBytes (s.readReg x 40) ++ wordBytes (s.readReg
          (x + 1) 41) ++ wordBytes (s.readReg (x + 2) 42)))) ∧
    ((s.efa m).toNat % 16 ≠ 0 → s.mayStore (s.efa m) 16 → aligned x 4 = true →
      (s.unalignedFault = true → ∃ t, t.bytesAt (s.efa m) (wordBytes
        (s.readReg x 40) ++ wordBytes (s.readReg (x + 1) 41) ++ wordBytes (s.readReg
        (x + 2) 42) ++ wordBytes (s.readReg (x + 3) 43)) ∧
          (∀ z, outside (s.efa m) 16 z → t.peek z = s.peek z) ∧
            t = { s with mem := t.mem, stale := t.stale } ∧
          exec (.stq x m) s = raise (.unaligned (s.efa m)) (access (s.efa m) 16 true)
            (s.ip + m.len) t) ∧
      (s.unalignedFault = false → s.te = false → ∃ t, exec (.stq x m) s = .next t ∧
        t.bytesAt (s.efa m) (wordBytes (s.readReg x 40) ++ wordBytes (s.readReg
          (x + 1) 41) ++ wordBytes (s.readReg (x + 2) 42) ++ wordBytes (s.readReg (x + 3) 43)))) ∧
    ((s.efa m).toNat % 2 ≠ 0 → s.mayStore (s.efa m) 2 →
      (s.unalignedFault = true → ∃ t, t.bytesAt (s.efa m) [(s.readReg x 40).extractLsb' 0 8,
        (s.readReg x 40).extractLsb' 8 8] ∧
          (∀ z, outside (s.efa m) 2 z → t.peek z = s.peek z) ∧
            t = { s with mem := t.mem, stale := t.stale } ∧
          exec (.stis x m) s = raise (.unaligned (s.efa m)) (access (s.efa m) 2 true)
            (s.ip + m.len) t) ∧
      (s.unalignedFault = false → s.te = false → bit s.ac 12 = true → ∃ t,
        exec (.stis x m) s = .next t ∧
        t.bytesAt (s.efa m) [(s.readReg x 40).extractLsb' 0 8, (s.readReg x 40).extractLsb' 8 8]))

/-- A store to data RAM below 40H in user mode, or in supervisor mode with BCON.sirp = 1, and a
user-mode store to 40H to 3FFH with BCON.irp = 1, fails TYPE.MISMATCH; a store to core MMR space
that is not of a word, or of a word at an address that is no multiple of 4, fails
OPERATION.UNIMPLEMENTED, in both modes. The store instruction, whichever of the eight, then raises
that fault in the state as it was. (R80, R86, R281, R702) -/
def Obligations.StoreProtection : Prop :=
  ∀ (s : State) (x : Reg) (m : MemOp),
    ((s.efa m).toNat < 0x40 → (s.supervisor = false ∨ bit s.bus.bcon 2 = true) →
      exec (.st x m) s = raise .mismatch (access (s.efa m) 4 true) (s.ip + m.len) s ∧
      exec (.stob x m) s = raise .mismatch (access (s.efa m) 1 true) (s.ip + m.len) s ∧
      exec (.stos x m) s = raise .mismatch (access (s.efa m) 2 true) (s.ip + m.len) s ∧
      exec (.stib x m) s = raise .mismatch (access (s.efa m) 1 true) (s.ip + m.len) s ∧
      exec (.stis x m) s = raise .mismatch (access (s.efa m) 2 true) (s.ip + m.len) s ∧
      exec (.stl x m) s = raise .mismatch (access (s.efa m) 8 true) (s.ip + m.len) s ∧
      exec (.stt x m) s = raise .mismatch (access (s.efa m) 12 true) (s.ip + m.len) s ∧
      exec (.stq x m) s = raise .mismatch (access (s.efa m) 16 true) (s.ip + m.len) s) ∧
    (0x40 ≤ (s.efa m).toNat → (s.efa m).toNat < 0x400 → s.supervisor = false →
      bit s.bus.bcon 1 = true →
      exec (.st x m) s = raise .mismatch (access (s.efa m) 4 true) (s.ip + m.len) s ∧
      exec (.stob x m) s = raise .mismatch (access (s.efa m) 1 true) (s.ip + m.len) s ∧
      exec (.stos x m) s = raise .mismatch (access (s.efa m) 2 true) (s.ip + m.len) s ∧
      exec (.stib x m) s = raise .mismatch (access (s.efa m) 1 true) (s.ip + m.len) s ∧
      exec (.stis x m) s = raise .mismatch (access (s.efa m) 2 true) (s.ip + m.len) s ∧
      exec (.stl x m) s = raise .mismatch (access (s.efa m) 8 true) (s.ip + m.len) s ∧
      exec (.stt x m) s = raise .mismatch (access (s.efa m) 12 true) (s.ip + m.len) s ∧
      exec (.stq x m) s = raise .mismatch (access (s.efa m) 16 true) (s.ip + m.len) s) ∧
    (0xFF000000 ≤ (s.efa m).toNat →
      ((s.efa m).toNat % 4 ≠ 0 →
        exec (.st x m) s = raise .unimplemented (access (s.efa m) 4 true) (s.ip + m.len) s) ∧
      exec (.stob x m) s = raise .unimplemented (access (s.efa m) 1 true) (s.ip + m.len) s ∧
      exec (.stos x m) s = raise .unimplemented (access (s.efa m) 2 true) (s.ip + m.len) s ∧
      exec (.stib x m) s = raise .unimplemented (access (s.efa m) 1 true) (s.ip + m.len) s ∧
      exec (.stis x m) s = raise .unimplemented (access (s.efa m) 2 true) (s.ip + m.len) s ∧
      exec (.stl x m) s = raise .unimplemented (access (s.efa m) 8 true) (s.ip + m.len) s ∧
      exec (.stt x m) s = raise .unimplemented (access (s.efa m) 12 true) (s.ip + m.len) s ∧
      exec (.stq x m) s = raise .unimplemented (access (s.efa m) 16 true) (s.ip + m.len) s)

/-- A word load from a core memory-mapped register (all but IPB0:1, TMR0:1 and DEVICEID listed) or
from the listed peripheral registers, by a core that has the bus, gives its content and changes
nothing else; one from TMR0 gives its content (TMR.tc free while auto-reload runs) and clears
TMR.tc. In supervisor mode a word store to one of the core registers leaves its implemented bits
there, ICON (R850) and PMCON where the value is one the source defines; the breakpoint registers
need the rights, else OPERATION.UNIMPLEMENTED; the PRCB pointer ignores it. In either mode, by a
core that has the bus, a word store to PIRSR, MBBAR0, LBACR, ISAR or IMR0 leaves its implemented
bits there, one to IMR0 raising no interrupt; to OMR0 it also sets OISR bit 0; to ODR it sets the
bits written 1; to IDR, and to LPISR in bits 6:5 (R1023), it clears the bits written 1. In user mode
a word store at or above FF008000H, or to a timer register with TMR.sup = 1, raises TYPE.MISMATCH in
the state as it was. It leaves out TMR1 and its user-mode fault, and loads of IPBx and DEVICEID. A
store to IPND clears no bit whose input is still low (R833). The types R, R/W and WwG of the
registers are R88's. That reserved bits are not stored is ruling D1 (log 13), that the PRCB pointer
ignores stores and that ISP and SSP take them D6 (log 19). That a store to SSP drops bits 1:0 is the
model's choice (log 19: R552 clears them in the table's value only, R89 prints no mask). What stores
to the messaging unit do by side, IMR0 without an interrupt among it, is R1192 with ruling D50 (log
65). That a user-mode store at or above FF008000H faults where no register is implemented is the
model's choice (log 26: R86 calls it unpredictable); that LBACR stores its reserved fields below bit
14 is PRESUMED (log 77, by R1041 itself). (R86, R833, R89, R91, R900, R932, R933, R1182, R1183,
R1184, R1187, R1192) -/
def Obligations.MmrAccess : Prop :=
  ∀ (s : State) (m : MemOp) (d x : Reg) (v : Word), s.te = false → d ≠ 2 → v = s.readReg x 40 →
    let fault (t : Trap) : Res := raise t (access (s.efa m) 4 true) (s.ip + m.len) s
    (∀ p ∈ ([(0xFF000300, s.timer0.trr), (0xFF000304, s.timer0.tcr), (0xFF000310, s.timer1.trr),
      (0xFF000314, s.timer1.tcr), (0xFF008100, s.bus.dlmcon), (0xFF008108, s.bus.lmadr0),
      (0xFF00810C, s.bus.lmmr0), (0xFF008110, s.bus.lmadr1), (0xFF008114, s.bus.lmmr1),
      (0xFF008420, s.dbg.dab0), (0xFF008424, s.dbg.dab1), (0xFF008440, s.dbg.bpcon), (0xFF008500,
      s.intc.ipnd), (0xFF008504, s.intc.imsk), (0xFF008510, s.intc.icon), (0xFF008520,
      s.intc.imap0), (0xFF008524, s.intc.imap1), (0xFF008528, s.intc.imap2), (0xFF008600,
      s.bus.pmcon[0]), (0xFF008608, s.bus.pmcon[1]), (0xFF008610, s.bus.pmcon[2]), (0xFF008618,
      s.bus.pmcon[3]), (0xFF008620, s.bus.pmcon[4]), (0xFF008628, s.bus.pmcon[5]), (0xFF008630,
      s.bus.pmcon[6]), (0xFF008638, s.bus.pmcon[7]), (0xFF0086FC, s.bus.bcon), (0xFF008700,
      s.prcb), (0xFF008704, s.isp), (0xFF008708, s.ssp)] : List (Word × Word)),
      s.efa m = p.1 → ∃ t, exec (.ld m d) s = .next t ∧ Effect s t [(d, p.2)] s.ac (s.ip + m.len)) ∧
    (∀ p ∈ ([(0x00001200, s.atu.did ++ s.atu.vid), (0x00001204, s.atu.sr ++ s.atu.cmd), (0x00001240,
      s.atu.ialr), (0x00001254, s.atu.omwvr), (0x00001288, s.atu.cr), (0x00001290, s.atu.isr),
      (0x000012C8, s.intc.pirsr), (0x00001310, s.mu.imr0), (0x00001318, s.mu.omr0), (0x00001320,
      s.mu.idr), (0x00001328, s.mu.iimr), (0x0000132C, s.mu.odr), (0x00001334, s.mu.oimr),
      (0x00001400, s.dma0.ccr), (0x00001404, s.dma0.csr), (0x00001450, s.dma1.ndar), (0x00001500,
      s.mc.mbcr), (0x00001504, s.mc.mbbar0), (0x0000151C, s.mc.dbcr), (0x00001538, s.mc.mear),
      (0x0000153C, s.mc.lpisr), (0x00001600, s.arb.lbacr), (0x00001604, s.arb.lbalcr),
      (0x00001680, s.i2c.icr), (0x00001684, s.i2c.isr), (0x00001690,
        s.i2c.iccr)] : List (Word × Word)),
      s.coreGranted = true → s.efa m = p.1 → ∃ t, exec (.ld m d) s = .next t ∧ Effect s t [(d,
        p.2)] s.ac (s.ip + m.len)) ∧
    (s.efa m = 0xFF000308 → ∃ t, exec (.ld m d) s = .next t ∧
      ((s.timer0.tmr &&& 6 ≠ 6 → t.reg d = s.timer0.tmr) ∧
        (s.timer0.tmr &&& 6 = 6 → t.reg d &&& ~~~1 = s.timer0.tmr &&& 0x3E)) ∧
      (∀ n, n ≠ d → t.reg n = s.reg n) ∧ t.ip = (s.ip + m.len) &&& 0xFFFFFFFC ∧
      t = { s with g := t.g, r := t.r, pfpDirty := t.pfpDirty, ip := t.ip, fresh := t.fresh
                   timer0 := { s.timer0 with tmr := s.timer0.tmr &&& 0x3E } }) ∧
    (s.supervisor = true →
      (∀ p ∈ ([(0xFF008100, { s with bus := { s.bus with dlmcon := v &&& 2 } }),
      (0xFF008108, { s with bus := { s.bus with lmadr0 := v &&& 0xFFFFF002 } }),
      (0xFF00810C, { s with bus := { s.bus with lmmr0 := v &&& 0xFFFFF001 } }),
      (0xFF008110, { s with bus := { s.bus with lmadr1 := v &&& 0xFFFFF002 } }),
      (0xFF008114, { s with bus := { s.bus with lmmr1 := v &&& 0xFFFFF001 } }),
      (0xFF008500, { s with intc := { s.intc with ipnd := (v &&& 0x30FF) ||| s.inputs } }),
      (0xFF008504, { s with intc := { s.intc with imsk := v &&& 0x30FF } }),
      (0xFF008520, { s with intc := { s.intc with imap0 := v &&& 0xFFFF } }),
      (0xFF008524, { s with intc := { s.intc with imap1 := v &&& 0xFFFF } }),
      (0xFF008528, { s with intc := { s.intc with imap2 := v &&& 0x00FF0000 } }),
      (0xFF0086FC, { s with bus := { s.bus with bcon := v &&& 7 } }),
      (0xFF008700, s),
      (0xFF008704, { s with isp := v }),
      (0xFF008708, { s with ssp := v &&& 0xFFFFFFFC }),
      (0xFF000300, { s with timer0 := { s.timer0 with trr := v } }),
      (0xFF000304, { s with timer0 := { s.timer0 with tcr := v } }),
      (0xFF000310, { s with timer1 := { s.timer1 with trr := v } }),
      (0xFF000314, { s with timer1 := { s.timer1 with tcr := v } })] : List (Word × State)),
        s.efa m = p.1 → exec (.st x m) s = .next ((p.2.setIp (s.ip + m.len)).bump)) ∧
      (∀ p ∈ ([(0xFF008400, { s with dbg := { s.dbg with ipb0 := v } }),
      (0xFF008404, { s with dbg := { s.dbg with ipb1 := v } }),
      (0xFF008420, { s with dbg := { s.dbg with dab0 := v } }),
      (0xFF008424, { s with dbg := { s.dbg with dab1 := v } }),
      (0xFF008440, { s with dbg := { s.dbg with bpcon := v &&& 0x00FF0000 } })] : List
        (Word × State)), s.efa m = p.1 →
        (s.dbg.rights = true → exec (.st x m) s = .next ((p.2.setIp (s.ip + m.len)).bump)) ∧
        (s.dbg.rights = false → exec (.st x m) s = fault .unimplemented)) ∧
      (s.efa m = 0xFF008510 → bit v 14 = true → v &&& 0x3FF = 0 → exec (.st x m) s =
        .next ((({ s with intc := { s.intc with icon := v &&& 0x7C00 } } : State).setIp
          (s.ip + m.len)).bump)) ∧
      (∀ i : Fin 8, s.efa m = 0xFF008600 + BitVec.ofNat 32 (8 * i.val) → v.toNat / 2 ^ 22 % 4 ≠ 3 →
        exec (.st x m) s = .next ((({ s with bus := { s.bus with
          pmcon := s.bus.pmcon.set i (v &&& 0x00C00000) } } : State).setIp (s.ip + m.len)).bump)) ∧
      (s.efa m = 0xFF000308 → ∃ t, exec (.st x m) s = .next t ∧ t.timer0.tmr = v &&& 0x3E ∧
        t.timer0.tcr = s.timer0.tcr ∧ t.timer0.trr = s.timer0.trr ∧
        t.ip = (s.ip + m.len) &&& 0xFFFFFFFC ∧
        t = { s with timer0 := t.timer0, ip := t.ip, fresh := t.fresh })) ∧
    (∀ p ∈ ([(0x000012C8, { s with intc := { s.intc with pirsr := (v &&& 0xF) ||| (s.intc.pirsr &&& 0xFFFFFFF0) } }),
      (0x00001310, { s with mu := { s.mu with imr0 := v } }),
      (0x00001318, { s with mu := { s.mu with omr0 := v, oisr := s.mu.oisr ||| 1 } }),
      (0x00001320, { s with mu := { s.mu with idr := s.mu.idr &&& ~~~v } }),
      (0x0000132C, { s with mu := { s.mu with odr := s.mu.odr ||| v } }),
      (0x00001504, { s with mc := { s.mc with mbbar0 := (v &&& 0xFFFF0000) ||| (s.mc.mbbar0 &&& 0x0000FFFF) } }),
      (0x0000153C, { s with mc := { s.mc with lpisr := s.mc.lpisr &&& ~~~(v &&& 0x60) } }),
      (0x00001600, { s with arb := { s.arb with lbacr := (v &&& 0x3FFF) ||| (s.arb.lbacr &&& 0xFFFFC000) } }),
      (0x00001688, { s with i2c := { s.i2c with isar := (v &&& 0x7F) ||| (s.i2c.isar &&& 0xFFFFFF80) } })] : List (Word × State)),
      s.coreGranted = true → s.efa m = p.1 → exec (.st x m) s =
        .next ((p.2.setIp (s.ip + m.len)).bump)) ∧
    (s.supervisor = false → 0xFF008000 ≤ (s.efa m).toNat → (s.efa m).toNat % 4 = 0 →
      exec (.st x m) s = fault .mismatch) ∧
    (s.supervisor = false → s.timer0.tmr.getLsbD 3 = true →
      s.efa m = 0xFF000300 ∨ s.efa m = 0xFF000304 ∨ s.efa m = 0xFF000308 →
      exec (.st x m) s = fault .mismatch)

/-- b goes to IP plus the sign-extended displacement, bx to the effective address, bits 1:0 made 0;
bal also writes IP + 4 to g14; balx writes the address of the next instruction to its destination
(not r2), the target computed first. Nothing else changes. (R490, R491, R492, R493, R494) -/
def Obligations.BranchResults : Prop :=
  ∀ (s : State) (disp : BitVec 22) (m : MemOp) (d : Reg), s.te = false →
    (∃ t, exec (.b disp) s = .next t ∧ Effect s t [] s.ac (s.ip + (disp ++ 0#2).signExtend 32)) ∧
    (∃ t, exec (.bx m) s = .next t ∧ Effect s t [] s.ac (s.efa m)) ∧
    (∃ t, exec (.bal disp) s = .next t ∧
      Effect s t [(30, s.ip + 4)] s.ac (s.ip + (disp ++ 0#2).signExtend 32)) ∧
    (d ≠ 2 → ∃ t, exec (.balx m d) s = .next t ∧
      Effect s t [(d, s.ip + m.len)] s.ac (s.efa m))

/-- bno to bo complete: IP is the target, IP plus the sign-extended displacement, when AC.cc meets
the condition the rule gives, else the next instruction; nothing else changes. Opcodes as the rules
print them. (R497, R498, R499, R500, R501, R502, R503, R504) -/
def Obligations.BranchByConditionCode : Prop :=
  ∀ (s : State) (disp : BitVec 22), s.te = false →
    (∃ t, exec (.bno disp) s = .next t ∧
      Effect s t [] s.ac (if s.cc = 0 then s.ip + (disp ++ 0#2).signExtend 32 else s.ip + 4)) ∧
    (encode (.bno disp)).map opcode8 = [0x10] ∧
    (∃ t, exec (.bg disp) s = .next t ∧
      Effect s t [] s.ac (if s.cc.getLsbD 0 = true then s.ip + (disp ++ 0#2).signExtend 32
        else s.ip + 4)) ∧
    (encode (.bg disp)).map opcode8 = [0x11] ∧
    (∃ t, exec (.be disp) s = .next t ∧
      Effect s t [] s.ac (if s.cc.getLsbD 1 = true then s.ip + (disp ++ 0#2).signExtend 32
        else s.ip + 4)) ∧
    (encode (.be disp)).map opcode8 = [0x12] ∧
    (∃ t, exec (.bge disp) s = .next t ∧
      Effect s t [] s.ac (if s.cc.extractLsb' 0 2 ≠ 0 then s.ip + (disp ++ 0#2).signExtend 32
        else s.ip + 4)) ∧
    (encode (.bge disp)).map opcode8 = [0x13] ∧
    (∃ t, exec (.bl disp) s = .next t ∧
      Effect s t [] s.ac (if s.cc.getLsbD 2 = true then s.ip + (disp ++ 0#2).signExtend 32
        else s.ip + 4)) ∧
    (encode (.bl disp)).map opcode8 = [0x14] ∧
    (∃ t, exec (.bne disp) s = .next t ∧
      Effect s t [] s.ac (if (s.cc.getLsbD 2 = true ∨
        s.cc.getLsbD 0 = true) then s.ip + (disp ++ 0#2).signExtend 32 else s.ip + 4)) ∧
    (encode (.bne disp)).map opcode8 = [0x15] ∧
    (∃ t, exec (.ble disp) s = .next t ∧
      Effect s t [] s.ac (if s.cc.extractLsb' 1 2 ≠ 0 then s.ip + (disp ++ 0#2).signExtend 32
        else s.ip + 4)) ∧
    (encode (.ble disp)).map opcode8 = [0x16] ∧
    (∃ t, exec (.bo disp) s = .next t ∧
      Effect s t [] s.ac (if s.cc ≠ 0 then s.ip + (disp ++ 0#2).signExtend 32 else s.ip + 4)) ∧
    (encode (.bo disp)).map opcode8 = [0x17]

/-- bbc and bbs complete: with the bit (bitpos mod 32) of src, AC.cc is 010 when it is 1, else 000;
bbc branches when it is 0, bbs when it is 1, to IP plus the sign-extended displacement, else to the
next instruction; nothing else changes. (R490, R505, R506) -/
def Obligations.CheckBitBranch : Prop :=
  ∀ (s : State) (s1 : CSrc) (s2 : CReg) (disp : BitVec 11) (b : Word), s.te = false →
    s.cobrReg s2 31 = some b → let a := s.cobrSrc s1 30
    (∃ t, exec (.bbc s1 s2 disp) s = .next t ∧
      Effect s t [] (withCc s.ac (if b.getLsbD (a.toNat % 32) = true then 0b010 else 0b000))
        (if b.getLsbD (a.toNat % 32) = true then s.ip + 4
          else s.ip + (disp ++ 0#2).signExtend 32)) ∧
    (∃ t, exec (.bbs s1 s2 disp) s = .next t ∧
      Effect s t [] (withCc s.ac (if b.getLsbD (a.toNat % 32) = true then 0b010 else 0b000))
        (if b.getLsbD (a.toNat % 32) = true then s.ip + (disp ++ 0#2).signExtend 32 else s.ip + 4))

/-- cmpibno to cmpibo and cmpobg to cmpoble complete: AC.cc describes src1 relative to src2 as
signed (cmpib) or unsigned (cmpob) values; the branch to IP plus the sign-extended displacement is
taken never (no), when src1 > src2, =, >=, <, not =, <=, or always (o); nothing else changes.
Opcodes as the rules print them. (R508, R509, R511, R512, R513, R514, R516, R517, R518, R519, R520,
R521) -/
def Obligations.CompareAndBranch : Prop :=
  ∀ (s : State) (s1 : CSrc) (s2 : CReg) (disp : BitVec 11) (b : Word), s.te = false →
    s.cobrReg s2 31 = some b → let a := s.cobrSrc s1 30
    (∃ t, exec (.cmpibno s1 s2 disp) s = .next t ∧ Effect s t []
        (withCc s.ac (if a.toInt < b.toInt then 0b100 else if a.toInt = b.toInt then 0b010
          else 0b001))
        (if False then s.ip + (disp ++ 0#2).signExtend 32 else s.ip + 4)) ∧
    (encode (.cmpibno s1 s2 disp)).map opcode8 = [0x38] ∧
    (∃ t, exec (.cmpibg s1 s2 disp) s = .next t ∧ Effect s t []
        (withCc s.ac (if a.toInt < b.toInt then 0b100 else if a.toInt = b.toInt then 0b010
          else 0b001))
        (if a.toInt > b.toInt then s.ip + (disp ++ 0#2).signExtend 32 else s.ip + 4)) ∧
    (encode (.cmpibg s1 s2 disp)).map opcode8 = [0x39] ∧
    (∃ t, exec (.cmpibe s1 s2 disp) s = .next t ∧ Effect s t []
        (withCc s.ac (if a.toInt < b.toInt then 0b100 else if a.toInt = b.toInt then 0b010
          else 0b001))
        (if a = b then s.ip + (disp ++ 0#2).signExtend 32 else s.ip + 4)) ∧
    (encode (.cmpibe s1 s2 disp)).map opcode8 = [0x3A] ∧
    (∃ t, exec (.cmpibge s1 s2 disp) s = .next t ∧ Effect s t []
        (withCc s.ac (if a.toInt < b.toInt then 0b100 else if a.toInt = b.toInt then 0b010
          else 0b001))
        (if a.toInt ≥ b.toInt then s.ip + (disp ++ 0#2).signExtend 32 else s.ip + 4)) ∧
    (encode (.cmpibge s1 s2 disp)).map opcode8 = [0x3B] ∧
    (∃ t, exec (.cmpibl s1 s2 disp) s = .next t ∧ Effect s t []
        (withCc s.ac (if a.toInt < b.toInt then 0b100 else if a.toInt = b.toInt then 0b010
          else 0b001))
        (if a.toInt < b.toInt then s.ip + (disp ++ 0#2).signExtend 32 else s.ip + 4)) ∧
    (encode (.cmpibl s1 s2 disp)).map opcode8 = [0x3C] ∧
    (∃ t, exec (.cmpibne s1 s2 disp) s = .next t ∧ Effect s t []
        (withCc s.ac (if a.toInt < b.toInt then 0b100 else if a.toInt = b.toInt then 0b010
          else 0b001))
        (if a ≠ b then s.ip + (disp ++ 0#2).signExtend 32 else s.ip + 4)) ∧
    (encode (.cmpibne s1 s2 disp)).map opcode8 = [0x3D] ∧
    (∃ t, exec (.cmpible s1 s2 disp) s = .next t ∧ Effect s t []
        (withCc s.ac (if a.toInt < b.toInt then 0b100 else if a.toInt = b.toInt then 0b010
          else 0b001))
        (if a.toInt ≤ b.toInt then s.ip + (disp ++ 0#2).signExtend 32 else s.ip + 4)) ∧
    (encode (.cmpible s1 s2 disp)).map opcode8 = [0x3E] ∧
    (∃ t, exec (.cmpibo s1 s2 disp) s = .next t ∧ Effect s t []
        (withCc s.ac (if a.toInt < b.toInt then 0b100 else if a.toInt = b.toInt then 0b010
          else 0b001))
        (if True then s.ip + (disp ++ 0#2).signExtend 32 else s.ip + 4)) ∧
    (encode (.cmpibo s1 s2 disp)).map opcode8 = [0x3F] ∧
    (∃ t, exec (.cmpobg s1 s2 disp) s = .next t ∧ Effect s t []
        (withCc s.ac (if a.toNat < b.toNat then 0b100 else if a.toNat = b.toNat then 0b010
          else 0b001))
        (if a.toNat > b.toNat then s.ip + (disp ++ 0#2).signExtend 32 else s.ip + 4)) ∧
    (encode (.cmpobg s1 s2 disp)).map opcode8 = [0x31] ∧
    (∃ t, exec (.cmpobe s1 s2 disp) s = .next t ∧ Effect s t []
        (withCc s.ac (if a.toNat < b.toNat then 0b100 else if a.toNat = b.toNat then 0b010
          else 0b001))
        (if a = b then s.ip + (disp ++ 0#2).signExtend 32 else s.ip + 4)) ∧
    (encode (.cmpobe s1 s2 disp)).map opcode8 = [0x32] ∧
    (∃ t, exec (.cmpobge s1 s2 disp) s = .next t ∧ Effect s t []
        (withCc s.ac (if a.toNat < b.toNat then 0b100 else if a.toNat = b.toNat then 0b010
          else 0b001))
        (if a.toNat ≥ b.toNat then s.ip + (disp ++ 0#2).signExtend 32 else s.ip + 4)) ∧
    (encode (.cmpobge s1 s2 disp)).map opcode8 = [0x33] ∧
    (∃ t, exec (.cmpobl s1 s2 disp) s = .next t ∧ Effect s t []
        (withCc s.ac (if a.toNat < b.toNat then 0b100 else if a.toNat = b.toNat then 0b010
          else 0b001))
        (if a.toNat < b.toNat then s.ip + (disp ++ 0#2).signExtend 32 else s.ip + 4)) ∧
    (encode (.cmpobl s1 s2 disp)).map opcode8 = [0x34] ∧
    (∃ t, exec (.cmpobne s1 s2 disp) s = .next t ∧ Effect s t []
        (withCc s.ac (if a.toNat < b.toNat then 0b100 else if a.toNat = b.toNat then 0b010
          else 0b001))
        (if a ≠ b then s.ip + (disp ++ 0#2).signExtend 32 else s.ip + 4)) ∧
    (encode (.cmpobne s1 s2 disp)).map opcode8 = [0x35] ∧
    (∃ t, exec (.cmpoble s1 s2 disp) s = .next t ∧ Effect s t []
        (withCc s.ac (if a.toNat < b.toNat then 0b100 else if a.toNat = b.toNat then 0b010
          else 0b001))
        (if a.toNat ≤ b.toNat then s.ip + (disp ++ 0#2).signExtend 32 else s.ip + 4)) ∧
    (encode (.cmpoble s1 s2 disp)).map opcode8 = [0x36]

/-- A push spills when the cache would hold eight sets, or, for code that is not interrupted at
priority 28 or more, more than 7 minus the programmed limit. call and callx complete in both cases
(software not having moved FP while frames are cached): the new frame starts at SP rounded up to 16,
SP is 64 above it, PFP holds the caller's FP with return type 000, the caller's set is cached with
the address of the next instruction in r2, IP is the target; AC, the mode and the other globals are
unchanged. Without a spill memory is unchanged; with one (its 64 bytes storable, no other agent due
inside) the oldest set leaves the cache, its registers lie at its frame address, every other byte is
unchanged. That the low four bits of FP are masked in the frame address is ruling D18 (log 30).
(R534, R535, R537, R538, R540, R541, R542, R547) -/
def Obligations.CallResults : Prop :=
  ∀ (s : State) (disp : BitVec 22) (m : MemOp) (e : Frame),
    let spills (pc : Word) : Prop := s.rc.length + 1 = 8 ∨
      (¬ (pc.getLsbD 13 = true ∧ 28 ≤ pc.toNat / 2 ^ 16 % 32) ∧
        8 - s.rcLimit.toNat ≤ s.rc.length + 1)
    let all (ret : Word) : List Frame := { addr := s.fp &&& 0xFFFFFFF0, regs := s.r.set 2 ret } :: s.rc
    let storable : Prop := s.undisturbed ∧ s.mayStore e.addr 16 ∧ s.mayStore (e.addr + 16) 16 ∧
      s.mayStore (e.addr + 32) 16 ∧ s.mayStore (e.addr + 48) 16
    (∀ pc, s.canPush pc ↔ ((s.rc = [] ∨ s.fp = s.frameAddr) ∧ ¬ spills pc)) ∧
    (s.te = false → (s.rc = [] ∨ s.fp = s.frameAddr) →
      (¬ spills s.pc →
        (∃ t, exec (.call disp) s = .next t ∧ CallEffect s t (s.ip + (disp ++ 0#2).signExtend 32)
          ((s.sp + 15) &&& 0xFFFFFFF0)
          (s.ip + 4) 0 (s.pc &&& pcMask)) ∧
        (∃ t, exec (.callx m) s = .next t ∧ CallEffect s t (s.efa m) ((s.sp + 15) &&& 0xFFFFFFF0)
          (s.ip + m.len) 0 (s.pc &&& pcMask))) ∧
      (spills s.pc → storable →
        ((all (s.ip + 4)).getLast? = some e → ∃ t, exec (.call disp) s = .next t ∧
          SpillingCallEffect s t e (s.ip + (disp ++ 0#2).signExtend 32) ((s.sp + 15) &&&
            0xFFFFFFF0) (s.ip + 4) 0
            (s.pc &&& pcMask)) ∧
        ((all (s.ip + m.len)).getLast? = some e → ∃ t, exec (.callx m) s = .next t ∧
          SpillingCallEffect s t e (s.efa m) ((s.sp + 15) &&&
            0xFFFFFFF0) (s.ip + m.len) 0 (s.pc &&& pcMask))))

/-- calls with a procedure number n up to 259 and the table entry e in memory completes: for an
entry of type 00, or in supervisor mode, as a local call to the entry's address; in user mode with
an entry of type 10 as a supervisor call: frame on the supervisor stack, return type 010, or 011
where tracing was on, PC.em set, PC.te the table's trace bit. Where a push spills (its 64 bytes
storable in the mode that the call enters), the oldest set also goes to its frame. Where PC.te is 1
after the call, stated with no trace mode on and no breakpoint armed. A number above 259 raises
PROTECTION.LENGTH in the state as it was. That the low four bits of FP are masked in the frame
address is ruling D18 (log 30). (R539, R534, R541, R551, R552, R737) -/
def Obligations.SystemCallResults : Prop :=
  ∀ (s : State) (x : Src) (n e : Word) (f : Frame), s.src x 30 = some n →
    let quiet : Prop := s.tc &&& 0xFE = 0 ∧ s.dbg.ipb0 = 0 ∧ s.dbg.ipb1 = 0 ∧ s.dbg.bpcon = 0
    let oldest : Prop := (({ addr := s.fp &&& 0xFFFFFFF0, regs := s.r.set 2 (s.ip + 4) } : Frame) ::
      s.rc).getLast? = some f
    let storable (pc : Word) : Prop := (s.setPc pc).mayStore f.addr 16 ∧
      (s.setPc pc).mayStore (f.addr + 16) 16 ∧ (s.setPc pc).mayStore (f.addr + 32) 16 ∧
      (s.setPc pc).mayStore (f.addr + 48) 16
    let pc : Word := if s.supervisor = true ∨ e &&& 3 = 0 then s.pc
      else setBit (setBit s.pc 1 true) 0 s.sspTe
    let base : Word := if s.supervisor = true ∨ e &&& 3 = 0 then s.sp else s.ssp
    let low : Word := if s.supervisor = true ∨ e &&& 3 = 0 then 0 else if s.te = true then 3 else 2
    (259 < n.toNat → exec (.calls x) s = raise .length .none (s.ip + 4) s) ∧
    (n.toNat ≤ 259 → s.undisturbed → s.holds (s.sptBase + 48 + 4 * n) e →
      (e &&& 3 = 0 ∨ e &&& 3 = 2 ∨ s.supervisor = true) → (bit pc 0 = false ∨ quiet) →
      (s.canPush pc → ∃ t, exec (.calls x) s = .next t ∧
        CallEffect s t (e &&& 0xFFFFFFFC) ((base + 15) &&& 0xFFFFFFF0) (s.ip + 4) low
          (pc &&& pcMask)) ∧
      ((s.rc = [] ∨ s.fp = s.frameAddr) → ¬ s.canPush pc → oldest → storable pc →
        ∃ t, exec (.calls x) s = .next t ∧
          SpillingCallEffect s t f (e &&& 0xFFFFFFFC) ((base + 15) &&& 0xFFFFFFF0) (s.ip + 4) low
            (pc &&& pcMask)))

/-- ret with return type 000 completes: to the newest cached frame, or, with none cached, to the
frame whose 16 registers lie in memory at PFP: FP, the local registers and IP are the caller's, AC,
PC, the other globals and memory unchanged. With return type 01t in supervisor mode it also goes
back to user mode with PC.te = t (for t = 1 stated with no trace mode on and no breakpoint armed);
in user mode it is a local return, PC unchanged. (R543, R560, R561, R563, R566) -/
def Obligations.ReturnResults : Prop :=
  ∀ (s : State) (e : Frame) (older : List Frame) (ws : List Word), s.te = false →
    (s.returnsTo e older → s.pfp &&& 7 = 0 →
      ∃ t, exec .ret s = .next t ∧ ReturnEffect s t e.addr e.regs older s.ac s.pc s.intc.blockNmi) ∧
    (∀ (h : ws.length = 16) (key : Nat), s.rc = [] → s.pfpDirty = false → s.pfp &&& 7 = 0 →
      s.undisturbed →
      s.plain (s.pfp &&& 0xFFFFFFF0) 64 key →
      s.bytesAt (s.pfp &&& 0xFFFFFFF0) (ws.flatMap wordBytes) →
      ∃ t, exec .ret s = .next t ∧
        ReturnEffect s t (s.pfp &&& 0xFFFFFFF0) ⟨ws.toArray, by simpa using h⟩ [] s.ac s.pc
          s.intc.blockNmi) ∧
    (s.returnsTo e older → s.pfp &&& 7 = 2 → s.supervisor = true →
      ∃ t, exec .ret s = .next t ∧ ReturnEffect s t e.addr e.regs older s.ac
        (setBit (setBit s.pc 1 false) 0 false &&& pcMask) s.intc.blockNmi) ∧
    (s.returnsTo e older → s.pfp &&& 7 = 3 → s.supervisor = true → s.tc &&& 0xFE = 0 →
      s.dbg.ipb0 = 0 → s.dbg.ipb1 = 0 → s.dbg.bpcon = 0 →
      ∃ t, exec .ret s = .next t ∧ ReturnEffect s t e.addr e.regs older s.ac
        (setBit (setBit s.pc 1 false) 0 true &&& pcMask) s.intc.blockNmi) ∧
    (s.returnsTo e older → (s.pfp &&& 7 = 2 ∨ s.pfp &&& 7 = 3) → s.supervisor = false →
      ∃ t, exec .ret s = .next t ∧
        ReturnEffect s t e.addr e.regs older s.ac (s.pc &&& pcMask) s.intc.blockNmi)

/-- From a state that satisfies the invariant, with tracing off, FP on a 16-byte boundary and room
in the register cache: call, and then ret in the frame it made, give back the caller's local
registers (r2 but for the return IP), all globals, AC, PC, the cached frames and every byte of
memory, and continue at the instruction after the call. (R534, R535, R537, R541, R543, R561, R566)
-/
def Obligations.CallThenReturnRestores : Prop :=
  ∀ (s t : State) (disp : BitVec 22), s.Legal → s.te = false → s.canPush s.pc → s.fp &&& 15 = 0 →
    exec (.call disp) s = .next t →
    ∃ u, exec .ret t = .next u ∧ u.ip = s.ip + 4 ∧ (∀ n : Reg, n ≠ 2 → u.reg n = s.reg n) ∧
      u.ac = s.ac ∧ u.pc = s.pc ∧ u.rc = s.rc ∧ u.mem = s.mem ∧ ∀ a, u.peek a = s.peek a

/-- flushreg completes where every cached frame's 64 bytes may be stored and no two overlap:
afterwards no frame is cached, the 16 registers of each lie at its frame address, every byte outside
these save areas, every register, AC and PC are as before. (R531, R541, R544, R549) -/
def Obligations.FlushRegisters : Prop :=
  ∀ s : State, s.te = false → s.undisturbed →
    (∀ e, e ∈ s.rc → s.mayStore e.addr 16 ∧ s.mayStore (e.addr + 16) 16 ∧
      s.mayStore (e.addr + 32) 16 ∧
      s.mayStore (e.addr + 48) 16) →
    s.rc.Pairwise (fun e f => ∀ i, i < 64 → outside e.addr 64 (f.addr + BitVec.ofNat 32 i)) →
    ∃ t, exec .flushreg s = .next t ∧ t.rc = [] ∧
      (∀ e, e ∈ s.rc → t.bytesAt e.addr (e.regs.toList.flatMap wordBytes)) ∧
      (∀ x, (∀ e, e ∈ s.rc → outside e.addr 64 x) → t.peek x = s.peek x) ∧
      t.ip = (s.ip + 4) &&& 0xFFFFFFFC ∧
      t = { s with rc := [], pfpDirty := false, dirtyFrames := [], mem := t.mem, stale := t.stale
                   ip := t.ip, fresh := t.fresh }

/-- faultno to faulto: when AC.cc meets the condition, CONSTRAINT.RANGE is raised in the state as it
was; else they complete and nothing but IP changes. (R591, R592, R593, R594, R595, R596, R597, R598)
-/
def Obligations.FaultByConditionCode : Prop :=
  ∀ s : State, (s.cc = 0 → exec .faultno s = raise .range .none (s.ip + 4) s) ∧
    (¬ (s.cc = 0) → s.te = false → exec .faultno s = .next s.nextInstr) ∧
    (encode .faultno).map opcode8 = [0x18] ∧
    (s.cc.getLsbD 0 = true → exec .faultg s = raise .range .none (s.ip + 4) s) ∧
    (¬ (s.cc.getLsbD 0 = true) → s.te = false → exec .faultg s = .next s.nextInstr) ∧
    (encode .faultg).map opcode8 = [0x19] ∧
    (s.cc.getLsbD 1 = true → exec .faulte s = raise .range .none (s.ip + 4) s) ∧
    (¬ (s.cc.getLsbD 1 = true) → s.te = false → exec .faulte s = .next s.nextInstr) ∧
    (encode .faulte).map opcode8 = [0x1A] ∧
    (s.cc.extractLsb' 0 2 ≠ 0 → exec .faultge s = raise .range .none (s.ip + 4) s) ∧
    (¬ (s.cc.extractLsb' 0 2 ≠ 0) → s.te = false → exec .faultge s = .next s.nextInstr) ∧
    (encode .faultge).map opcode8 = [0x1B] ∧
    (s.cc.getLsbD 2 = true → exec .faultl s = raise .range .none (s.ip + 4) s) ∧
    (¬ (s.cc.getLsbD 2 = true) → s.te = false → exec .faultl s = .next s.nextInstr) ∧
    (encode .faultl).map opcode8 = [0x1C] ∧
    ((s.cc.getLsbD 2 = true ∨ s.cc.getLsbD 0 = true) →
      exec .faultne s = raise .range .none (s.ip + 4) s) ∧
    (¬ ((s.cc.getLsbD 2 = true ∨ s.cc.getLsbD 0 = true)) → s.te = false →
      exec .faultne s = .next s.nextInstr) ∧
    (encode .faultne).map opcode8 = [0x1D] ∧
    (s.cc.extractLsb' 1 2 ≠ 0 → exec .faultle s = raise .range .none (s.ip + 4) s) ∧
    (¬ (s.cc.extractLsb' 1 2 ≠ 0) → s.te = false → exec .faultle s = .next s.nextInstr) ∧
    (encode .faultle).map opcode8 = [0x1E] ∧
    (s.cc ≠ 0 → exec .faulto s = raise .range .none (s.ip + 4) s) ∧
    (¬ (s.cc ≠ 0) → s.te = false → exec .faulto s = .next s.nextInstr) ∧
    (encode .faulto).map opcode8 = [0x1F]

/-- With tracing off syncf, mark and fmark complete and nothing but IP changes. With PC.te = 1,
every trace mode off and no breakpoint armed, syncf and mark do the same and fmark raises the trace
fault MARK with the next instruction as return IP; with mark mode on, mark raises it too. That syncf
waits for nothing, also with AC.nif = 0, is ruling D21 (R765, log 32): R603 says it for AC.nif = 1,
and for a model that raises every fault at its instruction. (R603, R604, R605, R892, R885, R765) -/
def Obligations.SyncAndMarks : Prop :=
  ∀ s : State,
    (s.te = false → exec .syncf s = .next s.nextInstr ∧ exec .mark s = .next s.nextInstr ∧
      exec .fmark s = .next s.nextInstr) ∧
    (s.te = true → s.dbg.ipb0 = 0 → s.dbg.ipb1 = 0 → s.dbg.bpcon = 0 →
      (s.tc &&& 0xFE = 0 → exec .syncf s = .next s.nextInstr ∧ exec .mark s = .next s.nextInstr ∧
        exec .fmark s = traceFault 0x80 0 (some s.ip) (some ((s.ip + 4) &&&
          0xFFFFFFFC)) none s.nextInstr) ∧
      (s.tc &&& 0xFE = 0x80 → exec .mark s =
        traceFault 0x80 0 (some s.ip) (some ((s.ip + 4) &&& 0xFFFFFFFC)) none s.nextInstr))

/-- modtc in a state whose TC has no reserved bit set completes: a mode bit (7:1) takes the value of
src where mask is 1; an event flag (27:24) can only be cleared, where mask is 1 and src 0; every
other bit is unchanged; the destination holds the old TC; nothing else changes. (R606, R68) -/
def Obligations.ModifyTraceControls : Prop :=
  ∀ (s : State) (s1 s2 : Src) (d : SrcDst) (a b : Word) (r : Reg), s.te = false →
    s.src s1 30 = some a → s.src s2 31 = some b → dest d = some r → s.tc &&& ~~~0x0F0000FE = 0 →
    ∃ new : Word, (∀ i, i < 32 → new.getLsbD i =
        if 1 ≤ i ∧ i ≤ 7 then (if a.getLsbD i = true then b.getLsbD i else s.tc.getLsbD i)
        else if 24 ≤ i ∧ i ≤ 27 then
          s.tc.getLsbD i && (!a.getLsbD i || b.getLsbD i)
        else s.tc.getLsbD i) ∧
      exec (.modtc s1 s2 d) s = .next (({ s with tc := new }.setReg r s.tc).nextInstr)

/-- atadd and atmod complete where the core has the bus, memory answers the word at the address with
bits 1:0 made 0 and it may be stored: the word becomes the sum with src, or takes the bits of
src/dst where mask is 1; the destination holds the old word; every other byte, register and flag is
as before. (R609, R610, R611) -/
def Obligations.AtomicResults : Prop :=
  ∀ (s : State) (s1 s2 : Src) (d : SrcDst) (a b w : Word) (r : Reg), s.te = false →
    s.src s1 30 = some a → s.src s2 31 = some b → dest d = some r →
    s.coreGranted = true → s.holds (a &&& 0xFFFFFFFC) w → s.mayStore (a &&& 0xFFFFFFFC) 4 →
    (∃ t, exec (.atadd s1 s2 d) s = .next t ∧ t.bytesAt (a &&& 0xFFFFFFFC) (wordBytes (w + b)) ∧
      (∀ x, outside (a &&& 0xFFFFFFFC) 4 x → t.peek x = s.peek x) ∧ t.reg r = w ∧
      (∀ n, n ≠ r → t.reg n = s.reg n) ∧ t.ip = (s.ip + 4) &&& 0xFFFFFFFC ∧
      t = { s with g := t.g, r := t.r, pfpDirty := t.pfpDirty, mem := t.mem, stale := t.stale, ip := t.ip, fresh := t.fresh }) ∧
    (∃ t, exec (.atmod s1 s2 d) s = .next t ∧
      t.bytesAt (a &&& 0xFFFFFFFC) (wordBytes ((w &&& ~~~b) ||| (s.reg r &&& b))) ∧
      (∀ x, outside (a &&& 0xFFFFFFFC) 4 x → t.peek x = s.peek x) ∧ t.reg r = w ∧
      (∀ n, n ≠ r → t.reg n = s.reg n) ∧ t.ip = (s.ip + 4) &&& 0xFFFFFFFC ∧
      t = { s with g := t.g, r := t.r, pfpDirty := t.pfpDirty, mem := t.mem, stale := t.stale, ip := t.ip, fresh := t.fresh })

/-- modac completes in any mode: AC takes the bits of src where mask is 1 (reserved bits are not
stored), the destination the old AC. modpc with mask 0 completes in any mode and only reads PC; with
another mask, in supervisor mode, PC takes the bits of src/dst where mask is 1 (reserved bits not
stored), the destination the old PC (stated where the new PC.te is 0). Nothing else changes. That
reserved bits of AC and PC are not stored is ruling D22 (log 32). (R621, R622, R57, R62) -/
def Obligations.ModifyControls : Prop :=
  ∀ (s : State) (s1 s2 : Src) (d : SrcDst) (a b : Word) (r : Reg), s.te = false →
    s.src s2 31 = some b → dest d = some r →
    (s.src s1 30 = some a → exec (.modac s1 s2 d) s =
      .next (({ s with ac := ((b &&& a) ||| (s.ac &&& ~~~a)) &&& 0x00009107 }.setReg r s.ac).nextInstr)) ∧
    (b = 0 → exec (.modpc s1 s2 d) s = .next ((s.setReg r s.pc).nextInstr)) ∧
    (b ≠ 0 → s.supervisor = true → bit ((s.reg r &&& b) ||| (s.pc &&& ~~~b)) 0 = false →
      exec (.modpc s1 s2 d) s =
        .next (({ s with pc := ((s.reg r &&& b) ||| (s.pc &&& ~~~b)) &&& 0x001F2403 }.setReg r
          s.pc).nextInstr))

/-- In supervisor mode: intdis sets ICON.gie (interrupts off), inten clears it. intctl with src1 0,
1 or 2 sets it, clears it or leaves it, and the destination holds 1 when interrupts were enabled
before, else 0. halt with src1 0, 1 or 2 does the same to ICON.gie and halts. A src1 above 2 raises
OPERATION.INVALID_OPERAND. Nothing else changes. (R625, R626, R627, R628, R690) -/
def Obligations.InterruptEnables : Prop :=
  ∀ (s : State) (x : Src) (d : SrcDst) (a : Word) (r : Reg), s.supervisor = true →
    s.src x 30 = some a →
    let set (v : Bool) : State := { s with intc := { s.intc with icon := setBit s.intc.icon 10 v } }
    let change : State := if a = 0 then set true else if a = 1 then set false else s
    (s.te = false → exec .intdis s = .next (set true).nextInstr ∧
      exec .inten s = .next (set false).nextInstr) ∧
    (s.te = false → a.toNat ≤ 2 → dest d = some r → exec (.intctl x d) s =
      .next ((change.setReg r (if bit s.intc.icon 10 = true then 0 else 1)).nextInstr)) ∧
    (s.te = false → a.toNat ≤ 2 → exec (.halt x) s =
      .next ({ change with halted := true }.nextInstr)) ∧
    (2 < a.toNat → exec (.halt x) s = raise .invalidOperand .none (s.ip + 4) s ∧
      (dest d = some r → exec (.intctl x d) s = raise .invalidOperand .none (s.ip + 4) s))

/-- In supervisor mode, by the low byte of src1: icctl 0 and 1 disable and enable the instruction
cache, 2 invalidates and unlocks it (fetches see memory), 4 and 5 give its status words; dcctl 0 and
1 disable and enable the data cache, 2 and 3 have no further effect, 4 gives its status word; icctl
7 raises OPERATION.INVALID_OPERAND. Nothing else changes. The status words report the real geometry
by ruling D23 (log 34); that invalidating leaves a fetch only the word in memory is D10 (log 23). R650
has dcctl 2 and 3 invalidate the data cache, or make it coherent: that this has no further effect is
the model's choice, which keeps the data cache as its enable bit only (D9, log 22). Left out: icctl 3
(load and lock), 6 (store sets) and above 7, dcctl 5 to 8 and above. (R152, R155, R193, R194, R640,
R641, R650, R651) -/
def Obligations.CacheControls : Prop :=
  ∀ (s : State) (s1 s2 : Src) (d : SrcDst) (a : Word) (r : Reg), s.te = false →
    s.supervisor = true → s.src s1 30 = some a → dest d = some r →
    (a.toNat % 256 = 0 → exec (.icctl s1 s2 d) s = .next ({ s with icEnabled := false }.nextInstr) ∧
      exec (.dcctl s1 s2 d) s = .next ({ s with dcEnabled := false }.nextInstr)) ∧
    (a.toNat % 256 = 1 → exec (.icctl s1 s2 d) s = .next ({ s with icEnabled := true }.nextInstr) ∧
      exec (.dcctl s1 s2 d) s = .next ({ s with dcEnabled := true }.nextInstr)) ∧
    (a.toNat % 256 = 2 →
      exec (.icctl s1 s2 d) s = .next ({ s with stale := [], icLocked := 0 }.nextInstr) ∧
      exec (.dcctl s1 s2 d) s = .next s.nextInstr) ∧
    (a.toNat % 256 = 3 → exec (.dcctl s1 s2 d) s = .next s.nextInstr) ∧
    (a.toNat % 256 = 4 →
      exec (.icctl s1 s2 d) s =
        .next ((s.setReg r (0x00019220 + (if s.icEnabled = true then 1 else 0))).nextInstr) ∧
      exec (.dcctl s1 s2 d) s =
        .next ((s.setReg r (0x00008220 + (if s.dcEnabled = true then 1 else 0))).nextInstr)) ∧
    (a.toNat % 256 = 5 → exec (.icctl s1 s2 d) s =
      .next ((s.setReg r (BitVec.ofNat 32 (s.icLocked.toNat * 2 ^ 24 + 0x00080001))).nextInstr)) ∧
    (a.toNat % 256 = 7 → exec (.icctl s1 s2 d) s = raise .invalidOperand .none (s.ip + 4) s)

/-- In supervisor mode, by src1 bits 15:8: message 01H invalidates and unlocks the instruction
cache; 02H with mode bit 0 set disables it, with mode 0 enables it, with 4 or 6 invalidates it and
locks one block (enabling it: the model's choice, log 83), with another mode raises
OPERATION.INVALID_OPERAND; 06H gives 22H and grants breakpoint rights when no emulator holds them
(each time: ruling D30, log 42); 05H with mask 0 reads ICON; 00H with a conventional vector v, the
table in memory, sets its pending byte bit and priority bit, with vector 0 to 7 posts nothing, and
in both the software priority becomes the highest pending; 04H raises OPERATION.INVALID_OPERAND.
Nothing else changes. That invalidating leaves a fetch only the word in memory is D10 (log 23). 03H
is stated with initialization. (R655, R656, R657, R660, R662, R663, R814) -/
def Obligations.SystemControlMessages : Prop :=
  ∀ (s : State) (s1 s2 : Src) (d : SrcDst) (a b : Word) (r : Reg), s.te = false →
    s.supervisor = true → s.src s1 30 = some a → s.src s2 31 = some b → dest d = some r →
    (a.toNat / 256 % 256 = 1 →
      exec (.sysctl s1 s2 d) s = .next ({ s with stale := [], icLocked := 0 }.nextInstr)) ∧
    (a.toNat / 256 % 256 = 2 →
      (a.toNat % 2 = 1 → exec (.sysctl s1 s2 d) s =
        .next ({ s with icEnabled := false }.nextInstr)) ∧
      (a.toNat % 256 = 0 → exec (.sysctl s1 s2 d) s =
        .next ({ s with icEnabled := true }.nextInstr)) ∧
      (a.toNat % 256 = 4 ∨ a.toNat % 256 = 6 → exec (.sysctl s1 s2 d) s =
        .next ({ s with icEnabled := true, stale := [], icLocked := 1 }.nextInstr)) ∧
      (a.toNat % 2 = 0 → a.toNat % 256 ≠ 0 → a.toNat % 256 ≠ 4 → a.toNat % 256 ≠ 6 →
        exec (.sysctl s1 s2 d) s = raise .invalidOperand .none (s.ip + 4) s)) ∧
    (a.toNat / 256 % 256 = 6 → s.board.emulator = false → exec (.sysctl s1 s2 d) s =
      .next (({ s with dbg := { s.dbg with rights := true } }.setReg r 0x22).nextInstr)) ∧
    (a.toNat / 256 % 256 = 5 → a.toNat / 65536 = 0x8510 → s.reg r = 0 →
      exec (.sysctl s1 s2 d) s = .next ((s.setReg r s.intc.icon).nextInstr)) ∧
    (a.toNat / 256 % 256 = 4 →
      exec (.sysctl s1 s2 d) s = raise .invalidOperand .none (s.ip + 4) s) ∧
    (∀ (v : Nat) (w : Word) (z : Byte) (key : Nat), a.toNat / 256 % 256 = 0 → v = a.toNat % 256 →
      8 ≤ v → (v ≤ 243 ∨ 252 ≤ v) → s.alone s.intBase 4 → s.plainW s.intBase 36 key →
        s.storeTrap s.intBase 4 = none →
      s.storeTrap (s.intBase + 4 + BitVec.ofNat 32 (v / 8)) 1 = none →
        s.bytesAt s.intBase (wordBytes w) →
      s.peek (s.intBase + 4 + BitVec.ofNat 32 (v / 8)) = some z →
      ∃ t w', exec (.sysctl s1 s2 d) s = .next t ∧
        (∀ i, i < 32 → w'.getLsbD i = (w.getLsbD i || decide (i = v / 8))) ∧
        t.bytesAt s.intBase (wordBytes w') ∧
        t.peek (s.intBase + 4 + BitVec.ofNat 32 (v / 8)) =
          some (z ||| BitVec.ofNat 8 (2 ^ (v % 8))) ∧
        (∀ x, outside s.intBase 4 x → x ≠ s.intBase + 4 + BitVec.ofNat 32 (v / 8) →
          t.peek x = s.peek x) ∧
        w'.getLsbD t.intc.swPrio.toNat = true ∧
        (∀ i, t.intc.swPrio.toNat < i → i < 32 → w'.getLsbD i = false) ∧
        t.ip = (s.ip + 4) &&& 0xFFFFFFFC ∧
        t = { s with mem := t.mem, stale := t.stale, ip := t.ip, fresh := t.fresh
                     intc := { s.intc with swPrio := t.intc.swPrio } }) ∧
    (∀ (w : Word) (key : Nat), a.toNat / 256 % 256 = 0 → a.toNat % 256 < 8 → s.alone s.intBase 4 →
      s.plainW s.intBase 4 key → s.storeTrap s.intBase 4 = none →
        s.bytesAt s.intBase (wordBytes w) →
      ∃ t, exec (.sysctl s1 s2 d) s = .next t ∧ (∀ x, t.peek x = s.peek x) ∧
        (w = 0 → t.intc.swPrio = 0) ∧ (w ≠ 0 → w.getLsbD t.intc.swPrio.toNat = true) ∧
        (∀ i, t.intc.swPrio.toNat < i → i < 32 → w.getLsbD i = false) ∧
        t.ip = (s.ip + 4) &&& 0xFFFFFFFC ∧
        t = { s with mem := t.mem, stale := t.stale, ip := t.ip, fresh := t.fresh
                     intc := { s.intc with swPrio := t.intc.swPrio } })

/-- In user mode modpc with a mask not 0, sysctl, icctl, dcctl, intctl, intdis, inten and halt, with
operands that may be read and a destination that may be written, raise TYPE.MISMATCH in the state as
it was. (R97, R620, R621, R701) -/
def Obligations.PrivilegedInstructions : Prop :=
  ∀ (s : State) (s1 s2 : Src) (d : SrcDst) (a b : Word) (r : Reg), s.supervisor = false →
    s.src s1 30 = some a → s.src s2 31 = some b → dest d = some r →
    (b ≠ 0 → exec (.modpc s1 s2 d) s = raise .mismatch .none (s.ip + 4) s) ∧
    exec (.sysctl s1 s2 d) s = raise .mismatch .none (s.ip + 4) s ∧
    exec (.icctl s1 s2 d) s = raise .mismatch .none (s.ip + 4) s ∧
    exec (.dcctl s1 s2 d) s = raise .mismatch .none (s.ip + 4) s ∧
    exec (.intctl s1 d) s = raise .mismatch .none (s.ip + 4) s ∧
    exec .intdis s = raise .mismatch .none (s.ip + 4) s ∧
    exec .inten s = raise .mismatch .none (s.ip + 4) s ∧
    exec (.halt s1) s = raise .mismatch .none (s.ip + 4) s

/-- Every instruction with a reserved operand form, a misaligned register group or r2 as destination
raises OPERATION.INVALID_OPERAND in the state as it was. For stl, stt and stq this holds once the
protection check has passed; sysctl, icctl and dcctl check the operands their function uses, of
which the first is stated here. That r2 as a destination, misaligned groups and reserved operand
forms raise this fault and change nothing, and in which order checks are made, are rulings D2, D3,
D12 and D15 (logs 14, 16, 27, 28). (R46, R49, R225, R263, R281, R297) -/
def Obligations.IllFormedOperandsFault : Prop :=
  (∀ (s : State) (i : Instr), operandsFirst i = true → i.wellFormed = false →
      exec i s = raise .invalidOperand .none (s.ip + BitVec.ofNat 32 (4 * (encode i).length)) s) ∧
    (∀ (s : State) (x : Reg) (m : MemOp),
      (aligned x 2 = false → s.storeTrap (s.efa m) 8 = none →
        exec (.stl x m) s = raise .invalidOperand .none (s.ip + m.len) s) ∧
      (aligned x 3 = false → s.storeTrap (s.efa m) 12 = none →
        exec (.stt x m) s = raise .invalidOperand .none (s.ip + m.len) s) ∧
      (aligned x 4 = false → s.storeTrap (s.efa m) 16 = none →
        exec (.stq x m) s = raise .invalidOperand .none (s.ip + m.len) s)) ∧
    ∀ (s : State) (s1 s2 : Src) (d : SrcDst), s1.ok = false →
      exec (.sysctl s1 s2 d) s = raise .invalidOperand .none (s.ip + 4) s ∧
      exec (.icctl s1 s2 d) s = raise .invalidOperand .none (s.ip + 4) s ∧
      exec (.dcctl s1 s2 d) s = raise .invalidOperand .none (s.ip + 4) s

/-- Any trap, tracing off, whose fault table entry is in memory and local, with room in the register
cache, a record area that may be written and no other agent due inside: execution goes to the
handler in a new frame at ((SP + 15) & ~15) + 80 with return type 001; the faulting frame is cached
with the return IP in r2 (the next instruction for ARITHMETIC faults, the instruction itself for
PROTECTION.LENGTH); the record holds the fault IP, type and subtype, AC and PC, and for
OPERATION.UNALIGNED the effective address at NFP - 24; mode, stack, AC and everything else are
unchanged. That the flags byte of the type word is 0 is ruling D27 (log 38), that the low four bits
of FP are masked in the frame address D18 (log 30). (R711, R712, R713, R715, R716, R717, R718, R733,
R735) -/
def Obligations.FaultThroughLocalHandler : Prop :=
  ∀ (s : State) (trap : Trap) (ev : Events) (next e : Word), s.te = false → s.undisturbed →
    s.holds (s.faultBase + BitVec.ofNat 32 (8 * trap.code.1)) e → e &&& 3 = 0 →
    s.canPush s.pc → s.mayRecord (((s.sp + 15) &&& 0xFFFFFFF0) + 80) 64 →
    ∃ t, raise trap ev next s = .next t ∧
      FaultEntry s t trap.code s.ip
        (match trap with
          | .overflow | .zeroDivide => some next
          | .length => some s.ip
          | _ => none)
        (match trap with
          | .unaligned a => some a
          | _ => none)
        e (((s.sp + 15) &&& 0xFFFFFFF0) + 80) (s.pc &&& pcMask)

/-- Any trap, tracing off, whose fault table entry names a system procedure n up to 259 (both in
memory), with room in the register cache, a record area that may be written in the handler's mode
and no other agent due inside. A procedure of supervisor type: the mode becomes supervisor, PC.te
the table's trace bit (where that is 1, stated with no trace mode on and no breakpoint armed), and
the frame and record are made on the supervisor stack where the fault came from user mode, else on
the current one. A procedure of local type: mode, PC and stack are kept. In both, execution goes to
the procedure; an unaligned access leaves its effective address at NFP - 24. That the flags byte of
the type word is 0 and the second word of the table entry is not looked at is ruling D27 (log 38),
that the low four bits of FP are masked in the frame address D18 (log 30). (R717, R719, R720, R715,
R713, R735, R63) -/
def Obligations.FaultThroughSupervisorHandler : Prop :=
  ∀ (s : State) (trap : Trap) (ev : Events) (next e p : Word), s.te = false → s.undisturbed →
    s.holds (s.faultBase + BitVec.ofNat 32 (8 * trap.code.1)) e → e &&& 3 = 2 → e.toNat / 4 ≤ 259 →
    s.holds (s.sptBase + 48 + BitVec.ofNat 32 (4 * (e.toNat / 4))) p → (p &&& 3 = 0 ∨ p &&& 3 = 2) →
    let pc : Word := if p &&& 3 = 2 then setBit (setBit s.pc 1 true) 0 s.sspTe else s.pc
    let nsp : Word := if p &&& 3 = 2 ∧ s.supervisor = false then s.ssp else s.sp
    (bit pc 0 = false ∨
      s.tc &&& 0xFE = 0 ∧ s.dbg.ipb0 = 0 ∧ s.dbg.ipb1 = 0 ∧ s.dbg.bpcon = 0) →
    s.canPush (pc &&& pcMask) → (s.setPc pc).mayRecord (((nsp + 15) &&& 0xFFFFFFF0) + 80) 64 →
    ∃ t, raise trap ev next s = .next t ∧
      FaultEntry s t trap.code s.ip
        (match trap with
          | .overflow | .zeroDivide => some next
          | .length => some s.ip
          | _ => none)
        (match trap with
          | .unaligned a => some a
          | _ => none)
        (p &&& 0xFFFFFFFC) (((nsp + 15) &&& 0xFFFFFFF0) + 80) (pc &&& pcMask)

/-- With PC.te = 1 after the instruction, no breakpoint armed and one trace mode on, an instruction
completes and raises the trace fault of its events, itself the fault IP, its successor the return
IP. Instruction mode: addo. Branch mode: b, bx, and be where taken. Call mode: bal, balx, call and
callx, r0 bit 3 set in the current or new frame. Return mode: ret with return type 000. Call and
supervisor mode: calls from user mode to a procedure of supervisor type. Return and supervisor mode:
ret with return type 011 in supervisor mode. With no mode on addo, and with branch mode be where not
taken, complete with no fault. In prereturn mode a ret in a frame with r0 bit 3 set raises the
prereturn fault before it does anything but clear that bit, itself the return IP. A trace fault of
any subtype bits and event flags, whose fault table entry 1 names a system procedure of supervisor
type (both in memory), from a legal state with room in the cache and a writable record area: the
event flags are set in TC, the record holds the fault IP, type 1 with the subtype bits, AC and PC
without its pending-trace bit, r2 of the traced frame holds the return IP, and the handler runs in
supervisor mode with PC.te = 0. Rulings: the flags byte is 0, the entry's second word not looked at
(D27, log 38); the low four bits of FP are masked in the frame address (D18, log 30). That RETURN or
CALL is reported together with SUPERVISOR is ruling D31 (log 43): R893 lets the processor report
fewer of the events. (R715, R717, R720, R741, R885, R886, R887, R888, R889, R890, R891, R897) -/
def Obligations.TraceFaultEntry : Prop :=
  (∀ (s : State) (s1 s2 : Src) (d : SrcDst) (a b : Word) (r : Reg), s.te = true →
    s.src s1 30 = some a → s.src s2 31 = some b → dest d = some r →
    s.dbg.ipb0 = 0 → s.dbg.ipb1 = 0 → s.dbg.bpcon = 0 →
    (s.tc &&& 0xFE = 2 → exec (.addo s1 s2 d) s =
      traceFault 2 0 (some s.ip) (some ((s.ip + 4) &&&
        0xFFFFFFFC)) none (s.setReg r (b + a)).nextInstr) ∧
    (s.tc &&& 0xFE = 0 → ∃ t, exec (.addo s1 s2 d) s = .next t ∧
      Effect s t [(r, b + a)] s.ac (s.ip + 4))) ∧
  (∀ (s : State) (disp : BitVec 22) (m : MemOp) (d : Reg), s.te = true →
    s.dbg.ipb0 = 0 → s.dbg.ipb1 = 0 → s.dbg.bpcon = 0 →
    let target : Word := s.ip + (disp ++ 0#2).signExtend 32
    let traced (bits dst : Word) (u : State) : Res :=
      traceFault bits 0 (some s.ip) (some (dst &&& 0xFFFFFFFC)) none (u.setIp dst).bump
    let linked (u : State) : State := { u with r := u.r.set 0 (setBit u.pfp 3 true) }
    (s.tc &&& 0xFE = 4 →
      exec (.b disp) s = traced 4 target s ∧ exec (.bx m) s = traced 4 (s.efa m) s ∧
      exec (.be disp) s =
        (if s.cc.getLsbD 1 = true then traced 4 target s else .next s.nextInstr)) ∧
    (s.tc &&& 0xFE = 8 →
      exec (.bal disp) s = traced 8 target (linked (s.setReg 30 (s.ip + 4))) ∧
      (d ≠ 2 → exec (.balx m d) s = traced 8 (s.efa m) (linked (s.setReg d (s.ip + m.len)))) ∧
      (s.canPush s.pc →
        (∃ u, exec (.call disp) s =
            traceFault 8 0 (some s.ip) (some (target &&& 0xFFFFFFFC)) none u ∧
          CallEffect s u target ((s.sp + 15) &&& 0xFFFFFFF0) (s.ip + 4) 8 (s.pc &&& pcMask)) ∧
        ∃ u, exec (.callx m) s =
            traceFault 8 0 (some s.ip) (some (s.efa m &&& 0xFFFFFFFC)) none u ∧
          CallEffect s u (s.efa m) ((s.sp + 15) &&& 0xFFFFFFF0) (s.ip + m.len) 8
            (s.pc &&& pcMask)))) ∧
  (∀ (s : State) (x : Src) (n entry : Word) (e : Frame) (older : List Frame),
    (s.dbg.ipb0 = 0 → s.dbg.ipb1 = 0 → s.dbg.bpcon = 0 →
      (s.te = true → s.tc &&& 0xFE = 0x10 → s.returnsTo e older → s.pfp &&& 7 = 0 →
        ∃ u, exec .ret s = traceFault 0x10 0 (some s.ip) (some u.ip) none u ∧
          ReturnEffect s u e.addr e.regs older s.ac s.pc s.intc.blockNmi) ∧
      (s.supervisor = true → s.tc &&& 0xFE = 0x50 → s.returnsTo e older → s.pfp &&& 7 = 3 →
        ∃ u, exec .ret s = traceFault 0x50 0 (some s.ip) (some u.ip) none u ∧
          ReturnEffect s u e.addr e.regs older s.ac
            (setBit (setBit s.pc 1 false) 0 true &&& pcMask) s.intc.blockNmi) ∧
      (s.supervisor = false → s.sspTe = true → s.tc &&& 0xFE = 0x48 → s.undisturbed →
        s.src x 30 = some n → n.toNat ≤ 259 → s.holds (s.sptBase + 48 + 4 * n) entry →
        entry &&& 3 = 2 → s.canPush (setBit (setBit s.pc 1 true) 0 true) →
        ∃ u, exec (.calls x) s = traceFault 0x48 0 (some s.ip) (some u.ip) none u ∧
          CallEffect s u (entry &&& 0xFFFFFFFC) ((s.ssp + 15) &&& 0xFFFFFFF0) (s.ip + 4)
            (if s.te = true then 11 else 10) (setBit (setBit s.pc 1 true) 0 true &&& pcMask))) ∧
    (s.te = true → s.tc.getLsbD 5 = true → s.pfp.getLsbD 3 = true →
      exec .ret s = traceFault 0x20 0 none (some s.ip) none
        { s with r := s.r.set 0 (setBit s.pfp 3 false), fresh := s.fresh + 1 })) ∧
  ∀ (s : State) (bits flags fip rip e p sp : Word), s.Legal → s.undisturbed →
    flags &&& ~~~0x0F000000 = 0 →
    s.holds (s.faultBase + 8) e → e &&& 3 = 2 → e.toNat / 4 ≤ 259 →
    s.holds (s.sptBase + 48 + BitVec.ofNat 32 (4 * (e.toNat / 4))) p → p &&& 3 = 2 →
    sp = (if s.supervisor = true then s.sp else s.ssp) →
    let pc := setBit (setBit (setBit s.pc 10 false) 1 true) 0 false
    s.canPush pc → (s.setPc (setBit s.pc 1 true)).mayRecord (((sp + 15) &&& 0xFFFFFFF0) + 80) 64 →
    ∃ t, traceFault bits flags (some fip) (some rip) none s = .next t ∧
      FaultEntry { s with tc := s.tc ||| flags } t (1, bits) fip (some rip) none (p &&& 0xFFFFFFFC)
        (((sp + 15) &&& 0xFFFFFFF0) + 80) pc

/-- NMI: pending and not blocked it is selected; with vector 248 from data RAM word 0 its delivery
blocks NMI. Hardware: with interrupts on and one unmasked source i pending whose IMAP field f gives
a priority 2f above PC.p and not below the software priority it is selected; its delivery fetches
entry 16f + 2 from the table, clears IPND[i] unless the input is still low, saves IMSK in r3 and
clears it when ICON.mo is 1. Software: above PC.p with no unmasked hardware source it is selected;
its delivery takes the highest posted vector out of the table, sets the software priority to the
next and fetches its entry. Each, with room in the cache and a record area apart from what is read,
goes to the entry in a new frame on the interrupt stack (the current one when PC.s = 1), PC, AC and
the vector number below it, supervisor mode, return type 111. The place of the vector number is
PRESUMED by R821 itself (log 52); that the low four bits of FP are masked in the frame address is
ruling D18 (log 30). (R811, R814, R821, R830, R832, R834, R835, R836, R837, R845, R851) -/
def Obligations.InterruptDelivery : Prop :=
  ∀ (s : State) (e base : Word), s.undisturbed →
    base = (if bit s.pc 13 = true then s.sp else s.isp) → bit e 0 = false →
    let rec0 := (base + 15) &&& 0xFFFFFFF0
    let off (vec : Nat) : Word := s.intBase + 4 + BitVec.ofNat 32 (4 * vec)
    (s.intc.nmiPending = true → s.intc.blockNmi = false →
      s.selectInterrupt = some .nmi ∧
      (s.holds 0 e → s.canPush 0x001F2002 → s.mayRecord (rec0 + 16) 16 →
        (∀ i, i < 4 → outside rec0 16 (BitVec.ofNat 32 i)) →
        ∃ t, takeInterrupt .nmi s = .next t ∧ InterruptEntry s t 248 (e &&&
          0xFFFFFFFC) (rec0 + 16) ∧
          t.intc = { s.intc with blockNmi := true, nmiPending := false })) ∧
    (∀ (i f : Nat), (i < 8 ∨ i = 12 ∨ i = 13) →
      f = (if i < 4 then s.intc.imap0.toNat / 2 ^ (4 * i) % 16
        else if i < 8 then s.intc.imap1.toNat / 2 ^ (4 * (i - 4)) % 16
        else s.intc.imap2.toNat / 2 ^ (4 * (i - 8)) % 16) → f ≠ 0 →
      (s.intc.nmiPending = false → s.intc.blockNmi = false → s.intc.icon.getLsbD 10 = false →
        s.intc.imsk &&& s.intc.ipnd = BitVec.ofNat 32 (2 ^ i) → s.intc.swPrio.toNat ≤ 2 * f →
        s.pc.toNat / 2 ^ 16 % 32 < 2 * f → s.selectInterrupt = some (.hardware i)) ∧
      (s.intc.icon.toNat / 2 ^ 11 % 4 < 2 → s.intc.icon.getLsbD 13 = false →
        s.holds (off (16 * f + 2)) e → s.canPush (0x00002002 ||| (BitVec.ofNat 32 (2 * f) <<< 16)) →
        s.mayRecord (rec0 + 16) 16 →
        (∀ j, j < 4 → outside rec0 16 (off (16 * f + 2) + BitVec.ofNat 32 j)) →
        ∃ t, takeInterrupt (.hardware i) s = .next t ∧
          InterruptEntry s t (16 * f + 2) (e &&& 0xFFFFFFFC) (rec0 + 16) ∧ t.r[3] = s.intc.imsk ∧
          t.intc = { s.intc with
            ipnd := (s.intc.ipnd &&& ~~~(BitVec.ofNat 32 (2 ^ i))) ||| s.inputs
            imsk := if s.intc.icon.toNat / 2 ^ 11 % 4 = 1 then 0 else s.intc.imsk })) ∧
    (∀ (w : Word) (z : Byte) (y b key : Nat), y < 32 → b < 8 → 8 ≤ 8 * y + b →
      (8 * y + b ≤ 243 ∨ 252 ≤ 8 * y + b) →
      w.getLsbD y = true → (∀ j, y < j → j < 32 → w.getLsbD j = false) →
      z.getLsbD b = true → (∀ j, b < j → j < 8 → z.getLsbD j = false) →
      (s.intc.nmiPending = false → s.intc.blockNmi = false → s.intc.icon.getLsbD 10 = false →
        s.intc.imsk &&& s.intc.ipnd = 0 → s.intc.swPrio.toNat = y →
        (y = 31 ∨ s.pc.toNat / 2 ^ 16 % 32 < y) → s.selectInterrupt = some .software) ∧
      ((y = 31 ∨ s.pc.toNat / 2 ^ 16 % 32 < y) → s.plainW s.intBase 36 key →
        s.storeTrap s.intBase 4 = none → s.storeTrap (s.intBase + 4 + BitVec.ofNat 32 y) 1 = none →
        s.bytesAt s.intBase (wordBytes w) → s.peek (s.intBase + 4 + BitVec.ofNat 32 y) = some z →
        s.intc.icon.getLsbD 13 = false → s.holds (off (8 * y + b)) e →
        s.canPush (0x00002002 ||| (BitVec.ofNat 32 y <<< 16)) → s.mayRecord (rec0 + 16) 16 →
        (∀ j, j < 4 → outside rec0 16 (off (8 * y + b) + BitVec.ofNat 32 j)) →
        ∃ u t w', takeInterrupt .software s = .next t ∧
          InterruptEntry u t (8 * y + b) (e &&& 0xFFFFFFFC) (rec0 + 16) ∧ t.intc = u.intc ∧
          (∀ j, j < 32 → w'.getLsbD j =
            (w.getLsbD j && !(decide (j = y) && decide (z = BitVec.ofNat 8 (2 ^ b))))) ∧
          u.bytesAt s.intBase (wordBytes w') ∧
          u.peek (s.intBase + 4 + BitVec.ofNat 32 y) = some (z &&& ~~~(BitVec.ofNat 8 (2 ^ b))) ∧
          (∀ x, outside s.intBase 4 x → x ≠ s.intBase + 4 + BitVec.ofNat 32 y →
            u.peek x = s.peek x) ∧
          (w' = 0 → u.intc.swPrio = 0) ∧ (w' ≠ 0 → w'.getLsbD u.intc.swPrio.toNat = true) ∧
          (∀ j, u.intc.swPrio.toNat < j → j < 32 → w'.getLsbD j = false) ∧
          u = { s with mem := u.mem, stale := u.stale, fresh := u.fresh
                       intc := { s.intc with swPrio := u.intc.swPrio } }))

/-- ret with return type 001 (the record of a fault that is no TRACE fault) or 111, to the newest
cached frame, the saved PC and AC in memory below FP, tracing off: AC is restored, the frame is the
caller's; in supervisor mode PC is restored (stated where the saved PC.te is 0) and a return from
interrupt unblocks NMI; in user mode PC and the NMI block stay. That reserved bits of the restored
AC and PC are not stored is ruling D22 (log 32). (R562, R565, R566, R770, R839) -/
def Obligations.ExceptionReturns : Prop :=
  ∀ (s : State) (e : Frame) (older : List Frame) (pc ac code : Word), s.te = false →
    s.undisturbed →
    s.returnsTo e older → s.holds (s.fp - 16) pc → s.holds (s.fp - 12) ac → bit pc 0 = false →
    (s.pfp &&& 7 = 1 → s.holds (s.fp - 8) code → code.toNat / 2 ^ 16 % 2 ^ 8 ≠ 1 →
      ∃ t, exec .ret s = .next t ∧ ReturnEffect s t e.addr e.regs older (ac &&& acMask)
        (if s.supervisor = true then pc &&& pcMask else s.pc) s.intc.blockNmi) ∧
    (s.pfp &&& 7 = 7 →
      ∃ t, exec .ret s = .next t ∧ ReturnEffect s t e.addr e.regs older (ac &&& acMask)
        (if s.supervisor = true then pc &&& pcMask else s.pc)
        (if s.supervisor = true then false else s.intc.blockNmi))

/-- One bus clock of timer x, which a step performs when the schedule says so: a disabled timer
stands still. An enabled one divides the bus clock by 1, 2, 4 or 8; where the prescaler is not full
only it advances, else the timer ticks: a count that stays above 0 is decremented; one that reaches
or is 0 is reloaded from TRR when reload is set, with the interrupt signalled only if it was
decremented, else it stays 0, TMR.tc is set, TMR.enable is cleared and the interrupt is signalled.
The signal sets IPND bit 12 (timer 0) or 13 (timer 1) and nothing else of the machine changes. That
the reload is made in the tick that reaches 0 is ruling D35 (log 55). (R932, R934, R935, R936, R937)
-/
def Obligations.TimerClockCounts : Prop :=
  ∀ (s : State) (x : Bool) (rest : List Turn),
    (s.schedule = .env (.timerClock x) :: rest → s.run ≠ .once → s.run ≠ .selfTest →
      step s = .next (timerClock x (sampleInputs { s with schedule := rest }))) ∧
    let t := s.timer x
    let u := timerClock x s
    let full : Prop := 2 ^ (t.tmr.toNat / 16 % 4) ≤ t.phase.toNat + 1
    let count : Word := if t.tcr = 0 then 0 else t.tcr - 1
    let signals (b : Bool) : Prop := ∀ i, u.intc.ipnd.getLsbD i =
      (s.intc.ipnd.getLsbD i || (b && decide (i = if x = true then 13 else 12)))
    (t.tmr.getLsbD 1 = false → u = s) ∧
    (t.tmr.getLsbD 1 = true →
      u.timer (!x) = s.timer (!x) ∧
      u = { s with timer0 := u.timer0, timer1 := u.timer1, intc := { s.intc with ipnd := u.intc.ipnd } } ∧
      (¬ full → u.timer x = { t with phase := t.phase + 1 } ∧ signals false) ∧
      (full → count ≠ 0 → u.timer x = { t with phase := 0, tcr := count } ∧ signals false) ∧
      (full → count = 0 → t.tmr.getLsbD 2 = true →
        u.timer x = { t with phase := 0, tcr := t.trr } ∧ signals (decide (t.tcr ≠ 0))) ∧
      (full → count = 0 → t.tmr.getLsbD 2 = false → signals true ∧
        ∃ m : Word, u.timer x = { t with phase := 0, tcr := 0, tmr := m } ∧
          m.getLsbD 0 = true ∧ m.getLsbD 1 = false ∧ ∀ i, 2 ≤ i → m.getLsbD i = t.tmr.getLsbD i))

/-- A core turn of a core that is starting, no self test failing, with a boot record in memory whose
bus confidence sum is 0 and a PRCB image in memory: the registers and tables are loaded as PRCB
processing says, PC is 001F2002H, IMSK 0, g0 the device id, IP the first instruction pointer, the
core ready. Where the sum is not 0 the core stops with fail code FEFFFF64H. sysctl message 03H in
supervisor mode, tracing off, loads the image at src/dst the same way and goes on at src2, PC, IMSK,
IPND, BPCON, the breakpoint rights and the logical memory registers kept. The model's choices:
reserved bits are not stored (D1, log 13), IP is the first instruction pointer, or src2, with bits 1:0
made 0 (D4, log 17), a passing self test changes nothing (D43, log 62), the alignment check (D44,
log 54), the whole in one step (log 53); the kept registers are read from R1330 and R901 (log 81). The
sysctl clause takes src/dst to be a register other than r2: a literal there, or r2, is left out
(log 49). (R53, R99, R661, R1310, R1312, R1314, R1316, R1318, R1320, R1325, R1330, R1335) -/
def Obligations.Initialization : Prop :=
  ∀ (s : State) (i : Image), s.undisturbed →
    (∀ (width : Byte) (firstIp p c0 c1 c2 c3 c4 c5 : Word), s.schedule = [] → s.run = .starting →
      s.coreHeld = false → (s.board.stest = false ∨ s.board.bistMask &&& 0x7C = 0) →
      (∃ k, s.plain 0xFEFFFF38 1 k) → s.bytesAt 0xFEFFFF38 [width] →
      width.toNat / 64 ≠ 3 → s.holds 0xFEFFFF40 firstIp → s.holds 0xFEFFFF44 p →
      s.holds 0xFEFFFF48 c0 → s.holds 0xFEFFFF4C c1 → s.holds 0xFEFFFF50 c2 →
        s.holds 0xFEFFFF54 c3 →
      s.holds 0xFEFFFF58 c4 → s.holds 0xFEFFFF5C c5 →
      let add (a : Nat × Nat) (w : Word) : Nat × Nat :=
        ((w.toNat + a.1 + a.2) % 2 ^ 32, (w.toNat + a.1 + a.2) / 2 ^ 32)
      let acc := [c5, c4, c3, c2, c1, c0].foldl add (0xFFFFFFFF, 0)
      let sum := (p.toNat + firstIp.toNat + acc.1 + acc.2) % 2 ^ 32
      (sum ≠ 0 → ∃ t, step s = .next t ∧ t.run = .stopped 0xFEFFFF64) ∧
      (sum = 0 → s.HasImage p i →
        ∃ t, step s = .next t ∧ Loaded s t p i ∧ t.run = .ready ∧ t.pc = 0x001F2002 ∧
          t.intc.imsk = 0 ∧ t.ip = firstIp &&& 0xFFFFFFFC ∧ t.reg 16 = Machine.deviceId)) ∧
    (∀ (s1 s2 : Src) (d : SrcDst) (a start : Word) (r : Reg), s.supervisor = true → s.te = false →
      s.src s1 30 = some a → a.toNat / 256 % 256 = 3 → s.src s2 31 = some start → dest d = some r →
      s.HasImage (s.reg r) i →
      ∃ t, exec (.sysctl s1 s2 d) s = .next t ∧ Loaded s t (s.reg r) i ∧
        t.ip = start &&& 0xFFFFFFFC ∧ t.pc = s.pc ∧ t.intc.imsk = s.intc.imsk ∧
        t.intc.ipnd = s.intc.ipnd ∧ t.dbg.bpcon = s.dbg.bpcon ∧ t.dbg.rights = s.dbg.rights ∧
        t.bus.dlmcon = s.bus.dlmcon ∧ t.bus.lmadr0 = s.bus.lmadr0 ∧ t.bus.lmadr1 = s.bus.lmadr1 ∧
        t.bus.lmmr0 = s.bus.lmmr0 ∧ t.bus.lmmr1 = s.bus.lmmr1)
end

