-- ==== Sys2Proof/Laws/State.lean ====
section
/-! SUPPORT. What the updates of the state leave: one lemma per field per update, and the registers
read back. -/

namespace Sys2Proof.Machine

/-! ## setReg -/

@[simp] theorem State.setReg_ip (s : State) (n : Reg) (v : Word) : (s.setReg n v).ip = s.ip := by
  unfold State.setReg; split <;> rfl

@[simp] theorem State.setReg_ac (s : State) (n : Reg) (v : Word) : (s.setReg n v).ac = s.ac := by
  unfold State.setReg; split <;> rfl

@[simp] theorem State.setReg_pc (s : State) (n : Reg) (v : Word) : (s.setReg n v).pc = s.pc := by
  unfold State.setReg; split <;> rfl

@[simp] theorem State.setReg_tc (s : State) (n : Reg) (v : Word) : (s.setReg n v).tc = s.tc := by
  unfold State.setReg; split <;> rfl

@[simp] theorem State.setReg_prcb (s : State) (n : Reg) (v : Word) : (s.setReg n v).prcb = s.prcb := by
  unfold State.setReg; split <;> rfl

@[simp] theorem State.setReg_isp (s : State) (n : Reg) (v : Word) : (s.setReg n v).isp = s.isp := by
  unfold State.setReg; split <;> rfl

@[simp] theorem State.setReg_ssp (s : State) (n : Reg) (v : Word) : (s.setReg n v).ssp = s.ssp := by
  unfold State.setReg; split <;> rfl

@[simp] theorem State.setReg_sspTe (s : State) (n : Reg) (v : Word) : (s.setReg n v).sspTe = s.sspTe := by
  unfold State.setReg; split <;> rfl

@[simp] theorem State.setReg_faultBase (s : State) (n : Reg) (v : Word) : (s.setReg n v).faultBase = s.faultBase := by
  unfold State.setReg; split <;> rfl

@[simp] theorem State.setReg_ctrlBase (s : State) (n : Reg) (v : Word) : (s.setReg n v).ctrlBase = s.ctrlBase := by
  unfold State.setReg; split <;> rfl

@[simp] theorem State.setReg_intBase (s : State) (n : Reg) (v : Word) : (s.setReg n v).intBase = s.intBase := by
  unfold State.setReg; split <;> rfl

@[simp] theorem State.setReg_sptBase (s : State) (n : Reg) (v : Word) : (s.setReg n v).sptBase = s.sptBase := by
  unfold State.setReg; split <;> rfl

@[simp] theorem State.setReg_unalignedFault (s : State) (n : Reg) (v : Word) : (s.setReg n v).unalignedFault = s.unalignedFault := by
  unfold State.setReg; split <;> rfl

@[simp] theorem State.setReg_rc (s : State) (n : Reg) (v : Word) : (s.setReg n v).rc = s.rc := by
  unfold State.setReg; split <;> rfl

@[simp] theorem State.setReg_rcLimit (s : State) (n : Reg) (v : Word) : (s.setReg n v).rcLimit = s.rcLimit := by
  unfold State.setReg; split <;> rfl

@[simp] theorem State.setReg_frameAddr (s : State) (n : Reg) (v : Word) : (s.setReg n v).frameAddr = s.frameAddr := by
  unfold State.setReg; split <;> rfl

@[simp] theorem State.setReg_dirtyFrames (s : State) (n : Reg) (v : Word) : (s.setReg n v).dirtyFrames = s.dirtyFrames := by
  unfold State.setReg; split <;> rfl

@[simp] theorem State.setReg_kept (s : State) (n : Reg) (v : Word) : (s.setReg n v).kept = s.kept := by
  unfold State.setReg; split <;> rfl

@[simp] theorem State.setReg_icEnabled (s : State) (n : Reg) (v : Word) : (s.setReg n v).icEnabled = s.icEnabled := by
  unfold State.setReg; split <;> rfl

@[simp] theorem State.setReg_icLocked (s : State) (n : Reg) (v : Word) : (s.setReg n v).icLocked = s.icLocked := by
  unfold State.setReg; split <;> rfl

@[simp] theorem State.setReg_dcEnabled (s : State) (n : Reg) (v : Word) : (s.setReg n v).dcEnabled = s.dcEnabled := by
  unfold State.setReg; split <;> rfl

@[simp] theorem State.setReg_stale (s : State) (n : Reg) (v : Word) : (s.setReg n v).stale = s.stale := by
  unfold State.setReg; split <;> rfl

@[simp] theorem State.setReg_run (s : State) (n : Reg) (v : Word) : (s.setReg n v).run = s.run := by
  unfold State.setReg; split <;> rfl

@[simp] theorem State.setReg_halted (s : State) (n : Reg) (v : Word) : (s.setReg n v).halted = s.halted := by
  unfold State.setReg; split <;> rfl

@[simp] theorem State.setReg_fresh (s : State) (n : Reg) (v : Word) : (s.setReg n v).fresh = s.fresh := by
  unfold State.setReg; split <;> rfl

@[simp] theorem State.setReg_mem (s : State) (n : Reg) (v : Word) : (s.setReg n v).mem = s.mem := by
  unfold State.setReg; split <;> rfl

@[simp] theorem State.setReg_intc (s : State) (n : Reg) (v : Word) : (s.setReg n v).intc = s.intc := by
  unfold State.setReg; split <;> rfl

@[simp] theorem State.setReg_timer0 (s : State) (n : Reg) (v : Word) : (s.setReg n v).timer0 = s.timer0 := by
  unfold State.setReg; split <;> rfl

@[simp] theorem State.setReg_timer1 (s : State) (n : Reg) (v : Word) : (s.setReg n v).timer1 = s.timer1 := by
  unfold State.setReg; split <;> rfl

@[simp] theorem State.setReg_bus (s : State) (n : Reg) (v : Word) : (s.setReg n v).bus = s.bus := by
  unfold State.setReg; split <;> rfl

@[simp] theorem State.setReg_dbg (s : State) (n : Reg) (v : Word) : (s.setReg n v).dbg = s.dbg := by
  unfold State.setReg; split <;> rfl

@[simp] theorem State.setReg_cpcu (s : State) (n : Reg) (v : Word) : (s.setReg n v).cpcu = s.cpcu := by
  unfold State.setReg; split <;> rfl

@[simp] theorem State.setReg_mc (s : State) (n : Reg) (v : Word) : (s.setReg n v).mc = s.mc := by
  unfold State.setReg; split <;> rfl

@[simp] theorem State.setReg_arb (s : State) (n : Reg) (v : Word) : (s.setReg n v).arb = s.arb := by
  unfold State.setReg; split <;> rfl

@[simp] theorem State.setReg_atu (s : State) (n : Reg) (v : Word) : (s.setReg n v).atu = s.atu := by
  unfold State.setReg; split <;> rfl

@[simp] theorem State.setReg_mu (s : State) (n : Reg) (v : Word) : (s.setReg n v).mu = s.mu := by
  unfold State.setReg; split <;> rfl

@[simp] theorem State.setReg_dma0 (s : State) (n : Reg) (v : Word) : (s.setReg n v).dma0 = s.dma0 := by
  unfold State.setReg; split <;> rfl

@[simp] theorem State.setReg_dma1 (s : State) (n : Reg) (v : Word) : (s.setReg n v).dma1 = s.dma1 := by
  unfold State.setReg; split <;> rfl

@[simp] theorem State.setReg_dreq (s : State) (n : Reg) (v : Word) : (s.setReg n v).dreq = s.dreq := by
  unfold State.setReg; split <;> rfl

@[simp] theorem State.setReg_i2c (s : State) (n : Reg) (v : Word) : (s.setReg n v).i2c = s.i2c := by
  unfold State.setReg; split <;> rfl

@[simp] theorem State.setReg_tap (s : State) (n : Reg) (v : Word) : (s.setReg n v).tap = s.tap := by
  unfold State.setReg; split <;> rfl

@[simp] theorem State.setReg_board (s : State) (n : Reg) (v : Word) : (s.setReg n v).board = s.board := by
  unfold State.setReg; split <;> rfl

@[simp] theorem State.setReg_schedule (s : State) (n : Reg) (v : Word) : (s.setReg n v).schedule = s.schedule := by
  unfold State.setReg; split <;> rfl

@[simp] theorem State.setReg_pciCount (s : State) (n : Reg) (v : Word) : (s.setReg n v).pciCount = s.pciCount := by
  unfold State.setReg; split <;> rfl

@[simp] theorem State.setReg_pciLog (s : State) (n : Reg) (v : Word) : (s.setReg n v).pciLog = s.pciLog := by
  unfold State.setReg; split <;> rfl

@[simp] theorem State.setReg_supervisor (s : State) (n : Reg) (v : Word) : (s.setReg n v).supervisor = s.supervisor := by
  simp [State.supervisor]

@[simp] theorem State.setReg_te (s : State) (n : Reg) (v : Word) : (s.setReg n v).te = s.te := by
  simp [State.te]

@[simp] theorem State.setReg_cc (s : State) (n : Reg) (v : Word) : (s.setReg n v).cc = s.cc := by
  simp [State.cc]

/-! ## setIp -/

@[simp] theorem State.setIp_g (s : State) (v : Word) : (s.setIp v).g = s.g := rfl

@[simp] theorem State.setIp_r (s : State) (v : Word) : (s.setIp v).r = s.r := rfl

@[simp] theorem State.setIp_ac (s : State) (v : Word) : (s.setIp v).ac = s.ac := rfl

@[simp] theorem State.setIp_pc (s : State) (v : Word) : (s.setIp v).pc = s.pc := rfl

@[simp] theorem State.setIp_tc (s : State) (v : Word) : (s.setIp v).tc = s.tc := rfl

@[simp] theorem State.setIp_prcb (s : State) (v : Word) : (s.setIp v).prcb = s.prcb := rfl

@[simp] theorem State.setIp_isp (s : State) (v : Word) : (s.setIp v).isp = s.isp := rfl

@[simp] theorem State.setIp_ssp (s : State) (v : Word) : (s.setIp v).ssp = s.ssp := rfl

@[simp] theorem State.setIp_sspTe (s : State) (v : Word) : (s.setIp v).sspTe = s.sspTe := rfl

@[simp] theorem State.setIp_faultBase (s : State) (v : Word) : (s.setIp v).faultBase = s.faultBase := rfl

@[simp] theorem State.setIp_ctrlBase (s : State) (v : Word) : (s.setIp v).ctrlBase = s.ctrlBase := rfl

@[simp] theorem State.setIp_intBase (s : State) (v : Word) : (s.setIp v).intBase = s.intBase := rfl

@[simp] theorem State.setIp_sptBase (s : State) (v : Word) : (s.setIp v).sptBase = s.sptBase := rfl

@[simp] theorem State.setIp_unalignedFault (s : State) (v : Word) : (s.setIp v).unalignedFault = s.unalignedFault := rfl

@[simp] theorem State.setIp_rc (s : State) (v : Word) : (s.setIp v).rc = s.rc := rfl

@[simp] theorem State.setIp_rcLimit (s : State) (v : Word) : (s.setIp v).rcLimit = s.rcLimit := rfl

@[simp] theorem State.setIp_frameAddr (s : State) (v : Word) : (s.setIp v).frameAddr = s.frameAddr := rfl

@[simp] theorem State.setIp_dirtyFrames (s : State) (v : Word) : (s.setIp v).dirtyFrames = s.dirtyFrames := rfl

@[simp] theorem State.setIp_kept (s : State) (v : Word) : (s.setIp v).kept = s.kept := rfl

@[simp] theorem State.setIp_pfpDirty (s : State) (v : Word) : (s.setIp v).pfpDirty = s.pfpDirty := rfl

@[simp] theorem State.setIp_icEnabled (s : State) (v : Word) : (s.setIp v).icEnabled = s.icEnabled := rfl

@[simp] theorem State.setIp_icLocked (s : State) (v : Word) : (s.setIp v).icLocked = s.icLocked := rfl

@[simp] theorem State.setIp_dcEnabled (s : State) (v : Word) : (s.setIp v).dcEnabled = s.dcEnabled := rfl

@[simp] theorem State.setIp_stale (s : State) (v : Word) : (s.setIp v).stale = s.stale := rfl

@[simp] theorem State.setIp_run (s : State) (v : Word) : (s.setIp v).run = s.run := rfl

@[simp] theorem State.setIp_halted (s : State) (v : Word) : (s.setIp v).halted = s.halted := rfl

@[simp] theorem State.setIp_fresh (s : State) (v : Word) : (s.setIp v).fresh = s.fresh := rfl

@[simp] theorem State.setIp_mem (s : State) (v : Word) : (s.setIp v).mem = s.mem := rfl

@[simp] theorem State.setIp_intc (s : State) (v : Word) : (s.setIp v).intc = s.intc := rfl

@[simp] theorem State.setIp_timer0 (s : State) (v : Word) : (s.setIp v).timer0 = s.timer0 := rfl

@[simp] theorem State.setIp_timer1 (s : State) (v : Word) : (s.setIp v).timer1 = s.timer1 := rfl

@[simp] theorem State.setIp_bus (s : State) (v : Word) : (s.setIp v).bus = s.bus := rfl

@[simp] theorem State.setIp_dbg (s : State) (v : Word) : (s.setIp v).dbg = s.dbg := rfl

@[simp] theorem State.setIp_cpcu (s : State) (v : Word) : (s.setIp v).cpcu = s.cpcu := rfl

@[simp] theorem State.setIp_mc (s : State) (v : Word) : (s.setIp v).mc = s.mc := rfl

@[simp] theorem State.setIp_arb (s : State) (v : Word) : (s.setIp v).arb = s.arb := rfl

@[simp] theorem State.setIp_atu (s : State) (v : Word) : (s.setIp v).atu = s.atu := rfl

@[simp] theorem State.setIp_mu (s : State) (v : Word) : (s.setIp v).mu = s.mu := rfl

@[simp] theorem State.setIp_dma0 (s : State) (v : Word) : (s.setIp v).dma0 = s.dma0 := rfl

@[simp] theorem State.setIp_dma1 (s : State) (v : Word) : (s.setIp v).dma1 = s.dma1 := rfl

@[simp] theorem State.setIp_dreq (s : State) (v : Word) : (s.setIp v).dreq = s.dreq := rfl

@[simp] theorem State.setIp_i2c (s : State) (v : Word) : (s.setIp v).i2c = s.i2c := rfl

@[simp] theorem State.setIp_tap (s : State) (v : Word) : (s.setIp v).tap = s.tap := rfl

@[simp] theorem State.setIp_board (s : State) (v : Word) : (s.setIp v).board = s.board := rfl

@[simp] theorem State.setIp_schedule (s : State) (v : Word) : (s.setIp v).schedule = s.schedule := rfl

@[simp] theorem State.setIp_pciCount (s : State) (v : Word) : (s.setIp v).pciCount = s.pciCount := rfl

@[simp] theorem State.setIp_pciLog (s : State) (v : Word) : (s.setIp v).pciLog = s.pciLog := rfl

@[simp] theorem State.setIp_supervisor (s : State) (v : Word) : (s.setIp v).supervisor = s.supervisor := by
  simp [State.supervisor]

@[simp] theorem State.setIp_te (s : State) (v : Word) : (s.setIp v).te = s.te := by
  simp [State.te]

@[simp] theorem State.setIp_cc (s : State) (v : Word) : (s.setIp v).cc = s.cc := by
  simp [State.cc]

@[simp] theorem State.setIp_fp (s : State) (v : Word) : (s.setIp v).fp = s.fp := by
  simp [State.fp]

@[simp] theorem State.setIp_sp (s : State) (v : Word) : (s.setIp v).sp = s.sp := by
  simp [State.sp]

@[simp] theorem State.setIp_pfp (s : State) (v : Word) : (s.setIp v).pfp = s.pfp := by
  simp [State.pfp]

/-! ## setAc -/

@[simp] theorem State.setAc_g (s : State) (v : Word) : (s.setAc v).g = s.g := rfl

@[simp] theorem State.setAc_r (s : State) (v : Word) : (s.setAc v).r = s.r := rfl

@[simp] theorem State.setAc_ip (s : State) (v : Word) : (s.setAc v).ip = s.ip := rfl

@[simp] theorem State.setAc_pc (s : State) (v : Word) : (s.setAc v).pc = s.pc := rfl

@[simp] theorem State.setAc_tc (s : State) (v : Word) : (s.setAc v).tc = s.tc := rfl

@[simp] theorem State.setAc_prcb (s : State) (v : Word) : (s.setAc v).prcb = s.prcb := rfl

@[simp] theorem State.setAc_isp (s : State) (v : Word) : (s.setAc v).isp = s.isp := rfl

@[simp] theorem State.setAc_ssp (s : State) (v : Word) : (s.setAc v).ssp = s.ssp := rfl

@[simp] theorem State.setAc_sspTe (s : State) (v : Word) : (s.setAc v).sspTe = s.sspTe := rfl

@[simp] theorem State.setAc_faultBase (s : State) (v : Word) : (s.setAc v).faultBase = s.faultBase := rfl

@[simp] theorem State.setAc_ctrlBase (s : State) (v : Word) : (s.setAc v).ctrlBase = s.ctrlBase := rfl

@[simp] theorem State.setAc_intBase (s : State) (v : Word) : (s.setAc v).intBase = s.intBase := rfl

@[simp] theorem State.setAc_sptBase (s : State) (v : Word) : (s.setAc v).sptBase = s.sptBase := rfl

@[simp] theorem State.setAc_unalignedFault (s : State) (v : Word) : (s.setAc v).unalignedFault = s.unalignedFault := rfl

@[simp] theorem State.setAc_rc (s : State) (v : Word) : (s.setAc v).rc = s.rc := rfl

@[simp] theorem State.setAc_rcLimit (s : State) (v : Word) : (s.setAc v).rcLimit = s.rcLimit := rfl

@[simp] theorem State.setAc_frameAddr (s : State) (v : Word) : (s.setAc v).frameAddr = s.frameAddr := rfl

@[simp] theorem State.setAc_dirtyFrames (s : State) (v : Word) : (s.setAc v).dirtyFrames = s.dirtyFrames := rfl

@[simp] theorem State.setAc_kept (s : State) (v : Word) : (s.setAc v).kept = s.kept := rfl

@[simp] theorem State.setAc_pfpDirty (s : State) (v : Word) : (s.setAc v).pfpDirty = s.pfpDirty := rfl

@[simp] theorem State.setAc_icEnabled (s : State) (v : Word) : (s.setAc v).icEnabled = s.icEnabled := rfl

@[simp] theorem State.setAc_icLocked (s : State) (v : Word) : (s.setAc v).icLocked = s.icLocked := rfl

@[simp] theorem State.setAc_dcEnabled (s : State) (v : Word) : (s.setAc v).dcEnabled = s.dcEnabled := rfl

@[simp] theorem State.setAc_stale (s : State) (v : Word) : (s.setAc v).stale = s.stale := rfl

@[simp] theorem State.setAc_run (s : State) (v : Word) : (s.setAc v).run = s.run := rfl

@[simp] theorem State.setAc_halted (s : State) (v : Word) : (s.setAc v).halted = s.halted := rfl

@[simp] theorem State.setAc_fresh (s : State) (v : Word) : (s.setAc v).fresh = s.fresh := rfl

@[simp] theorem State.setAc_mem (s : State) (v : Word) : (s.setAc v).mem = s.mem := rfl

@[simp] theorem State.setAc_intc (s : State) (v : Word) : (s.setAc v).intc = s.intc := rfl

@[simp] theorem State.setAc_timer0 (s : State) (v : Word) : (s.setAc v).timer0 = s.timer0 := rfl

@[simp] theorem State.setAc_timer1 (s : State) (v : Word) : (s.setAc v).timer1 = s.timer1 := rfl

@[simp] theorem State.setAc_bus (s : State) (v : Word) : (s.setAc v).bus = s.bus := rfl

@[simp] theorem State.setAc_dbg (s : State) (v : Word) : (s.setAc v).dbg = s.dbg := rfl

@[simp] theorem State.setAc_cpcu (s : State) (v : Word) : (s.setAc v).cpcu = s.cpcu := rfl

@[simp] theorem State.setAc_mc (s : State) (v : Word) : (s.setAc v).mc = s.mc := rfl

@[simp] theorem State.setAc_arb (s : State) (v : Word) : (s.setAc v).arb = s.arb := rfl

@[simp] theorem State.setAc_atu (s : State) (v : Word) : (s.setAc v).atu = s.atu := rfl

@[simp] theorem State.setAc_mu (s : State) (v : Word) : (s.setAc v).mu = s.mu := rfl

@[simp] theorem State.setAc_dma0 (s : State) (v : Word) : (s.setAc v).dma0 = s.dma0 := rfl

@[simp] theorem State.setAc_dma1 (s : State) (v : Word) : (s.setAc v).dma1 = s.dma1 := rfl

@[simp] theorem State.setAc_dreq (s : State) (v : Word) : (s.setAc v).dreq = s.dreq := rfl

@[simp] theorem State.setAc_i2c (s : State) (v : Word) : (s.setAc v).i2c = s.i2c := rfl

@[simp] theorem State.setAc_tap (s : State) (v : Word) : (s.setAc v).tap = s.tap := rfl

@[simp] theorem State.setAc_board (s : State) (v : Word) : (s.setAc v).board = s.board := rfl

@[simp] theorem State.setAc_schedule (s : State) (v : Word) : (s.setAc v).schedule = s.schedule := rfl

@[simp] theorem State.setAc_pciCount (s : State) (v : Word) : (s.setAc v).pciCount = s.pciCount := rfl

@[simp] theorem State.setAc_pciLog (s : State) (v : Word) : (s.setAc v).pciLog = s.pciLog := rfl

@[simp] theorem State.setAc_supervisor (s : State) (v : Word) : (s.setAc v).supervisor = s.supervisor := by
  simp [State.supervisor]

@[simp] theorem State.setAc_te (s : State) (v : Word) : (s.setAc v).te = s.te := by
  simp [State.te]

@[simp] theorem State.setAc_fp (s : State) (v : Word) : (s.setAc v).fp = s.fp := by
  simp [State.fp]

@[simp] theorem State.setAc_sp (s : State) (v : Word) : (s.setAc v).sp = s.sp := by
  simp [State.sp]

@[simp] theorem State.setAc_pfp (s : State) (v : Word) : (s.setAc v).pfp = s.pfp := by
  simp [State.pfp]

/-! ## setPc -/

@[simp] theorem State.setPc_g (s : State) (v : Word) : (s.setPc v).g = s.g := rfl

@[simp] theorem State.setPc_r (s : State) (v : Word) : (s.setPc v).r = s.r := rfl

@[simp] theorem State.setPc_ip (s : State) (v : Word) : (s.setPc v).ip = s.ip := rfl

@[simp] theorem State.setPc_ac (s : State) (v : Word) : (s.setPc v).ac = s.ac := rfl

@[simp] theorem State.setPc_tc (s : State) (v : Word) : (s.setPc v).tc = s.tc := rfl

@[simp] theorem State.setPc_prcb (s : State) (v : Word) : (s.setPc v).prcb = s.prcb := rfl

@[simp] theorem State.setPc_isp (s : State) (v : Word) : (s.setPc v).isp = s.isp := rfl

@[simp] theorem State.setPc_ssp (s : State) (v : Word) : (s.setPc v).ssp = s.ssp := rfl

@[simp] theorem State.setPc_sspTe (s : State) (v : Word) : (s.setPc v).sspTe = s.sspTe := rfl

@[simp] theorem State.setPc_faultBase (s : State) (v : Word) : (s.setPc v).faultBase = s.faultBase := rfl

@[simp] theorem State.setPc_ctrlBase (s : State) (v : Word) : (s.setPc v).ctrlBase = s.ctrlBase := rfl

@[simp] theorem State.setPc_intBase (s : State) (v : Word) : (s.setPc v).intBase = s.intBase := rfl

@[simp] theorem State.setPc_sptBase (s : State) (v : Word) : (s.setPc v).sptBase = s.sptBase := rfl

@[simp] theorem State.setPc_unalignedFault (s : State) (v : Word) : (s.setPc v).unalignedFault = s.unalignedFault := rfl

@[simp] theorem State.setPc_rc (s : State) (v : Word) : (s.setPc v).rc = s.rc := rfl

@[simp] theorem State.setPc_rcLimit (s : State) (v : Word) : (s.setPc v).rcLimit = s.rcLimit := rfl

@[simp] theorem State.setPc_frameAddr (s : State) (v : Word) : (s.setPc v).frameAddr = s.frameAddr := rfl

@[simp] theorem State.setPc_dirtyFrames (s : State) (v : Word) : (s.setPc v).dirtyFrames = s.dirtyFrames := rfl

@[simp] theorem State.setPc_kept (s : State) (v : Word) : (s.setPc v).kept = s.kept := rfl

@[simp] theorem State.setPc_pfpDirty (s : State) (v : Word) : (s.setPc v).pfpDirty = s.pfpDirty := rfl

@[simp] theorem State.setPc_icEnabled (s : State) (v : Word) : (s.setPc v).icEnabled = s.icEnabled := rfl

@[simp] theorem State.setPc_icLocked (s : State) (v : Word) : (s.setPc v).icLocked = s.icLocked := rfl

@[simp] theorem State.setPc_dcEnabled (s : State) (v : Word) : (s.setPc v).dcEnabled = s.dcEnabled := rfl

@[simp] theorem State.setPc_stale (s : State) (v : Word) : (s.setPc v).stale = s.stale := rfl

@[simp] theorem State.setPc_run (s : State) (v : Word) : (s.setPc v).run = s.run := rfl

@[simp] theorem State.setPc_halted (s : State) (v : Word) : (s.setPc v).halted = s.halted := rfl

@[simp] theorem State.setPc_fresh (s : State) (v : Word) : (s.setPc v).fresh = s.fresh := rfl

@[simp] theorem State.setPc_mem (s : State) (v : Word) : (s.setPc v).mem = s.mem := rfl

@[simp] theorem State.setPc_intc (s : State) (v : Word) : (s.setPc v).intc = s.intc := rfl

@[simp] theorem State.setPc_timer0 (s : State) (v : Word) : (s.setPc v).timer0 = s.timer0 := rfl

@[simp] theorem State.setPc_timer1 (s : State) (v : Word) : (s.setPc v).timer1 = s.timer1 := rfl

@[simp] theorem State.setPc_bus (s : State) (v : Word) : (s.setPc v).bus = s.bus := rfl

@[simp] theorem State.setPc_dbg (s : State) (v : Word) : (s.setPc v).dbg = s.dbg := rfl

@[simp] theorem State.setPc_cpcu (s : State) (v : Word) : (s.setPc v).cpcu = s.cpcu := rfl

@[simp] theorem State.setPc_mc (s : State) (v : Word) : (s.setPc v).mc = s.mc := rfl

@[simp] theorem State.setPc_arb (s : State) (v : Word) : (s.setPc v).arb = s.arb := rfl

@[simp] theorem State.setPc_atu (s : State) (v : Word) : (s.setPc v).atu = s.atu := rfl

@[simp] theorem State.setPc_mu (s : State) (v : Word) : (s.setPc v).mu = s.mu := rfl

@[simp] theorem State.setPc_dma0 (s : State) (v : Word) : (s.setPc v).dma0 = s.dma0 := rfl

@[simp] theorem State.setPc_dma1 (s : State) (v : Word) : (s.setPc v).dma1 = s.dma1 := rfl

@[simp] theorem State.setPc_dreq (s : State) (v : Word) : (s.setPc v).dreq = s.dreq := rfl

@[simp] theorem State.setPc_i2c (s : State) (v : Word) : (s.setPc v).i2c = s.i2c := rfl

@[simp] theorem State.setPc_tap (s : State) (v : Word) : (s.setPc v).tap = s.tap := rfl

@[simp] theorem State.setPc_board (s : State) (v : Word) : (s.setPc v).board = s.board := rfl

@[simp] theorem State.setPc_schedule (s : State) (v : Word) : (s.setPc v).schedule = s.schedule := rfl

@[simp] theorem State.setPc_pciCount (s : State) (v : Word) : (s.setPc v).pciCount = s.pciCount := rfl

@[simp] theorem State.setPc_pciLog (s : State) (v : Word) : (s.setPc v).pciLog = s.pciLog := rfl

@[simp] theorem State.setPc_cc (s : State) (v : Word) : (s.setPc v).cc = s.cc := by
  simp [State.cc]

@[simp] theorem State.setPc_fp (s : State) (v : Word) : (s.setPc v).fp = s.fp := by
  simp [State.fp]

@[simp] theorem State.setPc_sp (s : State) (v : Word) : (s.setPc v).sp = s.sp := by
  simp [State.sp]

@[simp] theorem State.setPc_pfp (s : State) (v : Word) : (s.setPc v).pfp = s.pfp := by
  simp [State.pfp]

/-! ## setTc -/

@[simp] theorem State.setTc_g (s : State) (v : Word) : (s.setTc v).g = s.g := rfl

@[simp] theorem State.setTc_r (s : State) (v : Word) : (s.setTc v).r = s.r := rfl

@[simp] theorem State.setTc_ip (s : State) (v : Word) : (s.setTc v).ip = s.ip := rfl

@[simp] theorem State.setTc_ac (s : State) (v : Word) : (s.setTc v).ac = s.ac := rfl

@[simp] theorem State.setTc_pc (s : State) (v : Word) : (s.setTc v).pc = s.pc := rfl

@[simp] theorem State.setTc_prcb (s : State) (v : Word) : (s.setTc v).prcb = s.prcb := rfl

@[simp] theorem State.setTc_isp (s : State) (v : Word) : (s.setTc v).isp = s.isp := rfl

@[simp] theorem State.setTc_ssp (s : State) (v : Word) : (s.setTc v).ssp = s.ssp := rfl

@[simp] theorem State.setTc_sspTe (s : State) (v : Word) : (s.setTc v).sspTe = s.sspTe := rfl

@[simp] theorem State.setTc_faultBase (s : State) (v : Word) : (s.setTc v).faultBase = s.faultBase := rfl

@[simp] theorem State.setTc_ctrlBase (s : State) (v : Word) : (s.setTc v).ctrlBase = s.ctrlBase := rfl

@[simp] theorem State.setTc_intBase (s : State) (v : Word) : (s.setTc v).intBase = s.intBase := rfl

@[simp] theorem State.setTc_sptBase (s : State) (v : Word) : (s.setTc v).sptBase = s.sptBase := rfl

@[simp] theorem State.setTc_unalignedFault (s : State) (v : Word) : (s.setTc v).unalignedFault = s.unalignedFault := rfl

@[simp] theorem State.setTc_rc (s : State) (v : Word) : (s.setTc v).rc = s.rc := rfl

@[simp] theorem State.setTc_rcLimit (s : State) (v : Word) : (s.setTc v).rcLimit = s.rcLimit := rfl

@[simp] theorem State.setTc_frameAddr (s : State) (v : Word) : (s.setTc v).frameAddr = s.frameAddr := rfl

@[simp] theorem State.setTc_dirtyFrames (s : State) (v : Word) : (s.setTc v).dirtyFrames = s.dirtyFrames := rfl

@[simp] theorem State.setTc_kept (s : State) (v : Word) : (s.setTc v).kept = s.kept := rfl

@[simp] theorem State.setTc_pfpDirty (s : State) (v : Word) : (s.setTc v).pfpDirty = s.pfpDirty := rfl

@[simp] theorem State.setTc_icEnabled (s : State) (v : Word) : (s.setTc v).icEnabled = s.icEnabled := rfl

@[simp] theorem State.setTc_icLocked (s : State) (v : Word) : (s.setTc v).icLocked = s.icLocked := rfl

@[simp] theorem State.setTc_dcEnabled (s : State) (v : Word) : (s.setTc v).dcEnabled = s.dcEnabled := rfl

@[simp] theorem State.setTc_stale (s : State) (v : Word) : (s.setTc v).stale = s.stale := rfl

@[simp] theorem State.setTc_run (s : State) (v : Word) : (s.setTc v).run = s.run := rfl

@[simp] theorem State.setTc_halted (s : State) (v : Word) : (s.setTc v).halted = s.halted := rfl

@[simp] theorem State.setTc_fresh (s : State) (v : Word) : (s.setTc v).fresh = s.fresh := rfl

@[simp] theorem State.setTc_mem (s : State) (v : Word) : (s.setTc v).mem = s.mem := rfl

@[simp] theorem State.setTc_intc (s : State) (v : Word) : (s.setTc v).intc = s.intc := rfl

@[simp] theorem State.setTc_timer0 (s : State) (v : Word) : (s.setTc v).timer0 = s.timer0 := rfl

@[simp] theorem State.setTc_timer1 (s : State) (v : Word) : (s.setTc v).timer1 = s.timer1 := rfl

@[simp] theorem State.setTc_bus (s : State) (v : Word) : (s.setTc v).bus = s.bus := rfl

@[simp] theorem State.setTc_dbg (s : State) (v : Word) : (s.setTc v).dbg = s.dbg := rfl

@[simp] theorem State.setTc_cpcu (s : State) (v : Word) : (s.setTc v).cpcu = s.cpcu := rfl

@[simp] theorem State.setTc_mc (s : State) (v : Word) : (s.setTc v).mc = s.mc := rfl

@[simp] theorem State.setTc_arb (s : State) (v : Word) : (s.setTc v).arb = s.arb := rfl

@[simp] theorem State.setTc_atu (s : State) (v : Word) : (s.setTc v).atu = s.atu := rfl

@[simp] theorem State.setTc_mu (s : State) (v : Word) : (s.setTc v).mu = s.mu := rfl

@[simp] theorem State.setTc_dma0 (s : State) (v : Word) : (s.setTc v).dma0 = s.dma0 := rfl

@[simp] theorem State.setTc_dma1 (s : State) (v : Word) : (s.setTc v).dma1 = s.dma1 := rfl

@[simp] theorem State.setTc_dreq (s : State) (v : Word) : (s.setTc v).dreq = s.dreq := rfl

@[simp] theorem State.setTc_i2c (s : State) (v : Word) : (s.setTc v).i2c = s.i2c := rfl

@[simp] theorem State.setTc_tap (s : State) (v : Word) : (s.setTc v).tap = s.tap := rfl

@[simp] theorem State.setTc_board (s : State) (v : Word) : (s.setTc v).board = s.board := rfl

@[simp] theorem State.setTc_schedule (s : State) (v : Word) : (s.setTc v).schedule = s.schedule := rfl

@[simp] theorem State.setTc_pciCount (s : State) (v : Word) : (s.setTc v).pciCount = s.pciCount := rfl

@[simp] theorem State.setTc_pciLog (s : State) (v : Word) : (s.setTc v).pciLog = s.pciLog := rfl

@[simp] theorem State.setTc_supervisor (s : State) (v : Word) : (s.setTc v).supervisor = s.supervisor := by
  simp [State.supervisor]

@[simp] theorem State.setTc_te (s : State) (v : Word) : (s.setTc v).te = s.te := by
  simp [State.te]

@[simp] theorem State.setTc_cc (s : State) (v : Word) : (s.setTc v).cc = s.cc := by
  simp [State.cc]

@[simp] theorem State.setTc_fp (s : State) (v : Word) : (s.setTc v).fp = s.fp := by
  simp [State.fp]

@[simp] theorem State.setTc_sp (s : State) (v : Word) : (s.setTc v).sp = s.sp := by
  simp [State.sp]

@[simp] theorem State.setTc_pfp (s : State) (v : Word) : (s.setTc v).pfp = s.pfp := by
  simp [State.pfp]

/-! ## setCc -/

@[simp] theorem State.setCc_g (s : State) (c : BitVec 3) : (s.setCc c).g = s.g := rfl

@[simp] theorem State.setCc_r (s : State) (c : BitVec 3) : (s.setCc c).r = s.r := rfl

@[simp] theorem State.setCc_ip (s : State) (c : BitVec 3) : (s.setCc c).ip = s.ip := rfl

@[simp] theorem State.setCc_pc (s : State) (c : BitVec 3) : (s.setCc c).pc = s.pc := rfl

@[simp] theorem State.setCc_tc (s : State) (c : BitVec 3) : (s.setCc c).tc = s.tc := rfl

@[simp] theorem State.setCc_prcb (s : State) (c : BitVec 3) : (s.setCc c).prcb = s.prcb := rfl

@[simp] theorem State.setCc_isp (s : State) (c : BitVec 3) : (s.setCc c).isp = s.isp := rfl

@[simp] theorem State.setCc_ssp (s : State) (c : BitVec 3) : (s.setCc c).ssp = s.ssp := rfl

@[simp] theorem State.setCc_sspTe (s : State) (c : BitVec 3) : (s.setCc c).sspTe = s.sspTe := rfl

@[simp] theorem State.setCc_faultBase (s : State) (c : BitVec 3) : (s.setCc c).faultBase = s.faultBase := rfl

@[simp] theorem State.setCc_ctrlBase (s : State) (c : BitVec 3) : (s.setCc c).ctrlBase = s.ctrlBase := rfl

@[simp] theorem State.setCc_intBase (s : State) (c : BitVec 3) : (s.setCc c).intBase = s.intBase := rfl

@[simp] theorem State.setCc_sptBase (s : State) (c : BitVec 3) : (s.setCc c).sptBase = s.sptBase := rfl

@[simp] theorem State.setCc_unalignedFault (s : State) (c : BitVec 3) : (s.setCc c).unalignedFault = s.unalignedFault := rfl

@[simp] theorem State.setCc_rc (s : State) (c : BitVec 3) : (s.setCc c).rc = s.rc := rfl

@[simp] theorem State.setCc_rcLimit (s : State) (c : BitVec 3) : (s.setCc c).rcLimit = s.rcLimit := rfl

@[simp] theorem State.setCc_frameAddr (s : State) (c : BitVec 3) : (s.setCc c).frameAddr = s.frameAddr := rfl

@[simp] theorem State.setCc_dirtyFrames (s : State) (c : BitVec 3) : (s.setCc c).dirtyFrames = s.dirtyFrames := rfl

@[simp] theorem State.setCc_kept (s : State) (c : BitVec 3) : (s.setCc c).kept = s.kept := rfl

@[simp] theorem State.setCc_pfpDirty (s : State) (c : BitVec 3) : (s.setCc c).pfpDirty = s.pfpDirty := rfl

@[simp] theorem State.setCc_icEnabled (s : State) (c : BitVec 3) : (s.setCc c).icEnabled = s.icEnabled := rfl

@[simp] theorem State.setCc_icLocked (s : State) (c : BitVec 3) : (s.setCc c).icLocked = s.icLocked := rfl

@[simp] theorem State.setCc_dcEnabled (s : State) (c : BitVec 3) : (s.setCc c).dcEnabled = s.dcEnabled := rfl

@[simp] theorem State.setCc_stale (s : State) (c : BitVec 3) : (s.setCc c).stale = s.stale := rfl

@[simp] theorem State.setCc_run (s : State) (c : BitVec 3) : (s.setCc c).run = s.run := rfl

@[simp] theorem State.setCc_halted (s : State) (c : BitVec 3) : (s.setCc c).halted = s.halted := rfl

@[simp] theorem State.setCc_fresh (s : State) (c : BitVec 3) : (s.setCc c).fresh = s.fresh := rfl

@[simp] theorem State.setCc_mem (s : State) (c : BitVec 3) : (s.setCc c).mem = s.mem := rfl

@[simp] theorem State.setCc_intc (s : State) (c : BitVec 3) : (s.setCc c).intc = s.intc := rfl

@[simp] theorem State.setCc_timer0 (s : State) (c : BitVec 3) : (s.setCc c).timer0 = s.timer0 := rfl

@[simp] theorem State.setCc_timer1 (s : State) (c : BitVec 3) : (s.setCc c).timer1 = s.timer1 := rfl

@[simp] theorem State.setCc_bus (s : State) (c : BitVec 3) : (s.setCc c).bus = s.bus := rfl

@[simp] theorem State.setCc_dbg (s : State) (c : BitVec 3) : (s.setCc c).dbg = s.dbg := rfl

@[simp] theorem State.setCc_cpcu (s : State) (c : BitVec 3) : (s.setCc c).cpcu = s.cpcu := rfl

@[simp] theorem State.setCc_mc (s : State) (c : BitVec 3) : (s.setCc c).mc = s.mc := rfl

@[simp] theorem State.setCc_arb (s : State) (c : BitVec 3) : (s.setCc c).arb = s.arb := rfl

@[simp] theorem State.setCc_atu (s : State) (c : BitVec 3) : (s.setCc c).atu = s.atu := rfl

@[simp] theorem State.setCc_mu (s : State) (c : BitVec 3) : (s.setCc c).mu = s.mu := rfl

@[simp] theorem State.setCc_dma0 (s : State) (c : BitVec 3) : (s.setCc c).dma0 = s.dma0 := rfl

@[simp] theorem State.setCc_dma1 (s : State) (c : BitVec 3) : (s.setCc c).dma1 = s.dma1 := rfl

@[simp] theorem State.setCc_dreq (s : State) (c : BitVec 3) : (s.setCc c).dreq = s.dreq := rfl

@[simp] theorem State.setCc_i2c (s : State) (c : BitVec 3) : (s.setCc c).i2c = s.i2c := rfl

@[simp] theorem State.setCc_tap (s : State) (c : BitVec 3) : (s.setCc c).tap = s.tap := rfl

@[simp] theorem State.setCc_board (s : State) (c : BitVec 3) : (s.setCc c).board = s.board := rfl

@[simp] theorem State.setCc_schedule (s : State) (c : BitVec 3) : (s.setCc c).schedule = s.schedule := rfl

@[simp] theorem State.setCc_pciCount (s : State) (c : BitVec 3) : (s.setCc c).pciCount = s.pciCount := rfl

@[simp] theorem State.setCc_pciLog (s : State) (c : BitVec 3) : (s.setCc c).pciLog = s.pciLog := rfl

@[simp] theorem State.setCc_supervisor (s : State) (c : BitVec 3) : (s.setCc c).supervisor = s.supervisor := by
  simp [State.supervisor]

@[simp] theorem State.setCc_te (s : State) (c : BitVec 3) : (s.setCc c).te = s.te := by
  simp [State.te]

@[simp] theorem State.setCc_fp (s : State) (c : BitVec 3) : (s.setCc c).fp = s.fp := by
  simp [State.fp]

@[simp] theorem State.setCc_sp (s : State) (c : BitVec 3) : (s.setCc c).sp = s.sp := by
  simp [State.sp]

@[simp] theorem State.setCc_pfp (s : State) (c : BitVec 3) : (s.setCc c).pfp = s.pfp := by
  simp [State.pfp]

/-! ## bump -/

@[simp] theorem State.bump_g (s : State) : s.bump.g = s.g := rfl

@[simp] theorem State.bump_r (s : State) : s.bump.r = s.r := rfl

@[simp] theorem State.bump_ip (s : State) : s.bump.ip = s.ip := rfl

@[simp] theorem State.bump_ac (s : State) : s.bump.ac = s.ac := rfl

@[simp] theorem State.bump_pc (s : State) : s.bump.pc = s.pc := rfl

@[simp] theorem State.bump_tc (s : State) : s.bump.tc = s.tc := rfl

@[simp] theorem State.bump_prcb (s : State) : s.bump.prcb = s.prcb := rfl

@[simp] theorem State.bump_isp (s : State) : s.bump.isp = s.isp := rfl

@[simp] theorem State.bump_ssp (s : State) : s.bump.ssp = s.ssp := rfl

@[simp] theorem State.bump_sspTe (s : State) : s.bump.sspTe = s.sspTe := rfl

@[simp] theorem State.bump_faultBase (s : State) : s.bump.faultBase = s.faultBase := rfl

@[simp] theorem State.bump_ctrlBase (s : State) : s.bump.ctrlBase = s.ctrlBase := rfl

@[simp] theorem State.bump_intBase (s : State) : s.bump.intBase = s.intBase := rfl

@[simp] theorem State.bump_sptBase (s : State) : s.bump.sptBase = s.sptBase := rfl

@[simp] theorem State.bump_unalignedFault (s : State) : s.bump.unalignedFault = s.unalignedFault := rfl

@[simp] theorem State.bump_rc (s : State) : s.bump.rc = s.rc := rfl

@[simp] theorem State.bump_rcLimit (s : State) : s.bump.rcLimit = s.rcLimit := rfl

@[simp] theorem State.bump_frameAddr (s : State) : s.bump.frameAddr = s.frameAddr := rfl

@[simp] theorem State.bump_dirtyFrames (s : State) : s.bump.dirtyFrames = s.dirtyFrames := rfl

@[simp] theorem State.bump_kept (s : State) : s.bump.kept = s.kept := rfl

@[simp] theorem State.bump_pfpDirty (s : State) : s.bump.pfpDirty = s.pfpDirty := rfl

@[simp] theorem State.bump_icEnabled (s : State) : s.bump.icEnabled = s.icEnabled := rfl

@[simp] theorem State.bump_icLocked (s : State) : s.bump.icLocked = s.icLocked := rfl

@[simp] theorem State.bump_dcEnabled (s : State) : s.bump.dcEnabled = s.dcEnabled := rfl

@[simp] theorem State.bump_stale (s : State) : s.bump.stale = s.stale := rfl

@[simp] theorem State.bump_run (s : State) : s.bump.run = s.run := rfl

@[simp] theorem State.bump_halted (s : State) : s.bump.halted = s.halted := rfl

@[simp] theorem State.bump_mem (s : State) : s.bump.mem = s.mem := rfl

@[simp] theorem State.bump_intc (s : State) : s.bump.intc = s.intc := rfl

@[simp] theorem State.bump_timer0 (s : State) : s.bump.timer0 = s.timer0 := rfl

@[simp] theorem State.bump_timer1 (s : State) : s.bump.timer1 = s.timer1 := rfl

@[simp] theorem State.bump_bus (s : State) : s.bump.bus = s.bus := rfl

@[simp] theorem State.bump_dbg (s : State) : s.bump.dbg = s.dbg := rfl

@[simp] theorem State.bump_cpcu (s : State) : s.bump.cpcu = s.cpcu := rfl

@[simp] theorem State.bump_mc (s : State) : s.bump.mc = s.mc := rfl

@[simp] theorem State.bump_arb (s : State) : s.bump.arb = s.arb := rfl

@[simp] theorem State.bump_atu (s : State) : s.bump.atu = s.atu := rfl

@[simp] theorem State.bump_mu (s : State) : s.bump.mu = s.mu := rfl

@[simp] theorem State.bump_dma0 (s : State) : s.bump.dma0 = s.dma0 := rfl

@[simp] theorem State.bump_dma1 (s : State) : s.bump.dma1 = s.dma1 := rfl

@[simp] theorem State.bump_dreq (s : State) : s.bump.dreq = s.dreq := rfl

@[simp] theorem State.bump_i2c (s : State) : s.bump.i2c = s.i2c := rfl

@[simp] theorem State.bump_tap (s : State) : s.bump.tap = s.tap := rfl

@[simp] theorem State.bump_board (s : State) : s.bump.board = s.board := rfl

@[simp] theorem State.bump_schedule (s : State) : s.bump.schedule = s.schedule := rfl

@[simp] theorem State.bump_pciCount (s : State) : s.bump.pciCount = s.pciCount := rfl

@[simp] theorem State.bump_pciLog (s : State) : s.bump.pciLog = s.pciLog := rfl

@[simp] theorem State.bump_supervisor (s : State) : s.bump.supervisor = s.supervisor := by
  simp [State.supervisor]

@[simp] theorem State.bump_te (s : State) : s.bump.te = s.te := by
  simp [State.te]

@[simp] theorem State.bump_cc (s : State) : s.bump.cc = s.cc := by
  simp [State.cc]

@[simp] theorem State.bump_fp (s : State) : s.bump.fp = s.fp := by
  simp [State.fp]

@[simp] theorem State.bump_sp (s : State) : s.bump.sp = s.sp := by
  simp [State.sp]

@[simp] theorem State.bump_pfp (s : State) : s.bump.pfp = s.pfp := by
  simp [State.pfp]

/-! ## setRegs -/

@[simp] theorem State.setRegs_ip (s : State) (n : Reg) (vs : List Word) : (s.setRegs n vs).ip = s.ip := by
  induction vs generalizing s n <;> simp_all [State.setRegs]

@[simp] theorem State.setRegs_ac (s : State) (n : Reg) (vs : List Word) : (s.setRegs n vs).ac = s.ac := by
  induction vs generalizing s n <;> simp_all [State.setRegs]

@[simp] theorem State.setRegs_pc (s : State) (n : Reg) (vs : List Word) : (s.setRegs n vs).pc = s.pc := by
  induction vs generalizing s n <;> simp_all [State.setRegs]

@[simp] theorem State.setRegs_tc (s : State) (n : Reg) (vs : List Word) : (s.setRegs n vs).tc = s.tc := by
  induction vs generalizing s n <;> simp_all [State.setRegs]

@[simp] theorem State.setRegs_prcb (s : State) (n : Reg) (vs : List Word) : (s.setRegs n vs).prcb = s.prcb := by
  induction vs generalizing s n <;> simp_all [State.setRegs]

@[simp] theorem State.setRegs_isp (s : State) (n : Reg) (vs : List Word) : (s.setRegs n vs).isp = s.isp := by
  induction vs generalizing s n <;> simp_all [State.setRegs]

@[simp] theorem State.setRegs_ssp (s : State) (n : Reg) (vs : List Word) : (s.setRegs n vs).ssp = s.ssp := by
  induction vs generalizing s n <;> simp_all [State.setRegs]

@[simp] theorem State.setRegs_sspTe (s : State) (n : Reg) (vs : List Word) : (s.setRegs n vs).sspTe = s.sspTe := by
  induction vs generalizing s n <;> simp_all [State.setRegs]

@[simp] theorem State.setRegs_faultBase (s : State) (n : Reg) (vs : List Word) : (s.setRegs n vs).faultBase = s.faultBase := by
  induction vs generalizing s n <;> simp_all [State.setRegs]

@[simp] theorem State.setRegs_ctrlBase (s : State) (n : Reg) (vs : List Word) : (s.setRegs n vs).ctrlBase = s.ctrlBase := by
  induction vs generalizing s n <;> simp_all [State.setRegs]

@[simp] theorem State.setRegs_intBase (s : State) (n : Reg) (vs : List Word) : (s.setRegs n vs).intBase = s.intBase := by
  induction vs generalizing s n <;> simp_all [State.setRegs]

@[simp] theorem State.setRegs_sptBase (s : State) (n : Reg) (vs : List Word) : (s.setRegs n vs).sptBase = s.sptBase := by
  induction vs generalizing s n <;> simp_all [State.setRegs]

@[simp] theorem State.setRegs_unalignedFault (s : State) (n : Reg) (vs : List Word) : (s.setRegs n vs).unalignedFault = s.unalignedFault := by
  induction vs generalizing s n <;> simp_all [State.setRegs]

@[simp] theorem State.setRegs_rc (s : State) (n : Reg) (vs : List Word) : (s.setRegs n vs).rc = s.rc := by
  induction vs generalizing s n <;> simp_all [State.setRegs]

@[simp] theorem State.setRegs_rcLimit (s : State) (n : Reg) (vs : List Word) : (s.setRegs n vs).rcLimit = s.rcLimit := by
  induction vs generalizing s n <;> simp_all [State.setRegs]

@[simp] theorem State.setRegs_frameAddr (s : State) (n : Reg) (vs : List Word) : (s.setRegs n vs).frameAddr = s.frameAddr := by
  induction vs generalizing s n <;> simp_all [State.setRegs]

@[simp] theorem State.setRegs_dirtyFrames (s : State) (n : Reg) (vs : List Word) : (s.setRegs n vs).dirtyFrames = s.dirtyFrames := by
  induction vs generalizing s n <;> simp_all [State.setRegs]

@[simp] theorem State.setRegs_kept (s : State) (n : Reg) (vs : List Word) : (s.setRegs n vs).kept = s.kept := by
  induction vs generalizing s n <;> simp_all [State.setRegs]

@[simp] theorem State.setRegs_icEnabled (s : State) (n : Reg) (vs : List Word) : (s.setRegs n vs).icEnabled = s.icEnabled := by
  induction vs generalizing s n <;> simp_all [State.setRegs]

@[simp] theorem State.setRegs_icLocked (s : State) (n : Reg) (vs : List Word) : (s.setRegs n vs).icLocked = s.icLocked := by
  induction vs generalizing s n <;> simp_all [State.setRegs]

@[simp] theorem State.setRegs_dcEnabled (s : State) (n : Reg) (vs : List Word) : (s.setRegs n vs).dcEnabled = s.dcEnabled := by
  induction vs generalizing s n <;> simp_all [State.setRegs]

@[simp] theorem State.setRegs_stale (s : State) (n : Reg) (vs : List Word) : (s.setRegs n vs).stale = s.stale := by
  induction vs generalizing s n <;> simp_all [State.setRegs]

@[simp] theorem State.setRegs_run (s : State) (n : Reg) (vs : List Word) : (s.setRegs n vs).run = s.run := by
  induction vs generalizing s n <;> simp_all [State.setRegs]

@[simp] theorem State.setRegs_halted (s : State) (n : Reg) (vs : List Word) : (s.setRegs n vs).halted = s.halted := by
  induction vs generalizing s n <;> simp_all [State.setRegs]

@[simp] theorem State.setRegs_fresh (s : State) (n : Reg) (vs : List Word) : (s.setRegs n vs).fresh = s.fresh := by
  induction vs generalizing s n <;> simp_all [State.setRegs]

@[simp] theorem State.setRegs_mem (s : State) (n : Reg) (vs : List Word) : (s.setRegs n vs).mem = s.mem := by
  induction vs generalizing s n <;> simp_all [State.setRegs]

@[simp] theorem State.setRegs_intc (s : State) (n : Reg) (vs : List Word) : (s.setRegs n vs).intc = s.intc := by
  induction vs generalizing s n <;> simp_all [State.setRegs]

@[simp] theorem State.setRegs_timer0 (s : State) (n : Reg) (vs : List Word) : (s.setRegs n vs).timer0 = s.timer0 := by
  induction vs generalizing s n <;> simp_all [State.setRegs]

@[simp] theorem State.setRegs_timer1 (s : State) (n : Reg) (vs : List Word) : (s.setRegs n vs).timer1 = s.timer1 := by
  induction vs generalizing s n <;> simp_all [State.setRegs]

@[simp] theorem State.setRegs_bus (s : State) (n : Reg) (vs : List Word) : (s.setRegs n vs).bus = s.bus := by
  induction vs generalizing s n <;> simp_all [State.setRegs]

@[simp] theorem State.setRegs_dbg (s : State) (n : Reg) (vs : List Word) : (s.setRegs n vs).dbg = s.dbg := by
  induction vs generalizing s n <;> simp_all [State.setRegs]

@[simp] theorem State.setRegs_cpcu (s : State) (n : Reg) (vs : List Word) : (s.setRegs n vs).cpcu = s.cpcu := by
  induction vs generalizing s n <;> simp_all [State.setRegs]

@[simp] theorem State.setRegs_mc (s : State) (n : Reg) (vs : List Word) : (s.setRegs n vs).mc = s.mc := by
  induction vs generalizing s n <;> simp_all [State.setRegs]

@[simp] theorem State.setRegs_arb (s : State) (n : Reg) (vs : List Word) : (s.setRegs n vs).arb = s.arb := by
  induction vs generalizing s n <;> simp_all [State.setRegs]

@[simp] theorem State.setRegs_atu (s : State) (n : Reg) (vs : List Word) : (s.setRegs n vs).atu = s.atu := by
  induction vs generalizing s n <;> simp_all [State.setRegs]

@[simp] theorem State.setRegs_mu (s : State) (n : Reg) (vs : List Word) : (s.setRegs n vs).mu = s.mu := by
  induction vs generalizing s n <;> simp_all [State.setRegs]

@[simp] theorem State.setRegs_dma0 (s : State) (n : Reg) (vs : List Word) : (s.setRegs n vs).dma0 = s.dma0 := by
  induction vs generalizing s n <;> simp_all [State.setRegs]

@[simp] theorem State.setRegs_dma1 (s : State) (n : Reg) (vs : List Word) : (s.setRegs n vs).dma1 = s.dma1 := by
  induction vs generalizing s n <;> simp_all [State.setRegs]

@[simp] theorem State.setRegs_dreq (s : State) (n : Reg) (vs : List Word) : (s.setRegs n vs).dreq = s.dreq := by
  induction vs generalizing s n <;> simp_all [State.setRegs]

@[simp] theorem State.setRegs_i2c (s : State) (n : Reg) (vs : List Word) : (s.setRegs n vs).i2c = s.i2c := by
  induction vs generalizing s n <;> simp_all [State.setRegs]

@[simp] theorem State.setRegs_tap (s : State) (n : Reg) (vs : List Word) : (s.setRegs n vs).tap = s.tap := by
  induction vs generalizing s n <;> simp_all [State.setRegs]

@[simp] theorem State.setRegs_board (s : State) (n : Reg) (vs : List Word) : (s.setRegs n vs).board = s.board := by
  induction vs generalizing s n <;> simp_all [State.setRegs]

@[simp] theorem State.setRegs_schedule (s : State) (n : Reg) (vs : List Word) : (s.setRegs n vs).schedule = s.schedule := by
  induction vs generalizing s n <;> simp_all [State.setRegs]

@[simp] theorem State.setRegs_pciCount (s : State) (n : Reg) (vs : List Word) : (s.setRegs n vs).pciCount = s.pciCount := by
  induction vs generalizing s n <;> simp_all [State.setRegs]

@[simp] theorem State.setRegs_pciLog (s : State) (n : Reg) (vs : List Word) : (s.setRegs n vs).pciLog = s.pciLog := by
  induction vs generalizing s n <;> simp_all [State.setRegs]

@[simp] theorem State.setRegs_supervisor (s : State) (n : Reg) (vs : List Word) : (s.setRegs n vs).supervisor = s.supervisor := by
  simp [State.supervisor]

@[simp] theorem State.setRegs_te (s : State) (n : Reg) (vs : List Word) : (s.setRegs n vs).te = s.te := by
  simp [State.te]

@[simp] theorem State.setRegs_cc (s : State) (n : Reg) (vs : List Word) : (s.setRegs n vs).cc = s.cc := by
  simp [State.cc]

/-! ## The values written -/

@[simp] theorem State.setIp_ip (s : State) (v : Word) : (s.setIp v).ip = v &&& 0xFFFFFFFC := rfl
@[simp] theorem State.setAc_ac (s : State) (v : Word) : (s.setAc v).ac = v &&& acMask := rfl
@[simp] theorem State.setPc_pc (s : State) (v : Word) : (s.setPc v).pc = v &&& pcMask := rfl
@[simp] theorem State.setTc_tc (s : State) (v : Word) : (s.setTc v).tc = v &&& tcMask := rfl
@[simp] theorem State.setCc_ac (s : State) (c : BitVec 3) :
    (s.setCc c).ac = (s.ac &&& 0xFFFFFFF8) ||| c.setWidth 32 := rfl
@[simp] theorem State.bump_fresh (s : State) : s.bump.fresh = s.fresh + 1 := rfl
@[simp] theorem State.setRegs_nil (s : State) (n : Reg) : s.setRegs n [] = s := rfl
@[simp] theorem State.setRegs_cons (s : State) (n : Reg) (v : Word) (vs : List Word) :
    s.setRegs n (v :: vs) = (s.setReg n v).setRegs (n + 1) vs := rfl

/-- AC.cc reads back what was written. -/
@[simp] theorem State.setCc_cc (s : State) (c : BitVec 3) : (s.setCc c).cc = c := by
  unfold State.cc State.setCc
  apply BitVec.eq_of_getLsbD_eq
  intro i h
  have : i = 0 ∨ i = 1 ∨ i = 2 := by omega
  rcases this with rfl | rfl | rfl <;> simp

/-! ## Registers -/

/-- Register numbers of one bank are told apart by their low four bits. -/
theorem reg_index (m n : Reg) (b : m.getLsbD 4 = n.getLsbD 4)
    (h : (n.setWidth 4).toNat = (m.setWidth 4).toNat) : m = n := by
  revert m n; decide
/-- Writing a global register. -/
theorem State.setReg_global {n : Reg} (h : n.getLsbD 4 = true) (s : State) (v : Word) :
    s.setReg n v = { s with g := s.g.set (n.setWidth 4).toNat v (BitVec.isLt _) } := if_pos h
/-- Writing a local register. -/
theorem State.setReg_local {n : Reg} (h : n.getLsbD 4 = false) (s : State) (v : Word) :
    s.setReg n v = { s with
      r := s.r.set (n.setWidth 4).toNat v (BitVec.isLt _)
      pfpDirty := if n = 0 then s.pfpDirty || decide ((v ^^^ s.r[0]) &&& 0xFFFFFFF7 ≠ 0)
        else s.pfpDirty } := if_neg (by rw [h]; decide)
/-- Reading a global register. -/
theorem State.reg_global {n : Reg} (h : n.getLsbD 4 = true) (s : State) :
    s.reg n = s.g[(n.setWidth 4).toNat]'(BitVec.isLt _) := if_pos h
/-- Reading a local register. -/
theorem State.reg_local {n : Reg} (h : n.getLsbD 4 = false) (s : State) :
    s.reg n = s.r[(n.setWidth 4).toNat]'(BitVec.isLt _) := if_neg (by rw [h]; decide)
/-- Reading a register after writing one. -/
theorem State.reg_setReg (s : State) (n m : Reg) (v : Word) :
    (s.setReg n v).reg m = if m = n then v else s.reg m := by
  rcases hn : n.getLsbD 4 <;> rcases hm : m.getLsbD 4
  · rw [State.setReg_local hn, State.reg_local hm, State.reg_local hm, Vector.getElem_set]
    by_cases h : m = n
    · subst h; rw [if_pos rfl, if_pos rfl]
    · rw [if_neg (fun e => h (reg_index m n (hm.trans hn.symm) e)), if_neg h]
  · rw [if_neg (fun e => by rw [e, hn] at hm; cases hm), State.setReg_local hn, State.reg_global hm,
      State.reg_global hm]
  · rw [if_neg (fun e => by rw [e, hn] at hm; cases hm), State.setReg_global hn, State.reg_local hm,
      State.reg_local hm]
  · rw [State.setReg_global hn, State.reg_global hm, State.reg_global hm, Vector.getElem_set]
    by_cases h : m = n
    · subst h; rw [if_pos rfl, if_pos rfl]
    · rw [if_neg (fun e => h (reg_index m n (hm.trans hn.symm) e)), if_neg h]

@[simp] theorem State.setIp_reg (s : State) (v : Word) (n : Reg) : (s.setIp v).reg n = s.reg n := rfl

@[simp] theorem State.setAc_reg (s : State) (v : Word) (n : Reg) : (s.setAc v).reg n = s.reg n := rfl

@[simp] theorem State.setPc_reg (s : State) (v : Word) (n : Reg) : (s.setPc v).reg n = s.reg n := rfl

@[simp] theorem State.setTc_reg (s : State) (v : Word) (n : Reg) : (s.setTc v).reg n = s.reg n := rfl

@[simp] theorem State.setCc_reg (s : State) (c : BitVec 3) (n : Reg) : (s.setCc c).reg n = s.reg n := rfl

@[simp] theorem State.bump_reg (s : State) (n : Reg) : s.bump.reg n = s.reg n := rfl


/-- Reading a register after writing a group: the group's value, or the old one. -/
theorem State.reg_setRegs (s : State) (n m : Reg) (vs : List Word) (h : vs.length ≤ 32) :
    (s.setRegs n vs).reg m = (vs[(m - n).toNat]?).getD (s.reg m) := by
  induction vs generalizing s n with
  | nil => simp
  | cons v vs ih =>
    rw [State.setRegs_cons, ih _ _ (by simp at h; omega), State.reg_setReg]
    simp only [List.length_cons] at h
    by_cases e : m = n
    · subst e
      have : (m - (m + 1)).toNat = 31 := by
        have : m - (m + 1) = -1 := by bv_omega
        rw [this]; rfl
      rw [this, List.getElem?_eq_none (by omega)]
      simp
    · have : (m - n).toNat = (m - (n + 1)).toNat + 1 := by
        have : m - n ≠ 0 := by bv_omega
        bv_omega
      rw [this, List.getElem?_cons_succ, if_neg e]

/-! ## Memory and AC replaced -/



/-- The state with another memory, and other words that a fetch may still see. -/

def State.withMem (s : State) (m : List Host.Cell) (st : List (Nat × Word)) : State :=

  { s with mem := m, stale := st }



/-- The state with another AC. -/

def State.withAc (s : State) (v : Word) : State := { s with ac := v }



@[simp] theorem State.withMem_g (s : State) (m : List Host.Cell) (st : List (Nat × Word)) :
    (s.withMem m st).g = s.g := rfl

@[simp] theorem State.withMem_r (s : State) (m : List Host.Cell) (st : List (Nat × Word)) :
    (s.withMem m st).r = s.r := rfl

@[simp] theorem State.withMem_ip (s : State) (m : List Host.Cell) (st : List (Nat × Word)) :
    (s.withMem m st).ip = s.ip := rfl

@[simp] theorem State.withMem_ac (s : State) (m : List Host.Cell) (st : List (Nat × Word)) :
    (s.withMem m st).ac = s.ac := rfl

@[simp] theorem State.withMem_pc (s : State) (m : List Host.Cell) (st : List (Nat × Word)) :
    (s.withMem m st).pc = s.pc := rfl

@[simp] theorem State.withMem_tc (s : State) (m : List Host.Cell) (st : List (Nat × Word)) :
    (s.withMem m st).tc = s.tc := rfl

@[simp] theorem State.withMem_prcb (s : State) (m : List Host.Cell) (st : List (Nat × Word)) :
    (s.withMem m st).prcb = s.prcb := rfl

@[simp] theorem State.withMem_isp (s : State) (m : List Host.Cell) (st : List (Nat × Word)) :
    (s.withMem m st).isp = s.isp := rfl

@[simp] theorem State.withMem_ssp (s : State) (m : List Host.Cell) (st : List (Nat × Word)) :
    (s.withMem m st).ssp = s.ssp := rfl

@[simp] theorem State.withMem_sspTe (s : State) (m : List Host.Cell) (st : List (Nat × Word)) :
    (s.withMem m st).sspTe = s.sspTe := rfl

@[simp] theorem State.withMem_faultBase (s : State) (m : List Host.Cell) (st : List (Nat × Word)) :
    (s.withMem m st).faultBase = s.faultBase := rfl

@[simp] theorem State.withMem_ctrlBase (s : State) (m : List Host.Cell) (st : List (Nat × Word)) :
    (s.withMem m st).ctrlBase = s.ctrlBase := rfl

@[simp] theorem State.withMem_intBase (s : State) (m : List Host.Cell) (st : List (Nat × Word)) :
    (s.withMem m st).intBase = s.intBase := rfl

@[simp] theorem State.withMem_sptBase (s : State) (m : List Host.Cell) (st : List (Nat × Word)) :
    (s.withMem m st).sptBase = s.sptBase := rfl

@[simp] theorem State.withMem_unalignedFault (s : State) (m : List Host.Cell) (st : List (Nat × Word)) :
    (s.withMem m st).unalignedFault = s.unalignedFault := rfl

@[simp] theorem State.withMem_rc (s : State) (m : List Host.Cell) (st : List (Nat × Word)) :
    (s.withMem m st).rc = s.rc := rfl

@[simp] theorem State.withMem_rcLimit (s : State) (m : List Host.Cell) (st : List (Nat × Word)) :
    (s.withMem m st).rcLimit = s.rcLimit := rfl

@[simp] theorem State.withMem_frameAddr (s : State) (m : List Host.Cell) (st : List (Nat × Word)) :
    (s.withMem m st).frameAddr = s.frameAddr := rfl

@[simp] theorem State.withMem_dirtyFrames (s : State) (m : List Host.Cell) (st : List (Nat × Word)) :
    (s.withMem m st).dirtyFrames = s.dirtyFrames := rfl

@[simp] theorem State.withMem_kept (s : State) (m : List Host.Cell) (st : List (Nat × Word)) :
    (s.withMem m st).kept = s.kept := rfl

@[simp] theorem State.withMem_pfpDirty (s : State) (m : List Host.Cell) (st : List (Nat × Word)) :
    (s.withMem m st).pfpDirty = s.pfpDirty := rfl

@[simp] theorem State.withMem_icEnabled (s : State) (m : List Host.Cell) (st : List (Nat × Word)) :
    (s.withMem m st).icEnabled = s.icEnabled := rfl

@[simp] theorem State.withMem_icLocked (s : State) (m : List Host.Cell) (st : List (Nat × Word)) :
    (s.withMem m st).icLocked = s.icLocked := rfl

@[simp] theorem State.withMem_dcEnabled (s : State) (m : List Host.Cell) (st : List (Nat × Word)) :
    (s.withMem m st).dcEnabled = s.dcEnabled := rfl

@[simp] theorem State.withMem_stale (s : State) (m : List Host.Cell) (st : List (Nat × Word)) :
    (s.withMem m st).stale = st := rfl

@[simp] theorem State.withMem_run (s : State) (m : List Host.Cell) (st : List (Nat × Word)) :
    (s.withMem m st).run = s.run := rfl

@[simp] theorem State.withMem_halted (s : State) (m : List Host.Cell) (st : List (Nat × Word)) :
    (s.withMem m st).halted = s.halted := rfl

@[simp] theorem State.withMem_fresh (s : State) (m : List Host.Cell) (st : List (Nat × Word)) :
    (s.withMem m st).fresh = s.fresh := rfl

@[simp] theorem State.withMem_mem (s : State) (m : List Host.Cell) (st : List (Nat × Word)) :
    (s.withMem m st).mem = m := rfl

@[simp] theorem State.withMem_intc (s : State) (m : List Host.Cell) (st : List (Nat × Word)) :
    (s.withMem m st).intc = s.intc := rfl

@[simp] theorem State.withMem_timer0 (s : State) (m : List Host.Cell) (st : List (Nat × Word)) :
    (s.withMem m st).timer0 = s.timer0 := rfl

@[simp] theorem State.withMem_timer1 (s : State) (m : List Host.Cell) (st : List (Nat × Word)) :
    (s.withMem m st).timer1 = s.timer1 := rfl

@[simp] theorem State.withMem_bus (s : State) (m : List Host.Cell) (st : List (Nat × Word)) :
    (s.withMem m st).bus = s.bus := rfl

@[simp] theorem State.withMem_dbg (s : State) (m : List Host.Cell) (st : List (Nat × Word)) :
    (s.withMem m st).dbg = s.dbg := rfl

@[simp] theorem State.withMem_cpcu (s : State) (m : List Host.Cell) (st : List (Nat × Word)) :
    (s.withMem m st).cpcu = s.cpcu := rfl

@[simp] theorem State.withMem_mc (s : State) (m : List Host.Cell) (st : List (Nat × Word)) :
    (s.withMem m st).mc = s.mc := rfl

@[simp] theorem State.withMem_arb (s : State) (m : List Host.Cell) (st : List (Nat × Word)) :
    (s.withMem m st).arb = s.arb := rfl

@[simp] theorem State.withMem_atu (s : State) (m : List Host.Cell) (st : List (Nat × Word)) :
    (s.withMem m st).atu = s.atu := rfl

@[simp] theorem State.withMem_mu (s : State) (m : List Host.Cell) (st : List (Nat × Word)) :
    (s.withMem m st).mu = s.mu := rfl

@[simp] theorem State.withMem_dma0 (s : State) (m : List Host.Cell) (st : List (Nat × Word)) :
    (s.withMem m st).dma0 = s.dma0 := rfl

@[simp] theorem State.withMem_dma1 (s : State) (m : List Host.Cell) (st : List (Nat × Word)) :
    (s.withMem m st).dma1 = s.dma1 := rfl

@[simp] theorem State.withMem_dreq (s : State) (m : List Host.Cell) (st : List (Nat × Word)) :
    (s.withMem m st).dreq = s.dreq := rfl

@[simp] theorem State.withMem_i2c (s : State) (m : List Host.Cell) (st : List (Nat × Word)) :
    (s.withMem m st).i2c = s.i2c := rfl

@[simp] theorem State.withMem_tap (s : State) (m : List Host.Cell) (st : List (Nat × Word)) :
    (s.withMem m st).tap = s.tap := rfl

@[simp] theorem State.withMem_board (s : State) (m : List Host.Cell) (st : List (Nat × Word)) :
    (s.withMem m st).board = s.board := rfl

@[simp] theorem State.withMem_schedule (s : State) (m : List Host.Cell) (st : List (Nat × Word)) :
    (s.withMem m st).schedule = s.schedule := rfl

@[simp] theorem State.withMem_pciCount (s : State) (m : List Host.Cell) (st : List (Nat × Word)) :
    (s.withMem m st).pciCount = s.pciCount := rfl

@[simp] theorem State.withMem_pciLog (s : State) (m : List Host.Cell) (st : List (Nat × Word)) :
    (s.withMem m st).pciLog = s.pciLog := rfl

@[simp] theorem State.withAc_g (s : State) (v : Word) : (s.withAc v).g = s.g := rfl

@[simp] theorem State.withAc_r (s : State) (v : Word) : (s.withAc v).r = s.r := rfl

@[simp] theorem State.withAc_ip (s : State) (v : Word) : (s.withAc v).ip = s.ip := rfl

@[simp] theorem State.withAc_ac (s : State) (v : Word) : (s.withAc v).ac = v := rfl

@[simp] theorem State.withAc_pc (s : State) (v : Word) : (s.withAc v).pc = s.pc := rfl

@[simp] theorem State.withAc_tc (s : State) (v : Word) : (s.withAc v).tc = s.tc := rfl

@[simp] theorem State.withAc_prcb (s : State) (v : Word) : (s.withAc v).prcb = s.prcb := rfl

@[simp] theorem State.withAc_isp (s : State) (v : Word) : (s.withAc v).isp = s.isp := rfl

@[simp] theorem State.withAc_ssp (s : State) (v : Word) : (s.withAc v).ssp = s.ssp := rfl

@[simp] theorem State.withAc_sspTe (s : State) (v : Word) : (s.withAc v).sspTe = s.sspTe := rfl

@[simp] theorem State.withAc_faultBase (s : State) (v : Word) : (s.withAc v).faultBase = s.faultBase := rfl

@[simp] theorem State.withAc_ctrlBase (s : State) (v : Word) : (s.withAc v).ctrlBase = s.ctrlBase := rfl

@[simp] theorem State.withAc_intBase (s : State) (v : Word) : (s.withAc v).intBase = s.intBase := rfl

@[simp] theorem State.withAc_sptBase (s : State) (v : Word) : (s.withAc v).sptBase = s.sptBase := rfl

@[simp] theorem State.withAc_unalignedFault (s : State) (v : Word) : (s.withAc v).unalignedFault = s.unalignedFault := rfl

@[simp] theorem State.withAc_rc (s : State) (v : Word) : (s.withAc v).rc = s.rc := rfl

@[simp] theorem State.withAc_rcLimit (s : State) (v : Word) : (s.withAc v).rcLimit = s.rcLimit := rfl

@[simp] theorem State.withAc_frameAddr (s : State) (v : Word) : (s.withAc v).frameAddr = s.frameAddr := rfl

@[simp] theorem State.withAc_dirtyFrames (s : State) (v : Word) : (s.withAc v).dirtyFrames = s.dirtyFrames := rfl

@[simp] theorem State.withAc_kept (s : State) (v : Word) : (s.withAc v).kept = s.kept := rfl

@[simp] theorem State.withAc_pfpDirty (s : State) (v : Word) : (s.withAc v).pfpDirty = s.pfpDirty := rfl

@[simp] theorem State.withAc_icEnabled (s : State) (v : Word) : (s.withAc v).icEnabled = s.icEnabled := rfl

@[simp] theorem State.withAc_icLocked (s : State) (v : Word) : (s.withAc v).icLocked = s.icLocked := rfl

@[simp] theorem State.withAc_dcEnabled (s : State) (v : Word) : (s.withAc v).dcEnabled = s.dcEnabled := rfl

@[simp] theorem State.withAc_stale (s : State) (v : Word) : (s.withAc v).stale = s.stale := rfl

@[simp] theorem State.withAc_run (s : State) (v : Word) : (s.withAc v).run = s.run := rfl

@[simp] theorem State.withAc_halted (s : State) (v : Word) : (s.withAc v).halted = s.halted := rfl

@[simp] theorem State.withAc_fresh (s : State) (v : Word) : (s.withAc v).fresh = s.fresh := rfl

@[simp] theorem State.withAc_mem (s : State) (v : Word) : (s.withAc v).mem = s.mem := rfl

@[simp] theorem State.withAc_intc (s : State) (v : Word) : (s.withAc v).intc = s.intc := rfl

@[simp] theorem State.withAc_timer0 (s : State) (v : Word) : (s.withAc v).timer0 = s.timer0 := rfl

@[simp] theorem State.withAc_timer1 (s : State) (v : Word) : (s.withAc v).timer1 = s.timer1 := rfl

@[simp] theorem State.withAc_bus (s : State) (v : Word) : (s.withAc v).bus = s.bus := rfl

@[simp] theorem State.withAc_dbg (s : State) (v : Word) : (s.withAc v).dbg = s.dbg := rfl

@[simp] theorem State.withAc_cpcu (s : State) (v : Word) : (s.withAc v).cpcu = s.cpcu := rfl

@[simp] theorem State.withAc_mc (s : State) (v : Word) : (s.withAc v).mc = s.mc := rfl

@[simp] theorem State.withAc_arb (s : State) (v : Word) : (s.withAc v).arb = s.arb := rfl

@[simp] theorem State.withAc_atu (s : State) (v : Word) : (s.withAc v).atu = s.atu := rfl

@[simp] theorem State.withAc_mu (s : State) (v : Word) : (s.withAc v).mu = s.mu := rfl

@[simp] theorem State.withAc_dma0 (s : State) (v : Word) : (s.withAc v).dma0 = s.dma0 := rfl

@[simp] theorem State.withAc_dma1 (s : State) (v : Word) : (s.withAc v).dma1 = s.dma1 := rfl

@[simp] theorem State.withAc_dreq (s : State) (v : Word) : (s.withAc v).dreq = s.dreq := rfl

@[simp] theorem State.withAc_i2c (s : State) (v : Word) : (s.withAc v).i2c = s.i2c := rfl

@[simp] theorem State.withAc_tap (s : State) (v : Word) : (s.withAc v).tap = s.tap := rfl

@[simp] theorem State.withAc_board (s : State) (v : Word) : (s.withAc v).board = s.board := rfl

@[simp] theorem State.withAc_schedule (s : State) (v : Word) : (s.withAc v).schedule = s.schedule := rfl

@[simp] theorem State.withAc_pciCount (s : State) (v : Word) : (s.withAc v).pciCount = s.pciCount := rfl

@[simp] theorem State.withAc_pciLog (s : State) (v : Word) : (s.withAc v).pciLog = s.pciLog := rfl

@[simp] theorem State.withMem_reg (s : State) (m : List Host.Cell) (st : List (Nat × Word)) (n : Reg) :
    (s.withMem m st).reg n = s.reg n := rfl

@[simp] theorem State.withMem_te (s : State) (m : List Host.Cell) (st : List (Nat × Word)) : (s.withMem m st).te = s.te := rfl

@[simp] theorem State.withMem_supervisor (s : State) (m : List Host.Cell) (st : List (Nat × Word)) :
    (s.withMem m st).supervisor = s.supervisor := rfl

@[simp] theorem State.withMem_undef (s : State) (m : List Host.Cell) (st : List (Nat × Word)) (i : Nat) :
    (s.withMem m st).undef i = s.undef i := rfl

@[simp] theorem State.withMem_unaligned (s : State) (m : List Host.Cell) (st : List (Nat × Word)) (a : Word) (n : Nat) :
    (s.withMem m st).unaligned a n = s.unaligned a n := rfl

@[simp] theorem State.withMem_storeTrap (s : State) (m : List Host.Cell) (st : List (Nat × Word)) (a : Word) (n : Nat) :
    (s.withMem m st).storeTrap a n = s.storeTrap a n := rfl

@[simp] theorem State.withMem_target (s : State) (m : List Host.Cell) (st : List (Nat × Word)) (a : Word) :
    (s.withMem m st).target a = s.target a := rfl

@[simp] theorem State.withMem_cell (s : State) (m : List Host.Cell) (st : List (Nat × Word)) (a : Word) :
    (s.withMem m st).cell a = s.cell a := rfl

@[simp] theorem State.withMem_cellW (s : State) (m : List Host.Cell) (st : List (Nat × Word)) (a : Word) :
    (s.withMem m st).cellW a = s.cellW a := rfl

@[simp] theorem State.withAc_reg (s : State) (v : Word) (n : Reg) :
    (s.withAc v).reg n = s.reg n := rfl

@[simp] theorem State.withAc_te (s : State) (v : Word) : (s.withAc v).te = s.te := rfl

@[simp] theorem State.withAc_supervisor (s : State) (v : Word) :
    (s.withAc v).supervisor = s.supervisor := rfl

@[simp] theorem State.withAc_undef (s : State) (v : Word) (i : Nat) :
    (s.withAc v).undef i = s.undef i := rfl

@[simp] theorem State.withAc_unaligned (s : State) (v : Word) (a : Word) (n : Nat) :
    (s.withAc v).unaligned a n = s.unaligned a n := rfl

@[simp] theorem State.withAc_storeTrap (s : State) (v : Word) (a : Word) (n : Nat) :
    (s.withAc v).storeTrap a n = s.storeTrap a n := rfl

@[simp] theorem State.withAc_target (s : State) (v : Word) (a : Word) :
    (s.withAc v).target a = s.target a := rfl

@[simp] theorem State.withAc_cell (s : State) (v : Word) (a : Word) :
    (s.withAc v).cell a = s.cell a := rfl

@[simp] theorem State.withAc_cellW (s : State) (v : Word) (a : Word) :
    (s.withAc v).cellW a = s.cellW a := rfl

theorem State.setReg_withAc (s : State) (n : Reg) (v w : Word) :
    (s.setReg n v).withAc w = (s.withAc w).setReg n v := by
  unfold State.setReg; split <;> rfl

theorem State.withMem_withMem (s : State) (m m' : List Host.Cell) (st st' : List (Nat × Word)) :
    (s.withMem m st).withMem m' st' = s.withMem m' st' := rfl

theorem State.withMem_self (s : State) : s.withMem s.mem s.stale = s := rfl

end Sys2Proof.Machine
end

