-- ==== Sys2Proof/Laws/Effect.lean ====
section
/-! SUPPORT. What completing an instruction leaves with tracing off, and the frame of an instruction
that writes registers only. -/

namespace Sys2Proof.Machine

/-! ## Completion -/

/-- With tracing off a completed instruction goes on at its successor. -/
theorem retire_quiet {s : State} (h : s.te = false) (ev : Events) (next : Word) :
    retire ev next s = .next (s.setIp next).bump := by
  simp [retire, traceAfter, h]

/-- With tracing off an instruction of one word goes on at the next. -/
theorem advance_quiet {s : State} (h : s.te = false) : advance s = .next s.nextInstr :=
  retire_quiet h _ _

/-- With tracing off nothing is reported after an instruction. -/
theorem traceAfter_quiet {s : State} (h : s.te = false) (a : Word) (ev : Events) :
    traceAfter a ev s = .next s.bump := by
  simp [traceAfter, h]

/-- With no breakpoint armed an instruction raises no breakpoint flag. -/
theorem breakpointFlags_calm {s : State} (a : Word) (ev : Events) (h0 : s.dbg.ipb0 = 0)
    (h1 : s.dbg.ipb1 = 0) (hb : s.dbg.bpcon = 0) (hf : ev.flags = 0) :
    s.breakpointFlags a ev = 0 := by
  simp [State.breakpointFlags, State.dataFlags, ipbMatch, dabMatch, h0, h1, hb, hf, field, bitAt]

theorem reserved_calm {d : Debug} (h0 : d.ipb0 = 0) (h1 : d.ipb1 = 0) (hb : d.bpcon = 0) :
    d.reserved = false := by
  simp [Debug.reserved, reservedPair, h0, h1, hb, field]

/-- A trace mode bit of TC, the modes being `m`. -/
theorem traceMode_bit {tc m : Word} (h : tc &&& 0xFE = m) (i : Nat)
    (hi : (0xFE : Word).getLsbD i = true) : bit tc i = m.getLsbD i := by
  rw [← h, BitVec.getLsbD_and, hi, Bool.and_true]
  rfl

/-- The trace events of an instruction under the trace modes `m`, no breakpoint matched. -/
theorem traceBits_modes {s : State} {m : Word} (h : s.tc &&& 0xFE = m) (ev : Events) :
    s.traceBits 0 ev =
      (bitAt (m.getLsbD 1 && !ev.silent) 1 ||| bitAt (m.getLsbD 2 && ev.branch) 2 |||
        bitAt (m.getLsbD 3 && ev.call) 3 ||| bitAt (m.getLsbD 4 && ev.ret) 4 |||
        bitAt (m.getLsbD 6 && ev.supervisor) 6 |||
        bitAt ((m.getLsbD 7 && ev.mark) || ev.fmark) 7) := by
  unfold State.traceBits
  simp only [traceMode_bit h 1 rfl, traceMode_bit h 2 rfl, traceMode_bit h 3 rfl,
    traceMode_bit h 4 rfl, traceMode_bit h 6 rfl, traceMode_bit h 7 rfl]
  simp

/-- With no breakpoint armed and no trace event, nothing is reported after an instruction. -/
theorem traceAfter_calm {s : State} (a : Word) (ev : Events) (h0 : s.dbg.ipb0 = 0)
    (h1 : s.dbg.ipb1 = 0) (hb : s.dbg.bpcon = 0) (hf : ev.flags = 0)
    (hbits : s.traceBits 0 ev = 0) : traceAfter a ev s = .next s.bump := by
  unfold traceAfter
  simp only [reserved_calm h0 h1 hb, breakpointFlags_calm a ev h0 h1 hb hf, hbits,
    Bool.false_eq_true, if_false, if_true, ite_self]

/-- With tracing on and no breakpoint armed, the trace events of an instruction are one fault. -/
theorem traceAfter_traced {s : State} (a : Word) (ev : Events) (te : s.te = true)
    (h0 : s.dbg.ipb0 = 0) (h1 : s.dbg.ipb1 = 0) (hb : s.dbg.bpcon = 0) (hf : ev.flags = 0)
    {bits : Word} (hn : bits ≠ 0) (hbits : s.traceBits 0 ev = bits) :
    traceAfter a ev s = traceFault bits 0 (some a) (some s.ip) none s.bump := by
  subst hbits
  unfold traceAfter
  simp only [reserved_calm h0 h1 hb, breakpointFlags_calm a ev h0 h1 hb hf, hn, te,
    Bool.false_eq_true, if_false, if_true]

/-- An operation that succeeds goes on. -/
theorem orRaise_ok {α : Type} {ev : Events} {len : Word} {s0 s : State} {v : α}
    (k : α → State → Res) : orRaise ev len s0 (.ok v s) k = k v s := rfl

/-- An operation that traps raises the fault. -/
theorem orRaise_trap {α : Type} {ev : Events} {len : Word} {s0 s : State} {t : Trap}
    (k : α → State → Res) :
    orRaise ev len s0 (.trap t s) k = raise t ev (s0.ip + len) { s with ip := s0.ip } := rfl

@[simp] theorem Eff.bind_ok {α β : Type} (v : α) (s : State) (k : α → State → Eff β) :
    (Eff.ok v s).bind k = k v s := rfl
@[simp] theorem Eff.bind_trap {α β : Type} (t : Trap) (s : State) (k : α → State → Eff β) :
    (Eff.trap t s).bind k = .trap t s := rfl
@[simp] theorem Eff.bind_over {α β : Type} (s : State) (k : α → State → Eff β) :
    (Eff.over s : Eff α).bind k = .over s := rfl
@[simp] theorem Eff.bind_fault {α β : Type} (f : Fault) (k : α → State → Eff β) :
    (Eff.fault f : Eff α).bind k = .fault f := rfl
@[simp] theorem Eff.bind_refuse {α β : Type} (r : Refusal) (k : α → State → Eff β) :
    (Eff.refuse r : Eff α).bind k = .refuse r := rfl

/-! ## Address decode does not depend on the core -/

/-- Who answers an address depends on the ATU, the memory controller and the board only. -/
theorem target_congr {s t : State} (ha : t.atu = s.atu) (hm : t.mc = s.mc) (hb : t.board = s.board)
    (a : Word) : t.target a = s.target a := by
  simp only [State.target, ha, hm, hb]

/-- A byte of memory reads the same where memory and address decode are the same. -/
theorem peek_congr {s t : State} (ha : t.atu = s.atu) (hm : t.mc = s.mc) (hb : t.board = s.board)
    (hmem : t.mem = s.mem) (a : Word) : t.peek a = s.peek a := by
  simp only [State.peek, target_congr ha hm hb, hmem]

/-! ## Register groups -/

/-- A member of a group is one of its registers with its value. -/
theorem mem_group {n : Reg} {vs : List Word} (h : vs.length ≤ 32) {p : Reg × Word}
    (hp : p ∈ group n vs) : vs[(p.1 - n).toNat]? = some p.2 := by
  induction vs generalizing n with
  | nil => cases hp
  | cons v vs ih =>
    simp only [List.length_cons] at h
    rcases List.mem_cons.1 hp with rfl | hp
    · simp
    · have := ih (by omega) hp
      have hlt : (p.1 - (n + 1)).toNat < vs.length := (List.getElem?_eq_some_iff.1 this).1
      have e : (p.1 - n).toNat = (p.1 - (n + 1)).toNat + 1 := by bv_omega
      rw [e, List.getElem?_cons_succ, this]

/-- A register outside a group is at no index of it. -/
theorem not_mem_group {n m : Reg} {vs : List Word} (h : vs.length ≤ 32)
    (hm : ∀ p, p ∈ group n vs → m ≠ p.1) : vs[(m - n).toNat]? = none := by
  induction vs generalizing n with
  | nil => simp
  | cons v vs ih =>
    simp only [List.length_cons] at h
    have h0 : m ≠ n := hm (n, v) (by simp [group])
    have := ih (n := n + 1) (by omega) (fun p hp => hm p (List.mem_cons_of_mem _ hp))
    have hge : vs.length ≤ (m - (n + 1)).toNat := List.getElem?_eq_none_iff.1 this
    apply List.getElem?_eq_none
    simp only [List.length_cons]
    have e : (m - n).toNat = (m - (n + 1)).toNat + 1 := by
      have : m - n ≠ 0 := by bv_omega
      bv_omega
    omega

/-! ## The frame of an instruction that writes registers -/

/-- A group of registers and AC written: the effect. -/
theorem Effect.ofRegs (s : State) (n : Reg) (vs : List Word) (ac next : Word)
    (h : vs.length ≤ 32) :
    Effect s ((((s.withAc ac).setRegs n vs).setIp next).bump) (group n vs) ac next where
  written p hp := by
    simp only [State.bump_reg, State.setIp_reg, State.reg_setRegs _ _ _ _ h, mem_group h hp]
    rfl
  others m hm := by
    simp only [State.bump_reg, State.setIp_reg, State.reg_setRegs _ _ _ _ h, not_mem_group h hm]
    rfl
  ac := by simp
  ip := by simp
  memory a := peek_congr (by simp) (by simp) (by simp) (by simp) a
  rest := by
    have h : ∀ t : State, t.setRegs n vs =
        { t with g := (t.setRegs n vs).g, r := (t.setRegs n vs).r, pfpDirty := (t.setRegs n vs).pfpDirty } := by
      induction vs generalizing n with
      | nil => intro t; rfl
      | cons v vs ih =>
        intro t
        rw [State.setRegs_cons, ih (n + 1) (by simp at h; omega)]
        unfold State.setReg
        split <;> rfl
    rw [h]; rfl

/-- The condition code and a register may be written in either order. -/
theorem setCc_setReg (s : State) (c : BitVec 3) (n : Reg) (v : Word) :
    (s.setReg n v).setCc c = (s.setCc c).setReg n v := by
  unfold State.setReg; split <;> rfl

/-- No register and AC written: the effect. -/
theorem Effect.ofAc (s : State) (ac next : Word) :
    Effect s (((s.withAc ac).setIp next).bump) [] ac next :=
  Effect.ofRegs s 0 [] ac next (by simp)

/-- Registers written, AC kept: the effect. -/
theorem Effect.ofGroup (s : State) (n : Reg) (vs : List Word) (next : Word) (h : vs.length ≤ 32) :
    Effect s (((s.setRegs n vs).setIp next).bump) (group n vs) s.ac next :=
  Effect.ofRegs s n vs s.ac next h

/-- One register written: the effect. -/
theorem Effect.ofReg (s : State) (n : Reg) (v next : Word) :
    Effect s (((s.setReg n v).setIp next).bump) [(n, v)] s.ac next :=
  Effect.ofRegs s n [v] s.ac next (by simp)

/-- One register and the condition code written: the effect. -/
theorem Effect.ofRegCc (s : State) (n : Reg) (v : Word) (c : BitVec 3) (next : Word) :
    Effect s ((((s.setCc c).setReg n v).setIp next).bump) [(n, v)] (s.setCc c).ac next :=
  Effect.ofRegs s n [v] (s.setCc c).ac next (by simp)

/-- The condition code written: the effect. -/
theorem Effect.ofCc (s : State) (c : BitVec 3) (next : Word) :
    Effect s (((s.setCc c).setIp next).bump) [] (s.setCc c).ac next :=
  Effect.ofAc s (s.setCc c).ac next

/-- Nothing but IP: the effect. -/
theorem Effect.ofIp (s : State) (next : Word) : Effect s ((s.setIp next).bump) [] s.ac next :=
  Effect.ofAc s s.ac next

end Sys2Proof.Machine
end

