-- ==== Sys2Proof/Laws/Memory.lean ====
section
/-! SUPPORT. The laws of the memory: a write is read back and leaves every other byte alone, and
every operation keeps the canonical form. -/

namespace Sys2Proof.Machine

/-- Reading a key after writing one. -/
theorem Memory.get_set (m : List Host.Cell) (k j : Nat) (v : Byte) :
    Memory.get (Memory.set m k v) j = if j = k then some v else Memory.get m j := by
  induction m with
  | nil =>
    by_cases e : j = k
    · simp [Memory.set, Memory.get, e]
    · by_cases l : j < k <;> simp [Memory.set, Memory.get, e, l]
  | cons c m ih =>
    obtain ⟨a, b⟩ := c
    simp only [Memory.set]
    split
    · rename_i hk
      by_cases e : j = k
      · simp [Memory.get, e]
      · by_cases l : j < k
        · have : j < a := by omega
          simp [Memory.get, e, l, this]
        · simp [Memory.get, e, l]
    · split
      · rename_i hk ha
        subst ha
        by_cases e : j = k
        · simp [Memory.get, e]
        · simp [Memory.get, e]
      · rename_i hk ha
        by_cases e : j = k
        · subst e; simp [Memory.get, hk, ha, ih]
        · simp [Memory.get, ih, e]

/-- A write keeps the canonical form. -/
theorem Memory.wf_set {m : List Host.Cell} (h : Memory.wf m = true) (k : Nat) (v : Byte) :
    Memory.wf (Memory.set m k v) = true := by
  have hd : ∀ m : List Host.Cell, ∀ c : Host.Cell, Memory.wf (c :: m) = true → c.1 < k →
      Memory.wf (c :: Memory.set m k v) = true := by
    intro m
    induction m with
    | nil => intro c _ hc; simp [Memory.set, Memory.wf, hc]
    | cons d m ih =>
      intro c hw hc
      simp only [Memory.wf, Bool.and_eq_true, decide_eq_true_eq] at hw
      simp only [Memory.set]
      split
      · rename_i hk; simp only [Memory.wf, Bool.and_eq_true, decide_eq_true_eq]; exact ⟨hc, hk, hw.2⟩
      · split
        · rename_i hk ha
          subst ha
          cases m with
          | nil => simp [Memory.wf, hw.1]
          | cons e m => simp only [Memory.wf, Bool.and_eq_true, decide_eq_true_eq] at hw ⊢; exact ⟨hw.1, hw.2⟩
        · rename_i hk ha
          have := ih d hw.2 (by omega)
          simp only [Memory.wf, Bool.and_eq_true, decide_eq_true_eq]
          exact ⟨hw.1, this⟩
  cases m with
  | nil => rfl
  | cons c m =>
    obtain ⟨a, b⟩ := c
    simp only [Memory.set]
    split
    · rename_i hk; simp only [Memory.wf, Bool.and_eq_true, decide_eq_true_eq]; exact ⟨hk, h⟩
    · split
      · rename_i hk ha
        subst ha
        cases m with
        | nil => rfl
        | cons e m => simp only [Memory.wf, Bool.and_eq_true, decide_eq_true_eq] at h ⊢; exact h
      · rename_i hk ha; exact hd m (a, b) h (by simp; omega)

/-- Writing bytes keeps the canonical form. -/
theorem Memory.wf_writeBytes {m : List Host.Cell} (h : Memory.wf m = true) (k : Nat) (bs : List Byte) :
    Memory.wf (Memory.writeBytes m k bs) = true := by
  induction bs generalizing m k with
  | nil => exact h
  | cons b bs ih => exact ih (Memory.wf_set h k b) (k + 1)

/-- Forgetting the low cells keeps the canonical form. -/
theorem Memory.wf_dropBelow {m : List Host.Cell} (h : Memory.wf m = true) (n : Nat) :
    Memory.wf (Memory.dropBelow m n) = true := by
  have key : ∀ l : List Host.Cell, Memory.wf l = true ↔ l.Pairwise (fun c d => c.1 < d.1) := by
    intro l
    induction l with
    | nil => simp [Memory.wf]
    | cons c l ih =>
      cases l with
      | nil => simp [Memory.wf]
      | cons d l =>
        simp only [Memory.wf, Bool.and_eq_true, decide_eq_true_eq, ih, List.pairwise_cons]
        constructor
        · rintro ⟨hc, hd, hl⟩
          refine ⟨fun e he => ?_, hd, hl⟩
          rcases List.mem_cons.1 he with rfl | he
          · exact hc
          · exact lt_trans hc (hd e he)
        · rintro ⟨hc, hd, hl⟩
          exact ⟨hc d (by simp), hd, hl⟩
  rw [key] at h ⊢
  exact h.filter _

/-- Reading a byte after writing one. -/
theorem Memory.read_set (m : List Host.Cell) (k j : Nat) (v : Byte) :
    Memory.read (Memory.set m k v) j = if j = k then v else Memory.read m j := by
  unfold Memory.read
  rw [Memory.get_set]
  split <;> rfl

/-- Reading a byte after writing a run of bytes: the byte of the run, or the old one. -/
theorem Memory.read_writeBytes (m : List Host.Cell) (k j : Nat)
    (bs : List Byte) :
    Memory.read (Memory.writeBytes m k bs) j =
      if k ≤ j then (bs[j - k]?).getD (Memory.read m j) else Memory.read m j := by
  induction bs generalizing m k with
  | nil => simp [Memory.writeBytes]
  | cons b bs ih =>
    rw [Memory.writeBytes, ih, Memory.read_set]
    by_cases l : k ≤ j
    · by_cases e : j = k
      · subst e; simp
      · have l' : k + 1 ≤ j := by omega
        have : j - k = (j - (k + 1)) + 1 := by omega
        simp [l, l', e, this]
    · have l' : ¬ k + 1 ≤ j := by omega
      have e : j ≠ k := by omega
      simp [l, l', e]

@[simp] theorem Memory.readBytes_length (m : List Host.Cell) (k n : Nat) :
    (Memory.readBytes m k n).length = n := by
  induction n generalizing k with
  | zero => rfl
  | succ n ih => simp [Memory.readBytes, ih]

/-- The bytes of a run, one by one. -/
theorem Memory.readBytes_get (m : List Host.Cell) (k n i : Nat) (h : i < n) :
    (Memory.readBytes m k n)[i]? = some (Memory.read m (k + i)) := by
  induction n generalizing k i with
  | zero => omega
  | succ n ih =>
    cases i with
    | zero => simp [Memory.readBytes]
    | succ i =>
      simp only [Memory.readBytes, List.getElem?_cons_succ]
      rw [ih _ _ (by omega)]
      congr 2; omega

/-- A run of bytes in two parts. -/
theorem Memory.readBytes_add (m : List Host.Cell) (k a b : Nat) :
    Memory.readBytes m k (a + b) = Memory.readBytes m k a ++ Memory.readBytes m (k + a) b := by
  induction a generalizing k with
  | zero => simp [Memory.readBytes]
  | succ a ih =>
    have : a + 1 + b = (a + b) + 1 := by omega
    rw [this, Memory.readBytes, ih, Memory.readBytes]
    simp only [List.cons_append]
    congr 3; omega

/-- A run of bytes written in two parts. -/
theorem Memory.writeBytes_append (m : List Host.Cell) (k : Nat) (as bs : List Byte) :
    Memory.writeBytes m k (as ++ bs) = Memory.writeBytes (Memory.writeBytes m k as) (k + as.length) bs := by
  induction as generalizing m k with
  | nil => rfl
  | cons a as ih =>
    simp only [List.cons_append, Memory.writeBytes, ih, List.length_cons]
    congr 1; omega

@[simp] theorem wordBytes_length (w : Word) : (wordBytes w).length = 4 := rfl

/-! ## Words, in any order -/

/-- Words written one after the other, each at its key. -/
def Memory.writeWords (m : List Host.Cell) : List (Nat × Word) → List Host.Cell
  | [] => m
  | (k, w) :: rest => Memory.writeWords (Memory.writeBytes m k (wordBytes w)) rest

/-- Two memories that read alike. -/
def Memory.same (m m' : List Host.Cell) : Prop := ∀ j, Memory.read m j = Memory.read m' j

/-- What the words leave alone. -/
theorem Memory.read_writeWords_other (m : List Host.Cell) (ps : List (Nat × Word)) (j : Nat)
    (h : ∀ p ∈ ps, j < p.1 ∨ p.1 + 4 ≤ j) :
    Memory.read (Memory.writeWords m ps) j = Memory.read m j := by
  induction ps generalizing m with
  | nil => rfl
  | cons p ps ih =>
    rw [Memory.writeWords, ih _ fun q hq => h q (List.mem_cons_of_mem _ hq), Memory.read_writeBytes]
    split
    · have := h p List.mem_cons_self
      rw [List.getElem?_eq_none (by rw [wordBytes_length]; omega), Option.getD_none]
    · rfl

/-- Each of the words, where no two share a byte. -/
theorem Memory.read_writeWords (m : List Host.Cell) (ps : List (Nat × Word)) (p : Nat × Word)
    (hd : ps.Pairwise fun p q => p.1 + 4 ≤ q.1 ∨ q.1 + 4 ≤ p.1) (hp : p ∈ ps) (i : Nat) (hi : i < 4) :
    some (Memory.read (Memory.writeWords m ps) (p.1 + i)) = (wordBytes p.2)[i]? := by
  induction ps generalizing m with
  | nil => cases hp
  | cons q ps ih =>
    rw [List.pairwise_cons] at hd
    rw [Memory.writeWords]
    rcases List.mem_cons.1 hp with rfl | hp
    · rw [Memory.read_writeWords_other _ _ _ fun q hq => by have := hd.1 q hq; omega,
        Memory.read_writeBytes, if_pos (by omega), Nat.add_sub_cancel_left,
        List.getElem?_eq_getElem (by rw [wordBytes_length]; exact hi), Option.getD_some]
    · exact ih _ hd.2 hp

/-- The bytes of words in a row. -/
theorem flatMap_wordBytes_get (l : List Word) (i j : Nat) (h : i < l.length) (hj : j < 4) :
    (l.flatMap wordBytes)[4 * i + j]? = (wordBytes l[i])[j]? := by
  induction l generalizing i with
  | nil => simp at h
  | cons w l ih =>
    rw [List.flatMap_cons]
    cases i with
    | zero =>
      rw [List.getElem?_append_left (by simp; omega)]
      simp
    | succ i =>
      rw [List.getElem?_append_right (by simp; omega)]
      have e : 4 * (i + 1) + j - (wordBytes w).length = 4 * i + j := by simp; omega
      rw [e, ih i (by simpa using h)]
      rfl

theorem flatMap_wordBytes_length (l : List Word) : (l.flatMap wordBytes).length = 4 * l.length := by
  induction l with
  | nil => rfl
  | cons w l ih => rw [List.flatMap_cons, List.length_append, ih]; simp; omega

/-- A word comes back from its bytes. -/
theorem bytesToWord_wordBytes (w : Word) : bytesToWord (wordBytes w) = w := by
  simp only [wordBytes, bytesToWord]
  apply BitVec.eq_of_getLsbD_eq
  intro i h
  simp only [BitVec.getLsbD_or, BitVec.getLsbD_setWidth, BitVec.getLsbD_extractLsb',
    BitVec.getLsbD_shiftLeft]
  by_cases h1 : i < 8
  · have : ¬ (8 ≤ i) := by omega
    simp [h, h1]
  · by_cases h2 : i < 16
    · simp [h, h1, show i - 8 < 8 by omega, show i - 8 < 32 by omega, show 8 + (i - 8) = i by omega]
    · by_cases h3 : i < 24
      · simp [h, h1, show ¬ i - 8 < 8 by omega, show i - 8 < 32 by omega, show i - 8 - 8 < 8 by omega,
          show i - 8 - 8 < 32 by omega, show 16 + (i - 8 - 8) = i by omega]
      · simp [h, h1, show ¬ i - 8 < 8 by omega, show i - 8 < 32 by omega, show ¬ i - 8 - 8 < 8 by omega,
          show i - 8 - 8 < 32 by omega, show i - 8 - 8 - 8 < 8 by omega,
          show i - 8 - 8 - 8 < 32 by omega, show 24 + (i - 8 - 8 - 8) = i by omega]

end Sys2Proof.Machine
end

