-- ==== Sys2Proof/Laws/Access.lean ====
section
/-! SUPPORT. Loads and stores of plain memory: what they read, what they leave; the PCI cycles of outbound
accesses. -/

namespace Sys2Proof.Machine

/-! ## Cells -/

/-- A byte that a store changes is a byte that a load reads. -/
theorem cell_of_cellW {s : State} {a : Word} {k : Nat} (h : s.cellW a = some k) :
    s.cell a = some k := by
  unfold State.cellW at h
  unfold State.cell
  split at h
  · exact h
  · split at h
    · simp_all
    · cases h
  · cases h

/-- The peek of a byte by its key. -/
theorem peek_eq (s : State) (a : Word) : s.peek a = (s.cell a).map (Memory.read s.mem) := by
  unfold State.peek State.cell
  cases region a with
  | bus => simp only []; split <;> simp_all
  | _ => rfl

/-- Cells depend on the address decode only. -/
theorem cell_congr {s t : State} (ha : t.atu = s.atu) (hm : t.mc = s.mc) (hb : t.board = s.board)
    (a : Word) : t.cell a = s.cell a := by
  simp only [State.cell, target_congr ha hm hb]

/-- The same of the cells that a store changes. -/
theorem cellW_congr {s t : State} (ha : t.atu = s.atu) (hm : t.mc = s.mc) (hb : t.board = s.board)
    (a : Word) : t.cellW a = s.cellW a := by
  simp only [State.cellW, target_congr ha hm hb]

/-- What a memory target says of its key. -/
theorem target_key {s : State} {x : Word} {k : Nat} {w : Bool} (h : s.target x = .memory k w) :
    (k = 2 ^ 32 + (x - (s.mc.dbar &&& 0xFFF00000)).toNat) ∨
    (k = 2 * 2 ^ 32 + (x - (s.mc.mbbar0 &&& 0xFFFF0000)).toNat) ∨
    (k = 3 * 2 ^ 32 + (x - (s.mc.mbbar1 &&& 0xFFFF0000)).toNat) ∨ k = x.toNat := by
  unfold State.target at h
  simp only [] at h
  split at h
  · cases h
  · split at h
    · injection h with h _; exact .inl h.symm
    · split at h
      · injection h with h _; exact .inr (.inl h.symm)
      · split at h
        · injection h with h _; exact .inr (.inr (.inl h.symm))
        · split at h
          · injection h with h _; exact .inr (.inr (.inr h.symm))
          · cases h

/-- Two addresses have different keys. -/
theorem cell_inj {s : State} {x y : Word} {k : Nat} (hx : s.cell x = some k)
    (hy : s.cell y = some k) : x = y := by
  have key : ∀ {z : Word}, s.cell z = some k → k = z.toNat ∨ s.target z = .memory k true ∨
      s.target z = .memory k false := by
    intro z hz
    unfold State.cell at hz
    split at hz
    · injection hz with hz; exact .inl hz.symm
    · split at hz
      · rename_i k' w ht
        injection hz with hz
        subst hz
        cases w
        · exact .inr (.inr ht)
        · exact .inr (.inl ht)
      · cases hz
    · cases hz
  have tk : ∀ {z : Word}, s.cell z = some k →
      (k = 2 ^ 32 + (z - (s.mc.dbar &&& 0xFFF00000)).toNat) ∨
      (k = 2 * 2 ^ 32 + (z - (s.mc.mbbar0 &&& 0xFFFF0000)).toNat) ∨
      (k = 3 * 2 ^ 32 + (z - (s.mc.mbbar1 &&& 0xFFFF0000)).toNat) ∨ k = z.toNat := by
    intro z hz
    rcases key hz with h | h | h
    · exact .inr (.inr (.inr h))
    · exact target_key h
    · exact target_key h
  have b := fun (z : Word) => z.isLt
  have bx := b (x - (s.mc.dbar &&& 0xFFF00000))
  have bx0 := b (x - (s.mc.mbbar0 &&& 0xFFFF0000))
  have bx1 := b (x - (s.mc.mbbar1 &&& 0xFFFF0000))
  have by' := b (y - (s.mc.dbar &&& 0xFFF00000))
  have by0 := b (y - (s.mc.mbbar0 &&& 0xFFFF0000))
  have by1 := b (y - (s.mc.mbbar1 &&& 0xFFFF0000))
  have sub : ∀ c : Word, (x - c).toNat = (y - c).toNat → x = y := by
    intro c h
    have := BitVec.eq_of_toNat_eq h
    have e : x - c + c = y - c + c := by rw [this]
    simpa using e
  rcases tk hx with h1 | h1 | h1 | h1 <;> rcases tk hy with h2 | h2 | h2 | h2 <;>
    first
    | exact sub (s.mc.dbar &&& 0xFFF00000) (by omega)
    | exact sub (s.mc.mbbar0 &&& 0xFFFF0000) (by omega)
    | exact sub (s.mc.mbbar1 &&& 0xFFFF0000) (by omega)
    | exact BitVec.eq_of_toNat_eq (by omega)

/-! ## Runs of cells -/

theorem State.plain_head {s : State} {a : Word} {n k : Nat} (h : s.plain a n k) (hn : 0 < n) :
    s.cell a = some k := by
  have := h 0 hn
  simpa using this

/-- The end of a run. -/
theorem State.plain_drop {s : State} {a : Word} {n k : Nat} (h : s.plain a n k) (j : Nat) :
    s.plain (a + BitVec.ofNat 32 j) (n - j) (k + j) := by
  intro i hi
  have := h (j + i) (by omega)
  rw [← Nat.add_assoc] at this
  rw [← this]
  congr 1
  rw [BitVec.add_assoc, BitVec.ofNat_add]

theorem State.plainW_drop {s : State} {a : Word} {n k : Nat} (h : s.plainW a n k) (j : Nat) :
    s.plainW (a + BitVec.ofNat 32 j) (n - j) (k + j) := by
  intro i hi
  have := h (j + i) (by omega)
  rw [← Nat.add_assoc] at this
  rw [← this]
  congr 1
  rw [BitVec.add_assoc, BitVec.ofNat_add]

/-- The start of a run. -/
theorem State.plain_take {s : State} {a : Word} {n k : Nat} (h : s.plain a n k) {j : Nat}
    (hj : j ≤ n) : s.plain a j k := fun i hi => h i (by omega)

theorem State.plainW_take {s : State} {a : Word} {n k : Nat} (h : s.plainW a n k) {j : Nat}
    (hj : j ≤ n) : s.plainW a j k := fun i hi => h i (by omega)

theorem State.plain_of_plainW {s : State} {a : Word} {n k : Nat} (h : s.plainW a n k) :
    s.plain a n k := fun i hi => cell_of_cellW (h i hi)

/-- A run of cells does not reach core MMR space. -/
theorem State.plain_noMmr {s : State} {a : Word} {n k : Nat} (h : s.plain a n k) (hn : 0 < n) :
    badMmrAccess a n = false := by
  have lt : ∀ {x : Word} {j : Nat}, s.cell x = some j → x.toNat < 0xFF000000 := by
    intro x j hx
    unfold State.cell at hx
    by_contra hc
    have : region x = .mmr := by
      unfold region
      simp only []
      rw [if_neg (by omega), if_neg (by omega), if_neg (by omega), if_neg (by omega),
        if_neg (by omega), if_neg (by omega)]
    rw [this] at hx
    cases hx
  have h0 := lt (State.plain_head h hn)
  have : a.toNat + n ≤ 0xFF000000 := by
    by_contra hc
    have hi := lt (h (0xFF000000 - a.toNat) (by omega))
    have e : (a + BitVec.ofNat 32 (0xFF000000 - a.toNat)).toNat = 0xFF000000 := by
      rw [BitVec.toNat_add, BitVec.toNat_ofNat]
      omega
    omega
  simp only [badMmrAccess, touchesMmr, decide_eq_false (show ¬ 0xFF000000 < a.toNat + n by omega),
    Bool.false_and]

/-! ## Other agents between two accesses -/

/-- Nobody comes between two accesses when nobody is due. -/
theorem gap_undisturbed {s : State} (h : s.undisturbed) : gap s = .ok () s := by
  unfold gap
  split
  · rename_i es rest e; exact absurd e (h.2 es rest)
  · rfl

theorem granted_congr {s t : State} (h : t.arb = s.arb) : t.coreGranted = s.coreGranted := by
  unfold State.coreGranted; rw [h]

theorem undisturbed_congr {s t : State} (h : t.schedule = s.schedule) (ha : t.arb = s.arb)
    (hs : s.undisturbed) : t.undisturbed :=
  ⟨(granted_congr ha).trans hs.1, fun es rest => h ▸ hs.2 es rest⟩

/-- A machine that leaves the core the bus does so for every access. -/
theorem State.undisturbed.alone {s : State} (h : s.undisturbed) (a : Word) (n : Nat) : s.alone a n :=
  ⟨h.1, .inl h⟩

/-- A core that has the bus does not wait for it. -/
theorem takeBus_granted {s : State} (h : s.coreGranted = true) : takeBus s = .ok () s := by
  unfold takeBus; rw [if_pos h]

theorem Eff.andGap_ok {α : Type} {s : State} (v : α) (h : s.undisturbed) :
    (Eff.ok v s).andGap = .ok v s := by
  simp only [Eff.andGap, Eff.bind_ok, gap_undisturbed h]

/-- Where no new access begins nobody comes between. -/
theorem gapBefore_ok {s : State} {new : Word → Bool} {load : Bool} {ps : List (Word × Nat)}
    (h : s.undisturbed ∨ ∀ p, ps.head? = some p → new p.1 = false ∧ s.target p.1 ≠ .outbound) :
    gapBefore new load ps s = .ok () s := by
  unfold gapBefore
  split
  · rfl
  · rename_i x n rest
    rcases h with h | h
    · rw [gap_undisturbed h]; simp
    · obtain ⟨h1, h2⟩ := h _ rfl
      simp [h1, h2]

/-- A byte that memory holds is not in an outbound window. -/
theorem not_outbound_of_cell {s : State} {a : Word} {k : Nat} (h : s.cell a = some k) :
    s.target a ≠ .outbound := by
  intro ht
  unfold State.cell at h
  split at h
  · rename_i hr
    have hlt : a.toNat < 0x400 := by
      unfold region at hr
      simp only [] at hr
      split at hr
      · assumption
      · repeat' (split at hr)
        all_goals cases hr
    unfold State.target at ht
    simp only [] at ht
    split at ht
    · rename_i hc
      simp only [Atu.claimsOut, Bool.and_eq_true, Bool.or_eq_true, decide_eq_true_eq] at hc
      omega
    · repeat' (split at ht)
      all_goals cases ht
  · simp only [ht] at h; cases h
  · cases h

/-! ## Cacheability and outbound accesses -/

/-- With both templates disabled DLMCON decides for every access of the local bus (20_memory.md R183). -/
theorem cacheable_of_disabled {s : State} (h0 : bit s.bus.lmmr0 0 = false)
    (h1 : bit s.bus.lmmr1 0 = false) (a : Word) :
    s.cacheable a = (onLocalBus a && bit s.bus.dlmcon 1) := by
  simp [State.cacheable, BusConfig.templateMatches, h0, h1]

/-- A read that is not cacheable enables its own bytes. -/
theorem readEnables_uncached {s : State} {a : Word} (h : s.cacheable a = false) (n : Nat) :
    s.readEnables a n = laneEnables (byteOffset a) n := by
  simp [State.readEnables, h]

/-- A byte or short read of a cacheable address enables the whole word (20_memory.md R191). -/
theorem readEnables_cached {s : State} {a : Word} (h : s.cacheable a = true) {n : Nat} (hn : n < 4) :
    s.readEnables a n = 0xF := by
  simp [State.readEnables, h, hn]

/-- A write outside the I/O window, of a whole word, with the cache disabled or not cacheable carries its
own bytes and no other. -/
theorem writeCycle_plain {s : State} {a : Word} {bs : List Byte}
    (h : isIoWindow a = false ∨ 4 ≤ bs.length ∨ s.dcEnabled = false ∨ s.cacheable a = false) :
    s.writeCycle a bs = s.atu.outboundCycle true a (laneEnables (byteOffset a) bs.length)
      (laneWord bs (byteOffset a)) := by
  unfold State.writeCycle
  rw [if_neg]
  rcases h with h | h | h | h
  · simp [h]
  · simp [Nat.not_lt.mpr h]
  · simp [h]
  · simp [h]

/-- An outbound read of the core where the ATU is free: one PCI cycle (65_atu_mu.md R1125). -/
theorem coreRead_outbound {s : State} {a : Word} (h : s.target a = .outbound)
    (hb : s.atu.busy false = false) (n : Nat) :
    coreRead a n s =
      .ok (laneBytes (outboundRead (s.atu.outboundCycle false a (s.readEnables a n) 0) s).1
          (byteOffset a) n)
        (outboundRead (s.atu.outboundCycle false a (s.readEnables a n) 0) s).2.bump := by
  simp [coreRead, outboundReady, h, hb, Eff.bind]

/-- An outbound write of the core where the ATU is free, or in the burst of the piece before: one DWORD
is posted (65_atu_mu.md R1124). -/
theorem coreWrite_outbound {s : State} {cont : Bool} {a : Word} (h : s.target a = .outbound)
    (hb : cont = true ∨ s.atu.busy true = false) (bs : List Byte) :
    coreWrite cont a bs s = .ok () (postOutbound cont (s.writeCycle a bs) s).bump := by
  rcases hb with rfl | hb
  · simp [coreWrite, h, Eff.bind]
  · cases cont <;> simp [coreWrite, outboundReady, h, hb, Eff.bind]

/-! ## Cutting a request -/

/-- The pieces of whole aligned words. -/
theorem mem_pieces_words {fuel : Nat} {a : Word} {n : Nat} (ha : a.toNat % 4 = 0) (hn : n % 4 = 0)
    {p : Word × Nat} (hp : p ∈ pieces a n fuel) :
    ∃ i, 4 * i < n ∧ p.1 = a + BitVec.ofNat 32 (4 * i) := by
  induction fuel generalizing a n with
  | zero => cases hp
  | succ fuel ih =>
    unfold pieces at hp
    by_cases h0 : n = 0
    · rw [if_pos h0] at hp; cases hp
    · rw [if_neg h0] at hp
      have e : (if (decide (a.toNat % 2 = 1) || decide (n = 1)) = true then 1
          else if (decide (a.toNat % 4 = 2) || decide (n < 4)) = true then 2 else 4) = 4 := by
        rw [if_neg (by simp; omega), if_neg (by simp; omega)]
      simp only [e] at hp
      rcases List.mem_cons.1 hp with rfl | hp
      · exact ⟨0, by omega, by simp⟩
      · have ha' : (a + BitVec.ofNat 32 4).toNat % 4 = 0 := by
          rw [BitVec.toNat_add, BitVec.toNat_ofNat]; omega
        obtain ⟨i, hi, e'⟩ := ih ha' (by omega) hp
        refine ⟨i + 1, by omega, ?_⟩
        rw [e', BitVec.add_assoc, ← BitVec.ofNat_add]
        congr 2; omega

/-- In a single bus access no new one begins after the first piece. -/
theorem oneAccess_pieces {s : State} {a : Word} {n : Nat} (h : s.oneAccess a n = true)
    (hn : n = 1 ∨ n = 2 ∨ n = 4 ∨ n = 8 ∨ n = 12 ∨ n = 16) :
    ∀ p, p ∈ (pieces a n n).tail → s.newAccess a n p.1 = false := by
  unfold State.oneAccess at h
  simp only [Bool.and_eq_true, Bool.not_eq_true', decide_eq_true_eq] at h
  obtain ⟨ho, hb⟩ := h
  have hbs : s.burstBytes a = 4 ∨ s.burstBytes a = 8 ∨ s.burstBytes a = 16 := by
    unfold State.burstBytes; split <;> simp
  have hal : a.toNat % (if n = 12 then 16 else n) = 0 := by
    simpa [offBoundary] using ho
  intro p hp
  rcases hn with rfl | rfl | hn
  · simp [pieces] at hp
  · have : a.toNat % 2 = 0 := hal
    simp [pieces, this] at hp
  · have h4 : a.toNat % 4 = 0 := by
      rcases hn with rfl | rfl | rfl | rfl <;> simp at hal <;> omega
    obtain ⟨m, hm⟩ : ∃ m, n = m + 1 := ⟨n - 1, by rcases hn with rfl | rfl | rfl | rfl <;> rfl⟩
    have hp' : p ∈ pieces (a + BitVec.ofNat 32 4) (n - 4) m := by
      rw [hm, pieces, if_neg (by omega), List.tail_cons] at hp
      have e : (if (decide (a.toNat % 2 = 1) || decide (m + 1 = 1)) = true then 1
          else if (decide (a.toNat % 4 = 2) || decide (m + 1 < 4)) = true then 2 else 4) = 4 := by
        rw [if_neg (by simp; omega), if_neg (by simp; omega)]
      rwa [e, ← hm] at hp
    have ha4 : (a + BitVec.ofNat 32 4).toNat % 4 = 0 := by
      rw [BitVec.toNat_add, BitVec.toNat_ofNat]; omega
    obtain ⟨i, hi, e⟩ := mem_pieces_words ha4 (by omega) hp'
    rw [BitVec.add_assoc, ← BitVec.ofNat_add] at e
    unfold State.newAccess
    rw [ho, Bool.false_or, beq_eq_false_iff_ne, e, BitVec.toNat_add, BitVec.toNat_ofNat]
    have hlt := a.isLt
    rcases hn with rfl | rfl | rfl | rfl <;> simp at hal <;> rcases hbs with h | h | h <;>
      rw [h] at hb ⊢ <;> omega

/-! ## Loads -/

/-- A load inside one word of plain memory. -/
theorem loadPiece_plain {s : State} {a : Word} {k : Nat} (hg : s.coreGranted = true)
    (h : s.cell a = some k) (n : Nat) : loadPiece a n s = .ok (Memory.readBytes s.mem k n) s := by
  unfold State.cell at h
  unfold loadPiece
  split at h
  · rename_i hr; injection h with h; simp only [hr, h]
  · rename_i hr
    split at h
    · rename_i k' w ht
      injection h with h
      subst h
      simp [hr, takeBus_granted hg, coreRead, busRead, ht]
    · cases h
  · cases h

/-- How many bytes the first piece of an access has. -/
theorem pieces_succ (a : Word) (n fuel : Nat) (hn : n ≠ 0) :
    ∃ j, 0 < j ∧ j ≤ n ∧
      pieces a n (fuel + 1) = (a, j) :: pieces (a + BitVec.ofNat 32 j) (n - j) fuel := by
  refine ⟨if a.toNat % 2 = 1 || n = 1 then 1 else if a.toNat % 4 = 2 || n < 4 then 2 else 4, ?_, ?_, ?_⟩
  · split
    · omega
    · split <;> omega
  · split
    · omega
    · rename_i h
      simp only [Bool.or_eq_true, decide_eq_true_eq, not_or] at h
      split
      · omega
      · rename_i h'
        simp only [Bool.or_eq_true, decide_eq_true_eq, not_or] at h'
        omega
  · simp only [pieces, if_neg hn]

/-- The first of the pieces of plain memory is a byte of it. -/
theorem cell_of_pieces {s : State} {fuel : Nat} {a : Word} {n k : Nat} (h : s.plain a n k)
    {p : Word × Nat} (hp : (pieces a n fuel).head? = some p) : ∃ k, s.cell p.1 = some k := by
  cases fuel with
  | zero => cases hp
  | succ fuel =>
    unfold pieces at hp
    by_cases h0 : n = 0
    · rw [if_pos h0] at hp; cases hp
    · rw [if_neg h0] at hp
      simp only [List.head?_cons, Option.some.injEq] at hp
      subst hp
      exact ⟨k, State.plain_head h (by omega)⟩

theorem loadPieces_plain {s : State} {new : Word → Bool} (fuel : Nat) {a : Word} {n k : Nat}
    (hc : s.coreGranted = true) (h : s.plain a n k) (hf : n ≤ fuel)
    (hq : s.undisturbed ∨ ∀ p, p ∈ (pieces a n fuel).tail → new p.1 = false) :
    loadPieces new (pieces a n fuel) s = .ok (Memory.readBytes s.mem k n) s := by
  induction fuel generalizing a n k with
  | zero =>
    obtain rfl : n = 0 := by omega
    rfl
  | succ fuel ih =>
    by_cases hn : n = 0
    · subst hn; rfl
    · obtain ⟨j, h0, hj, e⟩ := pieces_succ a n fuel hn
      rw [e, List.tail_cons] at hq
      have hg : s.undisturbed ∨ ∀ p, (pieces (a + BitVec.ofNat 32 j) (n - j) fuel).head? = some p →
          new p.1 = false ∧ s.target p.1 ≠ .outbound := by
        refine hq.imp id fun hq p hp => ⟨hq p (List.mem_of_mem_head? hp), ?_⟩
        obtain ⟨k', hk'⟩ := cell_of_pieces (State.plain_drop h j) hp
        exact not_outbound_of_cell hk'
      rw [e, loadPieces, loadPiece_plain hc (State.plain_head h (by omega)), Eff.bind_ok,
        gapBefore_ok hg, Eff.bind_ok, ih (State.plain_drop h j) (by omega)
          (hq.imp id fun hq p hp => hq p (List.mem_of_mem_tail hp)),
        Eff.bind_ok, ← Memory.readBytes_add]
      congr 2; omega

/-- The sizes of data accesses. -/
def isSize (n : Nat) : Prop := n = 1 ∨ n = 2 ∨ n = 4 ∨ n = 8 ∨ n = 12 ∨ n = 16

/-- A load of plain memory reads its bytes and changes nothing. -/
theorem load_plain {s : State} {a : Word} {n k : Nat} (h : s.plain a n k) (hn : isSize n)
    (hq : s.alone a n) : load a n s = .ok (Memory.readBytes s.mem k n) s := by
  have h0 : 0 < n := by rcases hn with rfl | rfl | rfl | rfl | rfl | rfl <;> decide
  unfold load
  rw [State.plain_noMmr h h0, if_neg (by decide), loadPieces_plain n hq.1 h (Nat.le_refl n)
    (hq.2.imp id fun hq => oneAccess_pieces hq hn)]

/-- An aligned word or less is one bus access. -/
theorem alone_of_aligned {s : State} {a : Word} {n : Nat} (hg : s.coreGranted = true)
    (hn : n = 1 ∨ n = 2 ∨ n = 4) (ha : a.toNat % n = 0) : s.alone a n := by
  refine ⟨hg, .inr ?_⟩
  have hb : 4 ≤ s.burstBytes a := by unfold State.burstBytes; split <;> simp
  unfold State.oneAccess offBoundary
  rcases hn with rfl | rfl | rfl <;> simp [ha] <;> omega

/-- A load of a word that memory holds. -/
theorem loadWord_holds {s : State} {a v : Word} (h : s.holds a v) (hq : s.alone a 4) :
    loadWord a s = .ok v s := by
  obtain ⟨k, hp, hb⟩ := h
  unfold loadWord
  rw [load_plain hp (by simp [isSize]) hq, Eff.bind_ok, hb, bytesToWord_wordBytes]

/-! ## Stores -/

theorem storePiece_plain {s : State} {cont : Bool} {a : Word} {k : Nat}
    (hg : s.coreGranted = true) (h : s.cellW a = some k)
    (bs : List Byte) : storePiece cont a bs s = .ok () (storeKey k bs s) := by
  unfold State.cellW at h
  unfold storePiece
  split at h
  · rename_i hr; injection h with h; simp only [hr, h]
  · rename_i hr
    split at h
    · rename_i k' ht
      injection h with h
      subst h
      simp [hr, takeBus_granted hg, coreWrite, busWrite, ht]
    · cases h
  · cases h

theorem storePieces_plain {s : State} {new : Word → Bool} {cont : Bool} (fuel : Nat) {a : Word}
    {bs : List Byte} {k : Nat} (hg : s.coreGranted = true) (h : s.plainW a bs.length k)
    (hf : bs.length ≤ fuel) (hq : s.undisturbed ∨ ∀ p, p ∈ (pieces a bs.length fuel).tail → new p.1 = false) :
    ∃ st, storePieces new cont (pieces a bs.length fuel) bs s =
      .ok () (s.withMem (Memory.writeBytes s.mem k bs) st) := by
  induction fuel generalizing a bs k s cont with
  | zero =>
    have hb : bs = [] := List.length_eq_zero_iff.1 (by omega)
    subst hb
    exact ⟨s.stale, rfl⟩
  | succ fuel ih =>
    by_cases hn : bs.length = 0
    · have hb : bs = [] := List.length_eq_zero_iff.1 hn
      subst hb
      exact ⟨s.stale, rfl⟩
    · obtain ⟨j, h0, hj, e⟩ := pieces_succ a bs.length fuel hn
      have hc : s.cellW a = some k := by
        have := h 0 (by omega)
        simpa using this
      rw [e, List.tail_cons] at hq
      rw [e, storePieces, storePiece_plain hg hc, Eff.bind_ok]
      have hd : (storeKey k (bs.take j) s).plainW (a + BitVec.ofNat 32 j) (bs.drop j).length (k + j) := by
        intro i hi
        rw [List.length_drop] at hi
        exact (cellW_congr (s := s) (t := storeKey k (bs.take j) s) rfl rfl rfl _).trans
          (State.plainW_drop h j i hi)
      have hq' : (storeKey k (bs.take j) s).undisturbed ∨
          ∀ p, p ∈ (pieces (a + BitVec.ofNat 32 j) (bs.length - j) fuel) → new p.1 = false :=
        hq.imp (undisturbed_congr rfl rfl) id
      obtain ⟨st, hs⟩ := ih (s := storeKey k (bs.take j) s) (cont := true) ((granted_congr (s := s) rfl).trans hg) hd (by rw [List.length_drop]; omega)
        (by rw [List.length_drop]; exact hq'.imp id fun hq p hp => hq p (List.mem_of_mem_tail hp))
      rw [List.length_drop] at hs
      refine ⟨st, ?_⟩
      have hg : gapBefore new false (pieces (a + BitVec.ofNat 32 j) (bs.length - j) fuel)
          (storeKey k (bs.take j) s) = .ok () (storeKey k (bs.take j) s) := by
        rcases hq' with hq | hq
        · exact gapBefore_ok (.inl hq)
        · unfold gapBefore
          split
          · rfl
          · rename_i x m ps he
            rw [he] at hq
            rw [hq (x, m) (by simp)]
            rfl
      rw [hg, Eff.bind_ok, hs]
      have hw : Memory.writeBytes (Memory.writeBytes s.mem k (bs.take j)) (k + j) (bs.drop j) =
          Memory.writeBytes s.mem k bs := by
        conv_rhs => rw [← List.take_append_drop j bs]
        rw [Memory.writeBytes_append, List.length_take, Nat.min_eq_left hj]
      simp only [storeKey, State.outdate, State.withMem, hw]

/-- A store of plain memory writes its bytes and, but for what a fetch may still see, nothing else. -/
theorem store_plain {s : State} {a : Word} {bs : List Byte} {k : Nat}
    (ht : s.storeTrap a bs.length = none) (h : s.plainW a bs.length k) (hn : isSize bs.length)
    (hq : s.alone a bs.length) :
    ∃ st, store a bs s = .ok () (s.withMem (Memory.writeBytes s.mem k bs) st) := by
  unfold store
  rw [ht]
  exact storePieces_plain _ hq.1 h (Nat.le_refl _) (hq.2.imp id fun hq => oneAccess_pieces hq hn)

/-- What a write of a run of cells leaves in memory. -/
theorem bytesAt_write {s : State} {a : Word} {bs : List Byte} {k : Nat} (h : s.plain a bs.length k)
    {t : State} (ha : t.atu = s.atu) (hm : t.mc = s.mc) (hb : t.board = s.board)
    (hmem : t.mem = Memory.writeBytes s.mem k bs) : t.bytesAt a bs := by
  intro i hi
  rw [peek_eq, cell_congr ha hm hb, h i hi, hmem, Option.map_some, Memory.read_writeBytes,
    if_pos (by omega)]
  simp [hi]

/-- What it leaves alone. -/
theorem peek_write {s : State} {a : Word} {bs : List Byte} {k : Nat} (h : s.plain a bs.length k)
    {t : State} (ha : t.atu = s.atu) (hm : t.mc = s.mc) (hb : t.board = s.board)
    (hmem : t.mem = Memory.writeBytes s.mem k bs) {x : Word} (hx : outside a bs.length x) :
    t.peek x = s.peek x := by
  rw [peek_eq, peek_eq, cell_congr ha hm hb, hmem]
  cases hc : s.cell x with
  | none => rfl
  | some j =>
    rw [Option.map_some, Option.map_some, Memory.read_writeBytes]
    split
    · rename_i hkj
      by_cases hl : j - k < bs.length
      · exfalso
        have := h (j - k) hl
        rw [show k + (j - k) = j by omega] at this
        exact hx (j - k) hl (cell_inj hc this)
      · rw [List.getElem?_eq_none (by omega), Option.getD_none]
    · rfl

/-- The effect of a store of plain memory. -/
theorem StoreEffect.ofWrite {s : State} {a : Word} {bs : List Byte} {k : Nat}
    (h : s.plain a bs.length k) (st : List (Nat × Word)) (ac next : Word) :
    StoreEffect s ((((s.withMem (Memory.writeBytes s.mem k bs) st).withAc ac).setIp
      next).bump) a bs ac next where
  stored := bytesAt_write h rfl rfl rfl rfl
  memory x hx := by refine peek_write h ?_ ?_ ?_ ?_ hx <;> rfl
  registers n := rfl
  ac := rfl
  ip := rfl
  rest := rfl

/-- The same where AC is kept. -/
theorem StoreEffect.ofStore {s : State} {a : Word} {bs : List Byte} {k : Nat}
    (h : s.plain a bs.length k) (st : List (Nat × Word)) (next : Word) :
    StoreEffect s (((s.withMem (Memory.writeBytes s.mem k bs) st).setIp next).bump) a bs s.ac next :=
  StoreEffect.ofWrite h st s.ac next

/-- The bytes that a load of plain memory gives are those that lie there. -/
theorem readBytes_of_bytesAt {s : State} {a : Word} {k : Nat} {bs : List Byte}
    (h : s.plain a bs.length k) (hb : s.bytesAt a bs) :
    Memory.readBytes s.mem k bs.length = bs := by
  apply List.ext_getElem?
  intro i
  by_cases hi : i < bs.length
  · have h1 := hb i hi
    rw [peek_eq, h i hi, Option.map_some] at h1
    rw [Memory.readBytes_get _ _ _ _ hi, h1]
    simp [hi]
  · rw [List.getElem?_eq_none (by rw [Memory.readBytes_length]; omega),
      List.getElem?_eq_none (by omega)]

/-! ## Words one by one -/

/-- Whether a store traps depends on the mode and BCON only. -/
theorem storeTrap_congr {s t : State} (hp : t.supervisor = s.supervisor) (hb : t.bus = s.bus)
    (a : Word) (n : Nat) : t.storeTrap a n = s.storeTrap a n := by
  unfold State.storeTrap State.ramProtected
  rw [hp, hb]

/-- Words stored one by one, in any order, to plain memory; `key` gives the key of an address. -/
theorem storeList_plain {s : State} {ps : List (Word × Word)} (hu : s.undisturbed) (key : Word → Nat)
    (ht : ∀ p ∈ ps, s.storeTrap p.1 4 = none) (h : ∀ p ∈ ps, s.plainW p.1 4 (key p.1)) :
    ∃ st, storeList ps s =
      .ok () (s.withMem (Memory.writeWords s.mem (ps.map fun p => (key p.1, p.2))) st) := by
  induction ps generalizing s with
  | nil => exact ⟨s.stale, rfl⟩
  | cons p ps ih =>
    obtain ⟨a, w⟩ := p
    obtain ⟨st, hs⟩ := store_plain (bs := wordBytes w) (ht _ List.mem_cons_self)
      (h _ List.mem_cons_self) (by simp [isSize]) (hu.alone _ _)
    have hu' : (s.withMem (Memory.writeBytes s.mem (key a) (wordBytes w)) st).undisturbed :=
      undisturbed_congr rfl rfl hu
    obtain ⟨st', hs'⟩ := ih hu'
      (fun p hp => (storeTrap_congr (s := s) rfl rfl _ _).trans (ht p (List.mem_cons_of_mem _ hp)))
      (fun p hp i hi => (cellW_congr (s := s) rfl rfl rfl _).trans
        (h p (List.mem_cons_of_mem _ hp) i hi))
    refine ⟨st', ?_⟩
    rw [storeList, storeWord, hs, Eff.bind_ok, gap_undisturbed hu', ite_self, Eff.bind_ok, hs']
    rfl

/-- Words stored one by one to plain memory. -/
theorem storeEach_plain {s : State} {a : Word} {ws : List Word} {k : Nat} (hu : s.undisturbed)
    (ht : ∀ i, i < ws.length → s.storeTrap (a + BitVec.ofNat 32 (4 * i)) 4 = none)
    (h : s.plainW a (4 * ws.length) k) :
    ∃ st, storeEach a ws s =
      .ok () (s.withMem (Memory.writeBytes s.mem k (ws.flatMap wordBytes)) st) := by
  induction ws generalizing a k s with
  | nil => exact ⟨s.stale, rfl⟩
  | cons w ws ih =>
    simp only [List.length_cons] at ht h
    have h0 : s.storeTrap a 4 = none := by
      have := ht 0 (by omega)
      simpa using this
    obtain ⟨st, hs⟩ := store_plain (bs := wordBytes w) h0 (State.plainW_take h (by simp))
      (by simp [isSize]) (hu.alone _ _)
    have hd : (s.withMem (Memory.writeBytes s.mem k (wordBytes w)) st).plainW
        (a + 4) (4 * ws.length) (k + 4) := by
      intro i hi
      exact (cellW_congr (s := s) rfl rfl rfl _).trans (State.plainW_drop h 4 i (by omega))
    have hu' : (s.withMem (Memory.writeBytes s.mem k (wordBytes w)) st).undisturbed :=
      undisturbed_congr rfl rfl hu
    obtain ⟨st', hs'⟩ := ih (a := a + 4) hu' (fun i hi => by
      have := ht (i + 1) (by omega)
      rw [show 4 * (i + 1) = 4 + 4 * i by omega, BitVec.ofNat_add, ← BitVec.add_assoc] at this
      exact (storeTrap_congr (s := s) rfl rfl _ _).trans this) hd
    refine ⟨st', ?_⟩
    rw [storeEach] at hs' ⊢
    rw [rising, storeList, storeWord, hs, Eff.bind_ok, gap_undisturbed hu', ite_self, Eff.bind_ok, hs',
      List.flatMap_cons, Memory.writeBytes_append, wordBytes_length]
    rfl

/-- Words loaded one by one from plain memory. -/
theorem loadEach_plain {s : State} {a : Word} {ws : List Word} {k : Nat} (hu : s.undisturbed)
    (h : s.plain a (4 * ws.length) k)
    (hb : Memory.readBytes s.mem k (4 * ws.length) = ws.flatMap wordBytes) :
    loadEach a ws.length s = .ok ws s := by
  induction ws generalizing a k with
  | nil => rfl
  | cons w ws ih =>
    simp only [List.length_cons] at h hb ⊢
    have e : 4 * (ws.length + 1) = 4 + 4 * ws.length := by omega
    rw [e, Memory.readBytes_add, List.flatMap_cons] at hb
    obtain ⟨hb1, hb2⟩ := List.append_inj hb (by simp)
    have hw : s.holds a w := ⟨k, State.plain_take h (by omega), hb1⟩
    rw [loadEach, loadWord_holds hw (hu.alone _ _), Eff.bind_ok, gap_undisturbed hu, ite_self,
      Eff.bind_ok, ih (a := a + 4) (State.plain_take (State.plain_drop h 4) (by omega)) hb2,
      Eff.bind_ok]

/-- The words of bytes that are words. -/
theorem bytesToWords_flatMap (ws : List Word) : bytesToWords (ws.flatMap wordBytes) = ws := by
  induction ws with
  | nil => rfl
  | cons w ws ih =>
    rw [List.flatMap_cons]
    show bytesToWord (wordBytes w) :: bytesToWords (ws.flatMap wordBytes) = _
    rw [bytesToWord_wordBytes, ih]

end Sys2Proof.Machine
end

