-- ==== Sys2Proof/Laws/PerInstr.lean ====
section
/-! SUPPORT. Per instruction: its bytes decode to it, whatever follows them. -/

namespace Sys2Proof.Laws

/-! ## Words and bytes -/

/-- A word comes back from its bytes. -/
theorem wordOfBytes_bytes (w : Word) : wordOfBytes (w.extractLsb' 0 8) (w.extractLsb' 8 8)
    (w.extractLsb' 16 8) (w.extractLsb' 24 8) = w := by
  unfold wordOfBytes
  apply BitVec.eq_of_getLsbD_eq
  intro i h
  simp only [BitVec.getLsbD_append, BitVec.getLsbD_extractLsb']
  by_cases h1 : i < 8
  · simp [h1]
  · by_cases h2 : i - 8 < 8
    · simp [h1, h2, show 8 + (i - 8) = i by omega]
    · by_cases h3 : i - 8 - 8 < 8
      · simp [h1, h2, h3, show 16 + (i - 8 - 8) = i by omega]
      · simp [h1, h2, h3, show 24 + (i - 8 - 8 - 8) = i by omega, show i - 8 - 8 - 8 < 8 by omega]

/-- The head of a list of bytes that begins with the bytes of a word. -/
theorem takeWord_bytes (w : Word) (rest : List Byte) :
    takeWord (bytesOfWord w ++ rest) = .ok (w, rest) := by
  show Except.ok (wordOfBytes _ _ _ _, rest) = _
  rw [wordOfBytes_bytes]

/-- Decoding the bytes of a word. -/
theorem decode_bytes (w : Word) (rest : List Byte) :
    decode (bytesOfWord w ++ rest) = decodeWord w rest := by
  unfold decode; rw [takeWord_bytes]

/-! ## Operand fields -/

/-- A field of `n` bits from `lo` of a word, by its bits. -/
theorem field_eq {w : Word} {lo n : Nat} {v : BitVec n}
    (h : ∀ i, i < n → w.getLsbD (lo + i) = v.getLsbD i) : w.extractLsb' lo n = v := by
  apply BitVec.eq_of_getLsbD_eq
  intro i hi
  simp only [BitVec.getLsbD_extractLsb', hi, decide_true, Bool.true_and]
  exact h i hi

theorem src_bits (x : Src) : Src.ofBits x.sBit x.mBit x.num = x := by cases x <;> rfl
theorem srcDst_bits (x : SrcDst) : SrcDst.ofBits x.mBit x.num = x := by cases x <;> rfl
theorem cSrc_bits (x : CSrc) : CSrc.ofBits x.mBit x.num = x := by cases x <;> rfl
theorem cReg_bits (x : CReg) : CReg.ofBits x.sBit x.num = x := by cases x <;> rfl
theorem scale_bits (x : Scale) : Scale.ofBits x.bits = some x := by cases x <;> rfl

theorem reg_hi (op : BitVec 12) (s1 s2 : Src) (d : SrcDst) : (regWord op s1 s2 d).extractLsb' 24 8 = op.extractLsb' 4 8 := by
  apply field_eq
  intro i h
  unfold regWord
  simp only [BitVec.getLsbD_append, BitVec.getLsbD_extractLsb']
  interval_cases i <;> simp

theorem reg_lo (op : BitVec 12) (s1 s2 : Src) (d : SrcDst) : (regWord op s1 s2 d).extractLsb' 7 4 = op.extractLsb' 0 4 := by
  apply field_eq
  intro i h
  unfold regWord
  simp only [BitVec.getLsbD_append, BitVec.getLsbD_extractLsb']
  interval_cases i <;> simp

theorem reg_n1 (op : BitVec 12) (s1 s2 : Src) (d : SrcDst) : (regWord op s1 s2 d).extractLsb' 0 5 = s1.num := by
  apply field_eq
  intro i h
  unfold regWord
  simp only [BitVec.getLsbD_append]
  interval_cases i <;> simp

theorem reg_n2 (op : BitVec 12) (s1 s2 : Src) (d : SrcDst) : (regWord op s1 s2 d).extractLsb' 14 5 = s2.num := by
  apply field_eq
  intro i h
  unfold regWord
  simp only [BitVec.getLsbD_append]
  interval_cases i <;> simp

theorem reg_n3 (op : BitVec 12) (s1 s2 : Src) (d : SrcDst) : (regWord op s1 s2 d).extractLsb' 19 5 = d.num := by
  apply field_eq
  intro i h
  unfold regWord
  simp only [BitVec.getLsbD_append]
  interval_cases i <;> simp

theorem reg_sb1 (op : BitVec 12) (s1 s2 : Src) (d : SrcDst) : (regWord op s1 s2 d).getLsbD 5 = s1.sBit := by
  unfold regWord
  simp only [BitVec.getLsbD_append]
  simp

theorem reg_sb2 (op : BitVec 12) (s1 s2 : Src) (d : SrcDst) : (regWord op s1 s2 d).getLsbD 6 = s2.sBit := by
  unfold regWord
  simp only [BitVec.getLsbD_append]
  simp

theorem reg_mb1 (op : BitVec 12) (s1 s2 : Src) (d : SrcDst) : (regWord op s1 s2 d).getLsbD 11 = s1.mBit := by
  unfold regWord
  simp only [BitVec.getLsbD_append]
  simp

theorem reg_mb2 (op : BitVec 12) (s1 s2 : Src) (d : SrcDst) : (regWord op s1 s2 d).getLsbD 12 = s2.mBit := by
  unfold regWord
  simp only [BitVec.getLsbD_append]
  simp

theorem reg_mb3 (op : BitVec 12) (s1 s2 : Src) (d : SrcDst) : (regWord op s1 s2 d).getLsbD 13 = d.mBit := by
  unfold regWord
  simp only [BitVec.getLsbD_append]
  simp

theorem cobr_op (op : BitVec 8) (s1 : CSrc) (s2 : CReg) (disp : BitVec 11) : (cobrWord op s1 s2 disp).extractLsb' 24 8 = op := by
  apply field_eq
  intro i h
  unfold cobrWord
  simp only [BitVec.getLsbD_append]
  interval_cases i <;> simp

theorem cobr_n1 (op : BitVec 8) (s1 : CSrc) (s2 : CReg) (disp : BitVec 11) : (cobrWord op s1 s2 disp).extractLsb' 19 5 = s1.num := by
  apply field_eq
  intro i h
  unfold cobrWord
  simp only [BitVec.getLsbD_append]
  interval_cases i <;> simp

theorem cobr_n2 (op : BitVec 8) (s1 : CSrc) (s2 : CReg) (disp : BitVec 11) : (cobrWord op s1 s2 disp).extractLsb' 14 5 = s2.num := by
  apply field_eq
  intro i h
  unfold cobrWord
  simp only [BitVec.getLsbD_append]
  interval_cases i <;> simp

theorem cobr_disp (op : BitVec 8) (s1 : CSrc) (s2 : CReg) (disp : BitVec 11) : (cobrWord op s1 s2 disp).extractLsb' 2 11 = disp := by
  apply field_eq
  intro i h
  unfold cobrWord
  simp only [BitVec.getLsbD_append]
  interval_cases i <;> simp

theorem cobr_m (op : BitVec 8) (s1 : CSrc) (s2 : CReg) (disp : BitVec 11) : (cobrWord op s1 s2 disp).getLsbD 13 = s1.mBit := by
  unfold cobrWord
  simp only [BitVec.getLsbD_append]
  simp

theorem cobr_s (op : BitVec 8) (s1 : CSrc) (s2 : CReg) (disp : BitVec 11) : (cobrWord op s1 s2 disp).getLsbD 0 = s2.sBit := by
  unfold cobrWord
  simp only [BitVec.getLsbD_append]
  simp

theorem test_op (op : BitVec 8) (d : SrcDst) : (testWord op d).extractLsb' 24 8 = op := by
  apply field_eq
  intro i h
  unfold testWord
  simp only [BitVec.getLsbD_append]
  interval_cases i <;> simp

theorem test_n (op : BitVec 8) (d : SrcDst) : (testWord op d).extractLsb' 19 5 = d.num := by
  apply field_eq
  intro i h
  unfold testWord
  simp only [BitVec.getLsbD_append]
  interval_cases i <;> simp

theorem test_m (op : BitVec 8) (d : SrcDst) : (testWord op d).getLsbD 13 = d.mBit := by
  unfold testWord
  simp only [BitVec.getLsbD_append]
  simp

theorem ctrl_op (op : BitVec 8) (disp : BitVec 22) : (ctrlWord op disp).extractLsb' 24 8 = op := by
  apply field_eq
  intro i h
  unfold ctrlWord
  simp only [BitVec.getLsbD_append]
  interval_cases i <;> simp

theorem ctrl_disp (op : BitVec 8) (disp : BitVec 22) : (ctrlWord op disp).extractLsb' 2 22 = disp := by
  apply field_eq
  intro i h
  unfold ctrlWord
  simp only [BitVec.getLsbD_append]
  interval_cases i <;> simp

theorem memb_op (op : BitVec 8) (r abase : Reg) (mode : BitVec 4) (sc : BitVec 3) (index : Reg) : (membWord op r abase mode sc index).extractLsb' 24 8 = op := by
  apply field_eq
  intro i h
  unfold membWord
  simp only [BitVec.getLsbD_append]
  interval_cases i <;> simp

theorem memb_r (op : BitVec 8) (r abase : Reg) (mode : BitVec 4) (sc : BitVec 3) (index : Reg) : (membWord op r abase mode sc index).extractLsb' 19 5 = r := by
  apply field_eq
  intro i h
  unfold membWord
  simp only [BitVec.getLsbD_append]
  interval_cases i <;> simp

theorem memb_abase (op : BitVec 8) (r abase : Reg) (mode : BitVec 4) (sc : BitVec 3) (index : Reg) : (membWord op r abase mode sc index).extractLsb' 14 5 = abase := by
  apply field_eq
  intro i h
  unfold membWord
  simp only [BitVec.getLsbD_append]
  interval_cases i <;> simp

theorem memb_mode (op : BitVec 8) (r abase : Reg) (mode : BitVec 4) (sc : BitVec 3) (index : Reg) : (membWord op r abase mode sc index).extractLsb' 10 4 = mode := by
  apply field_eq
  intro i h
  unfold membWord
  simp only [BitVec.getLsbD_append]
  interval_cases i <;> simp

theorem memb_scale (op : BitVec 8) (r abase : Reg) (mode : BitVec 4) (sc : BitVec 3) (index : Reg) : (membWord op r abase mode sc index).extractLsb' 7 3 = sc := by
  apply field_eq
  intro i h
  unfold membWord
  simp only [BitVec.getLsbD_append]
  interval_cases i <;> simp

theorem memb_index (op : BitVec 8) (r abase : Reg) (mode : BitVec 4) (sc : BitVec 3) (index : Reg) : (membWord op r abase mode sc index).extractLsb' 0 5 = index := by
  apply field_eq
  intro i h
  unfold membWord
  simp only [BitVec.getLsbD_append]
  interval_cases i <;> simp

theorem memb_12 (op : BitVec 8) (r abase : Reg) (mode : BitVec 4) (sc : BitVec 3) (index : Reg) : (membWord op r abase mode sc index).getLsbD 12 = mode.getLsbD 2 := by
  unfold membWord
  simp only [BitVec.getLsbD_append]
  simp

/-- A MEMA word (30_encoding.md R241). -/
def memaWord (op : BitVec 8) (r abase : Reg) (mode : BitVec 2) (off : BitVec 12) : Word :=
  op ++ r ++ abase ++ mode ++ off

theorem mema_op (op : BitVec 8) (r abase : Reg) (mode : BitVec 2) (off : BitVec 12) : (memaWord op r abase mode off).extractLsb' 24 8 = op := by
  apply field_eq
  intro i h
  unfold memaWord
  simp only [BitVec.getLsbD_append]
  interval_cases i <;> simp

theorem mema_r (op : BitVec 8) (r abase : Reg) (mode : BitVec 2) (off : BitVec 12) : (memaWord op r abase mode off).extractLsb' 19 5 = r := by
  apply field_eq
  intro i h
  unfold memaWord
  simp only [BitVec.getLsbD_append]
  interval_cases i <;> simp

theorem mema_abase (op : BitVec 8) (r abase : Reg) (mode : BitVec 2) (off : BitVec 12) : (memaWord op r abase mode off).extractLsb' 14 5 = abase := by
  apply field_eq
  intro i h
  unfold memaWord
  simp only [BitVec.getLsbD_append]
  interval_cases i <;> simp

theorem mema_off (op : BitVec 8) (r abase : Reg) (mode : BitVec 2) (off : BitVec 12) : (memaWord op r abase mode off).extractLsb' 0 12 = off := by
  apply field_eq
  intro i h
  unfold memaWord
  simp only [BitVec.getLsbD_append]
  interval_cases i <;> simp

theorem mema_12 (op : BitVec 8) (r abase : Reg) (mode : BitVec 2) (off : BitVec 12) : (memaWord op r abase mode off).getLsbD 12 = mode.getLsbD 0 := by
  unfold memaWord
  simp only [BitVec.getLsbD_append]
  simp

theorem mema_13 (op : BitVec 8) (r abase : Reg) (mode : BitVec 2) (off : BitVec 12) : (memaWord op r abase mode off).getLsbD 13 = mode.getLsbD 1 := by
  unfold memaWord
  simp only [BitVec.getLsbD_append]
  simp

/-! ## Words of each format -/

/-- A REG word decodes by its 12-bit opcode to the instruction with its operands. -/
theorem decodeWord_reg (op : BitVec 12) (s1 s2 : Src) (d : SrcDst) (rest : List Byte)
    (lo : 0x40 ≤ (op.extractLsb' 4 8).toNat) (hi : (op.extractLsb' 4 8).toNat < 0x80) :
    decodeWord (regWord op s1 s2 d) rest = orUndefined (decodeReg op.toNat s1 s2 d) rest := by
  have h12 : opcode12 (regWord op s1 s2 d) = op := by
    unfold opcode12
    rw [reg_hi, reg_lo]
    apply BitVec.eq_of_getLsbD_eq
    intro i h
    simp only [BitVec.getLsbD_append, BitVec.getLsbD_extractLsb']
    interval_cases i <;> simp
  simp only [decodeWord, opcode8, reg_hi, if_neg (show ¬ (op.extractLsb' 4 8).toNat < 0x20 by omega),
    if_neg (show ¬ (op.extractLsb' 4 8).toNat < 0x40 by omega), if_pos hi, h12]
  simp only [regSrc1, regSrc2, regSrcDst, reg_n1, reg_n2, reg_n3, reg_sb1, reg_sb2, reg_mb1, reg_mb2,
    reg_mb3, src_bits, srcDst_bits]

/-- A COBR word decodes by its opcode to the instruction with its operands. -/
theorem decodeWord_cobr (op : BitVec 8) (s1 : CSrc) (s2 : CReg) (disp : BitVec 11) (rest : List Byte)
    (lo : 0x20 ≤ op.toNat) (hi : op.toNat < 0x40) : ∃ t, decodeWord (cobrWord op s1 s2 disp) rest =
      orUndefined (decodeCobr op.toNat s1 s2 disp t) rest := by
  refine ⟨testDst (cobrWord op s1 s2 disp), ?_⟩
  simp only [decodeWord, opcode8, cobr_op, if_neg (show ¬ op.toNat < 0x20 by omega), if_pos hi]
  simp only [cobrSrc1, cobrSrc2, cobrDisp, cobr_n1, cobr_n2, cobr_m, cobr_s, cobr_disp, cSrc_bits,
    cReg_bits]

/-- A `test<cc>` word decodes by its opcode to the instruction with its destination. -/
theorem decodeWord_test (op : BitVec 8) (d : SrcDst) (rest : List Byte)
    (lo : 0x20 ≤ op.toNat) (hi : op.toNat < 0x40) : ∃ s1 s2 disp, decodeWord (testWord op d) rest =
      orUndefined (decodeCobr op.toNat s1 s2 disp d) rest := by
  refine ⟨cobrSrc1 (testWord op d), cobrSrc2 (testWord op d), cobrDisp (testWord op d), ?_⟩
  simp only [decodeWord, opcode8, test_op, if_neg (show ¬ op.toNat < 0x20 by omega), if_pos hi]
  simp only [testDst, test_n, test_m, srcDst_bits]

/-- A CTRL word decodes by its opcode to the instruction with its displacement. -/
theorem decodeWord_ctrl (op : BitVec 8) (disp : BitVec 22) (rest : List Byte)
    (hi : op.toNat < 0x20) :
    decodeWord (ctrlWord op disp) rest = orUndefined (decodeCtrl op.toNat disp) rest := by
  simp only [decodeWord, opcode8, ctrl_op, if_pos hi, ctrlDisp, ctrl_disp]

/-- A second word comes back from its bytes. -/
theorem withDisp_bytes (k : Word → MemOp) (w : Word) (rest : List Byte) :
    withDisp k (bytesOfWord w ++ rest) = .ok (k w, rest) := by
  unfold withDisp; rw [takeWord_bytes]

/-- A MEM word with a known opcode decodes to the instruction with its register and address. -/
theorem decodeWord_mem {op : BitVec 8} {r : Reg} {m : MemOp} {w : Word} {more rest : List Byte}
    (lo : 0x80 ≤ op.toNat) (hn : (decodeMem op.toNat 0 (.absOff 0)).isNone = false)
    (ho : w.extractLsb' 24 8 = op) (hr : w.extractLsb' 19 5 = r)
    (hm : decodeMemOp w (more ++ rest) = .ok (m, rest)) :
    decodeWord w (more ++ rest) = orUndefined (decodeMem op.toNat r m) rest := by
  simp only [decodeWord, opcode8, ho, if_neg (show ¬ op.toNat < 0x20 by omega),
    if_neg (show ¬ op.toNat < 0x40 by omega), if_neg (show ¬ op.toNat < 0x80 by omega), hn, hm,
    Bool.false_eq_true, if_false]
  rw [memReg, hr]

/-- The words of a MEM instruction decode to it. -/
theorem decode_mem (op : BitVec 8) (r : Reg) (m : MemOp) (rest : List Byte)
    (lo : 0x80 ≤ op.toNat) (hn : (decodeMem op.toNat 0 (.absOff 0)).isNone = false) :
    decode ((memWords op r m).flatMap bytesOfWord ++ rest) =
      orUndefined (decodeMem op.toNat r m) rest := by
  have one : ∀ {w : Word}, w.extractLsb' 24 8 = op → w.extractLsb' 19 5 = r →
      decodeMemOp w ([] ++ rest) = .ok (m, rest) →
      decode ([w].flatMap bytesOfWord ++ rest) = orUndefined (decodeMem op.toNat r m) rest := by
    intro w ho hr hm
    simp only [List.flatMap_cons, List.flatMap_nil, List.append_nil]
    rw [decode_bytes]
    exact decodeWord_mem (more := []) lo hn ho hr hm
  have two : ∀ {w d : Word}, w.extractLsb' 24 8 = op → w.extractLsb' 19 5 = r →
      decodeMemOp w (bytesOfWord d ++ rest) = .ok (m, rest) →
      decode ([w, d].flatMap bytesOfWord ++ rest) = orUndefined (decodeMem op.toNat r m) rest := by
    intro w d ho hr hm
    simp only [List.flatMap_cons, List.flatMap_nil, List.append_nil, List.append_assoc]
    rw [decode_bytes]
    exact decodeWord_mem lo hn ho hr hm
  cases m with
  | absOff off =>
    refine one (mema_op op r 0#5 0#2 off) (mema_r op r 0#5 0#2 off) ?_
    show decodeMemOp (memaWord op r 0#5 0#2 off) _ = _
    simp only [decodeMemOp, mema_12, mema_13, mema_off]
    rfl
  | regOff b off =>
    refine one (mema_op op r b 2#2 off) (mema_r op r b 2#2 off) ?_
    show decodeMemOp (memaWord op r b 2#2 off) _ = _
    simp only [decodeMemOp, mema_12, mema_13, mema_off, mema_abase]
    rfl
  | regInd b =>
    refine one (memb_op op r b 4 0 0) (memb_r op r b 4 0 0) ?_
    simp only [decodeMemOp, memb_12, memb_mode, memb_abase]
    rfl
  | ipDisp d =>
    refine two (memb_op op r 0 5 0 0) (memb_r op r 0 5 0 0) ?_
    simp only [decodeMemOp, memb_12, memb_mode]
    exact withDisp_bytes _ _ _
  | regIdx b sc x =>
    refine one (memb_op op r b 7 sc.bits x) (memb_r op r b 7 sc.bits x) ?_
    simp only [decodeMemOp, memb_12, memb_mode, memb_abase, memb_scale, memb_index, scale_bits]
    rfl
  | absDisp d =>
    refine two (memb_op op r 0 12 0 0) (memb_r op r 0 12 0 0) ?_
    simp only [decodeMemOp, memb_12, memb_mode]
    exact withDisp_bytes _ _ _
  | regDisp b d =>
    refine two (memb_op op r b 13 0 0) (memb_r op r b 13 0 0) ?_
    simp only [decodeMemOp, memb_12, memb_mode, memb_abase]
    exact withDisp_bytes _ _ _
  | idxDisp sc x d =>
    refine two (memb_op op r 0 14 sc.bits x) (memb_r op r 0 14 sc.bits x) ?_
    simp only [decodeMemOp, memb_12, memb_mode, memb_scale, memb_index, scale_bits]
    exact withDisp_bytes _ _ _
  | regIdxDisp b sc x d =>
    refine two (memb_op op r b 15 sc.bits x) (memb_r op r b 15 sc.bits x) ?_
    simp only [decodeMemOp, memb_12, memb_mode, memb_abase, memb_scale, memb_index, scale_bits]
    exact withDisp_bytes _ _ _

/-! ## The family RoundTrip -/

/-- The bytes of an instruction, followed by anything, decode to it and leave what follows
(30_encoding.md R220 to R263). -/
def RoundTrip.Statement (i : Instr) : Prop :=
  ∀ rest, decode (encodeBytes i ++ rest) = .ok (i, rest)

theorem reg_trip {i : Instr} {op : BitVec 12} {s1 s2 : Src} {d : SrcDst}
    (he : encode i = [regWord op s1 s2 d]) (lo : 0x40 ≤ (op.extractLsb' 4 8).toNat)
    (hi : (op.extractLsb' 4 8).toNat < 0x80) (hd : decodeReg op.toNat s1 s2 d = some i) :
    RoundTrip.Statement i := by
  intro rest
  simp only [encodeBytes, he, List.flatMap_cons, List.flatMap_nil, List.append_nil]
  rw [decode_bytes, decodeWord_reg op s1 s2 d rest lo hi, hd]
  rfl

theorem cobr_trip {i : Instr} {op : BitVec 8} {s1 : CSrc} {s2 : CReg} {disp : BitVec 11}
    (he : encode i = [cobrWord op s1 s2 disp]) (lo : 0x20 ≤ op.toNat) (hi : op.toNat < 0x40)
    (hd : ∀ t, decodeCobr op.toNat s1 s2 disp t = some i) : RoundTrip.Statement i := by
  intro rest
  obtain ⟨t, ht⟩ := decodeWord_cobr op s1 s2 disp rest lo hi
  simp only [encodeBytes, he, List.flatMap_cons, List.flatMap_nil, List.append_nil]
  rw [decode_bytes, ht, hd]
  rfl

theorem test_trip {i : Instr} {op : BitVec 8} {d : SrcDst} (he : encode i = [testWord op d])
    (lo : 0x20 ≤ op.toNat) (hi : op.toNat < 0x40)
    (hd : ∀ s1 s2 disp, decodeCobr op.toNat s1 s2 disp d = some i) : RoundTrip.Statement i := by
  intro rest
  obtain ⟨s1, s2, disp, ht⟩ := decodeWord_test op d rest lo hi
  simp only [encodeBytes, he, List.flatMap_cons, List.flatMap_nil, List.append_nil]
  rw [decode_bytes, ht, hd]
  rfl

theorem ctrl_trip {i : Instr} {op : BitVec 8} {disp : BitVec 22}
    (he : encode i = [ctrlWord op disp]) (hi : op.toNat < 0x20)
    (hd : decodeCtrl op.toNat disp = some i) : RoundTrip.Statement i := by
  intro rest
  simp only [encodeBytes, he, List.flatMap_cons, List.flatMap_nil, List.append_nil]
  rw [decode_bytes, decodeWord_ctrl op disp rest hi, hd]
  rfl

theorem mem_trip {i : Instr} {op : BitVec 8} {r : Reg} {m : MemOp}
    (he : encode i = memWords op r m) (lo : 0x80 ≤ op.toNat)
    (hn : (decodeMem op.toNat 0 (.absOff 0)).isNone = false)
    (hd : decodeMem op.toNat r m = some i) : RoundTrip.Statement i := by
  intro rest
  unfold encodeBytes
  rw [he, decode_mem op r m rest lo hn, hd]
  rfl

theorem RoundTrip.notbit (s1 s2 : Src) (d : SrcDst) : RoundTrip.Statement (.notbit s1 s2 d) :=
  reg_trip (op := 0x580) rfl (by decide) (by decide) rfl

theorem RoundTrip.and (s1 s2 : Src) (d : SrcDst) : RoundTrip.Statement (.and s1 s2 d) :=
  reg_trip (op := 0x581) rfl (by decide) (by decide) rfl

theorem RoundTrip.andnot (s1 s2 : Src) (d : SrcDst) : RoundTrip.Statement (.andnot s1 s2 d) :=
  reg_trip (op := 0x582) rfl (by decide) (by decide) rfl

theorem RoundTrip.setbit (s1 s2 : Src) (d : SrcDst) : RoundTrip.Statement (.setbit s1 s2 d) :=
  reg_trip (op := 0x583) rfl (by decide) (by decide) rfl

theorem RoundTrip.notand (s1 s2 : Src) (d : SrcDst) : RoundTrip.Statement (.notand s1 s2 d) :=
  reg_trip (op := 0x584) rfl (by decide) (by decide) rfl

theorem RoundTrip.xor (s1 s2 : Src) (d : SrcDst) : RoundTrip.Statement (.xor s1 s2 d) :=
  reg_trip (op := 0x586) rfl (by decide) (by decide) rfl

theorem RoundTrip.or (s1 s2 : Src) (d : SrcDst) : RoundTrip.Statement (.or s1 s2 d) :=
  reg_trip (op := 0x587) rfl (by decide) (by decide) rfl

theorem RoundTrip.nor (s1 s2 : Src) (d : SrcDst) : RoundTrip.Statement (.nor s1 s2 d) :=
  reg_trip (op := 0x588) rfl (by decide) (by decide) rfl

theorem RoundTrip.xnor (s1 s2 : Src) (d : SrcDst) : RoundTrip.Statement (.xnor s1 s2 d) :=
  reg_trip (op := 0x589) rfl (by decide) (by decide) rfl

theorem RoundTrip.not (s : Src) (d : SrcDst) : RoundTrip.Statement (.not s d) :=
  reg_trip (op := 0x58A) rfl (by decide) (by decide) rfl

theorem RoundTrip.ornot (s1 s2 : Src) (d : SrcDst) : RoundTrip.Statement (.ornot s1 s2 d) :=
  reg_trip (op := 0x58B) rfl (by decide) (by decide) rfl

theorem RoundTrip.clrbit (s1 s2 : Src) (d : SrcDst) : RoundTrip.Statement (.clrbit s1 s2 d) :=
  reg_trip (op := 0x58C) rfl (by decide) (by decide) rfl

theorem RoundTrip.notor (s1 s2 : Src) (d : SrcDst) : RoundTrip.Statement (.notor s1 s2 d) :=
  reg_trip (op := 0x58D) rfl (by decide) (by decide) rfl

theorem RoundTrip.nand (s1 s2 : Src) (d : SrcDst) : RoundTrip.Statement (.nand s1 s2 d) :=
  reg_trip (op := 0x58E) rfl (by decide) (by decide) rfl

theorem RoundTrip.alterbit (s1 s2 : Src) (d : SrcDst) : RoundTrip.Statement (.alterbit s1 s2 d) :=
  reg_trip (op := 0x58F) rfl (by decide) (by decide) rfl

theorem RoundTrip.addo (s1 s2 : Src) (d : SrcDst) : RoundTrip.Statement (.addo s1 s2 d) :=
  reg_trip (op := 0x590) rfl (by decide) (by decide) rfl

theorem RoundTrip.addi (s1 s2 : Src) (d : SrcDst) : RoundTrip.Statement (.addi s1 s2 d) :=
  reg_trip (op := 0x591) rfl (by decide) (by decide) rfl

theorem RoundTrip.subo (s1 s2 : Src) (d : SrcDst) : RoundTrip.Statement (.subo s1 s2 d) :=
  reg_trip (op := 0x592) rfl (by decide) (by decide) rfl

theorem RoundTrip.subi (s1 s2 : Src) (d : SrcDst) : RoundTrip.Statement (.subi s1 s2 d) :=
  reg_trip (op := 0x593) rfl (by decide) (by decide) rfl

theorem RoundTrip.cmpob (s1 s2 : Src) : RoundTrip.Statement (.cmpob s1 s2) :=
  reg_trip (op := 0x594) rfl (by decide) (by decide) rfl

theorem RoundTrip.cmpib (s1 s2 : Src) : RoundTrip.Statement (.cmpib s1 s2) :=
  reg_trip (op := 0x595) rfl (by decide) (by decide) rfl

theorem RoundTrip.cmpos (s1 s2 : Src) : RoundTrip.Statement (.cmpos s1 s2) :=
  reg_trip (op := 0x596) rfl (by decide) (by decide) rfl

theorem RoundTrip.cmpis (s1 s2 : Src) : RoundTrip.Statement (.cmpis s1 s2) :=
  reg_trip (op := 0x597) rfl (by decide) (by decide) rfl

theorem RoundTrip.shro (s1 s2 : Src) (d : SrcDst) : RoundTrip.Statement (.shro s1 s2 d) :=
  reg_trip (op := 0x598) rfl (by decide) (by decide) rfl

theorem RoundTrip.shrdi (s1 s2 : Src) (d : SrcDst) : RoundTrip.Statement (.shrdi s1 s2 d) :=
  reg_trip (op := 0x59A) rfl (by decide) (by decide) rfl

theorem RoundTrip.shri (s1 s2 : Src) (d : SrcDst) : RoundTrip.Statement (.shri s1 s2 d) :=
  reg_trip (op := 0x59B) rfl (by decide) (by decide) rfl

theorem RoundTrip.shlo (s1 s2 : Src) (d : SrcDst) : RoundTrip.Statement (.shlo s1 s2 d) :=
  reg_trip (op := 0x59C) rfl (by decide) (by decide) rfl

theorem RoundTrip.rotate (s1 s2 : Src) (d : SrcDst) : RoundTrip.Statement (.rotate s1 s2 d) :=
  reg_trip (op := 0x59D) rfl (by decide) (by decide) rfl

theorem RoundTrip.shli (s1 s2 : Src) (d : SrcDst) : RoundTrip.Statement (.shli s1 s2 d) :=
  reg_trip (op := 0x59E) rfl (by decide) (by decide) rfl

theorem RoundTrip.cmpo (s1 s2 : Src) : RoundTrip.Statement (.cmpo s1 s2) :=
  reg_trip (op := 0x5A0) rfl (by decide) (by decide) rfl

theorem RoundTrip.cmpi (s1 s2 : Src) : RoundTrip.Statement (.cmpi s1 s2) :=
  reg_trip (op := 0x5A1) rfl (by decide) (by decide) rfl

theorem RoundTrip.concmpo (s1 s2 : Src) : RoundTrip.Statement (.concmpo s1 s2) :=
  reg_trip (op := 0x5A2) rfl (by decide) (by decide) rfl

theorem RoundTrip.concmpi (s1 s2 : Src) : RoundTrip.Statement (.concmpi s1 s2) :=
  reg_trip (op := 0x5A3) rfl (by decide) (by decide) rfl

theorem RoundTrip.cmpinco (s1 s2 : Src) (d : SrcDst) : RoundTrip.Statement (.cmpinco s1 s2 d) :=
  reg_trip (op := 0x5A4) rfl (by decide) (by decide) rfl

theorem RoundTrip.cmpinci (s1 s2 : Src) (d : SrcDst) : RoundTrip.Statement (.cmpinci s1 s2 d) :=
  reg_trip (op := 0x5A5) rfl (by decide) (by decide) rfl

theorem RoundTrip.cmpdeco (s1 s2 : Src) (d : SrcDst) : RoundTrip.Statement (.cmpdeco s1 s2 d) :=
  reg_trip (op := 0x5A6) rfl (by decide) (by decide) rfl

theorem RoundTrip.cmpdeci (s1 s2 : Src) (d : SrcDst) : RoundTrip.Statement (.cmpdeci s1 s2 d) :=
  reg_trip (op := 0x5A7) rfl (by decide) (by decide) rfl

theorem RoundTrip.scanbyte (s1 s2 : Src) : RoundTrip.Statement (.scanbyte s1 s2) :=
  reg_trip (op := 0x5AC) rfl (by decide) (by decide) rfl

theorem RoundTrip.bswap (s : Src) (d : SrcDst) : RoundTrip.Statement (.bswap s d) :=
  reg_trip (op := 0x5AD) rfl (by decide) (by decide) rfl

theorem RoundTrip.chkbit (s1 s2 : Src) : RoundTrip.Statement (.chkbit s1 s2) :=
  reg_trip (op := 0x5AE) rfl (by decide) (by decide) rfl

theorem RoundTrip.addc (s1 s2 : Src) (d : SrcDst) : RoundTrip.Statement (.addc s1 s2 d) :=
  reg_trip (op := 0x5B0) rfl (by decide) (by decide) rfl

theorem RoundTrip.subc (s1 s2 : Src) (d : SrcDst) : RoundTrip.Statement (.subc s1 s2 d) :=
  reg_trip (op := 0x5B2) rfl (by decide) (by decide) rfl

theorem RoundTrip.intdis : RoundTrip.Statement .intdis :=
  reg_trip (op := 0x5B4) rfl (by decide) (by decide) rfl

theorem RoundTrip.inten : RoundTrip.Statement .inten :=
  reg_trip (op := 0x5B5) rfl (by decide) (by decide) rfl

theorem RoundTrip.mov (s : Src) (d : SrcDst) : RoundTrip.Statement (.mov s d) :=
  reg_trip (op := 0x5CC) rfl (by decide) (by decide) rfl

theorem RoundTrip.eshro (s1 s2 : Src) (d : SrcDst) : RoundTrip.Statement (.eshro s1 s2 d) :=
  reg_trip (op := 0x5D8) rfl (by decide) (by decide) rfl

theorem RoundTrip.movl (s : Src) (d : SrcDst) : RoundTrip.Statement (.movl s d) :=
  reg_trip (op := 0x5DC) rfl (by decide) (by decide) rfl

theorem RoundTrip.movt (s : Src) (d : SrcDst) : RoundTrip.Statement (.movt s d) :=
  reg_trip (op := 0x5EC) rfl (by decide) (by decide) rfl

theorem RoundTrip.movq (s : Src) (d : SrcDst) : RoundTrip.Statement (.movq s d) :=
  reg_trip (op := 0x5FC) rfl (by decide) (by decide) rfl

theorem RoundTrip.atmod (s1 s2 : Src) (d : SrcDst) : RoundTrip.Statement (.atmod s1 s2 d) :=
  reg_trip (op := 0x610) rfl (by decide) (by decide) rfl

theorem RoundTrip.atadd (s1 s2 : Src) (d : SrcDst) : RoundTrip.Statement (.atadd s1 s2 d) :=
  reg_trip (op := 0x612) rfl (by decide) (by decide) rfl

theorem RoundTrip.spanbit (s : Src) (d : SrcDst) : RoundTrip.Statement (.spanbit s d) :=
  reg_trip (op := 0x640) rfl (by decide) (by decide) rfl

theorem RoundTrip.scanbit (s : Src) (d : SrcDst) : RoundTrip.Statement (.scanbit s d) :=
  reg_trip (op := 0x641) rfl (by decide) (by decide) rfl

theorem RoundTrip.modac (s1 s2 : Src) (d : SrcDst) : RoundTrip.Statement (.modac s1 s2 d) :=
  reg_trip (op := 0x645) rfl (by decide) (by decide) rfl

theorem RoundTrip.modify (s1 s2 : Src) (d : SrcDst) : RoundTrip.Statement (.modify s1 s2 d) :=
  reg_trip (op := 0x650) rfl (by decide) (by decide) rfl

theorem RoundTrip.extract (s1 s2 : Src) (d : SrcDst) : RoundTrip.Statement (.extract s1 s2 d) :=
  reg_trip (op := 0x651) rfl (by decide) (by decide) rfl

theorem RoundTrip.modtc (s1 s2 : Src) (d : SrcDst) : RoundTrip.Statement (.modtc s1 s2 d) :=
  reg_trip (op := 0x654) rfl (by decide) (by decide) rfl

theorem RoundTrip.modpc (s1 s2 : Src) (d : SrcDst) : RoundTrip.Statement (.modpc s1 s2 d) :=
  reg_trip (op := 0x655) rfl (by decide) (by decide) rfl

theorem RoundTrip.intctl (s : Src) (d : SrcDst) : RoundTrip.Statement (.intctl s d) :=
  reg_trip (op := 0x658) rfl (by decide) (by decide) rfl

theorem RoundTrip.sysctl (s1 s2 : Src) (d : SrcDst) : RoundTrip.Statement (.sysctl s1 s2 d) :=
  reg_trip (op := 0x659) rfl (by decide) (by decide) rfl

theorem RoundTrip.icctl (s1 s2 : Src) (d : SrcDst) : RoundTrip.Statement (.icctl s1 s2 d) :=
  reg_trip (op := 0x65B) rfl (by decide) (by decide) rfl

theorem RoundTrip.dcctl (s1 s2 : Src) (d : SrcDst) : RoundTrip.Statement (.dcctl s1 s2 d) :=
  reg_trip (op := 0x65C) rfl (by decide) (by decide) rfl

theorem RoundTrip.halt (s : Src) : RoundTrip.Statement (.halt s) :=
  reg_trip (op := 0x65D) rfl (by decide) (by decide) rfl

theorem RoundTrip.calls (s : Src) : RoundTrip.Statement (.calls s) :=
  reg_trip (op := 0x660) rfl (by decide) (by decide) rfl

theorem RoundTrip.mark : RoundTrip.Statement .mark :=
  reg_trip (op := 0x66B) rfl (by decide) (by decide) rfl

theorem RoundTrip.fmark : RoundTrip.Statement .fmark :=
  reg_trip (op := 0x66C) rfl (by decide) (by decide) rfl

theorem RoundTrip.flushreg : RoundTrip.Statement .flushreg :=
  reg_trip (op := 0x66D) rfl (by decide) (by decide) rfl

theorem RoundTrip.syncf : RoundTrip.Statement .syncf :=
  reg_trip (op := 0x66F) rfl (by decide) (by decide) rfl

theorem RoundTrip.emul (s1 s2 : Src) (d : SrcDst) : RoundTrip.Statement (.emul s1 s2 d) :=
  reg_trip (op := 0x670) rfl (by decide) (by decide) rfl

theorem RoundTrip.ediv (s1 s2 : Src) (d : SrcDst) : RoundTrip.Statement (.ediv s1 s2 d) :=
  reg_trip (op := 0x671) rfl (by decide) (by decide) rfl

theorem RoundTrip.mulo (s1 s2 : Src) (d : SrcDst) : RoundTrip.Statement (.mulo s1 s2 d) :=
  reg_trip (op := 0x701) rfl (by decide) (by decide) rfl

theorem RoundTrip.remo (s1 s2 : Src) (d : SrcDst) : RoundTrip.Statement (.remo s1 s2 d) :=
  reg_trip (op := 0x708) rfl (by decide) (by decide) rfl

theorem RoundTrip.divo (s1 s2 : Src) (d : SrcDst) : RoundTrip.Statement (.divo s1 s2 d) :=
  reg_trip (op := 0x70B) rfl (by decide) (by decide) rfl

theorem RoundTrip.muli (s1 s2 : Src) (d : SrcDst) : RoundTrip.Statement (.muli s1 s2 d) :=
  reg_trip (op := 0x741) rfl (by decide) (by decide) rfl

theorem RoundTrip.remi (s1 s2 : Src) (d : SrcDst) : RoundTrip.Statement (.remi s1 s2 d) :=
  reg_trip (op := 0x748) rfl (by decide) (by decide) rfl

theorem RoundTrip.modi (s1 s2 : Src) (d : SrcDst) : RoundTrip.Statement (.modi s1 s2 d) :=
  reg_trip (op := 0x749) rfl (by decide) (by decide) rfl

theorem RoundTrip.divi (s1 s2 : Src) (d : SrcDst) : RoundTrip.Statement (.divi s1 s2 d) :=
  reg_trip (op := 0x74B) rfl (by decide) (by decide) rfl

theorem RoundTrip.addono (s1 s2 : Src) (d : SrcDst) : RoundTrip.Statement (.addono s1 s2 d) :=
  reg_trip (op := 0x780) rfl (by decide) (by decide) rfl

theorem RoundTrip.addino (s1 s2 : Src) (d : SrcDst) : RoundTrip.Statement (.addino s1 s2 d) :=
  reg_trip (op := 0x781) rfl (by decide) (by decide) rfl

theorem RoundTrip.subono (s1 s2 : Src) (d : SrcDst) : RoundTrip.Statement (.subono s1 s2 d) :=
  reg_trip (op := 0x782) rfl (by decide) (by decide) rfl

theorem RoundTrip.subino (s1 s2 : Src) (d : SrcDst) : RoundTrip.Statement (.subino s1 s2 d) :=
  reg_trip (op := 0x783) rfl (by decide) (by decide) rfl

theorem RoundTrip.selno (s1 s2 : Src) (d : SrcDst) : RoundTrip.Statement (.selno s1 s2 d) :=
  reg_trip (op := 0x784) rfl (by decide) (by decide) rfl

theorem RoundTrip.addog (s1 s2 : Src) (d : SrcDst) : RoundTrip.Statement (.addog s1 s2 d) :=
  reg_trip (op := 0x790) rfl (by decide) (by decide) rfl

theorem RoundTrip.addig (s1 s2 : Src) (d : SrcDst) : RoundTrip.Statement (.addig s1 s2 d) :=
  reg_trip (op := 0x791) rfl (by decide) (by decide) rfl

theorem RoundTrip.subog (s1 s2 : Src) (d : SrcDst) : RoundTrip.Statement (.subog s1 s2 d) :=
  reg_trip (op := 0x792) rfl (by decide) (by decide) rfl

theorem RoundTrip.subig (s1 s2 : Src) (d : SrcDst) : RoundTrip.Statement (.subig s1 s2 d) :=
  reg_trip (op := 0x793) rfl (by decide) (by decide) rfl

theorem RoundTrip.selg (s1 s2 : Src) (d : SrcDst) : RoundTrip.Statement (.selg s1 s2 d) :=
  reg_trip (op := 0x794) rfl (by decide) (by decide) rfl

theorem RoundTrip.addoe (s1 s2 : Src) (d : SrcDst) : RoundTrip.Statement (.addoe s1 s2 d) :=
  reg_trip (op := 0x7A0) rfl (by decide) (by decide) rfl

theorem RoundTrip.addie (s1 s2 : Src) (d : SrcDst) : RoundTrip.Statement (.addie s1 s2 d) :=
  reg_trip (op := 0x7A1) rfl (by decide) (by decide) rfl

theorem RoundTrip.suboe (s1 s2 : Src) (d : SrcDst) : RoundTrip.Statement (.suboe s1 s2 d) :=
  reg_trip (op := 0x7A2) rfl (by decide) (by decide) rfl

theorem RoundTrip.subie (s1 s2 : Src) (d : SrcDst) : RoundTrip.Statement (.subie s1 s2 d) :=
  reg_trip (op := 0x7A3) rfl (by decide) (by decide) rfl

theorem RoundTrip.sele (s1 s2 : Src) (d : SrcDst) : RoundTrip.Statement (.sele s1 s2 d) :=
  reg_trip (op := 0x7A4) rfl (by decide) (by decide) rfl

theorem RoundTrip.addoge (s1 s2 : Src) (d : SrcDst) : RoundTrip.Statement (.addoge s1 s2 d) :=
  reg_trip (op := 0x7B0) rfl (by decide) (by decide) rfl

theorem RoundTrip.addige (s1 s2 : Src) (d : SrcDst) : RoundTrip.Statement (.addige s1 s2 d) :=
  reg_trip (op := 0x7B1) rfl (by decide) (by decide) rfl

theorem RoundTrip.suboge (s1 s2 : Src) (d : SrcDst) : RoundTrip.Statement (.suboge s1 s2 d) :=
  reg_trip (op := 0x7B2) rfl (by decide) (by decide) rfl

theorem RoundTrip.subige (s1 s2 : Src) (d : SrcDst) : RoundTrip.Statement (.subige s1 s2 d) :=
  reg_trip (op := 0x7B3) rfl (by decide) (by decide) rfl

theorem RoundTrip.selge (s1 s2 : Src) (d : SrcDst) : RoundTrip.Statement (.selge s1 s2 d) :=
  reg_trip (op := 0x7B4) rfl (by decide) (by decide) rfl

theorem RoundTrip.addol (s1 s2 : Src) (d : SrcDst) : RoundTrip.Statement (.addol s1 s2 d) :=
  reg_trip (op := 0x7C0) rfl (by decide) (by decide) rfl

theorem RoundTrip.addil (s1 s2 : Src) (d : SrcDst) : RoundTrip.Statement (.addil s1 s2 d) :=
  reg_trip (op := 0x7C1) rfl (by decide) (by decide) rfl

theorem RoundTrip.subol (s1 s2 : Src) (d : SrcDst) : RoundTrip.Statement (.subol s1 s2 d) :=
  reg_trip (op := 0x7C2) rfl (by decide) (by decide) rfl

theorem RoundTrip.subil (s1 s2 : Src) (d : SrcDst) : RoundTrip.Statement (.subil s1 s2 d) :=
  reg_trip (op := 0x7C3) rfl (by decide) (by decide) rfl

theorem RoundTrip.sell (s1 s2 : Src) (d : SrcDst) : RoundTrip.Statement (.sell s1 s2 d) :=
  reg_trip (op := 0x7C4) rfl (by decide) (by decide) rfl

theorem RoundTrip.addone (s1 s2 : Src) (d : SrcDst) : RoundTrip.Statement (.addone s1 s2 d) :=
  reg_trip (op := 0x7D0) rfl (by decide) (by decide) rfl

theorem RoundTrip.addine (s1 s2 : Src) (d : SrcDst) : RoundTrip.Statement (.addine s1 s2 d) :=
  reg_trip (op := 0x7D1) rfl (by decide) (by decide) rfl

theorem RoundTrip.subone (s1 s2 : Src) (d : SrcDst) : RoundTrip.Statement (.subone s1 s2 d) :=
  reg_trip (op := 0x7D2) rfl (by decide) (by decide) rfl

theorem RoundTrip.subine (s1 s2 : Src) (d : SrcDst) : RoundTrip.Statement (.subine s1 s2 d) :=
  reg_trip (op := 0x7D3) rfl (by decide) (by decide) rfl

theorem RoundTrip.selne (s1 s2 : Src) (d : SrcDst) : RoundTrip.Statement (.selne s1 s2 d) :=
  reg_trip (op := 0x7D4) rfl (by decide) (by decide) rfl

theorem RoundTrip.addole (s1 s2 : Src) (d : SrcDst) : RoundTrip.Statement (.addole s1 s2 d) :=
  reg_trip (op := 0x7E0) rfl (by decide) (by decide) rfl

theorem RoundTrip.addile (s1 s2 : Src) (d : SrcDst) : RoundTrip.Statement (.addile s1 s2 d) :=
  reg_trip (op := 0x7E1) rfl (by decide) (by decide) rfl

theorem RoundTrip.subole (s1 s2 : Src) (d : SrcDst) : RoundTrip.Statement (.subole s1 s2 d) :=
  reg_trip (op := 0x7E2) rfl (by decide) (by decide) rfl

theorem RoundTrip.subile (s1 s2 : Src) (d : SrcDst) : RoundTrip.Statement (.subile s1 s2 d) :=
  reg_trip (op := 0x7E3) rfl (by decide) (by decide) rfl

theorem RoundTrip.selle (s1 s2 : Src) (d : SrcDst) : RoundTrip.Statement (.selle s1 s2 d) :=
  reg_trip (op := 0x7E4) rfl (by decide) (by decide) rfl

theorem RoundTrip.addoo (s1 s2 : Src) (d : SrcDst) : RoundTrip.Statement (.addoo s1 s2 d) :=
  reg_trip (op := 0x7F0) rfl (by decide) (by decide) rfl

theorem RoundTrip.addio (s1 s2 : Src) (d : SrcDst) : RoundTrip.Statement (.addio s1 s2 d) :=
  reg_trip (op := 0x7F1) rfl (by decide) (by decide) rfl

theorem RoundTrip.suboo (s1 s2 : Src) (d : SrcDst) : RoundTrip.Statement (.suboo s1 s2 d) :=
  reg_trip (op := 0x7F2) rfl (by decide) (by decide) rfl

theorem RoundTrip.subio (s1 s2 : Src) (d : SrcDst) : RoundTrip.Statement (.subio s1 s2 d) :=
  reg_trip (op := 0x7F3) rfl (by decide) (by decide) rfl

theorem RoundTrip.selo (s1 s2 : Src) (d : SrcDst) : RoundTrip.Statement (.selo s1 s2 d) :=
  reg_trip (op := 0x7F4) rfl (by decide) (by decide) rfl

theorem RoundTrip.testno (d : SrcDst) : RoundTrip.Statement (.testno d) :=
  test_trip (op := 0x20) rfl (by decide) (by decide) fun _ _ _ => rfl

theorem RoundTrip.testg (d : SrcDst) : RoundTrip.Statement (.testg d) :=
  test_trip (op := 0x21) rfl (by decide) (by decide) fun _ _ _ => rfl

theorem RoundTrip.teste (d : SrcDst) : RoundTrip.Statement (.teste d) :=
  test_trip (op := 0x22) rfl (by decide) (by decide) fun _ _ _ => rfl

theorem RoundTrip.testge (d : SrcDst) : RoundTrip.Statement (.testge d) :=
  test_trip (op := 0x23) rfl (by decide) (by decide) fun _ _ _ => rfl

theorem RoundTrip.testl (d : SrcDst) : RoundTrip.Statement (.testl d) :=
  test_trip (op := 0x24) rfl (by decide) (by decide) fun _ _ _ => rfl

theorem RoundTrip.testne (d : SrcDst) : RoundTrip.Statement (.testne d) :=
  test_trip (op := 0x25) rfl (by decide) (by decide) fun _ _ _ => rfl

theorem RoundTrip.testle (d : SrcDst) : RoundTrip.Statement (.testle d) :=
  test_trip (op := 0x26) rfl (by decide) (by decide) fun _ _ _ => rfl

theorem RoundTrip.testo (d : SrcDst) : RoundTrip.Statement (.testo d) :=
  test_trip (op := 0x27) rfl (by decide) (by decide) fun _ _ _ => rfl

theorem RoundTrip.bbc (s1 : CSrc) (s2 : CReg) (disp : BitVec 11) : RoundTrip.Statement (.bbc s1 s2 disp) :=
  cobr_trip (op := 0x30) rfl (by decide) (by decide) fun _ => rfl

theorem RoundTrip.cmpobg (s1 : CSrc) (s2 : CReg) (disp : BitVec 11) : RoundTrip.Statement (.cmpobg s1 s2 disp) :=
  cobr_trip (op := 0x31) rfl (by decide) (by decide) fun _ => rfl

theorem RoundTrip.cmpobe (s1 : CSrc) (s2 : CReg) (disp : BitVec 11) : RoundTrip.Statement (.cmpobe s1 s2 disp) :=
  cobr_trip (op := 0x32) rfl (by decide) (by decide) fun _ => rfl

theorem RoundTrip.cmpobge (s1 : CSrc) (s2 : CReg) (disp : BitVec 11) : RoundTrip.Statement (.cmpobge s1 s2 disp) :=
  cobr_trip (op := 0x33) rfl (by decide) (by decide) fun _ => rfl

theorem RoundTrip.cmpobl (s1 : CSrc) (s2 : CReg) (disp : BitVec 11) : RoundTrip.Statement (.cmpobl s1 s2 disp) :=
  cobr_trip (op := 0x34) rfl (by decide) (by decide) fun _ => rfl

theorem RoundTrip.cmpobne (s1 : CSrc) (s2 : CReg) (disp : BitVec 11) : RoundTrip.Statement (.cmpobne s1 s2 disp) :=
  cobr_trip (op := 0x35) rfl (by decide) (by decide) fun _ => rfl

theorem RoundTrip.cmpoble (s1 : CSrc) (s2 : CReg) (disp : BitVec 11) : RoundTrip.Statement (.cmpoble s1 s2 disp) :=
  cobr_trip (op := 0x36) rfl (by decide) (by decide) fun _ => rfl

theorem RoundTrip.bbs (s1 : CSrc) (s2 : CReg) (disp : BitVec 11) : RoundTrip.Statement (.bbs s1 s2 disp) :=
  cobr_trip (op := 0x37) rfl (by decide) (by decide) fun _ => rfl

theorem RoundTrip.cmpibno (s1 : CSrc) (s2 : CReg) (disp : BitVec 11) : RoundTrip.Statement (.cmpibno s1 s2 disp) :=
  cobr_trip (op := 0x38) rfl (by decide) (by decide) fun _ => rfl

theorem RoundTrip.cmpibg (s1 : CSrc) (s2 : CReg) (disp : BitVec 11) : RoundTrip.Statement (.cmpibg s1 s2 disp) :=
  cobr_trip (op := 0x39) rfl (by decide) (by decide) fun _ => rfl

theorem RoundTrip.cmpibe (s1 : CSrc) (s2 : CReg) (disp : BitVec 11) : RoundTrip.Statement (.cmpibe s1 s2 disp) :=
  cobr_trip (op := 0x3A) rfl (by decide) (by decide) fun _ => rfl

theorem RoundTrip.cmpibge (s1 : CSrc) (s2 : CReg) (disp : BitVec 11) : RoundTrip.Statement (.cmpibge s1 s2 disp) :=
  cobr_trip (op := 0x3B) rfl (by decide) (by decide) fun _ => rfl

theorem RoundTrip.cmpibl (s1 : CSrc) (s2 : CReg) (disp : BitVec 11) : RoundTrip.Statement (.cmpibl s1 s2 disp) :=
  cobr_trip (op := 0x3C) rfl (by decide) (by decide) fun _ => rfl

theorem RoundTrip.cmpibne (s1 : CSrc) (s2 : CReg) (disp : BitVec 11) : RoundTrip.Statement (.cmpibne s1 s2 disp) :=
  cobr_trip (op := 0x3D) rfl (by decide) (by decide) fun _ => rfl

theorem RoundTrip.cmpible (s1 : CSrc) (s2 : CReg) (disp : BitVec 11) : RoundTrip.Statement (.cmpible s1 s2 disp) :=
  cobr_trip (op := 0x3E) rfl (by decide) (by decide) fun _ => rfl

theorem RoundTrip.cmpibo (s1 : CSrc) (s2 : CReg) (disp : BitVec 11) : RoundTrip.Statement (.cmpibo s1 s2 disp) :=
  cobr_trip (op := 0x3F) rfl (by decide) (by decide) fun _ => rfl

theorem RoundTrip.b (disp : BitVec 22) : RoundTrip.Statement (.b disp) :=
  ctrl_trip (op := 0x08) rfl (by decide) rfl

theorem RoundTrip.call (disp : BitVec 22) : RoundTrip.Statement (.call disp) :=
  ctrl_trip (op := 0x09) rfl (by decide) rfl

theorem RoundTrip.ret : RoundTrip.Statement .ret :=
  ctrl_trip (op := 0x0A) rfl (by decide) rfl

theorem RoundTrip.bal (disp : BitVec 22) : RoundTrip.Statement (.bal disp) :=
  ctrl_trip (op := 0x0B) rfl (by decide) rfl

theorem RoundTrip.bno (disp : BitVec 22) : RoundTrip.Statement (.bno disp) :=
  ctrl_trip (op := 0x10) rfl (by decide) rfl

theorem RoundTrip.bg (disp : BitVec 22) : RoundTrip.Statement (.bg disp) :=
  ctrl_trip (op := 0x11) rfl (by decide) rfl

theorem RoundTrip.be (disp : BitVec 22) : RoundTrip.Statement (.be disp) :=
  ctrl_trip (op := 0x12) rfl (by decide) rfl

theorem RoundTrip.bge (disp : BitVec 22) : RoundTrip.Statement (.bge disp) :=
  ctrl_trip (op := 0x13) rfl (by decide) rfl

theorem RoundTrip.bl (disp : BitVec 22) : RoundTrip.Statement (.bl disp) :=
  ctrl_trip (op := 0x14) rfl (by decide) rfl

theorem RoundTrip.bne (disp : BitVec 22) : RoundTrip.Statement (.bne disp) :=
  ctrl_trip (op := 0x15) rfl (by decide) rfl

theorem RoundTrip.ble (disp : BitVec 22) : RoundTrip.Statement (.ble disp) :=
  ctrl_trip (op := 0x16) rfl (by decide) rfl

theorem RoundTrip.bo (disp : BitVec 22) : RoundTrip.Statement (.bo disp) :=
  ctrl_trip (op := 0x17) rfl (by decide) rfl

theorem RoundTrip.faultno : RoundTrip.Statement .faultno :=
  ctrl_trip (op := 0x18) rfl (by decide) rfl

theorem RoundTrip.faultg : RoundTrip.Statement .faultg :=
  ctrl_trip (op := 0x19) rfl (by decide) rfl

theorem RoundTrip.faulte : RoundTrip.Statement .faulte :=
  ctrl_trip (op := 0x1A) rfl (by decide) rfl

theorem RoundTrip.faultge : RoundTrip.Statement .faultge :=
  ctrl_trip (op := 0x1B) rfl (by decide) rfl

theorem RoundTrip.faultl : RoundTrip.Statement .faultl :=
  ctrl_trip (op := 0x1C) rfl (by decide) rfl

theorem RoundTrip.faultne : RoundTrip.Statement .faultne :=
  ctrl_trip (op := 0x1D) rfl (by decide) rfl

theorem RoundTrip.faultle : RoundTrip.Statement .faultle :=
  ctrl_trip (op := 0x1E) rfl (by decide) rfl

theorem RoundTrip.faulto : RoundTrip.Statement .faulto :=
  ctrl_trip (op := 0x1F) rfl (by decide) rfl

theorem RoundTrip.ldob (m : MemOp) (d : Reg) : RoundTrip.Statement (.ldob m d) :=
  mem_trip (op := 0x80) rfl (by decide) rfl rfl

theorem RoundTrip.stob (s : Reg) (m : MemOp) : RoundTrip.Statement (.stob s m) :=
  mem_trip (op := 0x82) rfl (by decide) rfl rfl

theorem RoundTrip.bx (m : MemOp) : RoundTrip.Statement (.bx m) :=
  mem_trip (op := 0x84) rfl (by decide) rfl rfl

theorem RoundTrip.balx (m : MemOp) (d : Reg) : RoundTrip.Statement (.balx m d) :=
  mem_trip (op := 0x85) rfl (by decide) rfl rfl

theorem RoundTrip.callx (m : MemOp) : RoundTrip.Statement (.callx m) :=
  mem_trip (op := 0x86) rfl (by decide) rfl rfl

theorem RoundTrip.ldos (m : MemOp) (d : Reg) : RoundTrip.Statement (.ldos m d) :=
  mem_trip (op := 0x88) rfl (by decide) rfl rfl

theorem RoundTrip.stos (s : Reg) (m : MemOp) : RoundTrip.Statement (.stos s m) :=
  mem_trip (op := 0x8A) rfl (by decide) rfl rfl

theorem RoundTrip.lda (m : MemOp) (d : Reg) : RoundTrip.Statement (.lda m d) :=
  mem_trip (op := 0x8C) rfl (by decide) rfl rfl

theorem RoundTrip.ld (m : MemOp) (d : Reg) : RoundTrip.Statement (.ld m d) :=
  mem_trip (op := 0x90) rfl (by decide) rfl rfl

theorem RoundTrip.st (s : Reg) (m : MemOp) : RoundTrip.Statement (.st s m) :=
  mem_trip (op := 0x92) rfl (by decide) rfl rfl

theorem RoundTrip.ldl (m : MemOp) (d : Reg) : RoundTrip.Statement (.ldl m d) :=
  mem_trip (op := 0x98) rfl (by decide) rfl rfl

theorem RoundTrip.stl (s : Reg) (m : MemOp) : RoundTrip.Statement (.stl s m) :=
  mem_trip (op := 0x9A) rfl (by decide) rfl rfl

theorem RoundTrip.ldt (m : MemOp) (d : Reg) : RoundTrip.Statement (.ldt m d) :=
  mem_trip (op := 0xA0) rfl (by decide) rfl rfl

theorem RoundTrip.stt (s : Reg) (m : MemOp) : RoundTrip.Statement (.stt s m) :=
  mem_trip (op := 0xA2) rfl (by decide) rfl rfl

theorem RoundTrip.ldq (m : MemOp) (d : Reg) : RoundTrip.Statement (.ldq m d) :=
  mem_trip (op := 0xB0) rfl (by decide) rfl rfl

theorem RoundTrip.stq (s : Reg) (m : MemOp) : RoundTrip.Statement (.stq s m) :=
  mem_trip (op := 0xB2) rfl (by decide) rfl rfl

theorem RoundTrip.ldib (m : MemOp) (d : Reg) : RoundTrip.Statement (.ldib m d) :=
  mem_trip (op := 0xC0) rfl (by decide) rfl rfl

theorem RoundTrip.stib (s : Reg) (m : MemOp) : RoundTrip.Statement (.stib s m) :=
  mem_trip (op := 0xC2) rfl (by decide) rfl rfl

theorem RoundTrip.ldis (m : MemOp) (d : Reg) : RoundTrip.Statement (.ldis m d) :=
  mem_trip (op := 0xC8) rfl (by decide) rfl rfl

theorem RoundTrip.stis (s : Reg) (m : MemOp) : RoundTrip.Statement (.stis s m) :=
  mem_trip (op := 0xCA) rfl (by decide) rfl rfl

end Sys2Proof.Laws
end

