-- ==== Sys2Proof/Laws/Shapes.lean ====
section
/-! SUPPORT. The shapes that instructions share: their operands read, what they leave when they
complete with tracing off, and the opcodes that the encoder writes. -/

namespace Sys2Proof.Machine

/-! ## Operands -/

theorem withDst_of {s : State} {s1 s2 : Src} {d : SrcDst} {a b : Word} {r : Reg}
    {k : Word → Word → Reg → Res} (h1 : s.src s1 30 = some a) (h2 : s.src s2 31 = some b)
    (h3 : dest d = some r) : withDst s1 s2 d s k = k a b r := by
  simp [withDst, h1, h2, h3]

theorem withSrcs_of {s : State} {s1 s2 : Src} {a b : Word} {k : Word → Word → Res}
    (h1 : s.src s1 30 = some a) (h2 : s.src s2 31 = some b) : withSrcs s1 s2 s k = k a b := by
  simp [withSrcs, h1, h2]

theorem withSrcDst_of {s : State} {x : Src} {d : SrcDst} {a : Word} {r : Reg}
    {k : Word → Reg → Res} (h1 : s.src x 30 = some a) (h3 : dest d = some r) :
    withSrcDst x d s k = k a r := by
  simp [withSrcDst, h1, h3]

/-- A destination is not r2. -/
theorem ne_two_of_dest {d : SrcDst} {r : Reg} (h : dest d = some r) : r ≠ 2 := by
  rintro rfl
  unfold dest writable at h
  split at h
  · split at h
    · cases h
    · rename_i hn; injection h with h; exact hn h
  · cases h

theorem readReg_of_ne {n : Reg} (h : n ≠ 2) (s : State) (slot : Nat) : s.readReg n slot = s.reg n :=
  if_neg h

/-! ## Opcodes -/

theorem opcode12_regWord (op : BitVec 12) (s1 s2 : Src) (d : SrcDst) :
    opcode12 (regWord op s1 s2 d) = op := by
  unfold opcode12
  rw [Laws.reg_hi, Laws.reg_lo]
  apply BitVec.eq_of_getLsbD_eq
  intro i hi
  rw [BitVec.getLsbD_append]
  split
  · simp [*]
  · rw [BitVec.getLsbD_extractLsb']
    simp [show i - 4 < 8 by omega, show 4 + (i - 4) = i by omega]

/-! ## Completion with tracing off -/

/-- Writing the condition code replaces bits 2:0 of AC. -/
theorem setCc_ac (s : State) (c : BitVec 3) : (s.setCc c).ac = withCc s.ac c := by
  simp only [State.setCc, withCc]
  apply BitVec.eq_of_getLsbD_eq
  intro i hi
  rw [BitVec.getLsbD_append, BitVec.getLsbD_or, BitVec.getLsbD_and, BitVec.getLsbD_setWidth,
    BitVec.getLsbD_extractLsb']
  have hm : ∀ i, i < 32 → (0xFFFFFFF8 : Word).getLsbD i = decide (3 ≤ i) := by decide
  simp only [hm i hi]
  by_cases h3 : i < 3
  · simp [h3, hi, show ¬ 3 ≤ i by omega]
  · simp [h3, show 3 ≤ i by omega, show i - 3 < 29 by omega, show 3 + (i - 3) = i by omega]

/-- The condition code may be replaced by itself. -/
theorem withCc_self (ac : Word) : withCc ac (ac.extractLsb' 0 3) = ac := by
  unfold withCc
  apply BitVec.eq_of_getLsbD_eq
  intro i hi
  rw [BitVec.getLsbD_append]
  split
  · rw [BitVec.getLsbD_extractLsb']; simp [*]
  · rw [BitVec.getLsbD_extractLsb']
    simp [show i - 3 < 29 by omega, show 3 + (i - 3) = i by omega]

/-- An instruction that only advances. -/
theorem advance_effect {s : State} (h : s.te = false) :
    ∃ t, advance s = .next t ∧ Effect s t [] s.ac (s.ip + 4) :=
  ⟨_, advance_quiet h, Effect.ofIp s _⟩

/-- An instruction that writes a register. -/
theorem advance_setReg {s : State} (h : s.te = false) (n : Reg) (v : Word) :
    ∃ t, advance (s.setReg n v) = .next t ∧ Effect s t [(n, v)] s.ac (s.ip + 4) :=
  ⟨_, advance_quiet (by simpa using h),
    by simpa [State.nextInstr] using Effect.ofReg s n v (s.ip + 4)⟩

/-- An instruction that writes a group of registers. -/
theorem advance_setRegs {s : State} (h : s.te = false) (n : Reg) (vs : List Word)
    (hl : vs.length ≤ 32) :
    ∃ t, advance (s.setRegs n vs) = .next t ∧ Effect s t (group n vs) s.ac (s.ip + 4) :=
  ⟨_, advance_quiet (by simpa using h),
    by simpa [State.nextInstr] using Effect.ofGroup s n vs (s.ip + 4) hl⟩

/-- An instruction that writes the condition code. -/
theorem advance_setCc {s : State} (h : s.te = false) (c : BitVec 3) :
    ∃ t, advance (s.setCc c) = .next t ∧ Effect s t [] (withCc s.ac c) (s.ip + 4) := by
  refine ⟨_, advance_quiet (by simpa [State.te] using h), ?_⟩
  rw [← setCc_ac]
  exact Effect.ofCc s c (s.ip + 4)

/-- An instruction that writes the condition code and a register. -/
theorem advance_setCc_setReg {s : State} (h : s.te = false) (c : BitVec 3) (n : Reg) (v : Word) :
    ∃ t, advance ((s.setCc c).setReg n v) = .next t ∧
      Effect s t [(n, v)] (withCc s.ac c) (s.ip + 4) := by
  refine ⟨_, advance_quiet (by simpa [State.te] using h), ?_⟩
  rw [← setCc_ac]
  simpa [State.nextInstr] using Effect.ofRegCc s n v c (s.ip + 4)

/-- Overflow of an exact integer result. -/
theorem overflows_eq (t : Int) : overflows t = decide (¬ fits t) := by
  unfold overflows
  rw [Bool.eq_iff_iff]
  simp only [Bool.or_eq_true, decide_eq_true_eq]
  omega

/-- AC.of set. -/
theorem setBit_of (v : Word) : setBit v 8 true = v ||| 0x100 := rfl

/-! ## Loads and stores of plain memory -/

/-- A load that memory answers and no alignment fault follows. -/
theorem loadOp_plain {s : State} {m : MemOp} {d r : Reg} {n k key : Nat} {bs : List Byte}
    {f : List Byte → List Word} (te : s.te = false) (hl : bs.length = n) (hn : isSize n)
    (hq : s.alone (s.efa m) n) (hp : s.plain (s.efa m) n key) (hb : s.bytesAt (s.efa m) bs)
    (hu : s.unaligned (s.efa m) n = false) (hd : destGroup d k = some r)
    (hf : (f bs).length ≤ 32) :
    ∃ t, loadOp n k f m d s = .next t ∧ Effect s t (group r (f bs)) s.ac (s.ip + m.len) := by
  subst hl
  unfold loadOp
  simp only [hd, load_plain hp hn hq, readBytes_of_bytesAt hp hb]
  rw [orRaise_ok]
  unfold finishAccess
  have hu' : (s.setRegs r (f bs)).unaligned (s.efa m) bs.length = false := by
    unfold State.unaligned at hu ⊢
    simpa using hu
  rw [hu', if_neg (by decide)]
  exact ⟨_, retire_quiet (by simpa using te) _ _, Effect.ofGroup s r _ _ hf⟩

/-- A store to memory that no check and no alignment fault stops. -/
theorem storeOp_plain {s : State} {m : MemOp} {x : Reg} {n k : Nat} {bs : List Byte}
    (te : s.te = false) (hn : isSize n) (hq : s.alone (s.efa m) n) (hm : s.mayStore (s.efa m) n) (ha : aligned x k = true)
    (hu : s.unaligned (s.efa m) n = false)
    (hb : ((s.readRegs x 40 k).flatMap wordBytes).take n = bs) (hl : bs.length = n) :
    ∃ t, storeOp n k x m s = .next t ∧ StoreEffect s t (s.efa m) bs s.ac (s.ip + m.len) := by
  obtain ⟨ht, key, hp⟩ := hm
  subst hl
  unfold storeOp
  obtain ⟨st, hs⟩ := store_plain ht hp hn hq
  simp only [ht, ha, if_true, hb, hs]
  rw [orRaise_ok]
  unfold finishAccess
  rw [State.withMem_unaligned, hu, if_neg (by decide)]
  exact ⟨_, retire_quiet (by simpa using te) _ _, StoreEffect.ofStore (State.plain_of_plainW hp) st _⟩

end Sys2Proof.Machine
end

