-- ==== Sys2Proof/Laws/Calls.lean ====
section
/-! SUPPORT. The call operation, the register cache, the fault call and the returns where nothing on
the way fails. -/

namespace Sys2Proof.Machine

/-! ## Process controls -/

/-- The implemented bits of PC are those that a push looks at. -/
theorem pushSpills_mask (s : State) (pc : Word) (n : Nat) :
    s.pushSpills (pc &&& pcMask) n = s.pushSpills pc n := by
  have h13 : bit (pc &&& pcMask) 13 = bit pc 13 := by
    unfold bit pcMask
    rw [BitVec.getLsbD_and, show (0x001F2403 : Word).getLsbD 13 = true from rfl, Bool.and_true]
  have hp : priority (pc &&& pcMask) = priority pc := by
    unfold priority field
    apply Nat.eq_of_testBit_eq
    intro i
    rw [Nat.testBit_mod_two_pow, Nat.testBit_mod_two_pow, Nat.testBit_div_two_pow,
      Nat.testBit_div_two_pow]
    by_cases hi : i < 5
    · have hm : (pcMask.toNat).testBit (i + 16) = true := by
        have : ∀ i : Fin 5, (pcMask.toNat).testBit (i.val + 16) = true := by decide
        exact this ⟨i, hi⟩
      rw [BitVec.toNat_and, Nat.testBit_and, hm, Bool.and_true]
    · simp [hi]
  unfold State.pushSpills
  rw [h13, hp]

theorem te_setPc (s : State) (v : Word) : (s.setPc v).te = bit v 0 := by
  unfold State.te State.setPc bit pcMask
  rw [BitVec.getLsbD_and, show (0x001F2403 : Word).getLsbD 0 = true from rfl, Bool.and_true]

/-! ## Push and pop -/

/-- A push that fits in the cache. -/
theorem pushFrame_fits {s : State} {pc : Word} (h : s.canPush pc) :
    pushFrame pc s = .ok () { s with rc := s.currentFrame :: s.rc } := by
  unfold pushFrame
  have h1 : ¬ ((decide (s.rc ≠ []) && s.fp != s.frameAddr) = true) := by
    rcases h.1 with h | h
    · simp [h]
    · simp [h]
  rw [if_neg h1]
  simp only [h.2, Bool.false_eq_true, if_false]

/-- A return to the newest cached frame. -/
theorem getFpAndIp_cached {s : State} {e : Frame} {older : List Frame} (h : s.returnsTo e older) :
    getFpAndIp s = .ok ()
      ({ s with
          r := e.regs, rc := older, g := s.g.set 15 e.addr, frameAddr := e.addr
          pfpDirty := s.dirtyFrames.contains e.addr
          dirtyFrames := s.dirtyFrames.filter (· != e.addr) }.setIp e.regs[2]) := by
  obtain ⟨h1, h2, h3, h4⟩ := h
  unfold getFpAndIp
  have hc : ¬ ((decide (s.rc ≠ []) && s.fp != s.frameAddr) = true) := by simp [h3]
  rw [if_neg hc]
  simp only [popFrame, h1, h2, if_true, Eff.bind_ok]

/-! ## Calls -/

/-- The local registers of a new frame. -/
theorem newLocals_zero (fresh : Nat) (pfp sp : Word) : (newLocals fresh pfp sp)[0] = pfp := by
  simp [newLocals]

theorem newLocals_one (fresh : Nat) (pfp sp : Word) : (newLocals fresh pfp sp)[1] = sp := by
  simp [newLocals]

/-- A global register depends on the globals only. -/
theorem global_congr {s t : State} (hg : t.g = s.g) {n : Reg} (h : 16 ≤ n.toNat) :
    t.reg n = s.reg n := by
  have h4 : ∀ n : Reg, 16 ≤ n.toNat → n.getLsbD 4 = true := by decide
  unfold State.reg
  rw [if_pos (h4 n h), if_pos (h4 n h)]
  simp only [hg]

/-- Entering a frame leaves the globals but FP. -/
theorem enterFrame_global (nfp low : Word) (s : State) {n : Reg} (h : 16 ≤ n.toNat) (h' : n ≠ 31) :
    (enterFrame nfp low s).reg n = s.reg n := by
  have h4 : n.getLsbD 4 = true := by
    have : ∀ n : Reg, 16 ≤ n.toNat → n.getLsbD 4 = true := by decide
    exact this n h
  have h15 : ¬ 15 = n.toNat % 16 := by
    have : ∀ n : Reg, 16 ≤ n.toNat → n ≠ 31 → ¬ 15 = n.toNat % 16 := by decide
    exact this n h h'
  unfold State.reg
  rw [if_pos h4, if_pos h4]
  simp [enterFrame, h15]

/-- The state with the current set pushed on the cache, its r2 replaced. -/
def State.pushed (s : State) (v : Word) : State :=
  { s with
    r := s.r.set 2 v
    rc := { addr := s.fp &&& 0xFFFFFFF0, regs := s.r.set 2 v } :: s.rc }

@[simp] theorem State.pushed_pc (s : State) (v : Word) : (s.pushed v).pc = s.pc := rfl

@[simp] theorem State.pushed_tc (s : State) (v : Word) : (s.pushed v).tc = s.tc := rfl

@[simp] theorem State.pushed_mem (s : State) (v : Word) : (s.pushed v).mem = s.mem := rfl

@[simp] theorem State.pushed_supervisor (s : State) (v : Word) :
    (s.pushed v).supervisor = s.supervisor := by
  unfold State.supervisor
  rw [State.pushed_pc]

/-- A push of a set whose r2 has just been written. -/
theorem pushFrame_pushed {s : State} {pc : Word} (h : s.canPush pc) (v : Word) :
    pushFrame pc { s with r := s.r.set 2 v } = .ok () (s.pushed v) :=
  pushFrame_fits (s := { s with r := s.r.set 2 v }) h

/-- The same under the process controls that the call puts in force. -/
theorem pushFrame_setPc {s : State} {pc : Word} (h : s.canPush pc) (v : Word) :
    pushFrame pc (({ s with r := s.r.set 2 v } : State).setPc pc) =
      .ok () ((s.pushed v).setPc pc) :=
  pushFrame_fits (s := ({ s with r := s.r.set 2 v } : State).setPc pc) h

/-- A call whose frame fits in the cache: what it leaves. -/
theorem callOp_fits {s : State} {pc : Word} (target base rrr next : Word) (h : s.canPush pc) :
    callOp target base rrr next pc s =
      .ok () (((enterFrame (align16 base) (rrr ||| bitAt (s.callTraced pc) 3)
        (s.pushed next)).setPc pc).setIp target) := by
  unfold callOp
  rw [pushFrame_setPc h]
  rfl

/-- What a call instruction whose frame fits in the cache does: it makes the call and reports its
trace events under the process controls of the call. -/
theorem callInstruction_made {s : State} {pc : Word} (target base rrr : Word) (sup : Bool)
    (tab : List Access) (len : Word) (h : s.canPush pc) :
    ∃ u, callInstruction target base rrr pc sup tab len s =
        traceAfter s.ip { call := true, supervisor := sup, implicit := tab ++ s.pushAccesses pc } u ∧
      u.te = bit pc 0 ∧ u.tc = s.tc ∧ u.dbg = s.dbg ∧
      CallEffect s u.bump target (align16 base) (s.ip + len) (rrr ||| bitAt (s.callTraced pc) 3)
        (pc &&& pcMask) := by
  unfold callInstruction
  simp only [callOp_fits target base rrr (s.ip + len) h]
  rw [orRaise_ok]
  refine ⟨_, rfl, te_setPc (enterFrame (align16 base) (rrr ||| bitAt (s.callTraced pc) 3)
    (s.pushed (s.ip + len))) pc, rfl, rfl, ?_⟩
  constructor
  · rfl
  · simp [State.fp, enterFrame, State.setIp, State.setPc, State.bump]
  · exact newLocals_one _ _ _
  · exact newLocals_zero _ _ _
  · rfl
  · intro n h1 h2
    have : ∀ t : State, ((t.setPc pc).setIp target).bump.reg n = t.reg n := fun t => rfl
    rw [this, enterFrame_global _ _ _ h1 h2]
    exact global_congr (s := s) (t := s.pushed (s.ip + len)) rfl h1
  · intro a; exact peek_congr rfl rfl rfl rfl a
  · rfl

/-- The same with tracing off after the call. -/
theorem callInstruction_fits {s : State} {pc : Word} (target base rrr : Word) (sup : Bool)
    (tab : List Access)
    (len : Word) (h : s.canPush pc) (te : bit pc 0 = false) :
    ∃ t, callInstruction target base rrr pc sup tab len s = .next t ∧
      CallEffect s t target (align16 base) (s.ip + len) rrr (pc &&& pcMask) := by
  obtain ⟨u, hu, ht, -, -, he⟩ := callInstruction_made target base rrr sup tab len h
  have ct : s.callTraced pc = false := by unfold State.callTraced; rw [te]; rfl
  rw [ct, show rrr ||| bitAt false 3 = rrr by simp [bitAt]] at he
  exact ⟨u.bump, hu.trans (traceAfter_quiet (ht.trans te) _ _), he⟩

/-! ## Returns -/

/-- What a return to the newest cached frame leaves, the process controls then being `pc`. -/
theorem returnEffect_cached {s : State} {e : Frame} {older : List Frame} (h : s.returnsTo e older) :
    ∃ u, getFpAndIp s = .ok () u ∧ u.tc = s.tc ∧ u.dbg = s.dbg ∧ u.pc = s.pc ∧
      ReturnEffect s u.bump e.addr e.regs older s.ac s.pc s.intc.blockNmi ∧
      ∀ pc, ReturnEffect s (u.setPc pc).bump e.addr e.regs older s.ac (pc &&& pcMask)
        s.intc.blockNmi := by
  have hg : ∀ (n : Reg), 16 ≤ n.toNat → n ≠ 31 → ∀ t : State, t.g = s.g.set 15 e.addr →
      t.reg n = s.reg n := by
    intro n h1 h2 t ht
    have h4 : n.getLsbD 4 = true := by
      have : ∀ n : Reg, 16 ≤ n.toNat → n.getLsbD 4 = true := by decide
      exact this n h1
    have h15 : ¬ 15 = n.toNat % 16 := by
      have : ∀ n : Reg, 16 ≤ n.toNat → n ≠ 31 → ¬ 15 = n.toNat % 16 := by decide
      exact this n h1 h2
    unfold State.reg
    rw [if_pos h4, if_pos h4]
    simp [ht, h15]
  refine ⟨_, getFpAndIp_cached h, rfl, rfl, rfl, ?_, fun pc => ?_⟩
  all_goals
    constructor
    · rfl
    · simp [State.fp, State.setIp, State.setPc, State.bump]
    · rfl
    · rfl
    · exact fun n h1 h2 => hg n h1 h2 _ rfl
    · exact fun a => peek_congr rfl rfl rfl rfl a
    · rfl

/-! ## Taking a fault -/

/-- A record of 16 words, written in its order where nothing stops it: memory then reads as with the words
written in a row. -/
theorem record_written {s : State} {a : Word} {k : Nat} {ws : List Word} (hu : s.undisturbed)
    (hl : ws.length = 16) (hp : s.plainW a 64 k)
    (ht : ∀ i, i < 16 → s.storeTrap (a + BitVec.ofNat 32 (4 * i)) 4 = none) :
    ∃ m st, storeList (recordStores a ws) s = .ok () (s.withMem m st) ∧
      Memory.same m (Memory.writeBytes s.mem k (ws.flatMap wordBytes)) := by
  have hlt : ∀ i ∈ recordOrder, i < 16 := by decide
  have hall : ∀ i, i < 16 → i ∈ recordOrder := by decide
  have hkey : ∀ i, i < 16 → (a + BitVec.ofNat 32 (4 * i) - a).toNat = 4 * i := by
    intro i hi
    rw [BitVec.add_comm, BitVec.add_sub_cancel, BitVec.toNat_ofNat]
    omega
  let key : Word → Nat := fun x => k + (x - a).toNat
  have hk : ∀ i, i < 16 → key (a + BitVec.ofNat 32 (4 * i)) = k + 4 * i := fun i hi => by
    show k + _ = _
    rw [hkey i hi]
  obtain ⟨st, h⟩ := storeList_plain (ps := recordStores a ws) hu key
    (fun p h => by
      obtain ⟨i, hi, rfl⟩ := List.mem_map.1 h
      exact ht i (hlt i hi))
    (fun p h => by
      obtain ⟨i, hi, rfl⟩ := List.mem_map.1 h
      have h16 := hlt i hi
      intro j hj
      show s.cellW (a + BitVec.ofNat 32 (4 * i) + BitVec.ofNat 32 j) = some (key _ + j)
      rw [hk i h16, BitVec.add_assoc, ← BitVec.ofNat_add, Nat.add_assoc]
      exact hp (4 * i + j) (by omega))
  refine ⟨_, st, h, fun j => ?_⟩
  have hps : (recordStores a ws).map (fun p => (key p.1, p.2)) =
      recordOrder.map fun i => (k + 4 * i, ws.getD i 0) := by
    rw [recordStores, List.map_map]
    exact List.map_congr_left fun i hi => Prod.ext (hk i (hlt i hi)) rfl
  rw [hps, Memory.read_writeBytes]
  by_cases hj : k ≤ j ∧ j < k + 64
  · have h16 : (j - k) / 4 < 16 := by omega
    have hd : (recordOrder.map fun i => (k + 4 * i, ws.getD i 0)).Pairwise
        fun p q => p.1 + 4 ≤ q.1 ∨ q.1 + 4 ≤ p.1 := by
      rw [List.pairwise_map]
      have : recordOrder.Pairwise (· ≠ ·) := by decide
      exact this.imp fun h => by show k + 4 * _ + 4 ≤ k + 4 * _ ∨ _; omega
    have e1 := Memory.read_writeWords s.mem _ _ hd
      (List.mem_map.2 ⟨(j - k) / 4, hall _ h16, rfl⟩) ((j - k) % 4) (by omega)
    have e2 := flatMap_wordBytes_get ws ((j - k) / 4) ((j - k) % 4) (by omega) (by omega)
    rw [if_pos hj.1]
    rw [show 4 * ((j - k) / 4) + (j - k) % 4 = j - k by omega] at e2
    rw [show k + 4 * ((j - k) / 4) + (j - k) % 4 = j by omega] at e1
    rw [List.getD_eq_getElem _ _ (by omega)] at e1
    rw [e2, ← e1, Option.getD_some]
  · rw [Memory.read_writeWords_other _ _ _ fun p h => by
      obtain ⟨i, hi, rfl⟩ := List.mem_map.1 h
      have := hlt i hi
      show j < k + 4 * i ∨ k + 4 * i + 4 ≤ j
      omega]
    split
    · rw [List.getElem?_eq_none (by rw [flatMap_wordBytes_length]; omega), Option.getD_none]
    · rfl

/-- What a record leaves in memory: its words, and every byte elsewhere. -/
theorem record_bytes {s t : State} {a : Word} {k n : Nat} {ws : List Word} (hl : ws.length = n)
    (hp : s.plainW a (4 * n) k) (ha : t.atu = s.atu) (hm : t.mc = s.mc) (hb : t.board = s.board)
    (hmem : Memory.same t.mem (Memory.writeBytes s.mem k (ws.flatMap wordBytes))) :
    (∀ i (h : i < ws.length), t.bytesAt (a + BitVec.ofNat 32 (4 * i)) (wordBytes ws[i])) ∧
    ∀ x, outside a (4 * n) x → t.peek x = s.peek x := by
  have hlen := flatMap_wordBytes_length ws
  have hp' : s.plain a (ws.flatMap wordBytes).length k := by
    rw [hlen, hl]; exact State.plain_of_plainW hp
  let u : State := { t with mem := Memory.writeBytes s.mem k (ws.flatMap wordBytes) }
  have hu : ∀ x, t.peek x = u.peek x := fun x => by
    rw [peek_eq, peek_eq, cell_congr (s := t) (t := u) rfl rfl rfl, funext hmem]
  refine ⟨fun i hi => ?_, fun x hx => ?_⟩
  · have hall := bytesAt_write (t := u) hp' ha hm hb rfl
    intro j hj
    have hj4 : j < 4 := by simpa using hj
    have hij : 4 * i + j < (ws.flatMap wordBytes).length := by rw [hlen]; omega
    have := hall (4 * i + j) hij
    rw [BitVec.ofNat_add, ← BitVec.add_assoc] at this
    rw [hu, this]
    have k1 := flatMap_wordBytes_get ws i j hi hj4
    rwa [List.getElem?_eq_getElem hij, List.getElem?_eq_getElem hj] at k1
  · rw [hu]
    exact peek_write (t := u) hp' ha hm hb rfl (by rw [hlen, hl]; exact hx)

/-- The low two bits of a table entry. -/
theorem field_low2 (e : Word) : field e 0 2 = (e &&& 3).toNat := by
  unfold field
  rw [BitVec.toNat_and]
  have h3 : e.toNat &&& (3 : Word).toNat = e.toNat % 4 := Nat.and_two_pow_sub_one_eq_mod e.toNat 2
  rw [h3, Nat.pow_zero, Nat.div_one]
  rfl

/-- A handler whose fault table entry is local. -/
theorem selectHandler_local {s : State} {tt : Nat} {e : Word} (hu : s.undisturbed)
    (h : s.holds (s.faultBase + BitVec.ofNat 32 (8 * tt)) e) (he : e &&& 3 = 0) :
    selectHandler tt s = .ok { kind := .localCall, target := e
                               reads := [tableRead (s.faultBase + BitVec.ofNat 32 (8 * tt))] } s := by
  have ha : s.faultBase + 8 * BitVec.ofNat 32 tt = s.faultBase + BitVec.ofNat 32 (8 * tt) := by
    rw [BitVec.ofNat_mul]
    rfl
  have hf : field e 0 2 = 0 := by rw [field_low2, he]; rfl
  have hm : e &&& 0xFFFFFFFC = e := by
    apply BitVec.eq_of_getLsbD_eq
    intro i hi
    rw [BitVec.getLsbD_and]
    have hc : ∀ i, i < 32 → (0xFFFFFFFC : Word).getLsbD i = decide (2 ≤ i) := by decide
    rw [hc i hi]
    by_cases h2 : 2 ≤ i
    · simp [h2]
    · have h0 := congrArg (fun v => BitVec.getLsbD v i) he
      have hc' : ∀ i, i < 2 → (3 : Word).getLsbD i = true := by decide
      simp only [BitVec.getLsbD_and, hc' i (by omega), Bool.and_true] at h0
      rw [h0]
      simp
  unfold selectHandler
  simp only [ha, loadWord_holds h (hu.alone _ _), Eff.bind_ok, hf, hm]

/-- A handler whose fault table entry names a system procedure. -/
theorem selectHandler_procedure {s : State} {tt : Nat} {e p : Word} (hu : s.undisturbed)
    (h : s.holds (s.faultBase + BitVec.ofNat 32 (8 * tt)) e) (he : e &&& 3 = 2)
    (hn : e.toNat / 4 ≤ 259)
    (hp : s.holds (s.sptBase + 48 + BitVec.ofNat 32 (4 * (e.toNat / 4))) p) :
    ∃ reads, selectHandler tt s =
      .ok { kind := if p &&& 3 = 2 then .supervisorCall else .localCall
            target := p &&& 0xFFFFFFFC, reads := reads } s := by
  have hm : ∀ (c : Word) (k n : Nat), c = BitVec.ofNat 32 k →
      c * BitVec.ofNat 32 n = BitVec.ofNat 32 (k * n) := by
    intro c k n hc; rw [hc, BitVec.ofNat_mul]
  have hf : field e 0 2 = 2 := by rw [field_low2, he]; rfl
  have hq : field e 2 30 = e.toNat / 4 := by
    unfold field; exact Nat.mod_eq_of_lt (by have := e.isLt; omega)
  have hk : (field p 0 2 = 2) = (p &&& 3 = 2) := by
    rw [field_low2]
    exact propext ⟨fun h => BitVec.eq_of_toNat_eq h, fun h => by rw [h]; rfl⟩
  unfold selectHandler
  simp only [hm 8 8 tt rfl, loadWord_holds h (hu.alone _ _), Eff.bind_ok, hf,
    gap_undisturbed hu, hq]
  unfold selectProcedure
  rw [if_neg (by omega)]
  simp only [hm 4 4 (e.toNat / 4) rfl, loadWord_holds hp (hu.alone _ _), Eff.bind_ok, hk]
  exact ⟨_, rfl⟩

/-- PC after a fault call does not depend on the local registers. -/
theorem faultPc_set2 (f : FaultRecord) (kind : HandlerKind) (s : State) (v : Word) :
    faultPc f kind { s with r := s.r.set 2 v } = faultPc f kind s := by
  unfold faultPc
  cases kind
  · rfl
  · simp only

/-- The fault call where the handler is selected, its frame fits in the cache and its record may be
written: the faulting frame pushed with its return IP, PC changed as the handler's kind says, the
record written, the handler's frame entered. -/
theorem faultCall_fits {s : State} {f : FaultRecord} {h : Handler} {c : Nat} (hu : s.undisturbed)
    (hsel : selectHandler f.code.1 s = .ok h s)
    (hk : (f.isTrace && decide (h.kind = .localCall)) = false)
    (hpush : s.canPush (faultPc f h.kind s &&& pcMask)) (nsp : Word)
    (hn : nsp = if (decide (h.kind = .supervisorCall) && !s.supervisor) = true then s.ssp else s.sp)
    (hp : s.plainW (faultFrame nsp - 64) 64 c)
    (ht : ∀ i, i < 16 → (s.setPc (faultPc f h.kind s)).storeTrap
      (faultFrame nsp - 64 + BitVec.ofNat 32 (4 * i)) 4 = none) (k : List Access → State → Res) :
    ∃ made m st, faultCall f s k = k made (((enterFrame (faultFrame nsp)
      (1 ||| bitAt ((s.setPc (faultPc f h.kind s)).te && bit s.tc 3 && !f.isTrace) 3)
      (((s.setPc (faultPc f h.kind s)).pushed (f.rip.getD (s.undef 13))).bump.withMem
        m st)).keepTrace (faultFrame nsp) f.pending).setIp h.target) ∧
      Memory.same m (Memory.writeBytes s.mem c
        ((f.words none ((s.setPc (faultPc f h.kind s)).pushed (f.rip.getD (s.undef 13)))).flatMap
          wordBytes)) := by
  subst hn
  unfold faultCall
  simp only [gap_undisturbed hu, Eff.bind_ok, hsel, Eff.andGap_ok _ hu, hk, Bool.false_eq_true, if_false]
  have e := fun v : Word => faultPc_set2 f h.kind s v
  have hpp : ∀ v : Word, pushFrame ({ s with r := s.r.set 2 v }.setPc (faultPc f h.kind s)).pc
      ({ s with r := s.r.set 2 v }.setPc (faultPc f h.kind s)) =
      .ok () ((s.setPc (faultPc f h.kind s)).pushed v) :=
    fun v => pushFrame_pushed (s := s.setPc (faultPc f h.kind s)) hpush v
  have hu' : ∀ v : Word, ((s.setPc (faultPc f h.kind s)).pushed v).undisturbed :=
    fun v => undisturbed_congr rfl rfl hu
  rw [e, hpp, Eff.andGap_ok _ (hu' _), Eff.bind_ok]
  obtain ⟨m, st, hst, hm⟩ := record_written
    (s := ((s.setPc (faultPc f h.kind s)).pushed (f.rip.getD (s.undef 13))).bump)
    (a := faultFrame (if (decide (h.kind = .supervisorCall) && !s.supervisor) = true then s.ssp
      else s.sp) - 64) (k := c)
    (ws := f.words none ((s.setPc (faultPc f h.kind s)).pushed (f.rip.getD (s.undef 13))))
    (undisturbed_congr rfl rfl hu) rfl
    (fun i hi => (cellW_congr (s := s) rfl rfl rfl _).trans (hp i hi))
    (fun i hi => (storeTrap_congr (s := s.setPc (faultPc f h.kind s))
      ((State.bump_supervisor _).trans (State.pushed_supervisor _ _)) rfl _ _).trans (ht i hi))
  rw [hst]
  simp only [State.te, State.withMem_pc, State.withMem_tc, State.bump_pc, State.bump_tc,
    State.pushed_pc, State.pushed_tc, State.setPc_tc]
  exact ⟨_, m, st, rfl, hm⟩

end Sys2Proof.Machine
end

