-- ==== Sys2Proof/Laws/Inbound.lean ====
section
/-! SUPPORT. What the delayed inbound configuration cycle can do (65_atu_mu.md R1075, R1076). -/

namespace Sys2Proof.Machine

@[simp] theorem State.setCfg_cfg (s : State) (c : CfgSlot) : (s.setCfg c).atu.cfg = c := rfl
@[simp] theorem State.setCfg_mem (s : State) (c : CfgSlot) : (s.setCfg c).mem = s.mem := rfl
@[simp] theorem State.log_mem (s : State) (e : PciLog) : (s.log e).mem = s.mem := rfl
@[simp] theorem State.log_atu (s : State) (e : PciLog) : (s.log e).atu = s.atu := rfl

/-- A master's configuration cycle is latched, answered as the repeat of one that was performed, or
retried; nothing but the slot and the record of the PCI bus changes. -/
theorem pciCfgCollect_cases (c : CfgCycle) (s : State) :
    (s.atu.cfg = .none ∧
      pciCfgCollect c s = (s.setCfg (.requested c)).log (.retried (c.off.setWidth 32))) ∨
    (∃ w, s.atu.cfg = .completed c w ∧ pciCfgCollect c s = (s.setCfg .none).log
      (if c.write.isSome then .accepted (c.off.setWidth 32) else .answered (c.off.setWidth 32) w)) ∨
    (s.atu.cfg ≠ .none ∧ (∀ w, s.atu.cfg ≠ .completed c w) ∧
      pciCfgCollect c s = s.log (.retried (c.off.setWidth 32))) := by
  unfold pciCfgCollect
  cases h : s.atu.cfg with
  | none => simp
  | requested d => simp
  | completed d w =>
    by_cases hd : d = c
    · subst hd; exact .inr (.inl ⟨w, rfl, by simp⟩)
    · simp [hd]

@[simp] theorem pciCfgCollect_mem (c : CfgCycle) (s : State) : (pciCfgCollect c s).mem = s.mem := by
  obtain ⟨-, h⟩ | ⟨w, -, h⟩ | ⟨-, -, h⟩ := pciCfgCollect_cases c s <;> simp [h]

/-- Dropping a completed cycle leaves everything but the slot. -/
theorem pciCfgDiscard_cases (s : State) :
    pciCfgDiscard s = s ∨ (∃ c w, s.atu.cfg = .completed c w) ∧ pciCfgDiscard s = s.setCfg .none := by
  unfold pciCfgDiscard
  cases s.atu.cfg <;> simp

end Sys2Proof.Machine
end

