-- ==== Sys2Proof/Tests/Slice0.lean ====
section
/-! SUPPORT. The model's own tests. Expected values come from the spec: its worked examples, vectors
and encodings (named by rule), or hand calculation from a rule. -/

namespace Sys2Proof.Tests

open Sys2Proof.Machine

/-! ## Well-formedness: each check refuses an ill-formed term -/

theorem test_wf_accepts : (Instr.addo (.reg 3) (.lit 31) (.reg 18)).wellFormed = true := by decide
theorem test_wf_source_sfr : (Instr.addo (.sfr false 3) (.lit 1) (.reg 18)).wellFormed = false := by decide
theorem test_wf_literal_dest : (Instr.mov (.reg 3) (.lit 5)).wellFormed = false := by decide
theorem test_wf_dest_rip : (Instr.not (.reg 3) (.reg 2)).wellFormed = false := by decide
theorem test_wf_source_pair : (Instr.eshro (.reg 3) (.reg 5) (.reg 6)).wellFormed = false := by decide
theorem test_wf_dest_pair : (Instr.emul (.reg 3) (.reg 5) (.reg 7)).wellFormed = false := by decide
theorem test_wf_dest_group_rip : (Instr.movt (.reg 4) (.reg 0)).wellFormed = false := by decide
theorem test_wf_load_group : (Instr.ldq (.regInd 4) 6).wellFormed = false := by decide
theorem test_wf_load_rip : (Instr.ld (.regInd 4) 2).wellFormed = false := by decide
theorem test_wf_store_group : (Instr.stl 5 (.regInd 4)).wellFormed = false := by decide
theorem test_wf_cobr_sfr : (Instr.bbc (.reg 3) (.sfr 4) 0).wellFormed = false := by decide
theorem test_wf_test_literal : (Instr.teste (.lit 4)).wellFormed = false := by decide

/-! ## Decoding -/

/-- Every word of 32 bits decodes to the instruction beside it. -/
def decodesAll (l : List (Nat × Instr)) : Bool := l.all fun p => decodeTableWord 32 p.1 == some p.2

/-- The encodings printed in the spec's instruction rules (R284 to R690), arithmetic and moves. -/
theorem test_printed_words_1 : decodesAll [
    (0x90991000, .ld (.regInd 4) 19), (0x9850E992, .ldl (.regOff 3 0x992) 10),
    (0x9295A4E6, .st 18 (.regOff 22 1254)), (0x8C8E603A, .lda (.regOff 25 58) 17),
    (0x8C400749, .lda (.absOff 0x749) 8), (0x5C800E05, .mov (.lit 5) (.reg 16)),
    (0x5E200618, .movt (.reg 24) (.reg 4)), (0x7A944210, .sele (.reg 16) (.reg 17) (.reg 18)),
    (0x59BE4015, .addo (.reg 21) (.reg 25) (.reg 23)), (0x594D4084, .addi (.reg 4) (.reg 21) (.reg 9)),
    (0x59E64196, .subi (.reg 22) (.reg 25) (.reg 28)), (0x5B848010, .addc (.reg 16) (.reg 18) (.reg 16)),
    (0x5BBD8115, .subc (.reg 21) (.reg 22) (.reg 23)), (0x74490083, .muli (.reg 3) (.reg 4) (.reg 9)),
    (0x706A0583, .divo (.reg 3) (.reg 8) (.reg 13)), (0x70314404, .remo (.reg 4) (.reg 5) (.reg 6)),
    (0x74288489, .modi (.reg 9) (.reg 2) (.reg 5)), (0x67914004, .emul (.reg 4) (.reg 5) (.reg 18)),
    (0x67D50093, .ediv (.reg 19) (.reg 20) (.reg 26)), (0x59350F0D, .shli (.lit 13) (.reg 20) (.reg 6)),
    (0x59620E8D, .rotate (.lit 13) (.reg 8) (.reg 12)), (0x5DDD0413, .eshro (.reg 19) (.reg 20) (.reg 27)),
    (0x79520084, .addig (.reg 4) (.reg 8) (.reg 10)), (0x7D520004, .addone (.reg 4) (.reg 8) (.reg 10)),
    (0x7B944110, .suboge (.reg 16) (.reg 17) (.reg 18))] = true := by decide

/-- Printed encodings, logical and compare. -/
theorem test_printed_words_2 : decodesAll [
    (0x58960887, .and (.lit 7) (.reg 24) (.reg 18)), (0x584B0907, .andnot (.lit 7) (.reg 12) (.reg 9)),
    (0x58398205, .notand (.reg 5) (.reg 6) (.reg 7)), (0x5838C715, .nand (.reg 21) (.reg 3) (.reg 7)),
    (0x589E4B8E, .or (.lit 14) (.reg 25) (.reg 19)), (0x585A0583, .ornot (.reg 3) (.reg 8) (.reg 11)),
    (0x58B4C69C, .notor (.reg 28) (.reg 19) (.reg 22)), (0x582F1418, .nor (.reg 24) (.lit 28) (.reg 5)),
    (0x58A5C311, .xor (.reg 17) (.reg 23) (.reg 20)), (0x58624483, .xnor (.reg 3) (.reg 9) (.reg 12)),
    (0x58A00512, .not (.reg 18) (.reg 20)), (0x580A498F, .setbit (.lit 15) (.reg 9) (.reg 1)),
    (0x58B4CE17, .clrbit (.lit 23) (.reg 19) (.reg 22)), (0x583B0003, .notbit (.reg 3) (.reg 12) (.reg 7)),
    (0x58CD0F98, .alterbit (.lit 24) (.reg 20) (.reg 25)), (0x64D00098, .scanbit (.reg 24) (.reg 26)),
    (0x64480002, .spanbit (.reg 2) (.reg 9)), (0x65A31885, .extract (.lit 5) (.lit 12) (.reg 20)),
    (0x65268018, .modify (.reg 24) (.reg 26) (.reg 4)), (0x5AD00698, .bswap (.reg 24) (.reg 26)),
    (0x5A041009, .cmpo (.reg 9) (.lit 16)), (0x5ACC8208, .cmpinco (.reg 8) (.reg 18) (.reg 25)),
    (0x5A8DCB8C, .cmpdeci (.lit 12) (.reg 23) (.reg 17)), (0x5A060F0D, .chkbit (.lit 13) (.reg 24)),
    (0x24C80000, .testl (.reg 25))] = true := by decide

/-- Printed encodings, control flow and processor management. -/
theorem test_printed_words_3 : decodesAll [
    (0x08000040, .b 0x10), (0x08FFFFF8, .b (-2)), (0x85A49000, .balx (.regInd 18) 20),
    (0x3051A020, .bbc (.lit 10) (.reg 6) 8), (0x3C9E4000, .cmpibl (.reg 19) (.reg 25) 0),
    (0x3399E000, .cmpobge (.lit 19) (.reg 7) 0), (0x09000100, .call 0x40), (0x86055000, .callx (.regInd 21)),
    (0x6600000C, .calls (.reg 12)), (0x66000803, .calls (.lit 3)), (0x0A000000, .ret),
    (0x66000680, .flushreg), (0x1E000000, .faultle), (0x66000780, .syncf), (0x66000580, .mark),
    (0x66000600, .fmark), (0x6596821C, .modtc (.reg 28) (.reg 26) (.reg 18)),
    (0x6158C108, .atadd (.reg 8) (.reg 3) (.reg 11)), (0x61D5C015, .atmod (.reg 21) (.reg 23) (.reg 26)),
    (0x65C64299, .modpc (.reg 25) (.reg 25) (.reg 24)), (0x64E64291, .modac (.reg 17) (.reg 25) (.reg 28)),
    (0x65A00C00, .intctl (.lit 0) (.reg 20)), (0x5B000200, .intdis), (0x5B000280, .inten),
    (0x65944590, .icctl (.reg 16) (.reg 17) (.reg 18)), (0x65944610, .dcctl (.reg 16) (.reg 17) (.reg 18)),
    (0x65AD4495, .sysctl (.reg 21) (.reg 21) (.reg 21)), (0x65000690, .halt (.reg 16))] = true := by decide

/-- Two-word instructions (R300, R492). -/
theorem test_printed_words_two :
    decodeTableWord 64 0x123456788C803000 = some (.lda (.absDisp 0x12345678) 16) ∧
    decodeTableWord 64 0x0000053484001400 = some (.bx (.ipDisp 1332)) := by decide

/-- Undefined opcodes, the reserved MEMB mode and a reserved scale (R243, R244, R254). -/
theorem test_decode_refuses :
    decode (bytesOfWord 0x58000280#32) = .error .undefinedOpcode ∧
    decode (bytesOfWord 0x00000000#32) = .error .undefinedOpcode ∧
    decode (bytesOfWord 0x90001800#32) = .error .reservedMode ∧
    decode (bytesOfWord 0x90001E80#32) = .error .reservedScale ∧
    decode (bytesOfWord 0x90003000#32) = .error .truncated := by decide

theorem test_decode_logical : decodesAll [
    (0x5828D809, .notbit (.lit 9) (.lit 3) (.reg 5)),
    (0x58234097, .and (.reg 23) (.reg 13) (.reg 4)),
    (0x5851111B, .andnot (.reg 27) (.lit 4) (.reg 10)),
    (0x5851C19B, .setbit (.reg 27) (.reg 7) (.reg 10)),
    (0x58238219, .notand (.reg 25) (.reg 14) (.reg 4)),
    (0x58A25312, .xor (.reg 18) (.lit 9) (.reg 20)),
    (0x58A98393, .or (.reg 19) (.reg 6) (.reg 21)),
    (0x58A90417, .nor (.reg 23) (.reg 4) (.reg 21)),
    (0x58DED48D, .xnor (.reg 13) (.lit 27) (.reg 27)),
    (0x58600D1D, .not (.lit 29) (.reg 12)),
    (0x58A9458B, .ornot (.reg 11) (.reg 5) (.reg 21)),
    (0x58671E1F, .clrbit (.lit 31) (.lit 28) (.reg 12)),
    (0x58DA9687, .notor (.reg 7) (.lit 10) (.reg 27)),
    (0x58269F09, .nand (.lit 9) (.lit 26) (.reg 4)),
    (0x58B59794, .alterbit (.reg 20) (.lit 22) (.reg 22)),
    (0x5A04CE09, .scanbyte (.lit 9) (.reg 19)),
    (0x5A700690, .bswap (.reg 16) (.reg 14)),
    (0x64180809, .spanbit (.lit 9) (.reg 3)),
    (0x64E80088, .scanbit (.reg 8) (.reg 29)),
    (0x65EE9014, .modify (.reg 20) (.lit 26) (.reg 29)),
    (0x65C75083, .extract (.reg 3) (.lit 29) (.reg 24))] = true := by decide

theorem test_decode_arithmetic : decodesAll [
    (0x5959481D, .addo (.lit 29) (.reg 5) (.reg 11)),
    (0x59BCC884, .addi (.lit 4) (.reg 19) (.reg 23)),
    (0x591D9912, .subo (.lit 18) (.lit 22) (.reg 3)),
    (0x5991C996, .subi (.lit 22) (.reg 7) (.reg 18)),
    (0x59414C0E, .shro (.lit 14) (.reg 5) (.reg 8)),
    (0x5990050E, .shrdi (.reg 14) (.reg 0) (.reg 18)),
    (0x59381590, .shri (.reg 16) (.lit 0) (.reg 7)),
    (0x59CA1E17, .shlo (.lit 23) (.lit 8) (.reg 25)),
    (0x597E569D, .rotate (.reg 29) (.lit 25) (.reg 15)),
    (0x59265F06, .shli (.lit 6) (.lit 25) (.reg 4)),
    (0x5B9B0019, .addc (.reg 25) (.reg 12) (.reg 19)),
    (0x5BE04916, .subc (.lit 22) (.reg 1) (.reg 28)),
    (0x5D901C0D, .eshro (.lit 13) (.lit 0) (.reg 18)),
    (0x67C29019, .emul (.reg 25) (.lit 10) (.reg 24)),
    (0x676E508A, .ediv (.reg 10) (.lit 25) (.reg 13)),
    (0x702D188C, .mulo (.lit 12) (.lit 20) (.reg 5)),
    (0x708F5C01, .remo (.lit 1) (.lit 29) (.reg 17)),
    (0x709C9598, .divo (.reg 24) (.lit 18) (.reg 19)),
    (0x74298087, .muli (.reg 7) (.reg 6) (.reg 5)),
    (0x745ACC11, .remi (.lit 17) (.reg 11) (.reg 11)),
    (0x743E549B, .modi (.reg 27) (.lit 25) (.reg 7)),
    (0x74244D94, .divi (.lit 20) (.reg 17) (.reg 4)),
    (0x781C401B, .addono (.reg 27) (.reg 17) (.reg 3)),
    (0x782B8090, .addino (.reg 16) (.reg 14) (.reg 5))] = true := by decide

theorem test_decode_arithmetic_2 : decodesAll [
    (0x78681907, .subono (.lit 7) (.lit 0) (.reg 13)),
    (0x78988991, .subino (.lit 17) (.reg 2) (.reg 19)),
    (0x799CD00C, .addog (.reg 12) (.lit 19) (.reg 19)),
    (0x795AD092, .addig (.reg 18) (.lit 11) (.reg 11)),
    (0x79189901, .subog (.lit 1) (.lit 2) (.reg 3)),
    (0x798BD18C, .subig (.reg 12) (.lit 15) (.reg 17)),
    (0x7A4D480D, .addoe (.lit 13) (.reg 21) (.reg 9)),
    (0x7AE8D099, .addie (.reg 25) (.lit 3) (.reg 29)),
    (0x7A840100, .suboe (.reg 0) (.reg 16) (.reg 16)),
    (0x7AF60183, .subie (.reg 3) (.reg 24) (.reg 30)),
    (0x7B1F100A, .addoge (.reg 10) (.lit 28) (.reg 3)),
    (0x7B551897, .addige (.lit 23) (.lit 20) (.reg 10)),
    (0x7B458113, .suboge (.reg 19) (.reg 22) (.reg 8)),
    (0x7B915195, .subige (.reg 21) (.lit 5) (.reg 18)),
    (0x7CAE4805, .addol (.lit 5) (.reg 25) (.reg 21)),
    (0x7C64C099, .addil (.reg 25) (.reg 19) (.reg 12)),
    (0x7CDE0105, .subol (.reg 5) (.reg 24) (.reg 27)),
    (0x7CD4899F, .subil (.lit 31) (.reg 18) (.reg 26)),
    (0x7D20400E, .addone (.reg 14) (.reg 1) (.reg 4)),
    (0x7DEE0097, .addine (.reg 23) (.reg 24) (.reg 29)),
    (0x7D93C903, .subone (.lit 3) (.reg 15) (.reg 18)),
    (0x7DD11980, .subine (.lit 0) (.lit 4) (.reg 26)),
    (0x7E534010, .addole (.reg 16) (.reg 13) (.reg 10)),
    (0x7E91189F, .addile (.lit 31) (.lit 4) (.reg 18))] = true := by decide

theorem test_decode_arithmetic_3 : decodesAll [
    (0x7EB10902, .subole (.lit 2) (.reg 4) (.reg 22)),
    (0x7EB4D195, .subile (.reg 21) (.lit 19) (.reg 22)),
    (0x7F67C806, .addoo (.lit 6) (.reg 31) (.reg 12)),
    (0x7FDF589D, .addio (.lit 29) (.lit 29) (.reg 27)),
    (0x7F91510C, .suboo (.reg 12) (.lit 5) (.reg 18)),
    (0x7FE91192, .subio (.reg 18) (.lit 4) (.reg 29))] = true := by decide

theorem test_decode_compare : decodesAll [
    (0x5902120D, .cmpob (.reg 13) (.lit 8)),
    (0x5907D299, .cmpib (.reg 25) (.lit 31)),
    (0x5904531C, .cmpos (.reg 28) (.lit 17)),
    (0x5906939B, .cmpis (.reg 27) (.lit 26)),
    (0x5A070004, .cmpo (.reg 4) (.reg 28)),
    (0x5A018095, .cmpi (.reg 21) (.reg 6)),
    (0x5A005106, .concmpo (.reg 6) (.lit 1)),
    (0x5A040198, .concmpi (.reg 24) (.reg 16)),
    (0x5AF1CA1E, .cmpinco (.lit 30) (.reg 7) (.reg 30)),
    (0x5A679A9D, .cmpinci (.lit 29) (.lit 30) (.reg 12)),
    (0x5AD54309, .cmpdeco (.reg 9) (.reg 21) (.reg 26)),
    (0x5A484B9E, .cmpdeci (.lit 30) (.reg 1) (.reg 9)),
    (0x5A030715, .chkbit (.reg 21) (.reg 12)),
    (0x20200000, .testno (.reg 4)),
    (0x21280000, .testg (.reg 5)),
    (0x22480000, .teste (.reg 9)),
    (0x23800000, .testge (.reg 16)),
    (0x24B80000, .testl (.reg 23)),
    (0x25400000, .testne (.reg 8)),
    (0x26880000, .testle (.reg 17)),
    (0x27380000, .testo (.reg 7))] = true := by decide

theorem test_decode_management : decodesAll [
    (0x5B000200, .intdis),
    (0x5B000280, .inten),
    (0x64635281, .modac (.reg 1) (.lit 13) (.reg 12)),
    (0x65424A8B, .modpc (.lit 11) (.reg 9) (.reg 8)),
    (0x6568041E, .intctl (.reg 30) (.reg 13)),
    (0x654BCC86, .sysctl (.lit 6) (.reg 15) (.reg 9)),
    (0x65A70D82, .icctl (.lit 2) (.reg 28) (.reg 20)),
    (0x65B51604, .dcctl (.reg 4) (.lit 20) (.reg 22)),
    (0x65000691, .halt (.reg 17))] = true := by decide

theorem test_decode_movement : decodesAll [
    (0x5C480606, .mov (.reg 6) (.reg 9)),
    (0x5DE00E05, .movl (.lit 5) (.reg 28)),
    (0x5EE0061E, .movt (.reg 30) (.reg 28)),
    (0x5F780E05, .movq (.lit 5) (.reg 15)),
    (0x78240207, .selno (.reg 7) (.reg 16) (.reg 4)),
    (0x799E521B, .selg (.reg 27) (.lit 25) (.reg 19)),
    (0x7A889A0F, .sele (.lit 15) (.lit 2) (.reg 17)),
    (0x7B280A0C, .selge (.lit 12) (.reg 0) (.reg 5)),
    (0x7C9A1202, .sell (.reg 2) (.lit 8) (.reg 19)),
    (0x7DE41204, .selne (.reg 4) (.lit 16) (.reg 28)),
    (0x7E90D200, .selle (.reg 0) (.lit 3) (.reg 18)),
    (0x7F4B5A11, .selo (.lit 17) (.lit 13) (.reg 9)),
    (0x8052A267, .ldob (.regOff 10 615) 10),
    (0x82700AA6, .stob 14 (.absOff 2726)),
    (0x886E28A5, .ldos (.regOff 24 2213) 13),
    (0x8A8DE407, .stos 17 (.regOff 23 1031)),
    (0x8C7E2CCA, .lda (.regOff 24 3274) 15),
    (0x900A1D9B, .ld (.regIdx 8 .x8 27) 1),
    (0x92F82257, .st 31 (.regOff 0 599)),
    (0x98E0037D, .ldl (.absOff 893) 28),
    (0x9A3002B8, .stl 6 (.absOff 696)),
    (0xA0709D08, .ldt (.regIdx 2 .x4 8) 14),
    (0xA2D9DD04, .stt 27 (.regIdx 7 .x4 4)),
    (0xB0600859, .ldq (.absOff 2137) 12)] = true := by decide

theorem test_decode_movement_2 : decodesAll [
    (0xB204DD11, .stq 0 (.regIdx 19 .x4 17)),
    (0xC07FA783, .ldib (.regOff 30 1923) 15),
    (0xC298DD8C, .stib 19 (.regIdx 3 .x8 12)),
    (0xC8D1683B, .ldis (.regOff 5 2107) 26),
    (0xCA77E117, .stis 14 (.regOff 31 279))] = true := by decide

theorem test_decode_fault_atomic : decodesAll [
    (0x611A000A, .atmod (.reg 10) (.reg 8) (.reg 3)),
    (0x61C7811D, .atadd (.reg 29) (.reg 30) (.reg 24)),
    (0x65F04A08, .modtc (.lit 8) (.reg 1) (.reg 30)),
    (0x66000580, .mark),
    (0x66000600, .fmark),
    (0x66000780, .syncf),
    (0x18000000, .faultno),
    (0x19000000, .faultg),
    (0x1A000000, .faulte),
    (0x1B000000, .faultge),
    (0x1C000000, .faultl),
    (0x1D000000, .faultne),
    (0x1E000000, .faultle),
    (0x1F000000, .faulto)] = true := by decide

theorem test_decode_call : decodesAll [
    (0x66000010, .calls (.reg 16)),
    (0x66000680, .flushreg),
    (0x09904104, .call 2363457),
    (0x0A000000, .ret),
    (0x86005D98, .callx (.regIdx 1 .x8 24))] = true := by decide

theorem test_decode_branch : decodesAll [
    (0x3077FF1C, .bbc (.lit 14) (.reg 31) 1991),
    (0x310AA038, .cmpobg (.lit 1) (.reg 10) 14),
    (0x32E67350, .cmpobe (.lit 28) (.reg 25) 1236),
    (0x33D59810, .cmpobge (.reg 26) (.reg 22) 1540),
    (0x343D601C, .cmpobl (.lit 7) (.reg 21) 7),
    (0x35AE67AC, .cmpobne (.lit 21) (.reg 25) 491),
    (0x36049034, .cmpoble (.reg 0) (.reg 18) 1037),
    (0x372678F8, .bbs (.lit 4) (.reg 25) 1598),
    (0x38BED19C, .cmpibno (.reg 23) (.reg 27) 1127),
    (0x3989834C, .cmpibg (.reg 17) (.reg 6) 211),
    (0x3A4BF100, .cmpibe (.lit 9) (.reg 15) 1088),
    (0x3BA337E4, .cmpibge (.lit 20) (.reg 12) 1529),
    (0x3C0E6D04, .cmpibl (.lit 1) (.reg 25) 833),
    (0x3D1E9CD8, .cmpibne (.reg 3) (.reg 26) 1846),
    (0x3E97C320, .cmpible (.reg 18) (.reg 31) 200),
    (0x3F579A8C, .cmpibo (.reg 10) (.reg 30) 1699),
    (0x08AFF490, .b 2882852),
    (0x0B98758C, .bal 2497891),
    (0x1082F0B4, .bno 2145325),
    (0x118534E0, .bg 2182456),
    (0x12CFFAA8, .be 3407530),
    (0x137A324C, .bge 2002067),
    (0x149A0734, .bl 2523597),
    (0x15F763A0, .bne 4053224)] = true := by decide

theorem test_decode_branch_2 : decodesAll [
    (0x16C9EA90, .ble 3308196),
    (0x173D4EE4, .bo 1004473),
    (0x8403DD0B, .bx (.regIdx 15 .x4 11)),
    (0x852D1D17, .balx (.regIdx 20 .x4 23) 5)] = true := by decide

/-! ## Meanings -/

/-- A small state: supervisor mode, tracing off, all registers 0, IP = 8000H. -/
def base : State := { State.reset with run := .ready, pc := 0x00000002, ip := 0x8000 }

/-- `base` with g0 and g1. -/
def with2 (a b : Word) : State := { base with g := (base.g.set 0 a).set 1 b }

/-- What an instruction leaves in a next state. -/
def after {α : Type} (i : Instr) (s : State) (f : State → α) : Option α :=
  match exec i s with
  | .next t => some (f t)
  | .fault _ | .refused _ => none

/-- g2 after `op g0, g1, g2`. -/
def result (op : Src → Src → SrcDst → Instr) (a b : Word) : Option Word :=
  after (op (.reg 16) (.reg 17) (.reg 18)) (with2 a b) fun t => t.g[2]

/-- AC after a comparison of g0 and g1. -/
def compared (op : Src → Src → Instr) (a b : Word) : Option Word :=
  after (op (.reg 16) (.reg 17)) (with2 a b) fun t => t.ac

/-- g2 and AC, the overflow masked. -/
def resultAc (op : Src → Src → SrcDst → Instr) (ac a b : Word) : Option (Word × Word) :=
  after (op (.reg 16) (.reg 17) (.reg 18)) { with2 a b with ac := ac } fun t => (t.g[2], t.ac)

/-! Arithmetic: R333 to R354 and their vectors. -/

theorem test_addo : result .addo 0xFFFFFFFF 2 = some 1 := by decide
theorem test_addi : resultAc .addi 0x1000 0x7FFFFFFF 1 = some (0x80000000, 0x1100) := by decide
theorem test_subo : result .subo 3 5 = some 2 := by decide
theorem test_subi : resultAc .subi 0x1000 1 0x80000000 = some (0x7FFFFFFF, 0x1100) := by decide
theorem test_addc : resultAc .addc 0 0xFFFFFFFF 1 = some (0, 2) := by decide
theorem test_addc_overflow : resultAc .addc 0 0x7FFFFFFF 1 = some (0x80000000, 1) := by decide
theorem test_subc : resultAc .subc 2 5 3 = some (0xFFFFFFFE, 0) := by decide
theorem test_subc_overflow : resultAc .subc 2 1 0x80000000 = some (0x7FFFFFFF, 3) := by decide
theorem test_mulo : result .mulo 0x10000 0x10001 = some 0x10000 := by decide
theorem test_muli : resultAc .muli 0x1000 0x10000 0x8000 = some (0x80000000, 0x1100) := by decide
theorem test_divo : result .divo 3 0xFFFFFFFF = some 0x55555555 := by decide
theorem test_divi : result .divi 2 (-7) = some (-3) := by decide
theorem test_divi_overflow : resultAc .divi 0x1000 (-1) 0x80000000 = some (0x80000000, 0x1100) := by decide
theorem test_remo : result .remo 10 0xFFFFFFFF = some 5 := by decide
theorem test_remi : result .remi 2 (-7) = some (-1) ∧ result .remi (-2) 7 = some 1 := by decide
theorem test_modi : result .modi 2 (-7) = some 1 ∧ result .modi (-2) 7 = some (-1) ∧
    result .modi 2 (-6) = some 0 := by decide
theorem test_emul : after (.emul (.reg 16) (.reg 17) (.reg 18)) (with2 0xFFFFFFFF 0xFFFFFFFF)
    (fun t => (t.g[2], t.g[3])) = some (1, 0xFFFFFFFE) := by decide
theorem test_ediv : after (.ediv (.lit 10) (.reg 16) (.reg 18)) (with2 5 1)
    (fun t => (t.g[2], t.g[3])) = some (1, 429496730) := by decide
theorem test_shlo : result .shlo 31 3 = some 0x80000000 ∧ result .shlo 32 3 = some 0 := by decide
theorem test_shro : result .shro 31 0x80000000 = some 1 ∧ result .shro 32 (-1) = some 0 := by decide
theorem test_shli : resultAc .shli 0x1000 30 1 = some (0x40000000, 0x1000) ∧
    resultAc .shli 0x1000 31 1 = some (0x40000000, 0x1100) ∧
    resultAc .shli 0x1000 31 (-1) = some (0x80000000, 0x1000) ∧
    resultAc .shli 0x1000 40 0 = some (0, 0x1000) := by decide
theorem test_shri : result .shri 1 (-7) = some (-4) ∧ result .shri 40 (-7) = some (-1) := by decide
theorem test_shrdi : result .shrdi 1 (-7) = some (-3) ∧ result .shrdi 1 (-8) = some (-4) ∧
    result .shrdi 32 (-1) = some 0 := by decide
theorem test_rotate : result .rotate 36 0x80000001 = some 0x00000018 := by decide
theorem test_eshro : after (.eshro (.lit 4) (.reg 16) (.reg 18)) (with2 0x10 0x3) (fun t => t.g[2]) =
    some 0x30000001 := by decide
/-- R355, R372: addig with AC.cc & 001, addone and subile left alone, suboge with AC.cc = 010. -/
theorem test_conditional_add : resultAc .addig 1 2 3 = some (5, 1) ∧ resultAc .addone 2 2 3 = some (0, 2) ∧
    resultAc .addoe 2 2 3 = some (5, 2) ∧ resultAc .addino 0 2 3 = some (5, 0) ∧
    resultAc .addil 4 2 3 = some (5, 4) := by decide
theorem test_conditional_sub : resultAc .suboge 2 2 3 = some (1, 2) ∧ resultAc .subile 1 2 3 = some (0, 1) ∧
    resultAc .subono 0 2 3 = some (1, 0) ∧ resultAc .subio 4 2 3 = some (1, 4) := by decide

/-! Logical: R401 to R422. -/

theorem test_logical : result .and 12 10 = some 8 ∧ result .andnot 12 10 = some 2 ∧
    result .notand 12 10 = some 4 ∧ result .nand 12 10 = some (~~~8) ∧ result .or 12 10 = some 14 := by decide
theorem test_logical_2 : result .ornot 12 10 = some (~~~4) ∧ result .notor 12 10 = some (~~~2) ∧
    result .nor 12 10 = some (~~~14) ∧ result .xor 12 10 = some 6 ∧ result .xnor 12 10 = some (~~~6) := by decide
theorem test_not : after (.not (.reg 16) (.reg 18)) (with2 5 0) (fun t => t.g[2]) = some 0xFFFFFFFA := by decide
theorem test_bits : result .setbit 33 0 = some 2 ∧ result .clrbit 1 7 = some 5 ∧
    result .notbit 0 7 = some 6 := by decide
theorem test_alterbit : resultAc .alterbit 2 24 0 = some (0x01000000, 2) ∧
    resultAc .alterbit 5 0 1 = some (0, 5) := by decide
theorem test_scanbit : after (.scanbit (.reg 16) (.reg 18)) (with2 0x1000 0) (fun t => (t.g[2], t.ac)) =
    some (12, 2) ∧ after (.scanbit (.reg 16) (.reg 18)) (with2 0 0) (fun t => (t.g[2], t.ac)) =
    some (0xFFFFFFFF, 0) := by decide
theorem test_spanbit : after (.spanbit (.reg 16) (.reg 18)) (with2 0xFFFF7FFF 0)
    (fun t => (t.g[2], t.ac)) = some (15, 2) := by decide
theorem test_extract : after (.extract (.lit 5) (.lit 12) (.reg 16)) (with2 0xABCD1234 0)
    (fun t => t.g[0]) = some 0x891 := by decide
theorem test_modify : after (.modify (.lit 15) (.reg 17) (.reg 16)) (with2 0xF0 0x3)
    (fun t => t.g[0]) = some 0xF3 := by decide
theorem test_scanbyte : compared .scanbyte 0x00AB0011 0x11AB1100 = some 2 ∧
    compared .scanbyte 0x01020304 0x02030401 = some 0 := by decide
theorem test_bswap : after (.bswap (.reg 16) (.reg 18)) (with2 0x89ABCDEF 0) (fun t => t.g[2]) =
    some 0xEFCDAB89 := by decide

/-! Compare: R450 to R464. -/

theorem test_cmpo : compared .cmpo 0xFFFFFFFF 1 = some 1 ∧ compared .cmpo 4 4 = some 2 := by decide
theorem test_cmpi : compared .cmpi 0xFFFFFFFF 1 = some 4 := by decide
theorem test_cmp_bytes : compared .cmpib 0x80 0x7F = some 4 ∧ compared .cmpob 0x180 0x7F = some 1 ∧
    compared .cmpis 0x8000 1 = some 4 ∧ compared .cmpos 0x10000 1 = some 4 := by decide
/-- Table 6-5 (R457): after cmpo g6, g3 the code of concmpo g5, g3. -/
theorem test_concmpo : after (.concmpo (.lit 3) (.lit 5)) { base with ac := 4 } (fun t => t.ac) = some 4 ∧
    after (.concmpo (.lit 3) (.lit 5)) { base with ac := 1 } (fun t => t.ac) = some 2 ∧
    after (.concmpo (.lit 7) (.lit 5)) { base with ac := 1 } (fun t => t.ac) = some 1 := by decide
theorem test_concmpi : after (.concmpi (.reg 16) (.lit 5)) { with2 (-1) 0 with ac := 1 } (fun t => t.ac) =
    some 2 := by decide
theorem test_cmpinco : after (.cmpinco (.lit 8) (.reg 17) (.reg 17)) (with2 0 8)
    (fun t => (t.g[1], t.ac)) = some (9, 2) := by decide
theorem test_cmpinci : resultAc .cmpinci 0 0 0x7FFFFFFF = some (0x80000000, 4) := by decide
theorem test_cmpdeco : resultAc .cmpdeco 0 1 0 = some (0xFFFFFFFF, 1) := by decide
theorem test_cmpdeci : resultAc .cmpdeci 0 0 0x80000000 = some (0x7FFFFFFF, 1) := by decide
theorem test_chkbit : compared .chkbit 13 0x2000 = some 2 ∧ compared .chkbit 45 0x1000 = some 0 := by decide
theorem test_test : after (.testl (.reg 18)) { base with ac := 4 } (fun t => t.g[2]) = some 1 ∧
    after (.testno (.reg 18)) base (fun t => t.g[2]) = some 1 ∧
    after (.testo (.reg 18)) base (fun t => t.g[2]) = some 0 := by decide

/-! Movement: R284 to R314. -/

/-- `base` with a word in the data RAM at 100H and g0 = 100H. -/
def memState (v : Word) : State :=
  { with2 0x100 0 with mem := Memory.writeBytes [] 0x100 (wordBytes v) }

theorem test_ld : after (.ld (.regOff 16 0) 18) (memState 0x12345678) (fun t => t.g[2]) =
    some 0x12345678 := by decide
theorem test_ld_bytes : after (.ldob (.regInd 16) 18) (memState 0xFA) (fun t => t.g[2]) = some 0xFA ∧
    after (.ldib (.regInd 16) 18) (memState 0xFA) (fun t => t.g[2]) = some 0xFFFFFFFA ∧
    after (.ldib (.regInd 16) 18) (memState 0x7A) (fun t => t.g[2]) = some 0x7A := by decide
theorem test_ld_shorts : after (.ldos (.regInd 16) 18) (memState 0x85A5) (fun t => t.g[2]) = some 0x85A5 ∧
    after (.ldis (.regInd 16) 18) (memState 0x85A5) (fun t => t.g[2]) = some 0xFFFF85A5 ∧
    after (.ldis (.regInd 16) 18) (memState 0x05A5) (fun t => t.g[2]) = some 0x05A5 := by decide
theorem test_st : after (.st 17 (.regOff 16 1)) { with2 0x100 0x11223344 with g := (with2 0x100 0x11223344).g }
    (fun t => t.mem) = some [(0x101, 0x44), (0x102, 0x33), (0x103, 0x22), (0x104, 0x11)] := by decide
theorem test_stob : after (.stob 17 (.regInd 16)) (with2 0x100 0x1FF) (fun t => t.mem) =
    some [(0x100, 0xFF)] := by decide
theorem test_stos : after (.stos 17 (.regInd 16)) (with2 0x100 0x12345) (fun t => t.mem) =
    some [(0x100, 0x45), (0x101, 0x23)] := by decide
/-- R295: 100H overflows, FFFFFF80H and 80H do not. -/
theorem test_stib : after (.stib 17 (.regInd 16)) { with2 0x100 0x100 with ac := 0x1000 }
    (fun t => (t.mem, t.ac)) = some ([(0x100, 0)], 0x1100) ∧
    after (.stib 17 (.regInd 16)) (with2 0x100 0xFFFFFF80) (fun t => t.mem) = some [(0x100, 0x80)] ∧
    after (.stib 17 (.regInd 16)) (with2 0x100 0x80) (fun t => t.mem) = some [(0x100, 0x80)] := by decide
theorem test_stis : after (.stis 17 (.regInd 16)) { with2 0x100 0x10000 with ac := 0x1000 }
    (fun t => (t.mem, t.ac)) = some ([(0x100, 0), (0x101, 0)], 0x1100) := by decide
theorem test_stl_ldl : after (.stl 16 (.regInd 16)) (with2 0x100 2) (fun t => Memory.readBytes t.mem 0x104 4) =
    some [2, 0, 0, 0] ∧
    after (.ldl (.regInd 16) 18) { memState 7 with mem := Memory.writeBytes [] 0x100 [7, 0, 0, 0, 9, 0, 0, 0] }
      (fun t => (t.g[2], t.g[3])) = some (7, 9) := by decide
theorem test_stt_stq : after (.stt 16 (.regInd 16)) (with2 0x100 2) (fun t => t.mem.length) = some 12 ∧
    after (.stq 16 (.regInd 16)) (with2 0x100 2) (fun t => t.mem.length) = some 16 := by decide
theorem test_lda : after (.lda (.ipDisp 0x10) 18) base (fun t => (t.g[2], t.ip)) = some (0x8018, 0x8008) := by decide
theorem test_mov : after (.movq (.reg 16) (.reg 20)) (with2 1 2) (fun t => (t.g[4], t.g[5], t.g[6])) =
    some (1, 2, 0) ∧ after (.movl (.lit 9) (.reg 16)) (with2 1 2) (fun t => (t.g[0], t.g[1])) =
    some (9, 0) := by decide
/-- R306: sele with AC.cc = 010 gives src2, sell with 001 gives src1. -/
theorem test_sel : resultAc .sele 2 5 6 = some (6, 2) ∧ resultAc .sell 1 5 6 = some (5, 1) ∧
    resultAc .selno 0 5 6 = some (6, 0) := by decide

/-! Control flow: R491 to R543. -/

theorem test_b : after (.b (-2)) base (fun t => t.ip) = some 0x7FF8 := by decide
theorem test_bx : after (.bx (.ipDisp 1332)) base (fun t => t.ip) = some (0x8000 + 8 + 1332) := by decide
theorem test_bal : after (.bal 0x10) base (fun t => (t.g[14], t.ip)) = some (0x8004, 0x8040) := by decide
theorem test_balx : after (.balx (.regInd 16) 16) (with2 0x9003 0) (fun t => (t.g[0], t.ip)) =
    some (0x8004, 0x9000) := by decide
theorem test_bcc : after (.bl 4) { base with ac := 4 } (fun t => t.ip) = some 0x8010 ∧
    after (.bl 4) { base with ac := 3 } (fun t => t.ip) = some 0x8004 ∧
    after (.bno 4) base (fun t => t.ip) = some 0x8010 := by decide
theorem test_bbc : after (.bbc (.lit 10) (.reg 16) 8) (with2 0 0) (fun t => (t.ip, t.ac)) =
    some (0x8020, 0) ∧ after (.bbs (.lit 10) (.reg 16) 8) (with2 0x400 0) (fun t => (t.ip, t.ac)) =
    some (0x8020, 2) := by decide
theorem test_cmpb : after (.cmpibl (.reg 16) (.reg 17) 8) (with2 (-1) 1) (fun t => (t.ip, t.ac)) =
    some (0x8020, 4) ∧ after (.cmpobge (.lit 19) (.reg 17) 8) (with2 0 7) (fun t => (t.ip, t.ac)) =
    some (0x8020, 1) ∧ after (.cmpibno (.reg 16) (.reg 17) 8) (with2 1 1) (fun t => (t.ip, t.ac)) =
    some (0x8004, 2) := by decide

/-- The worked example of R537: IP = 8000H, FP = A000H, SP = A05CH. -/
def callState : State := { base with g := base.g.set 15 0xA000, r := base.r.set 1 0xA05C }

theorem test_call : after (.call 0x40) callState
    (fun t => (t.ip, t.g[15], t.r[0], t.r[1])) = some (0x8100, 0xA060, 0xA000, 0xA0A0) ∧
    after (.call 0x40) callState (fun t => t.rc.map fun e => (e.addr, e.regs[2])) =
    some [(0xA000, 0x8004)] := by decide
/-- R561: `ret` undoes it. -/
theorem test_ret : ((after (.call 0x40) callState id).bind fun t =>
    after .ret t fun u => (u.ip, u.g[15], u.r[1], u.rc.length)) = some (0x8004, 0xA000, 0xA05C, 0) := by
  decide

/-- Memory with a word at each of some addresses. -/
def words (l : List (Nat × Word)) : List Host.Cell :=
  l.foldl (fun m p => Memory.writeBytes m p.1 (wordBytes p.2)) []

/-- A word of memory. -/
def wordAt (t : State) (k : Nat) : Word := bytesToWord (Memory.readBytes t.mem k 4)

/-- R538: callx through g0. -/
theorem test_callx : after (.callx (.regInd 16)) { callState with g := callState.g.set 0 0x9000 }
    (fun t => (t.ip, t.g[15], t.rc.map fun e => e.regs[2])) = some (0x9000, 0xA060, [0x8004]) := by decide
/-- R539: entry 3 at SPT + 48 + 12, supervisor entry from user mode: SSP, PFP type 01t, PC.em. -/
theorem test_calls : after (.calls (.lit 3))
    { callState with pc := 0, ssp := 0xC000, sptBase := 0x3000, mem := words [(0x303C, 0x9002)] }
    (fun t => (t.ip, t.g[15], t.r[0], t.r[1], t.pc)) = some (0x9000, 0xC000, 0xA002, 0xC040, 2) := by decide
/-- R539: from supervisor mode the same entry is a local call. -/
theorem test_calls_local : after (.calls (.lit 3))
    { callState with ssp := 0xC000, sptBase := 0x3000, mem := words [(0x303C, 0x9002)] }
    (fun t => (t.ip, t.g[15], t.r[0])) = some (0x9000, 0xA060, 0xA000) := by decide
/-- R549: the cached set goes to its frame, r2 at FP + 8. -/
theorem test_flushreg : ((after (.call 0x40) callState id).bind fun t =>
    after .flushreg t fun u => (u.ip, u.rc.length, wordAt u 0xA008, wordAt u 0xA004)) =
    some (0x8104, 0, 0x8004, 0xA05C) := by decide

/-! Faults: R590, R717, R785. -/

/-- The state of R785, before its fault. -/
def r785 : State :=
  { callState with
    r := callState.r.set 1 0xA048, ip := 0x8010, pc := 0x001F0002, ac := 0x1000, faultBase := 0x4000
    mem := words [(0x4018, 0x9000), (0x401C, 0), (0x4028, 0x9000), (0x402C, 0)] }

theorem test_r785 : after (.divo (.reg 16) (.reg 17) (.reg 18)) r785
    (fun t => (t.ip, t.g[15], t.r[0], t.r[1], t.pc, t.ac)) =
    some (0x9000, 0xA0A0, 0xA001, 0xA0E0, 0x001F0002, 0x1000) := by decide
theorem test_r785_record : after (.divo (.reg 16) (.reg 17) (.reg 18)) r785
    (fun t => (Memory.get t.mem 0xA09C, Memory.get t.mem 0xA09A, Memory.get t.mem 0xA098,
      Memory.get t.mem 0xA095, t.rc.map fun e => e.regs[2])) =
    some (some 0x10, some 0x03, some 0x02, some 0x10, [0x8014]) := by decide
/-- `fault<cc>` (R590): the condition decides between CONSTRAINT.RANGE and the next instruction. -/
theorem test_fault_taken : after .faultno r785 (fun t => (t.ip, Memory.get t.mem 0xA09A)) =
    some (0x9000, some 0x05) := by decide
theorem test_fault_not_taken : after .faultle { r785 with ac := 1 } (fun t => t.ip) = some 0x8014 := by decide
theorem test_faults_rest : (after .faultg base (fun t => t.ip), after .faulte base (fun t => t.ip),
    after .faultge base (fun t => t.ip), after .faultl base (fun t => t.ip),
    after .faultne base (fun t => t.ip), after .faulto base (fun t => t.ip)) =
    (some 0x8004, some 0x8004, some 0x8004, some 0x8004, some 0x8004, some 0x8004) := by decide

/-! Debug, atomic, processor management. -/

theorem test_marks : after .mark base (fun t => t.ip) = some 0x8004 ∧
    after .fmark base (fun t => t.ip) = some 0x8004 ∧ after .syncf base (fun t => t.ip) = some 0x8004 := by
  decide
/-- The vectors of R606. -/
theorem test_modtc : after (.modtc (.reg 16) (.reg 17) (.reg 18)) { with2 (-1) 0x82 with tc := 0x01000004 }
    (fun t => (t.tc, t.g[2])) = some (0x82, 0x01000004) ∧
    after (.modtc (.reg 16) (.reg 17) (.reg 18)) (with2 0x0F000000 0x0F000000) (fun t => t.tc) = some 0 := by
  decide
/-- The vector of R610. -/
theorem test_atadd : after (.atadd (.reg 16) (.reg 17) (.reg 18))
    { with2 0x2002 2 with mem := words [(0x2000, 0xFFFFFFFF)] } (fun t => (wordAt t 0x2000, t.g[2])) =
    some (1, 0xFFFFFFFF) := by decide
/-- The vector of R611. -/
theorem test_atmod : after (.atmod (.reg 16) (.reg 17) (.reg 18))
    { with2 0x2000 0xFF00 with mem := words [(0x2000, 0x12345678)], g := (with2 0x2000 0xFF00).g.set 2 0xAAAAAAAA }
    (fun t => (wordAt t 0x2000, t.g[2])) = some (0x1234AA78, 0x12345678) := by decide
/-- The vectors of R621. -/
theorem test_modpc : after (.modpc (.reg 16) (.reg 16) (.reg 17)) { with2 0x001F0000 0x00050000 with pc := 0x001F2002 }
    (fun t => (t.pc, t.g[1])) = some (0x00052002, 0x001F2002) ∧
    after (.modpc (.reg 16) (.reg 16) (.reg 17)) { with2 0 9 with pc := 0 } (fun t => (t.pc, t.g[1])) =
    some (0, 0) := by decide
/-- The vectors of R622. -/
theorem test_modac : resultAc .modac 0x1002 7 4 = some (0x1002, 0x1004) ∧
    resultAc .modac 0x1102 0x100 0 = some (0x1102, 0x1002) := by decide
/-- R626 to R628, R690. -/
theorem test_interrupt_enable :
    after (.intctl (.lit 0) (.reg 20)) base (fun t => (t.intc.icon, t.g[4])) = some (0x400, 1) ∧
    after .intdis base (fun t => t.intc.icon) = some 0x400 ∧
    after .inten { base with intc := { base.intc with icon := 0x4400 } } (fun t => t.intc.icon) =
    some 0x4000 := by decide
theorem test_halt : after (.halt (.lit 1)) { base with intc := { base.intc with icon := 0x4400 } }
    (fun t => (t.intc.icon, t.halted, t.ip)) = some (0x4000, true, 0x8004) := by decide
/-- The status words of R641 and R651. -/
theorem test_cache_status : after (.icctl (.lit 4) (.lit 0) (.reg 18)) { base with icEnabled := true }
    (fun t => t.g[2]) = some 0x00019221 ∧
    after (.icctl (.lit 5) (.lit 0) (.reg 18)) base (fun t => t.g[2]) = some 0x00080001 ∧
    after (.dcctl (.lit 4) (.lit 0) (.reg 18)) base (fun t => t.g[2]) = some 0x00008220 := by decide
/-- R662 and R663: the rights, then a read of ICON (FF00 8510H) with mask 0. -/
theorem test_sysctl : after (.sysctl (.reg 16) (.reg 16) (.reg 18)) (with2 0x600 0)
    (fun t => (t.g[2], t.dbg.rights)) = some (0x22, true) ∧
    after (.sysctl (.reg 16) (.reg 17) (.reg 18)) { with2 0x85100500 5 with intc := { base.intc with icon := 0x4000 } }
    (fun t => (t.g[2], t.intc.icon)) = some (0x4000, 0x4000) := by decide

/-- R910, single step: user mode, PC.te and TC.i set, `addo 1, g0, g0`. -/
theorem test_r910 : after (.addo (.lit 1) (.reg 16) (.reg 16))
    { with2 5 0 with
      pc := 1, tc := 2, ssp := 0xC000, faultBase := 0x4000, sptBase := 0x3000
      mem := words [(0x4008, 6), (0x400C, 0x27F), (0x3034, 0x9002)] }
    (fun t => (t.g[0], t.ip, t.pc, Memory.get t.mem 0xC048, Memory.get t.mem 0xC04A,
      Memory.get t.mem 0xC04D, Memory.get t.mem 0xC040)) =
    some (6, 0x9000, 2, some 2, some 1, some 0x80, some 1) := by decide

/-! The machine. -/

/-- R706: an instruction placed where the step fetches runs: `addo 1, g0, g0`. -/
theorem test_step_runs : (match step (State.reset.withFetchWord 32 0x59840801) with
    | .next t => some (t.g[0], t.ip)
    | .fault _ | .refused _ => none) = some (1, 0xFE000004) := by decide
/-- R834, R835: NMI, vector 248 from data RAM word 0; the frame at ((A05CH + 15) & ~15) + 16 on the
interrupt stack, since PC.s = 0. -/
theorem test_nmi : (match step { callState with
      isp := 0xB000, intc := { base.intc with nmiPending := true }, mem := words [(0, 0x9000)] } with
    | .next t => some (t.ip, t.g[15], t.r[0], t.pc, t.intc.blockNmi)
    | .fault _ | .refused _ => none) = some (0x9000, 0xB010, 0xA007, 0x001F2002, true) := by decide

/-- R836, R837: XINT0 pending at priority 6 (IMAP field 3), vector 50, entry at table base + 4 + 200; the
mask is saved in r3 and, with ICON.mo = 01, cleared. -/
def hwState : State :=
  { callState with
    isp := 0xB000, intBase := 0x5000
    intc := { base.intc with icon := 0x4800, imap0 := 3, imsk := 5, ipnd := 1, pirsr := 0xF }
    mem := words [(0x50CC, 0x9000)] }

theorem test_hardware_interrupt : (match step hwState with
    | .next t => some (t.ip, t.pc, t.g[15], t.r[0], t.r[3], t.intc.imsk, t.intc.ipnd)
    | .fault _ | .refused _ => none) = some (0x9000, 0x00062002, 0xB010, 0xA007, 5, 0, 0) := by decide

/-- R814, R837: vectors 255 and 40 posted; 255 is taken, and 40 (priority 5) is left. -/
def swState : State :=
  { callState with
    isp := 0xB000, intBase := 0x5000, intc := { base.intc with swPrio := 31 }
    mem := words [(0x5000, 0x80000020), (0x5008, 0x00000100), (0x5020, 0x80000000), (0x5400, 0x9000)] }

theorem test_software_interrupt : (match step swState with
    | .next t => some (t.ip, t.pc, t.intc.swPrio, wordAt t 0x5000, wordAt t 0x5020, wordAt t 0x5008)
    | .fault _ | .refused _ => none) = some (0x9000, 0x001F2002, 5, 0x20, 0, 0x100) := by decide

/-- R541: with a limit of 7 reserved sets a call spills the caller's set at once; r1 of it is at FP + 4. -/
theorem test_call_spills : after (.call 0x40) { callState with rcLimit := 7 }
    (fun t => (t.ip, t.g[15], t.rc.length, wordAt t 0xA004, wordAt t 0xA008)) =
    some (0x8100, 0xA060, 0, 0xA05C, 0x8004) := by decide

/-- The image of an initialization (R1310 to R1335): PRCB at 2000H, tables at 3000H to 7000H; the boot
record in bank 0 with the check word FFFF6000H, which makes the confidence sum 0 (R1314). -/
def imageWords : List (Nat × Word) :=
  [(0x2000, 0x3000), (0x2004, 0x4000), (0x2008, 0x1000), (0x200C, 0), (0x2010, 0x5000),
   (0x2014, 0x6000), (0x201C, 0x7000), (0x2020, 0x10000), (0x2024, 0x300)] ++
  ((List.range 19).map fun i => (0x4010 + 4 * i,
    if i = 0 then 0x1111 else if i = 3 then 0x4000 else if i = 18 then 0x00800000 else 0)) ++
  [(0x4068, 0xFF), (0x406C, 3), (0x53E4, 0x9000), (0x600C, 0xC001)]

/-- The boot record with its last check word (R1316). -/
def bootWords (check : Word) : List (Nat × Word) :=
  (0x200FFFF38, 0x80) :: (0x200FFFF40, 0x8000) :: (0x200FFFF44, 0x2000) :: (0x200FFFF48, check) ::
    (List.range 5).map fun i => (0x200FFFF4C + 4 * i, 0)

def bootState (check : Word) : State :=
  { State.reset with mem := words (imageWords ++ bootWords check) }

theorem test_initialize : (match step (bootState 0xFFFF6000) with
    | .next t => some [t.ip, t.g[15], t.r[1], t.ac, t.tc, t.ssp, t.intc.imap0, t.bus.pmcon[7], t.bus.bcon,
        wordAt t 0]
    | .fault _ | .refused _ => none) = some [0x8000, 0x7000, 0x7040, 0x1000, 0xFE, 0xC000, 0x1111,
      0x00800000, 3, 0x9000] := by decide +kernel
/-- A wrong check word: fail code FEFFFF64H (R1313). -/
theorem test_initialize_fails :
    (match step (bootState 0xFFFF6001) with
    | .next t => some t.run
    | .fault _ | .refused _ => none) = some (.stopped 0xFEFFFF64) := by decide +kernel
/-- R661: message 03H, PRCB at src/dst, first instruction at src2. -/
def restartState : State :=
  { with2 0x300 0x8800 with mem := words imageWords, g := (with2 0x300 0x8800).g.set 2 0x2000 }

theorem test_reinitialize : after (.sysctl (.reg 16) (.reg 17) (.reg 18)) restartState
    (fun t => (t.ip, t.g[15], t.pc, t.prcb, t.tc, t.rcLimit)) =
    some (0x8800, 0x7000, 2, 0x2000, 0xFE, 3) := by decide +kernel

/-- R86 to R89: a word store to IMSK and a load of it; R932: a load of TMR0 clears TMR.tc. -/
theorem test_mmr : after (.st 16 (.absDisp 0xFF008504)) (with2 0xFFFFFFFF 0) (fun t => t.intc.imsk) =
    some 0x30FF ∧
    after (.ld (.absDisp 0xFF000308) 18) { base with timer0 := { base.timer0 with tmr := 0x23 } }
      (fun t => (t.g[2], t.timer0.tmr)) = some (0x23, 0x22) := by decide
/-- R90, R1041: LBACR at 1600H, 14 bits of it implemented. -/
theorem test_pmmr : after (.st 16 (.absDisp 0x1600)) (with2 0xFFFFFFFF 0) (fun t => t.arb.lbacr) =
    some 0x3FFF ∧ after (.ld (.absDisp 0x1600) 18) { base with arb := { base.arb with lbacr := 0x2A } }
      (fun t => t.g[2]) = some 0x2A := by decide
/-- R148: a load of two bytes at an odd address with the fault enabled goes to the handler of type 2. -/
theorem test_unaligned : after (.ldos (.regInd 16) 18)
    { r785 with
      g := r785.g.set 0 0x101, unalignedFault := true
      mem := words [(0x100, 0x12345678), (0x4010, 0x9000)] }
    (fun t => (t.ip, t.g[2], Memory.get t.mem 0xA09A, Memory.get t.mem 0xA088)) =
      some (0x9000, 0x3456, some 2, some 1) := by decide
/-- R935, R936: count 1 without reload; the timer stops and signals. -/
theorem test_timer : (match step { base with
      timer0 := { base.timer0 with tmr := 2, tcr := 1 }, schedule := [.env (.timerClock false)] } with
    | .next t => some (t.timer0.tmr, t.timer0.tcr, t.intc.ipnd)
    | .fault _ | .refused _ => none) = some (1, 0, 0x1000) := by decide
/-- R1044: between the two accesses of an unaligned load another master writes the second byte. -/
theorem test_between : after (.ldos (.absDisp 0x2003) 18)
    { base with mem := words [(0x2000, 0x11223344), (0x2004, 0x55667788)]
                schedule := [.between [.extWrite 0x2004 0xAB]] }
    (fun t => (t.g[2], t.schedule)) = some (0xAB11, []) := by decide

/-- R178: with BCON.ctv = 0 the width of region 14_15 rules a burst in region 0_1. -/
theorem test_ctv :
    let s : State := { base with bus := { base.bus with
      pmcon := (base.bus.pmcon.set 0 0x00800000).set 7 0, bcon := 0 } }
    s.burstBytes 0x2000 = 4 ∧
      ({ s with bus := { s.bus with bcon := 1 } } : State).burstBytes 0x2000 = 16 := by decide
/-- R1041: a disabled core makes no access; the instruction has not begun when the schedule ends. -/
theorem test_disabled : after (.ld (.absDisp 0x2000) 18)
    { base with arb := { base.arb with lbacr := 3 }, mem := words [(0x2000, 7)] }
    (fun t => (t.ip, t.g[2])) = some (base.ip, base.g[2]) := by decide
/-- R662, R88: `sysctl` with mask 0 reads IPB0, which a load cannot, once the rights are granted; before,
it raises OPERATION.UNIMPLEMENTED (type 2, subtype 2). -/
theorem test_ipb_read :
    let s (on : Bool) : State := { r785 with
      g := (callState.g.set 0 0x84000500).set 2 0
      mem := words [(0x4010, 0x9000)], dbg := { base.dbg with ipb0 := 0x8003, rights := on } }
    let i : Instr := .sysctl (.reg 16) (.reg 17) (.reg 18)
    after i (s true) (fun t => t.g[2]) = some 0x8003 ∧
      after i (s false) (fun t => (t.ip, t.g[2], Memory.get t.mem 0xA09A, Memory.get t.mem 0xA098)) =
        some (0x9000, 0, some 2, some 2) := by decide
/-- R1061, R1073: a 17th DWORD is retried although 15 of the 16 have been written already. -/
theorem test_inbound_17 :
    let a : Atu := { base.atu with
      cmd := 2, iabar := 0x40000000, ialr := 0xFFFF0000
      inq := [{ pa := 0x4000013C, data := 0, be := 15 }], inCount := 16 }
    (match pciMemWrite 0x40000140 7 15 { base with atu := a } with
      | .next t => (t.atu.inq.length, t.pciLog)
      | .fault _ | .refused _ => (0, [])) = (1, [.retried 0x40000140]) := by decide
/-- R717: NFP - 4, - 8, - 12 and - 16 are written first, then the fault data at NFP - 24. -/
theorem test_record_order : (recordStores 0xA060 [0, 1, 2, 3, 4, 5, 6, 7, 8, 9, 10, 11, 12, 13, 14, 15]).take 5
    = [(0xA09C, 15), (0xA098, 14), (0xA094, 13), (0xA090, 12), (0xA088, 10)] := by decide
/-- R1031: the bus monitor ends a load at FEFFFF60H that nobody answers. -/
theorem test_reserved_timeout : after (.ld (.absDisp 0xFEFFFF60) 18)
    { base with mc := { base.mc with mbcr := 0, bmer := 1 }
                board := { base.board with silent := [(0xFEFFFF00, 0xFEFFFFFF)] } }
    (fun t => (t.mc.lpisr, t.mc.mear)) = some (0x20, 0xFEFFFF60) := by decide
/-- R609, R85: an atomic access to IMSK takes no bus cycle, so a disabled core makes it. -/
theorem test_atomic_mmr : after (.atmod (.reg 16) (.reg 17) (.reg 18))
    { with2 0xFF008504 0xF with g := (with2 0xFF008504 0xF).g.set 2 5, arb := { base.arb with lbacr := 3 } }
    (fun t => t.intc.imsk) = some 5 := by decide
/-- R1078: the ATU reads one DWORD more in one event. -/
theorem test_read_ahead :
    let d : InData := { pa := 0x40000100, be := some 15, words := [1], next := 0x1F000004, ahead := 2 }
    let s : State := { base with mem := words [(0x1F000004, 2)] }
    (match atuRead (s.setRead (.data d)) with
      | .next t => t.atu.rdq
      | .fault _ | .refused _ => .none) =
      .data { d with words := [1, 2], next := 0x1F000008, ahead := 1 } := by decide
/-- R1074: byte enables must match when the repeat starts, not in its burst. -/
theorem test_read_burst :
    let d : InData := { pa := 0x40000104, be := some 15, words := [2, 3], next := 0, ahead := 0 }
    (pciCollect 0x40000104 3 (base.setRead (.data d))).pciLog = [.retried 0x40000104] ∧
      (pciCollect 0x40000104 3 (base.setRead (.data { d with be := none }))).pciLog =
        [.answered 0x40000104 2] := by decide
/-- R1075: a configuration write is retried, performed by the ATU, and completes at its repeat; another
cycle is retried meanwhile. -/
theorem test_config_cycle :
    let c : CfgCycle := { off := 0x04, be := 3, write := some 6 }
    let other : CfgCycle := { off := 0x04, be := 15, write := none }
    let latched := pciCfgCollect c base
    let done := atuCfg latched
    let after := pciCfgCollect c (pciCfgCollect other done)
    (latched.atu.cmd, done.atu.cmd, after.atu.cfg, after.pciLog) =
      (0, 6, .none, [.accepted 4, .retried 4, .retried 4]) := by decide
/-- R1220: a start with nothing to read takes `go`, also while the arbiter disables the channel. -/
theorem test_dma_idle :
    (match dmaIdle false
        { base with dma0 := { Dma.reset with ccr := 1, go := true }, arb := { base.arb with lbacr := 0xC } } with
      | .next t => some t.dma0.go
      | .fault _ | .refused _ => none) = some false := by decide
/-- R833: a store to IPND clears no bit whose input is low. -/
theorem test_ipnd_low :
    let s : State := { base with intc := { base.intc with xint := 0x30, ipnd := 0x2031 } }
    (s.setMmr 0x11 .ipnd).intc.ipnd = 0x31 := by decide
/-- R1280, R1294: ISAR is kept by a reset, and lost by one that ends the self test. -/
theorem test_reset_isar :
    let s (r : RunState) : State := { base with run := r, i2c := { base.i2c with isar := 0x15 } }
    (pinReset base.board (s .ready)).i2c.isar = 0x15 ∧
      (pinReset base.board (s .selfTest)).i2c.isar = (s .selfTest).undef 12 &&& 0x7F := ⟨rfl, rfl⟩
/-- R1226: BCR keeps what remained, the two words of the line before the bad one counted. -/
theorem test_parity_count :
    let d : Dma := { Dma.reset with
      ccr := 1, csr := 0x400, dcr := 15, bcr := 32, total := 32, ladr := 0x1F000000, mwiLine := 32 }
    let t := dmaParity false 0x1F000008 { base with dma0 := d }
    (t.dma0.bcr, t.dma0.csr) = (24, 0) := by decide
/-- R1294: BIST begins on the first edge after Run-Test/Idle is entered, on no later one. -/
theorem test_bist_once :
    let s (on : Bool) : State := { base with
      tap := { base.tap with state := .runTestIdle, ir := 7, idled := on } }
    (tapAct false (s false)).run = .selfTest ∧ (tapAct false (s true)).run = .ready := by decide

/-- The two worked examples of R183: a 64-Kbyte block, and one in each of sixteen Mbytes. -/
theorem test_template :
    let one : BusConfig := { base.bus with lmadr0 := 0x00100002, lmmr0 := 0xFFFF0001 }
    let many : BusConfig := { base.bus with lmadr1 := 0x00000002, lmmr1 := 0xFF0F0001 }
    [0x000FFFFF, 0x00100000, 0x0010FFFF, 0x00110000].map (one.templateMatches false) =
      [false, true, true, false] ∧
    [0x0000FFFF, 0x00F00000, 0x00F10000, 0x01000000].map (many.templateMatches true) =
      [true, true, false, false] := by decide

/-- Both outbound windows claimed (R1120), the data cache on, every address cacheable or none. -/
def windowState (cached : Bool) : State :=
  { base with
    dcEnabled := true, bus := { base.bus with dlmcon := bitAt cached 1 }
    atu := { base.atu with cmd := 4, cr := 2 } }

/-- R1122 and its vector (95_test_vectors.md): `stos` to 90000002H enables bytes 2 and 3 of I/O address 2;
with the data cache on for the window all four of address 0. -/
theorem test_io_store :
    let posted (cached : Bool) := after (.stos 16 (.absDisp 0x90000002)) (windowState cached)
      fun t => t.atu.outq.map fun c => (c.cmd, c.addr, c.be)
    posted false = some [(.ioWrite, 2, 0xC)] ∧ posted true = some [(.ioWrite, 0, 0xF)] := by decide

/-- R191, R1122: a byte load of a cacheable address in a window is a word read. -/
theorem test_window_load :
    let drove (cached : Bool) (a : Word) := after (.ldob (.absDisp a) 18) (windowState cached)
      fun t => t.pciLog
    drove false 0x90000003 = some [.drove { cmd := .ioRead, addr := 3, be := 8, data := 0 }] ∧
    drove true 0x90000003 = some [.drove { cmd := .ioRead, addr := 0, be := 15, data := 0 }] ∧
    drove true 0x80000003 = some [.drove { cmd := .memRead, addr := 0, be := 15, data := 0 }] := by decide

/-! ## Witnesses: states and operands that meet the hypotheses of each obligation, clause by clause -/

/-- The hypotheses shared by the statements about two sources and a destination. -/
abbrev Readable (s : State) (s1 s2 : Src) (d : SrcDst) (a b : Word) (r : Reg) : Prop :=
  s.te = false ∧ s.src s1 30 = some a ∧ s.src s2 31 = some b ∧ dest d = some r

/-- A state after `addo 1, g0, g0` is placed where it fetches. -/
def ready : State := State.reset.withFetchWord 32 0x59840801

theorem witness_ready_legal : ready.Legal := by
  constructor
  · decide
  · decide
  · decide
  · decide
  · decide
  · decide
  · intro e h; cases h

/-- With an empty schedule no other agent comes into an instruction of a core that has the bus. -/
theorem undisturbed_of_empty {s : State} (h : s.schedule = []) (hg : s.coreGranted = true := by decide) :
    s.undisturbed :=
  ⟨hg, fun es rest e => by rw [h] at e; cases e⟩

theorem witness_StepKeepsLegal : ready.Legal ∧ ready.safe = true := ⟨witness_ready_legal, by decide⟩

/-- One word, an undefined opcode, two words (log 5 for the placement); the schedule empty, or the core
first and another turn after it. -/
theorem witness_StepRunsDecodedInstruction :
    (ready.schedule = [] ∧
      ({ ready with schedule := [.core, .env .trst] } : State).schedule = .core :: [.env .trst] ∧
      (∀ es l, ([.env .trst] : List Turn) ≠ .between es :: l) ∧
      (∀ es l, ([] : List Turn) ≠ .between es :: l)) ∧
    (ready.run = .ready ∧ ready.coreHeld = false ∧
      (endLate (sampleInputs ready)).selectInterrupt = none ∧ ready.halted = false ∧
      region ready.ip = .bus ∧ ready.target ready.ip = .memory (2 * 2 ^ 32) false ∧
      ready.stale = []) ∧
    decode (Memory.readBytes ready.mem (2 * 2 ^ 32) 4) = .ok (.addo (.lit 1) (.reg 16) (.reg 16), []) ∧
    decode (Memory.readBytes (State.reset.withFetchWord 32 0).mem (2 * 2 ^ 32) 4) =
      .error .undefinedOpcode ∧
    (region (ready.ip + 4) = .bus ∧ ready.target (ready.ip + 4) = .memory (2 * 2 ^ 32 + 4) false) ∧
    decode (Memory.readBytes (State.reset.withFetchWord 64 0x123456788C803000).mem (2 * 2 ^ 32) 4) =
      .error .truncated ∧
    decode (Memory.readBytes (State.reset.withFetchWord 64 0x123456788C803000).mem (2 * 2 ^ 32) 4 ++
      Memory.readBytes (State.reset.withFetchWord 64 0x123456788C803000).mem (2 * 2 ^ 32 + 4) 4) =
      .ok (.lda (.absDisp 0x12345678) 16, []) :=
  ⟨⟨by decide, by decide, fun _ _ h => (by cases h), fun _ _ h => (by cases h)⟩, by decide, by decide,
    by decide, by decide, by decide, by decide⟩

/-- Four values from g12 on; r3 as an operand; groups of 1, 2, 3 and 4 at their boundary and off it,
and the group that would hold r2. -/
theorem witness_RegistersAndOperands :
    [1, 2, 3, (4 : Word)].length ≤ 4 ∧ (3 : Reg) ≠ 2 ∧
    ((31 : Reg).toNat % 1 = 0 ∧ (30 : Reg).toNat % 2 = 0 ∧ (28 : Reg).toNat % 4 = 0) ∧
    (¬ (29 : Reg).toNat % 2 = 0 ∧ ¬ (30 : Reg).toNat % 4 = 0) ∧
    ((2 : Reg) ∈ (List.range 2).map (fun j => (2 : Reg) + BitVec.ofNat 5 j) ∧
      (2 : Reg) ∉ (List.range 4).map (fun j => (28 : Reg) + BitVec.ofNat 5 j)) := by decide

/-- A memory region of 32-bit width, its own PMCON in force. -/
def wideState : State :=
  { base with bus := { base.bus with pmcon := base.bus.pmcon.set 0 0x00800000, bcon := 1 } }

/-- The last byte of data RAM, and the first quad word of external memory in one burst. -/
theorem witness_MemoryWriteReadsBack : base.mayStore 0x3FF 1 ∧ base.undisturbed ∧
    wideState.mayStore 0x2000 16 ∧ wideState.coreGranted = true ∧
    (16 ∈ [1, 2, 4, 8, 12, 16] ∧ wideState.oneAccess 0x2000 16 = true) :=
  ⟨⟨by decide, 0x3FF, by unfold State.plainW; decide⟩, undisturbed_of_empty rfl,
    ⟨by decide, 0x2000, by unfold State.plainW; decide⟩, by decide, by decide⟩

/-- For every statement about two sources and a destination: boundary values of the operands, a
literal among them. -/
theorem witness_two_sources :
    Readable (with2 0xFFFFFFFF 0x80000000) (.reg 16) (.reg 17) (.reg 18) 0xFFFFFFFF 0x80000000 18 ∧
    Readable base (.lit 31) (.lit 0) (.reg 31) 31 0 31 ∧
    Readable (with2 0x7FFFFFFF 1) (.reg 16) (.reg 17) (.reg 0) 0x7FFFFFFF 1 0 := by decide

theorem witness_OrdinalArithmetic :
    Readable (with2 0xFFFFFFFF 2) (.reg 16) (.reg 17) (.reg 18) 0xFFFFFFFF 2 18 := by decide

theorem witness_DivisionResults :
    Readable (with2 0xFFFFFFFF 0x80000000) (.reg 16) (.reg 17) (.reg 18) 0xFFFFFFFF 0x80000000 18 ∧
    (0xFFFFFFFF : Word) ≠ 0 := by decide

/-- The greatest sum that fits, and the least that does not, masked. -/
theorem witness_IntegerArithmetic :
    Readable (with2 0x7FFFFFFE 1) (.reg 16) (.reg 17) (.reg 18) 0x7FFFFFFE 1 18 ∧
    fits ((0x7FFFFFFE : Word).toInt + (1 : Word).toInt) ∧
    Readable { with2 0x7FFFFFFF 1 with ac := 0x1000 } (.reg 16) (.reg 17) (.reg 18) 0x7FFFFFFF 1 18 ∧
    bit ({ with2 0x7FFFFFFF 1 with ac := 0x1000 } : State).ac 12 = true ∧
    fits ((1 : Word).toInt - (0x7FFFFFFF : Word).toInt) ∧
    fits ((0x7FFFFFFF : Word).toInt * (1 : Word).toInt) ∧
    fits ((1 : Word).toInt.tdiv (0x7FFFFFFF : Word).toInt) := by decide

/-- Overflow by one in each direction, -2^31 / -1, and a divisor of 0. -/
theorem witness_ArithmeticFaults :
    (Readable (with2 0x7FFFFFFF 1) (.reg 16) (.reg 17) (.reg 18) 0x7FFFFFFF 1 18 ∧
      bit (with2 0x7FFFFFFF 1).ac 12 = false ∧
      ¬ fits ((0x7FFFFFFF : Word).toInt + (1 : Word).toInt)) ∧
    ¬ fits ((0x80000000 : Word).toInt - (1 : Word).toInt) ∧
    ¬ fits ((0x10000 : Word).toInt * (0x8000 : Word).toInt) ∧
    ((0xFFFFFFFF : Word) ≠ 0 ∧ ¬ fits ((0x80000000 : Word).toInt.tdiv (0xFFFFFFFF : Word).toInt)) ∧
    (with2 0 1).src (.reg 16) 30 = some 0 ∧ (with2 0 1).src (.reg 17) 31 = some 1 ∧
    dest (.reg 18) = some 18 ∧ (with2 0 1).srcs (.reg 20) 2 40 = some [0, 0] ∧
    dests (.reg 18) 2 = some 18 := by decide

/-- Shift 1 by 30 (all of it), by 31 (one too many), and 0 by 32. -/
theorem witness_ShiftLeftInteger :
    Readable (with2 30 1) (.reg 16) (.reg 17) (.reg 18) 30 1 18 ∧
    (30 = min (30 : Word).toNat 32 ∧ fits ((1 : Word).toInt * 2 ^ 30)) ∧
    Readable (with2 31 1) (.reg 16) (.reg 17) (.reg 18) 31 1 18 ∧
    (30 < min (31 : Word).toNat 32 ∧ ¬ fits ((1 : Word).toInt * 2 ^ (30 + 1)) ∧
      bit (with2 31 1).ac 12 = false ∧ bit ({ with2 31 1 with ac := 0x1000 } : State).ac 12 = true) ∧
    Readable (with2 0xFFFFFFFF 0) (.reg 16) (.reg 17) (.reg 18) 0xFFFFFFFF 0 18 ∧
    (32 = min (0xFFFFFFFF : Word).toNat 32 ∧ fits ((0 : Word).toInt * 2 ^ 32)) := by decide

theorem witness_CarryArithmetic :
    Readable { with2 0xFFFFFFFF 0 with ac := 2 } (.reg 16) (.reg 17) (.reg 18) 0xFFFFFFFF 0 18 := by
  decide

/-- The greatest quotient that fits, and the least that does not. -/
theorem witness_ExtendedArithmetic :
    (base.te = false ∧ base.src (.lit 1) 30 = some 1 ∧ base.src (.reg 17) 31 = some 0 ∧
      dests (.reg 30) 2 = some 30) ∧
    ((with2 0xFFFFFFFF 0).srcs (.reg 16) 2 40 = some [0xFFFFFFFF, 0] ∧
      (0 * 2 ^ 32 + 0xFFFFFFFF) / (1 : Word).toNat < 2 ^ 32) ∧
    ((with2 0 1).srcs (.reg 16) 2 40 = some [0, 1] ∧ 2 ^ 32 ≤ (1 * 2 ^ 32 + 0) / (1 : Word).toNat) ∧
    (1 : Word) ≠ 0 ∧ dest (.reg 18) = some 18 := by decide

theorem witness_AddOrdinalConditional :
    Readable { with2 0xFFFFFFFF 1 with ac := 7 } (.reg 16) (.reg 17) (.reg 18) 0xFFFFFFFF 1 18 ∧
    (with2 0 0).cc = 0 ∧ ({ with2 0 0 with ac := 7 } : State).cc = 7 := by decide

theorem witness_SubOrdinalConditional :
    Readable { with2 1 0 with ac := 4 } (.reg 16) (.reg 17) (.reg 18) 1 0 18 := by decide

/-- Overflow with the condition met, masked or not; no condition met. -/
theorem witness_AddIntegerConditional :
    Readable { with2 0x7FFFFFFF 1 with ac := 7 } (.reg 16) (.reg 17) (.reg 18) 0x7FFFFFFF 1 18 ∧
    ¬ fits ((0x7FFFFFFF : Word).toInt + (1 : Word).toInt) ∧
    bit ({ with2 0x7FFFFFFF 1 with ac := 7 } : State).ac 12 = false ∧
    bit ({ with2 0x7FFFFFFF 1 with ac := 0x1007 } : State).ac 12 = true ∧
    ({ with2 0x7FFFFFFF 1 with ac := 7 } : State).cc = 7 ∧ (with2 0x7FFFFFFF 1).cc = 0 ∧
    fits ((0x7FFFFFFE : Word).toInt + (1 : Word).toInt) := by decide

theorem witness_SubIntegerConditional :
    Readable { with2 1 0x80000000 with ac := 7 } (.reg 16) (.reg 17) (.reg 18) 1 0x80000000 18 ∧
    ¬ fits ((0x80000000 : Word).toInt - (1 : Word).toInt) ∧
    bit ({ with2 1 0x80000000 with ac := 7 } : State).ac 12 = false ∧
    fits ((0x80000001 : Word).toInt - (1 : Word).toInt) := by decide

theorem witness_LogicalResults :
    Readable (with2 0xAAAAAAAA 0x0F0F0F0F) (.reg 16) (.reg 17) (.reg 18) 0xAAAAAAAA 0x0F0F0F0F 18 := by
  decide

/-- The scans: no bit, the lowest bit and the highest bit. -/
theorem witness_BitAndScanResults :
    Readable (with2 0 0x80000000) (.reg 16) (.reg 17) (.reg 18) 0 0x80000000 18 ∧
    (31 < 32 ∧ (0x80000000 : Word).getLsbD 31 = true ∧ ∀ j, j < 32 → 31 < j →
      (0x80000000 : Word).getLsbD j = false) ∧
    ((1 : Word).getLsbD 0 = true ∧ ∀ j, j < 32 → 0 < j → (1 : Word).getLsbD j = false) ∧
    ((0xFFFFFFFE : Word).getLsbD 0 = false ∧ ∀ j, j < 32 → 0 < j →
      (0xFFFFFFFE : Word).getLsbD j = true) ∧
    Readable (with2 0xFFFFFFFF 0) (.reg 16) (.reg 17) (.reg 18) 0xFFFFFFFF 0 18 := by decide

theorem witness_FieldAndByteResults :
    Readable (with2 31 2) (.reg 16) (.reg 17) (.reg 18) 31 2 18 ∧
    Readable (with2 32 32) (.reg 16) (.reg 17) (.reg 16) 32 32 16 := by decide

theorem witness_CompareResults :
    ((with2 0xFFFFFFFF 0).te = false ∧ (with2 0xFFFFFFFF 0).src (.reg 16) 30 = some 0xFFFFFFFF ∧
      (with2 0xFFFFFFFF 0).src (.reg 17) 31 = some 0) ∧
    ({ with2 0 0 with ac := 4 } : State).cc.getLsbD 2 = true ∧ (with2 0 0).cc.getLsbD 2 = false := by
  decide

theorem witness_CompareAndStepResults :
    Readable (with2 0 0xFFFFFFFF) (.reg 16) (.reg 17) (.reg 17) 0 0xFFFFFFFF 17 ∧
    Readable (with2 0 0) (.reg 16) (.reg 17) (.reg 18) 0 0 18 := by decide

theorem witness_TestConditionCode : base.te = false ∧ dest (.reg 18) = some 18 := by decide

theorem witness_SelectByConditionCode :
    Readable { with2 5 6 with ac := 2 } (.reg 16) (.reg 17) (.reg 18) 5 6 18 := by decide

/-- Groups of one to four, the highest that exist among the destinations. -/
theorem witness_MoveResults : (with2 1 2).te = false ∧
    ((with2 1 2).srcs (.reg 16) 1 40 = some [1] ∧ dests (.reg 31) 1 = some 31) ∧
    ((with2 1 2).srcs (.reg 16) 2 40 = some [1, 2] ∧ dests (.reg 30) 2 = some 30) ∧
    ((with2 1 2).srcs (.reg 16) 3 40 = some [1, 2, 0] ∧ dests (.reg 28) 3 = some 28) ∧
    ((with2 1 2).srcs (.reg 16) 4 40 = some [1, 2, 0, 0] ∧ dests (.reg 28) 4 = some 28) := by decide

theorem witness_LoadAddressModes : base.te = false ∧ (18 : Reg) ≠ 2 := by decide

/-- `memState` with four words at 100H. -/
def quadState : State :=
  { memState 0 with mem := Memory.writeBytes [] 0x100 ([1, 2, 3, 4].flatMap wordBytes) }

theorem quad_plain (n : Nat) (h : n ≤ 16) : quadState.plain (quadState.efa (.regInd 16)) n 0x100 := by
  have : quadState.plain (quadState.efa (.regInd 16)) 16 0x100 := by unfold State.plain; decide
  exact fun i hi => this i (by omega)

/-- Every width at 100H, aligned. -/
theorem witness_LoadResults : quadState.te = false ∧ quadState.undisturbed ∧
    (quadState.plain (quadState.efa (.regInd 16)) 4 0x100 ∧
      quadState.bytesAt (quadState.efa (.regInd 16)) (wordBytes 1) ∧
      (quadState.efa (.regInd 16)).toNat % 4 = 0 ∧ destGroup 31 1 = some 31) ∧
    (quadState.plain (quadState.efa (.regInd 16)) 1 0x100 ∧
      quadState.bytesAt (quadState.efa (.regInd 16)) [1] ∧
      destGroup 31 1 = some 31) ∧
    (quadState.plain (quadState.efa (.regInd 16)) 2 0x100 ∧
      quadState.bytesAt (quadState.efa (.regInd 16)) [1, 0] ∧
      (quadState.efa (.regInd 16)).toNat % 2 = 0) ∧
    (quadState.plain (quadState.efa (.regInd 16)) 8 0x100 ∧
      quadState.bytesAt (quadState.efa (.regInd 16)) (wordBytes 1 ++ wordBytes 2) ∧
      (quadState.efa (.regInd 16)).toNat % 8 = 0 ∧ destGroup 30 2 = some 30) ∧
    (quadState.plain (quadState.efa (.regInd 16)) 12 0x100 ∧
      quadState.bytesAt (quadState.efa (.regInd 16)) (wordBytes 1 ++ wordBytes 2 ++ wordBytes 3) ∧
      (quadState.efa (.regInd 16)).toNat % 16 = 0 ∧ destGroup 28 3 = some 28) ∧
    (quadState.plain (quadState.efa (.regInd 16)) 16 0x100 ∧
      quadState.bytesAt (quadState.efa (.regInd 16))
        (wordBytes 1 ++ wordBytes 2 ++ wordBytes 3 ++ wordBytes 4) ∧
      (quadState.efa (.regInd 16)).toNat % 16 = 0 ∧ destGroup 28 4 = some 28) :=
  ⟨by decide, undisturbed_of_empty rfl,
    ⟨quad_plain 4 (by decide), by unfold State.bytesAt; decide, by decide, by decide⟩,
    ⟨quad_plain 1 (by decide), by unfold State.bytesAt; decide, by decide⟩,
    ⟨quad_plain 2 (by decide), by unfold State.bytesAt; decide, by decide⟩,
    ⟨quad_plain 8 (by decide), by unfold State.bytesAt; decide, by decide, by decide⟩,
    ⟨quad_plain 12 (by decide), by unfold State.bytesAt; decide, by decide, by decide⟩,
    ⟨quad_plain 16 (by decide), by unfold State.bytesAt; decide, by decide, by decide⟩⟩

theorem quad_mayStore (n : Nat) (h : n ≤ 16) : quadState.mayStore (quadState.efa (.regInd 16)) n := by
  have h1 : ∀ n, n < 17 → quadState.storeTrap (quadState.efa (.regInd 16)) n = none := by decide
  have h2 : quadState.plainW (quadState.efa (.regInd 16)) 16 0x100 := by unfold State.plainW; decide
  exact ⟨h1 n (by omega), 0x100, fun i hi => h2 i (by omega)⟩

theorem witness_StoreResults : quadState.te = false ∧ quadState.undisturbed ∧
    (∀ n, n = 1 ∨ n = 2 ∨ n = 4 ∨ n = 8 ∨ n = 12 ∨ n = 16 →
      quadState.mayStore (quadState.efa (.regInd 16)) n) ∧
    ((quadState.efa (.regInd 16)).toNat % 16 = 0 ∧ (quadState.efa (.regInd 16)).toNat % 8 = 0 ∧
      (quadState.efa (.regInd 16)).toNat % 4 = 0 ∧ (quadState.efa (.regInd 16)).toNat % 2 = 0) ∧
    aligned 31 1 = true ∧ aligned 30 2 = true ∧ aligned 28 3 = true ∧ aligned 28 4 = true :=
  ⟨by decide, undisturbed_of_empty rfl, fun n hn => quad_mayStore n (by omega), by decide, by decide,
    by decide, by decide, by decide⟩

/-- 0 and FFFFFF80H are in range by R295's test of the bits above, 7FFFFFFFH is not; the overflow masked
and not. -/
theorem witness_StoreIntegerResults :
    (quadState.te = false ∧ quadState.undisturbed ∧
      quadState.mayStore (quadState.efa (.regInd 16)) 1 ∧
      quadState.mayStore (quadState.efa (.regInd 16)) 2 ∧
      (quadState.efa (.regInd 16)).toNat % 2 = 0) ∧
    ((quadState.readReg 17 40).toNat / 2 ^ 8 = 0 ∧ (quadState.readReg 17 40).toNat / 2 ^ 16 = 0 ∧
      ({ quadState with g := quadState.g.set 1 0xFFFFFF80 } : State).readReg 17 40 = 0xFFFFFF80 ∧
      (0xFFFFFF80 : Word).toNat / 2 ^ 8 = 2 ^ 24 - 1 ∧ (0xFFFFFF80 : Word).toNat / 2 ^ 16 = 2 ^ 16 - 1) ∧
    (({ quadState with g := quadState.g.set 1 0x7FFFFFFF } : State).readReg 17 40 = 0x7FFFFFFF ∧
      (0x7FFFFFFF : Word).toNat / 2 ^ 8 ≠ 0 ∧ (0x7FFFFFFF : Word).toNat / 2 ^ 8 ≠ 2 ^ 24 - 1 ∧
      (0x7FFFFFFF : Word).toNat / 2 ^ 16 ≠ 0 ∧ (0x7FFFFFFF : Word).toNat / 2 ^ 16 ≠ 2 ^ 16 - 1) ∧
    bit quadState.ac 12 = false ∧ bit ({ quadState with ac := 0x1000 } : State).ac 12 = true :=
  ⟨⟨by decide, undisturbed_of_empty rfl, quad_mayStore 1 (by decide), quad_mayStore 2 (by decide),
    by decide⟩, by decide, by decide, by decide, by decide⟩

/-- Memory at 101H, the fault enabled or not. -/
def oddState (on : Bool) : State :=
  { quadState with g := quadState.g.set 0 0x101, unalignedFault := on, ac := 0x1000 }

theorem odd_plain (n : Nat) (h : n ≤ 16) :
    (oddState true).plain ((oddState true).efa (.regInd 16)) n 0x101 := by
  have : (oddState true).plain ((oddState true).efa (.regInd 16)) 16 0x101 := by
    unfold State.plain; decide
  exact fun i hi => this i (by omega)

theorem odd_mayStore (n : Nat) (h : n ≤ 16) :
    (oddState true).mayStore ((oddState true).efa (.regInd 16)) n := by
  have h1 : ∀ n, n < 17 → (oddState true).storeTrap ((oddState true).efa (.regInd 16)) n = none := by
    decide
  have h2 : (oddState true).plainW ((oddState true).efa (.regInd 16)) 16 0x101 := by
    unfold State.plainW; decide
  exact ⟨h1 n (by omega), 0x101, fun i hi => h2 i (by omega)⟩

theorem witness_UnalignedAccessFaults :
    ((oddState true).undisturbed ∧ (oddState true).unalignedFault = true ∧
      (oddState false).unalignedFault = false ∧ (oddState false).te = false ∧
      bit (oddState false).ac 12 = true) ∧
    (((oddState true).efa (.regInd 16)).toNat % 2 ≠ 0 ∧ ((oddState true).efa (.regInd 16)).toNat % 4 ≠ 0 ∧
      ((oddState true).efa (.regInd 16)).toNat % 8 ≠ 0 ∧
      ((oddState true).efa (.regInd 16)).toNat % 16 ≠ 0) ∧
    (∀ n, n ≤ 16 → (oddState true).plain ((oddState true).efa (.regInd 16)) n 0x101 ∧
      (oddState true).mayStore ((oddState true).efa (.regInd 16)) n) ∧
    (oddState true).bytesAt ((oddState true).efa (.regInd 16))
      ([0, 0, 0, 2, 0, 0, 0, 3, 0, 0, 0, 4, 0, 0, 0] : List Byte) ∧
    (destGroup 31 1 = some 31 ∧ destGroup 30 2 = some 30 ∧ destGroup 28 3 = some 28 ∧
      destGroup 28 4 = some 28) ∧
    (aligned 31 1 = true ∧ aligned 30 2 = true ∧ aligned 28 3 = true ∧ aligned 28 4 = true) :=
  ⟨⟨undisturbed_of_empty rfl, by decide, by decide, by decide, by decide⟩, by decide,
    fun n h => ⟨odd_plain n h, odd_mayStore n h⟩, by unfold State.bytesAt; decide, by decide, by decide⟩

/-- The last protected byte of the vectors in both modes, the first and the last of the rest, the
first of core MMR space, and one off a word boundary. -/
theorem witness_StoreProtection :
    ((base.efa (.absOff 0x3F)).toNat < 0x40 ∧ ({ base with pc := 0 } : State).supervisor = false ∧
      bit ({ base with bus := { base.bus with bcon := 4 } } : State).bus.bcon 2 = true) ∧
    (0x40 ≤ (base.efa (.absOff 0x40)).toNat ∧ (base.efa (.absOff 0x3FF)).toNat < 0x400 ∧
      bit ({ base with bus := { base.bus with bcon := 2 } } : State).bus.bcon 1 = true) ∧
    (0xFF000000 ≤ (base.efa (.absDisp 0xFF000000)).toNat ∧
      (base.efa (.absDisp 0xFF000301)).toNat % 4 ≠ 0) := by decide

/-- The first and the last register of each kind; the values ICON, PMCON and TMR0 take; user mode. -/
theorem witness_MmrAccess :
    (base.te = false ∧ (18 : Reg) ≠ 2 ∧ base.supervisor = true ∧ base.coreGranted = true ∧
      ({ base with pc := 0 } : State).supervisor = false) ∧
    (base.efa (.absDisp 0xFF000300) = 0xFF000300 ∧ base.efa (.absDisp 0xFF008708) = 0xFF008708 ∧
      base.efa (.absDisp 0x1200) = 0x1200 ∧ base.efa (.absDisp 0x1690) = 0x1690 ∧
      base.efa (.absDisp 0xFF000308) = 0xFF000308 ∧ base.efa (.absDisp 0xFF008440) = 0xFF008440) ∧
    (({ base with timer0 := { base.timer0 with tmr := 7 } } : State).timer0.tmr &&& 6 = 6 ∧
      base.timer0.tmr &&& 6 ≠ 6) ∧
    (base.dbg.rights = false ∧
      ({ base with dbg := { base.dbg with rights := true } } : State).dbg.rights = true) ∧
    (bit (0x4400 : Word) 14 = true ∧ (0x4400 : Word) &&& 0x3FF = 0) ∧
    ((0x00800000 : Word).toNat / 2 ^ 22 % 4 ≠ 3 ∧
      base.efa (.absDisp 0xFF008638) = 0xFF008600 + BitVec.ofNat 32 (8 * 7)) ∧
    (0xFF008000 ≤ (base.efa (.absDisp 0xFF008000)).toNat ∧
      (base.efa (.absDisp 0xFF008000)).toNat % 4 = 0) ∧
    ({ base with pc := 0, timer0 := { base.timer0 with tmr := 8 } } : State).timer0.tmr.getLsbD 3 =
      true := by decide

theorem witness_BranchResults : base.te = false ∧ (18 : Reg) ≠ 2 := by decide

theorem witness_BranchByConditionCode : ({ base with ac := 7 } : State).te = false := by decide

theorem witness_CheckBitBranch :
    (with2 0 0x80000000).te = false ∧ (with2 0 0x80000000).cobrReg (.reg 17) 31 = some 0x80000000 := by
  decide

theorem witness_CompareAndBranch :
    (with2 0x7FFFFFFF 0x80000000).te = false ∧
    (with2 0x7FFFFFFF 0x80000000).cobrReg (.reg 17) 31 = some 0x80000000 := by decide

/-- Eight sets, one set with a limit of 7, and neither: six cached, the limit at priority 28. -/
def fullState (n limit : Nat) (pc : Word) : State :=
  { callState with
    pc := pc, rcLimit := BitVec.ofNat 3 limit, frameAddr := 0xA000
    rc := List.replicate n { addr := 0x9000, regs := callState.r } }

theorem full_mayStore (a : Word) (h : a = 0x9000 ∨ a = 0x9010 ∨ a = 0x9020 ∨ a = 0x9030) :
    (fullState 7 0 2).mayStore a 16 := by
  rcases h with rfl | rfl | rfl | rfl
  · exact ⟨by decide, 0x9000, by unfold State.plainW; decide⟩
  · exact ⟨by decide, 0x9010, by unfold State.plainW; decide⟩
  · exact ⟨by decide, 0x9020, by unfold State.plainW; decide⟩
  · exact ⟨by decide, 0x9030, by unfold State.plainW; decide⟩

theorem witness_CallResults :
    (callState.te = false ∧ callState.rc = [] ∧ (fullState 7 0 2).fp = (fullState 7 0 2).frameAddr) ∧
    ((fullState 6 0 2).rc.length + 1 ≠ 8 ∧
      ¬ 8 - (fullState 6 0 2).rcLimit.toNat ≤ (fullState 6 0 2).rc.length + 1) ∧
    ((fullState 1 7 0x001C2002).pc.getLsbD 13 = true ∧
      28 ≤ (fullState 1 7 0x001C2002).pc.toNat / 2 ^ 16 % 32) ∧
    ((fullState 7 0 2).rc.length + 1 = 8 ∧
      8 - (fullState 0 7 2).rcLimit.toNat ≤ (fullState 0 7 2).rc.length + 1) ∧
    ((fullState 7 0 2).undisturbed ∧ (fullState 7 0 2).mayStore 0x9000 16 ∧
      (fullState 7 0 2).mayStore (0x9000 + 16) 16 ∧ (fullState 7 0 2).mayStore (0x9000 + 32) 16 ∧
      (fullState 7 0 2).mayStore (0x9000 + 48) 16) ∧
    ∀ f : Frame, (f :: (fullState 7 0 2).rc).getLast? = some { addr := 0x9000, regs := callState.r } :=
  ⟨⟨by decide, by decide, by decide⟩, by decide, by decide, by decide,
    ⟨undisturbed_of_empty rfl, full_mayStore _ (by decide), full_mayStore _ (by decide),
      full_mayStore _ (by decide), full_mayStore _ (by decide)⟩, fun _ => rfl⟩

/-- A state with a system procedure table: entry 259 local, entry 0 a supervisor procedure. -/
def tableState (pc : Word) : State :=
  { callState with
    pc := pc, ssp := 0xC000, sptBase := 0x3000, frameAddr := 0xA000
    mem := words [(0x3030, 0x9002), (0x343C, 0x9100)] }

/-- `tableState` in user mode with tracing on after a call, and with seven sets cached. -/
def tracedTable : State := { tableState 1 with sspTe := true }

def fullTable : State :=
  { tableState 0 with rc := List.replicate 7 { addr := 0x9000, regs := callState.r } }

/-- R539: the mode is supervisor before the push, so a spill to user-protected data RAM is stored. -/
theorem test_calls_spill : after (.calls (.lit 0))
    { fullTable with
      bus := { base.bus with bcon := 2 }, rc := List.replicate 7 { addr := 0x100, regs := callState.r } }
    (fun t => (t.ip, t.pc, t.rc.length, Memory.get t.mem 0x104)) = some (0x9000, 2, 7, some 0x5C) := by
  decide

theorem fullTable_storable (pc a : Word)
    (h : pc = 0 ∨ pc = setBit (setBit (0 : Word) 1 true) 0 false)
    (ha : a = 0x9000 ∨ a = 0x9010 ∨ a = 0x9020 ∨ a = 0x9030) : (fullTable.setPc pc).mayStore a 16 := by
  have h1 : ∀ pc : Word, pc = 0 ∨ pc = setBit (setBit (0 : Word) 1 true) 0 false →
      ∀ a : Word, a = 0x9000 ∨ a = 0x9010 ∨ a = 0x9020 ∨ a = 0x9030 →
      (fullTable.setPc pc).storeTrap a 16 = none := by
    rintro _ (rfl | rfl) _ (rfl | rfl | rfl | rfl) <;> decide
  obtain ⟨-, k, hk⟩ := full_mayStore a ha
  exact ⟨h1 pc h a ha, k, hk⟩

/-- A local entry from user mode, any entry from supervisor mode, a supervisor entry with tracing off
or on after it; a push that fits and one that spills, in each mode. -/
theorem witness_SystemCallResults :
    ((tableState 2).src (.lit 31) 30 = some 31 ∧
      ({ tableState 2 with g := callState.g.set 0 260 } : State).src (.reg 16) 30 = some 260 ∧
      259 < (260 : Word).toNat) ∧
    ((tableState 0).undisturbed ∧ (259 : Word).toNat ≤ 259 ∧
      (tableState 0).holds ((tableState 0).sptBase + 48 + 4 * 259) 0x9100 ∧
      (0x9100 : Word) &&& 3 = 0 ∧ bit (tableState 0).pc 0 = false ∧
      (tableState 0).canPush (tableState 0).pc) ∧
    ((tableState 0).holds ((tableState 0).sptBase + 48 + 4 * 0) 0x9002 ∧ (0x9002 : Word) &&& 3 = 2 ∧
      (tableState 0).supervisor = false ∧ (tableState 2).supervisor = true) ∧
    (bit (setBit (setBit (tableState 0).pc 1 true) 0 (tableState 0).sspTe) 0 = false ∧
      (tableState 0).canPush (setBit (setBit (tableState 0).pc 1 true) 0 (tableState 0).sspTe)) ∧
    ((tracedTable.te = true ∧ tracedTable.supervisor = false ∧ tracedTable.sspTe = true ∧
        tracedTable.tc &&& 0xFE = 0 ∧ tracedTable.dbg.ipb0 = 0 ∧ tracedTable.dbg.ipb1 = 0 ∧
        tracedTable.dbg.bpcon = 0) ∧
      tracedTable.canPush (setBit (setBit tracedTable.pc 1 true) 0 tracedTable.sspTe)) ∧
    (fullTable.fp = fullTable.frameAddr ∧ ¬ fullTable.canPush fullTable.pc ∧
      ¬ fullTable.canPush (setBit (setBit fullTable.pc 1 true) 0 fullTable.sspTe) ∧
      (∀ f : Frame, (f :: fullTable.rc).getLast? = some { addr := 0x9000, regs := callState.r }) ∧
      (fullTable.setPc fullTable.pc).mayStore 0x9000 16 ∧
      (fullTable.setPc (setBit (setBit fullTable.pc 1 true) 0 fullTable.sspTe)).mayStore (0x9000 + 48)
        16) :=
  ⟨by decide, ⟨undisturbed_of_empty rfl, by decide,
    ⟨0x343C, by unfold State.plain; decide, by decide⟩, by decide, by decide,
    by unfold State.canPush; decide⟩,
    ⟨⟨0x3030, by unfold State.plain; decide, by decide⟩, by decide, by decide, by decide⟩,
    ⟨by decide, by unfold State.canPush; decide⟩, ⟨by decide, by unfold State.canPush; decide⟩,
    by decide, by unfold State.canPush; decide, by unfold State.canPush; decide, fun _ => rfl,
    fullTable_storable _ _ (Or.inl rfl) (by decide), fullTable_storable _ _ (Or.inr rfl) (by decide)⟩

/-- A state just called: one frame cached, PFP its address and the return type. -/
def calledState (rrr pc : Word) : State :=
  { callState with
    pc := pc, r := (callState.r.set 0 (0x9000 ||| rrr)).set 1 0xA0A0, frameAddr := 0xA000
    rc := [{ addr := 0x9000, regs := callState.r.set 2 0x8004 }]
    mem := words [(0x9FF0, 0x001F2002), (0x9FF4, 0x1002), (0x9FF8, 0x00030002)] }

/-- The newest cached frame of `calledState`. -/
def callerFrame : Frame := { addr := 0x9000, regs := callState.r.set 2 0x8004 }

theorem witness_ReturnResults :
    ((calledState 0 2).te = false ∧ (calledState 0 2).undisturbed ∧ (calledState 0 2).returnsTo callerFrame [] ∧
      (calledState 0 2).pfp &&& 7 = 0) ∧
    ((List.replicate 16 (0 : Word)).length = 16 ∧
      ({ calledState 0 2 with rc := [], mem := words ((List.range 16).map fun i => (0x9000 + 4 * i, 0)) } :
        State).plain 0x9000 64 0x9000 ∧
      ({ calledState 0 2 with rc := [], mem := words ((List.range 16).map fun i => (0x9000 + 4 * i, 0)) } :
        State).bytesAt 0x9000 ((List.replicate 16 (0 : Word)).flatMap wordBytes)) ∧
    ((calledState 2 2).returnsTo callerFrame [] ∧ (calledState 2 2).pfp &&& 7 = 2 ∧
      (calledState 2 2).supervisor = true) ∧
    ((calledState 3 2).returnsTo callerFrame [] ∧ (calledState 3 2).pfp &&& 7 = 3 ∧
      (calledState 3 2).tc &&& 0xFE = 0 ∧ (calledState 3 2).dbg.ipb0 = 0 ∧
      (calledState 3 2).dbg.ipb1 = 0 ∧ (calledState 3 2).dbg.bpcon = 0) ∧
    ((calledState 2 0).returnsTo callerFrame [] ∧ (calledState 3 0).returnsTo callerFrame [] ∧
      (calledState 3 0).pfp &&& 7 = 3 ∧ (calledState 3 0).supervisor = false) :=
  ⟨⟨by decide, undisturbed_of_empty rfl, by unfold State.returnsTo; decide, by decide⟩,
    ⟨by decide, by unfold State.plain; decide, by unfold State.bytesAt; decide⟩,
    by unfold State.returnsTo; decide, by unfold State.returnsTo; decide,
    by unfold State.returnsTo; decide⟩

theorem witness_CallThenReturnRestores : callState.Legal ∧ callState.te = false ∧
    callState.canPush callState.pc ∧ callState.fp &&& 15 = 0 ∧
    (after (.call 0x40) callState fun _ => true) = some true := by
  refine ⟨?_, by decide, by unfold State.canPush; decide, by decide, by decide⟩
  constructor
  · decide
  · decide
  · decide
  · decide
  · decide
  · decide
  · intro e h; cases h

/-- Two cached frames, next to each other. -/
def twoFrames : State :=
  { callState with
    rc := [{ addr := 0x9040, regs := callState.r }, { addr := 0x9000, regs := callState.r }] }

/-- The quad words of the two save areas, in the order flushed. -/
def quadAt (j : Nat) : Word := [(0x9040 : Word), 0x9050, 0x9060, 0x9070, 0x9000, 0x9010, 0x9020, 0x9030].getD j 0

theorem quad (j : Nat) (h : j < 8) : twoFrames.mayStore (quadAt j) 16 := by
  have h1 : ∀ j, j < 8 → twoFrames.storeTrap (quadAt j) 16 = none := by decide
  have h2 : ∀ i, i < 16 → ∀ j, j < 8 →
      twoFrames.cellW (quadAt j + BitVec.ofNat 32 i) = some ((quadAt j).toNat + i) := by decide
  exact ⟨h1 j h, (quadAt j).toNat, fun i hi => h2 i hi j h⟩

theorem witness_FlushRegisters : twoFrames.te = false ∧
    twoFrames.undisturbed ∧
    (∀ e, e ∈ twoFrames.rc → twoFrames.mayStore e.addr 16 ∧ twoFrames.mayStore (e.addr + 16) 16 ∧
      twoFrames.mayStore (e.addr + 32) 16 ∧ twoFrames.mayStore (e.addr + 48) 16) ∧
    twoFrames.rc.Pairwise (fun e f => ∀ i, i < 64 → outside e.addr 64 (f.addr + BitVec.ofNat 32 i)) := by
  refine ⟨by decide, undisturbed_of_empty rfl, ?_, ?_⟩
  · intro e he
    rcases List.mem_cons.1 he with rfl | he
    · exact ⟨quad 0 (by decide), quad 1 (by decide), quad 2 (by decide), quad 3 (by decide)⟩
    · rcases List.mem_cons.1 he with rfl | he
      · exact ⟨quad 4 (by decide), quad 5 (by decide), quad 6 (by decide), quad 7 (by decide)⟩
      · cases he
  · unfold outside
    refine List.Pairwise.cons ?_ (List.Pairwise.cons (fun a h => by cases h) List.Pairwise.nil)
    intro f hf i hi j hj
    rcases List.mem_cons.1 hf with rfl | hf
    · show (0x9000 : Word) + BitVec.ofNat 32 i ≠ 0x9040 + BitVec.ofNat 32 j
      intro e
      have := congrArg BitVec.toNat e
      rw [BitVec.toNat_add, BitVec.toNat_add, BitVec.toNat_ofNat, BitVec.toNat_ofNat,
        Nat.mod_eq_of_lt (show i < 2 ^ 32 by omega), Nat.mod_eq_of_lt (show j < 2 ^ 32 by omega)] at this
      have h1 : (0x9000 : Word).toNat = 0x9000 := rfl
      have h2 : (0x9040 : Word).toNat = 0x9040 := rfl
      omega
    · cases hf

theorem witness_FaultByConditionCode : base.te = false ∧ base.cc = 0 ∧
    ({ base with ac := 7 } : State).cc = 7 := by decide

/-- Tracing on with no mode, and with mark mode. -/
theorem witness_SyncAndMarks : base.te = false ∧
    (({ base with pc := 3 } : State).te = true ∧ base.dbg.ipb0 = 0 ∧ base.dbg.ipb1 = 0 ∧
      base.dbg.bpcon = 0 ∧ base.tc &&& 0xFE = 0 ∧ ({ base with tc := 0x80 } : State).tc &&& 0xFE = 0x80) := by
  decide

theorem witness_ModifyTraceControls :
    Readable { with2 (-1) 0x82 with tc := 0x0F0000FE } (.reg 16) (.reg 17) (.reg 18) (-1) 0x82 18 ∧
    ({ with2 (-1) 0x82 with tc := 0x0F0000FE } : State).tc &&& ~~~0x0F0000FE = 0 := by decide

/-- A word of external memory at 2000H, its address given with low bits. -/
def atomicState : State := { with2 0x2003 0xFF with mem := words [(0x2000, 0x12345678)] }

theorem witness_AtomicResults :
    Readable atomicState (.reg 16) (.reg 17) (.reg 18) 0x2003 0xFF 18 ∧ atomicState.coreGranted = true ∧
    atomicState.holds ((0x2003 : Word) &&& 0xFFFFFFFC) 0x12345678 ∧
    atomicState.mayStore ((0x2003 : Word) &&& 0xFFFFFFFC) 4 :=
  ⟨by decide, by decide, ⟨0x2000, by unfold State.plain; decide, by decide⟩,
    ⟨by decide, 0x2000, by unfold State.plainW; decide⟩⟩

theorem witness_ModifyControls :
    Readable (with2 0xFFFFFFFF 0) (.reg 16) (.reg 17) (.reg 18) 0xFFFFFFFF 0 18 ∧
    ((with2 0 0xFFFFFFFE).src (.reg 17) 31 = some 0xFFFFFFFE ∧ (0xFFFFFFFE : Word) ≠ 0 ∧
      (with2 0 0xFFFFFFFE).supervisor = true ∧
      bit (((with2 0 0xFFFFFFFE).reg 18 &&& 0xFFFFFFFE) ||| ((with2 0 0xFFFFFFFE).pc &&& ~~~0xFFFFFFFE)) 0
        = false) := by decide

theorem witness_InterruptEnables : base.supervisor = true ∧ base.te = false ∧
    base.src (.lit 0) 30 = some 0 ∧ base.src (.lit 2) 30 = some 2 ∧ (2 : Word).toNat ≤ 2 ∧
    base.src (.lit 3) 30 = some 3 ∧ 2 < (3 : Word).toNat ∧ dest (.reg 18) = some 18 := by decide

/-- Only the low byte of src1 selects the function. -/
theorem witness_CacheControls : base.te = false ∧ base.supervisor = true ∧ dest (.reg 18) = some 18 ∧
    (with2 0xFFFFFF00 0).src (.reg 16) 30 = some 0xFFFFFF00 ∧ (0xFFFFFF00 : Word).toNat % 256 = 0 ∧
    base.src (.lit 1) 30 = some 1 ∧ (1 : Word).toNat % 256 = 1 ∧
    base.src (.lit 2) 30 = some 2 ∧ (2 : Word).toNat % 256 = 2 ∧
    base.src (.lit 3) 30 = some 3 ∧ (3 : Word).toNat % 256 = 3 ∧
    base.src (.lit 4) 30 = some 4 ∧ (4 : Word).toNat % 256 = 4 ∧
    base.src (.lit 5) 30 = some 5 ∧ (5 : Word).toNat % 256 = 5 ∧
    base.src (.lit 7) 30 = some 7 ∧ (7 : Word).toNat % 256 = 7 := by decide

/-- The interrupt table at 5000H. -/
def postState (a : Word) : State :=
  { with2 a 0 with intBase := 0x5000, mem := words ((List.range 9).map fun i => (0x5000 + 4 * i, 0)) }

theorem post_plain : (postState 8).plainW 0x5000 36 0x5000 := by
  have h1 : ∀ i, i < 12 → (postState 8).cellW (0x5000 + BitVec.ofNat 32 i) = some (0x5000 + i) := by
    decide
  have h2 : ∀ i, i < 12 →
      (postState 8).cellW (0x5000 + BitVec.ofNat 32 (12 + i)) = some (0x5000 + (12 + i)) := by decide
  have h3 : ∀ i, i < 12 →
      (postState 8).cellW (0x5000 + BitVec.ofNat 32 (24 + i)) = some (0x5000 + (24 + i)) := by decide
  intro i hi
  by_cases a : i < 12
  · exact h1 i a
  · by_cases b : i < 24
    · have := h2 (i - 12) (by omega)
      rwa [show 12 + (i - 12) = i by omega] at this
    · have := h3 (i - 24) (by omega)
      rwa [show 24 + (i - 24) = i by omega] at this

/-- Each message; the vectors 7 (posts nothing), 8, 243, 252 and 255. -/
theorem witness_SystemControlMessages :
    (Readable (with2 0x100 0) (.reg 16) (.reg 17) (.reg 18) 0x100 0 18 ∧ base.supervisor = true ∧
      (0x100 : Word).toNat / 256 % 256 = 1) ∧
    ((0x600 : Word).toNat / 256 % 256 = 6 ∧ base.board.emulator = false) ∧
    ((0x85100500 : Word).toNat / 256 % 256 = 5 ∧ (0x85100500 : Word).toNat / 65536 = 0x8510 ∧
      (with2 0x85100500 0).reg 18 = 0) ∧
    (0x400 : Word).toNat / 256 % 256 = 4 ∧
    (((0x201 : Word).toNat / 256 % 256 = 2 ∧ (0x201 : Word).toNat % 2 = 1) ∧
      (0x200 : Word).toNat % 256 = 0 ∧ (0x204 : Word).toNat % 256 = 4 ∧ (0x206 : Word).toNat % 256 = 6 ∧
      ((0x202 : Word).toNat % 2 = 0 ∧ (0x202 : Word).toNat % 256 ≠ 0 ∧ (0x202 : Word).toNat % 256 ≠ 4 ∧
        (0x202 : Word).toNat % 256 ≠ 6)) ∧
    ((7 : Word).toNat / 256 % 256 = 0 ∧ (7 : Word).toNat % 256 < 8 ∧ (postState 8).undisturbed ∧
      (postState 8).plainW 0x5000 4 0x5000) ∧
    ((∀ v, v = 8 ∨ v = 243 ∨ v = 252 ∨ v = 255 → v / 8 < 32 ∧ 8 ≤ v ∧ (v ≤ 243 ∨ 252 ≤ v)) ∧
      (postState 8).plainW 0x5000 36 0x5000 ∧ (postState 8).storeTrap 0x5000 4 = none ∧
      ((postState 8).storeTrap (0x5000 + 4 + BitVec.ofNat 32 1) 1 = none ∧
        (postState 8).peek (0x5000 + 4 + BitVec.ofNat 32 1) = some 0 ∧
        (postState 255).storeTrap (0x5000 + 4 + BitVec.ofNat 32 31) 1 = none ∧
        (postState 255).peek (0x5000 + 4 + BitVec.ofNat 32 31) = some 0) ∧
      (postState 8).bytesAt 0x5000 (wordBytes 0)) :=
  ⟨by decide, by decide, by decide, by decide, by decide,
    ⟨by decide, by decide, undisturbed_of_empty rfl, fun i hi => post_plain i (by omega)⟩,
    ⟨fun v hv => by omega, post_plain, by decide, by decide,
      by unfold State.bytesAt; decide⟩⟩

theorem witness_PrivilegedInstructions :
    ({ with2 1 1 with pc := 0 } : State).supervisor = false ∧
    Readable { with2 1 1 with pc := 0 } (.reg 16) (.reg 17) (.reg 18) 1 1 18 ∧ (1 : Word) ≠ 0 := by decide

/-- Ill-formed terms of each format, and the forms checked later. -/
theorem witness_IllFormedOperandsFault :
    (operandsFirst (.addo (.sfr false 3) (.lit 1) (.reg 18)) = true ∧
      (Instr.addo (.sfr false 3) (.lit 1) (.reg 18)).wellFormed = false) ∧
    (operandsFirst (.bbc (.reg 3) (.sfr 4) 0) = true ∧
      (Instr.bbc (.reg 3) (.sfr 4) 0).wellFormed = false) ∧
    (operandsFirst (.ldq (.absDisp 0) 6) = true ∧ (Instr.ldq (.absDisp 0) 6).wellFormed = false) ∧
    (aligned 5 2 = false ∧ (with2 0x100 0).storeTrap ((with2 0x100 0).efa (.regInd 16)) 8 = none) ∧
    (aligned 30 3 = false ∧ (with2 0x100 0).storeTrap ((with2 0x100 0).efa (.regInd 16)) 12 = none) ∧
    (aligned 30 4 = false ∧ (with2 0x100 0).storeTrap ((with2 0x100 0).efa (.regInd 16)) 16 = none) ∧
    Src.ok (.sfr true 0) = false := by decide

/-- R785: ZERO_DIVIDE and PROTECTION.LENGTH through local handlers. -/
def r785Length : State := { r785 with mem := words [(0x4018, 0x9000), (0x4038, 0x9000)] }

theorem witness_FaultThroughLocalHandler :
    r785Length.te = false ∧
    r785Length.undisturbed ∧
    r785Length.holds (r785Length.faultBase + BitVec.ofNat 32 (8 * Trap.zeroDivide.code.1)) 0x9000 ∧
    r785Length.holds (r785Length.faultBase + BitVec.ofNat 32 (8 * Trap.length.code.1)) 0x9000 ∧
    (0x9000 : Word) &&& 3 = 0 ∧ r785Length.canPush r785Length.pc ∧
    r785Length.mayRecord (((r785Length.sp + 15) &&& 0xFFFFFFF0) + 80) 64 :=
  ⟨by decide, undisturbed_of_empty rfl, ⟨0x4018, by unfold State.plain; decide, by decide⟩,
    ⟨0x4038, by unfold State.plain; decide, by decide⟩, by decide, by unfold State.canPush; decide,
    ⟨0xA060, by unfold State.plainW; decide⟩, by decide⟩

/-- Fault entry 10 names system procedure 259 of supervisor type, entry 2 procedure 0, which is local. -/
def procFault (pc : Word) (te : Bool) : State :=
  { callState with
    pc := pc, ssp := 0xC000, sspTe := te, faultBase := 0x4000, sptBase := 0x3000
    mem := words [(0x3030, 0x9000), (0x343C, 0x9002), (0x4010, 2), (0x4050, 0x40E), (0x4054, 0x27F)] }

/-- From user and from supervisor mode, the trace bit 0 and 1, a procedure of supervisor type and a
local one (an unaligned access). -/
theorem witness_FaultThroughSupervisorHandler :
    ((procFault 0 false).te = false ∧ (procFault 0 false).undisturbed ∧
      (procFault 0 false).supervisor = false ∧ (procFault 2 true).supervisor = true) ∧
    ((procFault 0 false).holds ((procFault 0 false).faultBase +
        BitVec.ofNat 32 (8 * Trap.mismatch.code.1)) 0x40E ∧
      (0x40E : Word) &&& 3 = 2 ∧ (0x40E : Word).toNat / 4 ≤ 259 ∧
      (procFault 0 false).holds ((procFault 0 false).sptBase + 48 +
        BitVec.ofNat 32 (4 * ((0x40E : Word).toNat / 4))) 0x9002 ∧ (0x9002 : Word) &&& 3 = 2) ∧
    ((procFault 0 false).holds ((procFault 0 false).faultBase +
        BitVec.ofNat 32 (8 * (Trap.unaligned 1).code.1)) 2 ∧ (2 : Word) &&& 3 = 2 ∧
      (procFault 0 false).holds ((procFault 0 false).sptBase + 48 +
        BitVec.ofNat 32 (4 * ((2 : Word).toNat / 4))) 0x9000 ∧ (0x9000 : Word) &&& 3 = 0) ∧
    (bit (setBit (setBit (procFault 0 false).pc 1 true) 0 (procFault 0 false).sspTe) 0 = false ∧
      ((procFault 2 true).tc &&& 0xFE = 0 ∧ (procFault 2 true).dbg.ipb0 = 0 ∧
        (procFault 2 true).dbg.ipb1 = 0 ∧ (procFault 2 true).dbg.bpcon = 0)) ∧
    ((procFault 0 false).canPush (setBit (setBit (procFault 0 false).pc 1 true) 0 false &&& pcMask) ∧
      (procFault 2 true).canPush (setBit (setBit (procFault 2 true).pc 1 true) 0 true &&& pcMask) ∧
      (procFault 0 false).canPush ((procFault 0 false).pc &&& pcMask)) ∧
    (((procFault 0 false).setPc (setBit (setBit (procFault 0 false).pc 1 true) 0 false)).mayRecord
        ((((procFault 0 false).ssp + 15) &&& 0xFFFFFFF0) + 80) 64 ∧
      ((procFault 0 false).setPc (procFault 0 false).pc).mayRecord
        ((((procFault 0 false).sp + 15) &&& 0xFFFFFFF0) + 80) 64) :=
  ⟨⟨by decide, undisturbed_of_empty rfl, by decide, by decide⟩,
    ⟨⟨0x4050, by unfold State.plain; decide, by decide⟩, by decide, by decide,
      ⟨0x343C, by unfold State.plain; decide, by decide⟩, by decide⟩,
    ⟨⟨0x4010, by unfold State.plain; decide, by decide⟩, by decide,
      ⟨0x3030, by unfold State.plain; decide, by decide⟩, by decide⟩,
    by decide, by unfold State.canPush; decide,
    ⟨⟨0xC010, by unfold State.plainW; decide⟩, by decide⟩,
    ⟨⟨0xA070, by unfold State.plainW; decide⟩, by decide⟩⟩

/-- Fault table entry 1 names system procedure 259, a supervisor procedure. -/
def traceState (pc : Word) : State :=
  { callState with
    pc := pc, tc := 2, ssp := 0xC000, faultBase := 0x4000, sptBase := 0x3000
    mem := words [(0x343C, 0x9002), (0x4008, 0x40E)] }

/-- BRANCH and CALL mode; RETURN mode, with SUPERVISOR mode, PRERETURN mode. -/
theorem witness_TraceFaultEntry_events :
    (({ callState with pc := 3, tc := 4 } : State).te = true ∧
      ({ callState with pc := 3, tc := 4 } : State).tc &&& 0xFE = 4 ∧
      ({ callState with pc := 3, tc := 8 } : State).tc &&& 0xFE = 8 ∧ (18 : Reg) ≠ 2 ∧
      ({ callState with pc := 3, tc := 8, ac := 2 } : State).cc.getLsbD 1 = true) ∧
    ({ callState with pc := 3, tc := 8 } : State).canPush 3 ∧
    (({ calledState 0 3 with tc := 0x10 } : State).tc &&& 0xFE = 0x10 ∧
      ({ calledState 0 3 with tc := 0x10 } : State).te = true ∧
      ({ calledState 0 3 with tc := 0x10 } : State).returnsTo callerFrame [] ∧
      ({ calledState 0 3 with tc := 0x10 } : State).pfp &&& 7 = 0) ∧
    (({ calledState 3 2 with tc := 0x50 } : State).tc &&& 0xFE = 0x50 ∧
      ({ calledState 3 2 with tc := 0x50 } : State).supervisor = true ∧
      ({ calledState 3 2 with tc := 0x50 } : State).returnsTo callerFrame [] ∧
      ({ calledState 3 2 with tc := 0x50 } : State).pfp &&& 7 = 3) ∧
    (({ tracedTable with tc := 0x48 } : State).tc &&& 0xFE = 0x48 ∧ tracedTable.src (.lit 0) 30 = some 0 ∧
      ({ tracedTable with tc := 0x48 } : State).undisturbed ∧
      ({ tracedTable with tc := 0x48 } : State).holds (tracedTable.sptBase + 48 + 4 * 0) 0x9002 ∧
      ({ tracedTable with tc := 0x48 } : State).canPush (setBit (setBit tracedTable.pc 1 true) 0 true)) ∧
    (({ calledState 8 3 with tc := 0x20 } : State).tc.getLsbD 5 = true ∧
      (calledState 8 3).pfp.getLsbD 3 = true) :=
  ⟨by decide, by unfold State.canPush; decide, by unfold State.returnsTo; decide,
    by unfold State.returnsTo; decide,
    ⟨by decide, by decide, undisturbed_of_empty rfl, ⟨0x3030, by unfold State.plain; decide, by decide⟩,
      by unfold State.canPush; decide⟩, by decide⟩

/-- INSTRUCTION mode or none for the first part; user and supervisor mode for the last. -/
theorem witness_TraceFaultEntry :
    ((({ with2 1 2 with pc := 3, tc := 2 } : State).te = true ∧
        ({ with2 1 2 with pc := 3, tc := 2 } : State).src (.reg 16) 30 = some 1 ∧
        ({ with2 1 2 with pc := 3, tc := 2 } : State).src (.reg 17) 31 = some 2 ∧
        dest (.reg 18) = some 18) ∧
      (base.dbg.ipb0 = 0 ∧ base.dbg.ipb1 = 0 ∧ base.dbg.bpcon = 0) ∧
      ({ with2 1 2 with pc := 3, tc := 2 } : State).tc &&& 0xFE = 2 ∧
      ({ with2 1 2 with pc := 3 } : State).tc &&& 0xFE = 0) ∧
    ((traceState 1).Legal ∧ (traceState 1).undisturbed) ∧
    ((0x0F000000 : Word) &&& ~~~0x0F000000 = 0 ∧
      (traceState 1).holds ((traceState 1).faultBase + 8) 0x40E ∧
      ((0x40E : Word) &&& 3 = 2 ∧ (0x40E : Word).toNat / 4 ≤ 259) ∧
      (traceState 1).holds ((traceState 1).sptBase + 48 + BitVec.ofNat 32 (4 * ((0x40E : Word).toNat / 4)))
        0x9002 ∧
      (0x9002 : Word) &&& 3 = 2) ∧
    (((0xC000 : Word) = if (traceState 1).supervisor = true then (traceState 1).sp else (traceState 1).ssp) ∧
      ((0xA05C : Word) = if (traceState 3).supervisor = true then (traceState 3).sp else (traceState 3).ssp) ∧
      (traceState 1).canPush (setBit (setBit (setBit (traceState 1).pc 10 false) 1 true) 0 false) ∧
      ((traceState 1).setPc (setBit (traceState 1).pc 1 true)).mayRecord
        ((((0xC000 : Word) + 15) &&& 0xFFFFFFF0) + 80) 64 ∧
      ((traceState 3).setPc (setBit (traceState 3).pc 1 true)).mayRecord
        ((((0xA05C : Word) + 15) &&& 0xFFFFFFF0) + 80) 64) :=
  ⟨by decide,
    ⟨⟨by decide, by decide, by decide, by decide, by decide, by decide, fun _ h => (by cases h)⟩,
      undisturbed_of_empty rfl⟩,
    ⟨by decide, ⟨0x4008, by unfold State.plain; decide, by decide⟩, by decide,
      ⟨0x343C, by unfold State.plain; decide, by decide⟩, by decide⟩,
    ⟨by decide, by decide, by unfold State.canPush; decide,
      ⟨⟨0xC010, by unfold State.plainW; decide⟩, by decide⟩,
      ⟨⟨0xA070, by unfold State.plainW; decide⟩, by decide⟩⟩⟩

/-- An NMI from a program (PC.s = 0) and from an interrupt handler. -/
def nmiState (pc : Word) : State :=
  { callState with
    pc := pc, isp := 0xB000, intc := { base.intc with nmiPending := true }, mem := words [(0, 0x9000)] }

/-- One source pending, of priority 2, each IMAP field 1. -/
def hwAt (i : Nat) : State :=
  { callState with
    intc := { base.intc with
      icon := 0x4000, imap0 := 0x1111, imap1 := 0x1111, imap2 := 0x00110000
      ipnd := BitVec.ofNat 32 (2 ^ i), imsk := BitVec.ofNat 32 (2 ^ i) } }

/-- Vector 8, the lowest, alone in the table. -/
def swLow : State :=
  { swState with
    intc := { base.intc with swPrio := 1 }, mem := words [(0x5000, 2), (0x5004, 0x100), (0x5024, 0x9000)] }

/-- NMI from a program and from a handler; the sources 0, 7, 12 and 13, source 0 in full; the software
vectors 255 and 8. -/
theorem witness_InterruptDelivery :
    ((nmiState 2).undisturbed ∧
      (0xB000 : Word) = (if bit (nmiState 2).pc 13 = true then (nmiState 2).sp else (nmiState 2).isp) ∧
      bit (0x9000 : Word) 0 = false ∧
      (0xA05C : Word) = (if bit (nmiState 0x2002).pc 13 = true then (nmiState 0x2002).sp
        else (nmiState 0x2002).isp)) ∧
    (((nmiState 2).intc.nmiPending = true ∧ (nmiState 2).intc.blockNmi = false) ∧
      (nmiState 2).holds 0 0x9000 ∧ (nmiState 2).canPush 0x001F2002 ∧
      (nmiState 2).mayRecord ((((0xB000 : Word) + 15) &&& 0xFFFFFFF0) + 16) 16 ∧
      ∀ i, i < 4 → outside (((0xB000 : Word) + 15) &&& 0xFFFFFFF0) 16 (BitVec.ofNat 32 i)) ∧
    (∀ i, i = 0 ∨ i = 7 ∨ i = 12 ∨ i = 13 →
      (i < 8 ∨ i = 12 ∨ i = 13) ∧ 1 = (if i < 4 then (hwAt i).intc.imap0.toNat / 2 ^ (4 * i) % 16
        else if i < 8 then (hwAt i).intc.imap1.toNat / 2 ^ (4 * (i - 4)) % 16
        else (hwAt i).intc.imap2.toNat / 2 ^ (4 * (i - 8)) % 16) ∧
      (hwAt i).intc.nmiPending = false ∧ (hwAt i).intc.icon.getLsbD 10 = false ∧
      (hwAt i).intc.imsk &&& (hwAt i).intc.ipnd = BitVec.ofNat 32 (2 ^ i) ∧
      (hwAt i).intc.swPrio.toNat ≤ 2 * 1 ∧ (hwAt i).pc.toNat / 2 ^ 16 % 32 < 2 * 1) ∧
    ((hwState.intc.icon.toNat / 2 ^ 11 % 4 < 2 ∧ hwState.intc.icon.getLsbD 13 = false) ∧
      hwState.holds (hwState.intBase + 4 + BitVec.ofNat 32 (4 * (16 * 3 + 2))) 0x9000 ∧
      hwState.canPush (0x00002002 ||| (BitVec.ofNat 32 (2 * 3) <<< 16)) ∧
      hwState.mayRecord ((((0xB000 : Word) + 15) &&& 0xFFFFFFF0) + 16) 16 ∧
      ∀ j, j < 4 → outside (((0xB000 : Word) + 15) &&& 0xFFFFFFF0) 16
        (hwState.intBase + 4 + BitVec.ofNat 32 (4 * (16 * 3 + 2)) + BitVec.ofNat 32 j)) ∧
    (((0x80000020 : Word).getLsbD 31 = true ∧ (2 : Word).getLsbD 1 = true ∧
        ∀ j, j < 32 → 1 < j → (2 : Word).getLsbD j = false) ∧
      ((0x80 : Byte).getLsbD 7 = true ∧ (1 : Byte).getLsbD 0 = true ∧
        ∀ j, j < 8 → 0 < j → (1 : Byte).getLsbD j = false)) ∧
    (swState.intc.nmiPending = false ∧ swState.intc.icon.getLsbD 10 = false ∧
      swState.intc.imsk &&& swState.intc.ipnd = 0 ∧ swState.intc.swPrio.toNat = 31 ∧
      swLow.intc.swPrio.toNat = 1 ∧ swLow.pc.toNat / 2 ^ 16 % 32 < 1) ∧
    (swState.plainW 0x5000 36 0x5000 ∧ swLow.plainW 0x5000 36 0x5000 ∧
      swState.storeTrap 0x5000 4 = none ∧ swState.storeTrap (0x5000 + 4 + BitVec.ofNat 32 31) 1 = none ∧
      swLow.storeTrap (0x5000 + 4 + BitVec.ofNat 32 1) 1 = none) ∧
    (swState.bytesAt 0x5000 (wordBytes 0x80000020) ∧ swLow.bytesAt 0x5000 (wordBytes 2) ∧
      swState.peek (0x5000 + 4 + BitVec.ofNat 32 31) = some 0x80 ∧
      swLow.peek (0x5000 + 4 + BitVec.ofNat 32 1) = some 1) ∧
    (swState.holds (0x5000 + 4 + BitVec.ofNat 32 (4 * (8 * 31 + 7))) 0x9000 ∧
      swLow.holds (0x5000 + 4 + BitVec.ofNat 32 (4 * (8 * 1 + 0))) 0x9000 ∧
      swState.canPush (0x00002002 ||| (BitVec.ofNat 32 31 <<< 16)) ∧
      swState.mayRecord ((((0xB000 : Word) + 15) &&& 0xFFFFFFF0) + 16) 16 ∧
      ∀ j, j < 4 → outside (((0xB000 : Word) + 15) &&& 0xFFFFFFF0) 16
        ((0x5000 : Word) + 4 + BitVec.ofNat 32 (4 * (8 * 31 + 7)) + BitVec.ofNat 32 j)) :=
  ⟨⟨undisturbed_of_empty rfl, by decide, by decide, by decide⟩,
    ⟨by decide, ⟨0, by unfold State.plain; decide, by decide⟩, by unfold State.canPush; decide,
      ⟨⟨0xB000, by unfold State.plainW; decide⟩, by decide⟩, by unfold outside; decide⟩,
    fun i h => by rcases h with rfl | rfl | rfl | rfl <;> decide,
    ⟨by decide, ⟨0x50CC, by unfold State.plain; decide, by decide⟩, by unfold State.canPush; decide,
      ⟨⟨0xB000, by unfold State.plainW; decide⟩, by decide⟩, by unfold outside; decide⟩,
    by decide, by decide, ⟨post_plain, post_plain, by decide, by decide, by decide⟩,
    ⟨by unfold State.bytesAt; decide, by unfold State.bytesAt; decide, by decide, by decide⟩,
    ⟨0x5400, by unfold State.plain; decide, by decide⟩, ⟨0x5024, by unfold State.plain; decide, by decide⟩,
    by unfold State.canPush; decide, ⟨⟨0xB000, by unfold State.plainW; decide⟩, by decide⟩,
    by unfold outside; decide⟩

/-- Both kinds of return, in supervisor and in user mode. -/
theorem witness_ExceptionReturns :
    ((calledState 1 2).te = false ∧ (calledState 1 2).undisturbed ∧ (calledState 1 2).returnsTo callerFrame [] ∧
      (calledState 1 2).holds ((calledState 1 2).fp - 16) 0x001F2002 ∧
      (calledState 1 2).holds ((calledState 1 2).fp - 12) 0x1002 ∧ bit (0x001F2002 : Word) 0 = false ∧
      (calledState 1 2).pfp &&& 7 = 1 ∧ (calledState 1 2).holds ((calledState 1 2).fp - 8) 0x00030002 ∧
      (0x00030002 : Word).toNat / 2 ^ 16 % 2 ^ 8 ≠ 1) ∧
    ((calledState 7 0).returnsTo callerFrame [] ∧ (calledState 7 0).pfp &&& 7 = 7 ∧
      (calledState 7 0).supervisor = false ∧ (calledState 7 2).supervisor = true) :=
  ⟨⟨by decide, undisturbed_of_empty rfl, by unfold State.returnsTo; decide,
    ⟨0x9FF0, by unfold State.plain; decide, by decide⟩,
    ⟨0x9FF4, by unfold State.plain; decide, by decide⟩, by decide, by decide,
    ⟨0x9FF8, by unfold State.plain; decide, by decide⟩, by decide⟩,
    by unfold State.returnsTo; decide, by decide, by decide, by decide⟩

/-- A timer of some mode, count and phase. -/
def timed (tmr tcr : Word) (phase : BitVec 3) : State :=
  { base with timer0 := { tmr := tmr, tcr := tcr, trr := 9, phase := phase, late := none } }

/-- The schedule; a disabled timer; a divisor of 8 not full and full; the counts 2, 1 and 0, with and
without reload. -/
theorem witness_TimerClockCounts :
    (({ base with schedule := [.env (.timerClock true)] } : State).schedule = [.env (.timerClock true)] ∧
      base.run ≠ .once ∧ base.run ≠ .selfTest) ∧
    ((timed 4 1 0).timer false).tmr.getLsbD 1 = false ∧
    (((timed 0x32 2 6).timer false).tmr.getLsbD 1 = true ∧
      ¬ 2 ^ (((timed 0x32 2 6).timer false).tmr.toNat / 16 % 4) ≤
        ((timed 0x32 2 6).timer false).phase.toNat + 1 ∧
      2 ^ (((timed 0x32 2 7).timer false).tmr.toNat / 16 % 4) ≤
        ((timed 0x32 2 7).timer false).phase.toNat + 1) ∧
    ((if ((timed 2 2 0).timer false).tcr = 0 then (0 : Word) else ((timed 2 2 0).timer false).tcr - 1) ≠ 0 ∧
      (if ((timed 2 1 0).timer false).tcr = 0 then (0 : Word) else ((timed 2 1 0).timer false).tcr - 1) = 0 ∧
      (if ((timed 2 0 0).timer false).tcr = 0 then (0 : Word) else ((timed 2 0 0).timer false).tcr - 1) = 0) ∧
    ((timed 6 1 0).timer false).tmr.getLsbD 2 = true ∧
    ((timed 2 1 0).timer false).tmr.getLsbD 2 = false := by decide

/-- Four bytes of one memory hold a word, as a check. -/
def heldAt (s : State) (k : Nat) (a v : Word) : Bool :=
  ((List.range 4).all fun i => s.cell (a + BitVec.ofNat 32 i) == some (k + i)) &&
    Memory.readBytes s.mem k 4 == wordBytes v

theorem holds_of_heldAt {s : State} {k : Nat} {a v : Word} (h : heldAt s k a v = true) : s.holds a v := by
  rw [heldAt, Bool.and_eq_true, List.all_eq_true] at h
  exact ⟨k, fun i hi => eq_of_beq (h.1 i (List.mem_range.2 hi)), eq_of_beq h.2⟩

/-- The image that `imageWords` places. -/
def image : Image where
  faultBase := 0x3000
  ctrlBase := 0x4000
  ac := 0x1000
  faultConfig := 0
  intBase := 0x5000
  sptBase := 0x6000
  isp := 0x7000
  cacheConfig := 0x10000
  limit := 0x300
  nmi := 0x9000
  ssp := 0xC001
  controls := [0x1111, 0, 0, 0x4000, 0, 0, 0, 0, 0, 0, 0, 0, 0, 0, 0, 0, 0, 0, 0x00800000]
  tc := 0xFF
  bcon := 3

/-- A state whose memory is the image and whose words are where they should be has the image. -/
theorem hasImage {s : State}
    (h : ([(0x2000, 0x3000), (0x2004, 0x4000), (0x2008, 0x1000), (0x200C, 0), (0x2010, 0x5000),
      (0x2014, 0x6000), (0x201C, 0x7000), (0x2020, 0x10000), (0x2024, 0x300), (0x53E4, 0x9000),
      (0x600C, 0xC001), (0x4068, 0xFF), (0x406C, 3)] : List (Word × Word)).all
        (fun x => heldAt s x.1.toNat x.1 x.2) = true)
    (h' : ((List.range 19).all fun j => heldAt s (0x4010 + 4 * j) (0x4000 + 16 + BitVec.ofNat 32 (4 * j))
      (image.controls.getD j 0)) = true) : s.HasImage 0x2000 image where
  words := fun x hx => holds_of_heldAt (List.all_eq_true.1 h x hx)
  length := by decide
  controls := fun j hj => by
    have := holds_of_heldAt (List.all_eq_true.1 h' j (List.mem_range.2 hj))
    rwa [List.getD_eq_getElem _ _ hj] at this
  placed := by decide
  icon := by decide
  widths := by decide

/-- The boot record whose confidence sum is 0, and the one a bit off; `sysctl` message 03H. -/
theorem witness_Initialization :
    ((bootState 0xFFFF6000).undisturbed ∧ (bootState 0xFFFF6000).schedule = [] ∧
      (bootState 0xFFFF6000).run = .starting ∧ (bootState 0xFFFF6000).coreHeld = false ∧
      (bootState 0xFFFF6000).board.stest = false) ∧
    ((∃ k, (bootState 0xFFFF6000).plain 0xFEFFFF38 1 k) ∧
      (bootState 0xFFFF6000).bytesAt 0xFEFFFF38 [0x80] ∧ (0x80 : Byte).toNat / 64 ≠ 3) ∧
    (∀ x ∈ [((0xFEFFFF40 : Word), (0x8000 : Word)), (0xFEFFFF44, 0x2000), (0xFEFFFF48, 0xFFFF6000),
      (0xFEFFFF4C, 0), (0xFEFFFF50, 0), (0xFEFFFF54, 0), (0xFEFFFF58, 0), (0xFEFFFF5C, 0)],
        (bootState 0xFFFF6000).holds x.1 x.2) ∧
    (bootState 0xFFFF6001).holds 0xFEFFFF48 0xFFFF6001 ∧
    (∀ c : Word, c = 0xFFFF6000 ∨ c = 0xFFFF6001 →
      let add (a : Nat × Nat) (w : Word) : Nat × Nat :=
        ((w.toNat + a.1 + a.2) % 2 ^ 32, (w.toNat + a.1 + a.2) / 2 ^ 32)
      let acc := ([0, 0, 0, 0, 0, c] : List Word).foldl add (0xFFFFFFFF, 0)
      ((0x2000 : Word).toNat + (0x8000 : Word).toNat + acc.1 + acc.2) % 2 ^ 32 =
        if c = 0xFFFF6000 then 0 else 1) ∧
    (bootState 0xFFFF6000).HasImage 0x2000 image ∧
    (restartState.undisturbed ∧ restartState.supervisor = true ∧ restartState.te = false ∧
      restartState.src (.reg 16) 30 = some 0x300 ∧ (0x300 : Word).toNat / 256 % 256 = 3 ∧
      restartState.src (.reg 17) 31 = some 0x8800 ∧ dest (.reg 18) = some 18 ∧
      restartState.reg 18 = 0x2000 ∧ restartState.HasImage 0x2000 image) :=
  ⟨⟨undisturbed_of_empty rfl, rfl, rfl, by decide, rfl⟩,
    ⟨⟨0x200FFFF38, by unfold State.plain; decide⟩, by unfold State.bytesAt; decide +kernel, by decide⟩,
    fun x hx => holds_of_heldAt (k := 0x200000000 + (x.1.toNat - 0xFE000000)) (List.all_eq_true.1
      (show List.all _ (fun x : Word × Word => heldAt (bootState 0xFFFF6000)
        (0x200000000 + (x.1.toNat - 0xFE000000)) x.1 x.2) = true by decide +kernel) x hx),
    holds_of_heldAt (k := 0x200FFFF48) (by decide +kernel),
    fun c h => by rcases h with rfl | rfl <;> decide +kernel,
    hasImage (by decide +kernel) (by decide +kernel),
    ⟨undisturbed_of_empty rfl, by decide, by decide, by decide, by decide, by decide, by decide, by decide,
      hasImage (by decide +kernel) (by decide +kernel)⟩⟩

end Sys2Proof.Tests
end

