-- ==== Sys2Proof/Proofs/Legal/State.lean ====
section
/-! SUPPORT. The fields that the invariant `State.Legal` speaks of, and the updates that leave them alone. -/

namespace Sys2Proof.Machine

-- Proofs are elaborated one at a time: the check has memory for the stacks of few threads.
set_option Elab.async false

/-! ## Core MMR space

The register of an address is chosen by `a.toNat - 0xFF000000`, a difference that the kernel must not
evaluate: it would count the literal down. The two functions are therefore unfolded as constants, before
they meet their arguments. -/

/-- A word load from core MMR space leaves the state, or touches the register (63_timers.md R932). -/
theorem mmrLoad_cases (a : Word) (slot : Nat) (s : State) :
    (∃ v, mmrLoad a slot s = (v, s)) ∨ ∃ v r, mmrLoad a slot s = (v, s.touchMmr r) := by
  obtain ⟨f, hf⟩ : ∃ f, f = mmrLoad := ⟨_, rfl⟩
  rw [← hf]
  delta mmrLoad at hf
  rw [hf]
  dsimp only
  split
  · exact .inl ⟨_, rfl⟩
  · exact .inl ⟨_, rfl⟩
  · exact .inr ⟨_, _, rfl⟩

/-- What a word store to core MMR space can do (10_state.md R86). -/
theorem mmrStore_cases (a v : Word) (s : State) :
    mmrStore a v s = .trap .mismatch s ∨ (∃ r, mmrStore a v s = writeMmr r v s) ∨
      mmrStore a v s = .refuse .reservedMmrStore ∨ mmrStore a v s = .ok () s := by
  obtain ⟨f, hf⟩ : ∃ f, f = mmrStore := ⟨_, rfl⟩
  rw [← hf]
  delta mmrStore at hf
  rw [hf]
  generalize a.toNat - 0xFF000000 = off
  dsimp only
  split
  · exact .inl rfl
  · split
    · exact .inr (.inl ⟨_, rfl⟩)
    · split
      · exact .inr (.inr (.inl rfl))
      · exact .inr (.inr (.inr rfl))

/-! ## The invariant and the fields it speaks of -/

/-- The fields that the invariant speaks of. -/
def State.held (s : State) : List Host.Cell × Word × Word × Word × Word × List Frame :=
  (s.mem, s.ip, s.ac, s.pc, s.tc, s.rc)

/-- The invariant depends on those fields only. -/
theorem State.Legal.of_held {s t : State} (h : s.Legal) (e : t.held = s.held) : t.Legal := by
  simp only [State.held, Prod.mk.injEq] at e
  obtain ⟨hm, hi, ha, hp, ht, hr⟩ := e
  exact ⟨hm ▸ h.mem, hi ▸ h.ip, ha ▸ h.ac, hp ▸ h.pc, ht ▸ h.tc, hr ▸ h.cached, hr ▸ h.frames⟩

/-- An update of other fields keeps the invariant. -/
theorem State.Legal.keep {s t : State} (h : s.Legal)
    (e : (t.mem, t.ip, t.ac, t.pc, t.tc, t.rc) = (s.mem, s.ip, s.ac, s.pc, s.tc, s.rc) := by rfl) :
    t.Legal := h.of_held e

/-- A masked word has no bit outside the mask. -/
theorem and_mask_clear (v m : Word) : v &&& m &&& ~~~m = 0 := by
  rw [BitVec.and_assoc, BitVec.and_not_self]
  simp

/-! ## Updates that leave the fields of the invariant alone -/

theorem held_ite {c : Prop} [Decidable c] {s t u : State} (ht : t.held = s.held)
    (hu : u.held = s.held) : (if c then t else u).held = s.held := by
  split <;> assumption

@[simp] theorem held_bump (s : State) : s.bump.held = s.held := rfl
@[simp] theorem held_draw (s : State) : (draw s).2.held = s.held := rfl
@[simp] theorem held_outdate (s : State) (k : Nat) : (s.outdate k).held = s.held := rfl
@[simp] theorem held_invalidateFetch (s : State) : s.invalidateFetch.held = s.held := rfl
@[simp] theorem held_log (s : State) (e : PciLog) : (s.log e).held = s.held := rfl
@[simp] theorem held_setRead (s : State) (r : InRead) : (s.setRead r).held = s.held := rfl
@[simp] theorem held_setCfg (s : State) (c : CfgSlot) : (s.setCfg c).held = s.held := rfl
@[simp] theorem held_drivePci (c : PciCycle) (s : State) : (drivePci c s).2.held = s.held := rfl
@[simp] theorem held_atuDrive (c : PciCycle) (s : State) : (atuDrive c s).2.held = s.held := rfl
@[simp] theorem held_outboundRead (c : PciCycle) (s : State) :
    (outboundRead c s).2.held = s.held := rfl
@[simp] theorem held_driveOutbound (c : PciCycle) (rest : List PciCycle) (s : State) :
    (driveOutbound c rest s).held = s.held := rfl
@[simp] theorem held_postOutbound (cont : Bool) (c : PciCycle) (s : State) :
    (postOutbound cont c s).held = s.held := rfl
@[simp] theorem held_postTimer (x : Bool) (s : State) : (postTimer x s).held = s.held := rfl
@[simp] theorem held_endLate (s : State) : (endLate s).held = s.held := rfl
@[simp] theorem held_tapReset (s : State) : (tapReset s).held = s.held := rfl
@[simp] theorem held_serrDetected (s : State) : (serrDetected s).held = s.held := rfl
@[simp] theorem held_routedAway (levels : BitVec 4) (s : State) :
    (routedAway levels s).held = s.held := rfl
@[simp] theorem held_saveMask (s : State) : (saveMask s).held = s.held := rfl
@[simp] theorem held_keepTrace (s : State) (nfp : Word) (p : Option Pending) :
    (s.keepTrace nfp p).held = s.held := rfl
@[simp] theorem held_destroyGlobals (s : State) : (destroyGlobals s).held = s.held := rfl

@[simp] theorem held_sampleInputs (s : State) : (sampleInputs s).held = s.held := by
  unfold sampleInputs; dsimp only; split <;> rfl

@[simp] theorem held_setTimer (s : State) (x : Bool) (t : Timer) :
    (s.setTimer x t).held = s.held := by cases x <;> rfl

@[simp] theorem held_setDma (s : State) (x : Bool) (d : Dma) : (s.setDma x d).held = s.held := by
  cases x <;> rfl

@[simp] theorem held_setReg (s : State) (n : Reg) (v : Word) : (s.setReg n v).held = s.held := by
  simp [State.held]

@[simp] theorem held_setRegs (s : State) (n : Reg) (vs : List Word) :
    (s.setRegs n vs).held = s.held := by
  simp [State.held]

@[simp] theorem held_reportError (m : Master) (a : Word) (b : Bool) (s : State) :
    (reportError m a b s).held = s.held := by
  unfold reportError; dsimp only; split <;> split <;> rfl

@[simp] theorem held_busTimeout (m : Master) (a : Word) (s : State) :
    (busTimeout m a s).held = s.held := by
  unfold busTimeout; split <;> simp

@[simp] theorem held_touchMmr (s : State) (r : Mmr) : (s.touchMmr r).held = s.held := by
  unfold State.touchMmr; split <;> simp

@[simp] theorem held_mmrLoad (a : Word) (slot : Nat) (s : State) :
    (mmrLoad a slot s).2.held = s.held := by
  obtain ⟨v, e⟩ | ⟨v, r, e⟩ := mmrLoad_cases a slot s <;> simp [e]

@[simp] theorem held_setMmr (s : State) (v : Word) (r : Mmr) : (s.setMmr v r).held = s.held := by
  cases r with
  | trr x | tcr x | tmr x => exact held_setTimer s x _
  | lmadr x | lmmr x | ipb x | dab x => exact held_ite rfl rfl
  | _ => rfl

@[simp] theorem held_drainOutbound (cs : List PciCycle) (s : State) :
    (drainOutbound cs s).held = s.held := by
  induction cs generalizing s with
  | nil => rfl
  | cons c cs ih => unfold drainOutbound; dsimp only; split <;> simp [ih]

@[simp] theorem held_pciReadDiscard (s : State) : (pciReadDiscard s).held = s.held := by
  unfold pciReadDiscard; split <;> rfl

@[simp] theorem held_pciCollect (pa : Word) (be : BitVec 4) (s : State) :
    (pciCollect pa be s).held = s.held := by
  unfold pciCollect
  split
  · rfl
  · rfl
  · split
    · rfl
    · repeat' split
      all_goals rfl
  · split <;> rfl

@[simp] theorem held_pciCfgCollect (c : CfgCycle) (s : State) :
    (pciCfgCollect c s).held = s.held := by
  obtain ⟨-, e⟩ | ⟨w, -, e⟩ | ⟨-, -, e⟩ := pciCfgCollect_cases c s <;> simp [e]

@[simp] theorem held_pciCfgDiscard (s : State) : (pciCfgDiscard s).held = s.held := by
  obtain e | ⟨-, e⟩ := pciCfgDiscard_cases s <;> simp [e]

@[simp] theorem held_inboundParity (address : Bool) (s : State) :
    (inboundParity address s).held = s.held := by
  unfold inboundParity; dsimp only; split <;> rfl

@[simp] theorem held_atuOut (s : State) : (atuOut s).held = s.held := by
  unfold atuOut
  split
  · rfl
  · split <;> simp

@[simp] theorem held_timerClock (x : Bool) (s : State) : (timerClock x s).held = s.held := by
  unfold timerClock
  dsimp only
  split
  · split
    · simp
    · split <;> simp
  · rfl

@[simp] theorem held_timerLate (x : Bool) (s : State) : (timerLate x s).held = s.held := by
  unfold timerLate
  dsimp only
  split
  · split <;> simp
  · rfl

@[simp] theorem held_dmaParity (x : Bool) (a : Word) (s : State) :
    (dmaParity x a s).held = s.held := by
  unfold dmaParity; dsimp only; split <;> simp

@[simp] theorem held_parityError (m : Master) (a : Word) (s : State) :
    (parityError m a s).held = s.held := by
  unfold parityError
  refine held_ite ?_ rfl
  cases m <;> simp

@[simp] theorem held_drainWord (cmd : PciCmd) (x : Bool) (k : Nat) (r : Word × State) :
    (drainWord cmd x k r).2.held = r.2.held := by
  simp [drainWord]

@[simp] theorem held_drainLine (x : Bool) (n : Nat) (r : Word × State) :
    (drainLine x n r).2.held = r.2.held := by
  induction n generalizing r with
  | zero => rfl
  | succ n ih => rw [drainLine, ih, held_drainWord]

@[simp] theorem held_afterDrain (x : Bool) (r : Word × State) :
    (afterDrain x r).held = r.2.held := by
  unfold afterDrain; split <;> simp

@[simp] theorem held_drainToPci (x : Bool) (s : State) : (drainToPci x s).held = s.held := by
  unfold drainToPci
  dsimp only
  split
  · split <;> simp
  · simp

@[simp] theorem held_tapAct (tdi : Bool) (s : State) : (tapAct tdi s).held = s.held := by
  unfold tapAct
  dsimp only
  split
  · rfl
  · rfl
  · rfl
  · rfl
  · split <;> rfl
  · rfl

end Sys2Proof.Machine

end

