-- ==== Sys2Proof/Proofs/Legal/Updates.lean ====
section
/-! SUPPORT. The invariant through updates of the state, resets, and the agents outside the core. -/

namespace Sys2Proof.Machine

-- Proofs are elaborated one at a time: the check has memory for the stacks of few threads.
set_option Elab.async false

/-! ## Updates that keep the invariant -/

theorem bump_legal {s : State} (h : s.Legal) : s.bump.Legal := h.keep

theorem sampleInputs_legal {s : State} (h : s.Legal) : (sampleInputs s).Legal := h.of_held (by simp)

theorem setIp_legal {s : State} (h : s.Legal) (v : Word) : (s.setIp v).Legal :=
  { h with ip := and_mask_clear v 0xFFFFFFFC }

theorem setAc_legal {s : State} (h : s.Legal) (v : Word) : (s.setAc v).Legal :=
  { h with ac := and_mask_clear v acMask }

theorem setPc_legal {s : State} (h : s.Legal) (v : Word) : (s.setPc v).Legal :=
  { h with pc := and_mask_clear v pcMask }

theorem setTc_legal {s : State} (h : s.Legal) (v : Word) : (s.setTc v).Legal :=
  { h with tc := and_mask_clear v tcMask }

theorem setReg_legal {s : State} (h : s.Legal) (n : Reg) (v : Word) : (s.setReg n v).Legal :=
  h.of_held (by simp)

theorem setRegs_legal {s : State} (h : s.Legal) (n : Reg) (vs : List Word) :
    (s.setRegs n vs).Legal :=
  h.of_held (by simp)

/-- Bits inside the mask may be set. -/
theorem or_mask_clear {v w m : Word} (hv : v &&& ~~~m = 0) (hw : w &&& ~~~m = 0) :
    (v ||| w) &&& ~~~m = 0 := by
  rw [BitVec.and_or_distrib_right, hv, hw]
  rfl

/-- Bits may be cleared. -/
theorem and_clear {v m : Word} (hv : v &&& ~~~m = 0) (w : Word) : v &&& w &&& ~~~m = 0 := by
  rw [BitVec.and_assoc, BitVec.and_comm w, ← BitVec.and_assoc, hv]
  simp

/-- A condition code is implemented bits of AC. -/
theorem setWidth_cc_clear (c : BitVec 3) : c.setWidth 32 &&& ~~~acMask = 0 := by
  revert c; decide

theorem setCc_legal {s : State} (h : s.Legal) (c : BitVec 3) : (s.setCc c).Legal :=
  { h with ac := or_mask_clear (and_clear h.ac _) (setWidth_cc_clear c) }

/-- AC.of set (10_state.md R57). -/
theorem setOf_legal {s : State} (h : s.Legal) :
    ({ s with ac := setBit s.ac 8 true } : State).Legal :=
  { h with ac := or_mask_clear h.ac (by decide) }

/-- The lanes of a word written one by one keep the canonical form of the memory. -/
theorem wf_writeLanes {m : List Host.Cell} (h : Memory.wf m = true) (k : Nat) (data : Word)
    (be : BitVec 4) (is : List Nat) : Memory.wf (writeLanes k data be is m) = true := by
  induction is generalizing m with
  | nil => exact h
  | cons i is ih =>
    refine ih ?_
    split
    · exact Memory.wf_set h _ _
    · exact h

theorem storeKey_legal {s : State} (h : s.Legal) (k : Nat) (bs : List Byte) :
    (storeKey k bs s).Legal :=
  { h with mem := Memory.wf_writeBytes h.mem k bs }

theorem storeLanes_legal {s : State} (h : s.Legal) (k : Nat) (data : Word) (be : BitVec 4) :
    (storeLanes k data be s).Legal := by
  unfold storeLanes
  split
  · exact h
  · exact { h with mem := wf_writeLanes h.mem k data be _ }

/-! ## Hardware resets -/

/-- The invariant at reset. -/
theorem reset_legal : State.reset.Legal where
  mem := rfl
  ip := by decide
  ac := by decide
  pc := by decide
  tc := by decide
  cached := by decide
  frames := by simp [State.reset]

theorem localBusReset_legal {s : State} (h : s.Legal) : (localBusReset s).Legal :=
  { reset_legal with mem := Memory.wf_dropBelow h.mem _ }

theorem pinReset_legal {s : State} (h : s.Legal) (b : Board) : (pinReset b s).Legal := by
  have hb : ({ s with board := b, run := if b.once then .once else .starting } : State).Legal :=
    h.keep
  exact (localBusReset_legal hb).keep

theorem resetEvent_legal {s : State} (h : s.Legal) (b : Board) : (resetEvent b s).Legal :=
  pinReset_legal h _

theorem writeRrcr_legal {s : State} (h : s.Legal) (m v : Word) : (writeRrcr m v s).Legal := by
  unfold writeRrcr
  split
  · dsimp only
    split
    · exact localBusReset_legal h.keep
    · exact h.keep
  · exact h

theorem atuBlockWrite_legal {s : State} (h : s.Legal) (pci : Bool) (off : Nat) (m v : Word) :
    (atuBlockWrite pci off m v s).Legal := by
  unfold atuBlockWrite
  split
  · exact writeRrcr_legal h m v
  all_goals exact h.keep

theorem atuCfg_legal {s : State} (h : s.Legal) : (atuCfg s).Legal := by
  unfold atuCfg
  split
  · dsimp only
    split
    · exact (atuBlockWrite_legal h _ _ _ _).keep
    · exact h.keep
  · exact h
  · exact h

/-! ## Operations that may trap or stop, and steps -/

/-- An operation ends in states that keep the invariant: where it succeeds, where it traps, where the core
is reset on the way. -/
inductive Eff.Legal {α : Type} : Eff α → Prop
  | ok {v : α} {s : State} (h : s.Legal) : Eff.Legal (.ok v s)
  | trap {t : Trap} {s : State} (h : s.Legal) : Eff.Legal (.trap t s)
  | over {s : State} (h : s.Legal) : Eff.Legal (.over s)
  | fault {f : Fault} : Eff.Legal (.fault f)
  | refuse {r : Refusal} : Eff.Legal (.refuse r)

/-- A step that ends in a next state ends in one that keeps the invariant. -/
inductive EndsLegal : Res → Prop
  | next {s : State} (h : s.Legal) : EndsLegal (.next s)
  | fault {f : Fault} : EndsLegal (.fault f)
  | refused {r : Refusal} : EndsLegal (.refused r)

theorem Eff.Legal.bind {α β : Type} {x : Eff α} {k : α → State → Eff β} (hx : x.Legal)
    (hk : ∀ v s, s.Legal → (k v s).Legal) : (x.bind k).Legal :=
  match hx with
  | .ok h => hk _ _ h
  | .trap h => .trap h
  | .over h => .over h
  | .fault => .fault
  | .refuse => .refuse

theorem Eff.Legal.close {α : Type} {x : Eff α} {r : Refusal} {k : α → State → Res} (hx : x.Legal)
    (hk : ∀ v s, s.Legal → EndsLegal (k v s)) : EndsLegal (x.close r k) :=
  match hx with
  | .ok h => hk _ _ h
  | .over h => .next h
  | .trap _ => .refused
  | .fault => .fault
  | .refuse => .refused

/-- Where the operation succeeds, the state keeps the invariant. -/
theorem Eff.Legal.of_ok {α : Type} {x : Eff α} {v : α} {s : State} (hx : x.Legal)
    (e : x = .ok v s) : s.Legal := by
  subst e
  cases hx
  assumption

theorem Eff.Legal.of_trap {α : Type} {x : Eff α} {t : Trap} {s : State} (hx : x.Legal)
    (e : x = .trap t s) : s.Legal := by
  subst e
  cases hx
  assumption

theorem Eff.Legal.of_over {α : Type} {x : Eff α} {s : State} (hx : x.Legal) (e : x = .over s) :
    s.Legal := by
  subst e
  cases hx
  assumption

theorem EndsLegal.of_next {x : Res} {s : State} (hx : EndsLegal x) (e : x = .next s) :
    s.Legal := by
  subst e
  cases hx
  assumption

theorem Eff.Legal.ite {α : Type} {c : Prop} [Decidable c] {x y : Eff α} (hx : x.Legal)
    (hy : y.Legal) : (if c then x else y).Legal := by
  split <;> assumption

theorem EndsLegal.ite {c : Prop} [Decidable c] {x y : Res} (hx : EndsLegal x) (hy : EndsLegal y) :
    EndsLegal (if c then x else y) := by
  split <;> assumption

theorem State.Legal.ite {c : Prop} [Decidable c] {s t : State} (hs : s.Legal) (ht : t.Legal) :
    (if c then s else t).Legal := by
  split <;> assumption

/-! ## The local bus and the registers on it -/

theorem writeMmr_legal {s : State} (h : s.Legal) (r : Mmr) (v : Word) : (writeMmr r v s).Legal := by
  unfold writeMmr
  refine .ite (.trap h) (.ite (.trap h) (.ite .refuse ?_))
  split
  · exact .ite (.ok (h.of_held (by simp))) .refuse
  · exact .ok (h.of_held (by simp))

theorem mmrStore_legal {s : State} (h : s.Legal) (a v : Word) : (mmrStore a v s).Legal := by
  have hc := mmrStore_cases a v s
  generalize mmrStore a v s = x at hc ⊢
  obtain rfl | ⟨r, rfl⟩ | rfl | rfl := hc
  · exact .trap h
  · exact writeMmr_legal h r v
  · exact .refuse
  · exact .ok h

theorem pmmrWriteWord_legal {s : State} (h : s.Legal) (off : Nat) (m v : Word) :
    (pmmrWriteWord off m v s).Legal := by
  unfold pmmrWriteWord
  refine .ite (.ok h) (.ite (.ok (atuBlockWrite_legal h _ _ _ _)) (.ite (.ok h.keep) (.ite ?_
    (.ite ?_ (.ite (.ok h.keep) (.ite (.ok h.keep) (.ite (.ok h.keep) (.ite (.ok h)
      (.ite ?_ (.ok h))))))))))
  all_goals
    split
    · exact .ok h.keep
    · exact .refuse

theorem pmmrRead_legal {s : State} (h : s.Legal) (a : Word) (slot : Nat) :
    (pmmrRead a slot s).Legal := by
  unfold pmmrRead
  exact .ite .refuse (.ok h)

theorem pmmrWrite_legal {s : State} (h : s.Legal) (a : Word) (be : BitVec 4) (v : Word) :
    (pmmrWrite a be v s).Legal := by
  unfold pmmrWrite
  refine .ite .refuse ((pmmrWriteWord_legal h _ _ _).bind fun _ s' h' => ?_)
  split
  · exact .ok h'
  · exact .over h'

theorem busRead_legal {s : State} (h : s.Legal) (m : Master) (r : Refusal) (a : Word) (n : Nat) :
    (busRead m r a n s).Legal := by
  unfold busRead
  split
  · exact .ok h
  · exact .ok (h.of_held (by simp))
  · exact .refuse

theorem busWrite_legal {s : State} (h : s.Legal) (m : Master) (r : Refusal) (a : Word)
    (bs : List Byte) : (busWrite m r a bs s).Legal := by
  unfold busWrite
  split
  · exact .ok (.ite (storeKey_legal h _ _) h)
  · exact .ok (h.of_held (by simp))
  · exact .refuse

theorem busWriteLanes_legal {s : State} (h : s.Legal) (m : Master) (r : Refusal) (a data : Word)
    (be : BitVec 4) : (busWriteLanes m r a data be s).Legal := by
  unfold busWriteLanes
  split
  · exact .ok (.ite (storeLanes_legal h _ _ _) h)
  · exact .ok (h.of_held (by simp))
  · exact .refuse

/-! ## The DMA channels -/

theorem setDma_legal {s : State} (h : s.Legal) (x : Bool) (d : Dma) : (s.setDma x d).Legal :=
  h.of_held (by simp)

theorem closeDma_legal {x : Eff Unit} (h : x.Legal) : EndsLegal (closeDma x) :=
  h.close fun _ _ h => .next h

theorem dmaReadWords_legal {s : State} (h : s.Legal) (x : Bool) (a : Word) (n : Nat) :
    (dmaReadWords x a n s).Legal := by
  induction n generalizing a s with
  | zero => exact .ok h
  | succ n ih =>
    unfold dmaReadWords
    exact .ite .refuse ((busRead_legal h _ _ _ _).bind fun _ s' h' =>
      .ite (.ok (bump_legal (setDma_legal h' x _))) ((ih h' _).bind fun _ _ h => .ok h))

theorem loadDescriptor_legal {s : State} (h : s.Legal) (x : Bool) : (loadDescriptor x s).Legal := by
  unfold loadDescriptor
  refine (dmaReadWords_legal h _ _ _).bind fun _ s h => ?_
  split
  · exact .ite .refuse (.ok (setDma_legal h x _))
  · exact .ok h

theorem chainResume_legal {s : State} (h : s.Legal) (x : Bool) : (chainResume x s).Legal := by
  unfold chainResume
  refine (dmaReadWords_legal h _ _ _).bind fun _ s h => ?_
  split
  · exact .ok (setDma_legal h x _)
  · exact .ok h

theorem nextDescriptor_legal {s : State} (h : s.Legal) (x : Bool) : (nextDescriptor x s).Legal := by
  unfold nextDescriptor
  exact .ite (.ok (setDma_legal h x _)) (loadDescriptor_legal h x)

/-- A chain resume, then the next descriptor. -/
theorem resumeChain_legal {s : State} (h : s.Legal) (x : Bool) :
    EndsLegal (closeDma ((chainResume x s).bind fun ok s =>
      if ok then nextDescriptor x s else .ok () s)) :=
  closeDma_legal ((chainResume_legal h x).bind fun _ _ h => .ite (nextDescriptor_legal h x) (.ok h))

theorem dmaIdle_legal {s : State} (h : s.Legal) (x : Bool) : EndsLegal (dmaIdle x s) := by
  unfold dmaIdle
  exact .ite (.ite (resumeChain_legal (setDma_legal h x _) x)
    (closeDma_legal (nextDescriptor_legal (setDma_legal h x _) x))) (.next h)

theorem fillFromPci_legal {s : State} (h : s.Legal) (x : Bool) : EndsLegal (fillFromPci x s) := by
  unfold fillFromPci
  exact .ite (.next (h.of_held (by simp))) (.next (h.of_held (by simp)))

theorem fillBytes_legal {s : State} (h : s.Legal) (x : Bool) (fuel n : Nat) :
    (fillBytes x fuel n s).Legal := by
  induction fuel generalizing n s with
  | zero => exact .ok h
  | succ fuel ih =>
    unfold fillBytes
    exact .ite (.ok h) (.ite .refuse ((busRead_legal h _ _ _ _).bind fun _ s' h' =>
      .ite (.ok (setDma_legal h' x _)) (ih (setDma_legal h' x _) _)))

theorem dmaFill_legal {s : State} (h : s.Legal) (x : Bool) : EndsLegal (dmaFill x s) := by
  unfold dmaFill
  refine .ite ?_ (.next h)
  split
  · exact .ite (fillFromPci_legal h x) (.next h)
  · exact .ite (closeDma_legal (fillBytes_legal h x _ _)) (.next h)
  · exact .refused

theorem drainToLocal_legal {s : State} (h : s.Legal) (x : Bool) :
    EndsLegal (drainToLocal x s) := by
  unfold drainToLocal
  exact .ite .refused (closeDma_legal ((busWrite_legal h _ _ _ _).bind fun _ _ h' =>
    .ite (.ok (setDma_legal h' x _)) (.ok (setDma_legal h' x _))))

theorem dmaDrain_legal {s : State} (h : s.Legal) (x : Bool) : EndsLegal (dmaDrain x s) := by
  unfold dmaDrain
  refine .ite ?_ (.next h)
  split
  · exact .ite (drainToLocal_legal h x) (.next h)
  · exact .next (h.of_held (held_ite (by simp) rfl))
  · exact .refused

theorem dmaComplete_legal {s : State} (h : s.Legal) (x : Bool) : EndsLegal (dmaComplete x s) := by
  have hd := fun d => closeDma_legal (nextDescriptor_legal (setDma_legal h x d) x)
  unfold dmaComplete
  exact .ite (.ite (hd _) (.ite (resumeChain_legal (setDma_legal h x _) x) (hd _))) (.next h)

/-! ## The ATU, the messaging unit and the test access port -/

theorem pciMemWrite_legal {s : State} (h : s.Legal) (pa data : Word) (be : BitVec 4) :
    EndsLegal (pciMemWrite pa data be s) := by
  unfold pciMemWrite
  dsimp only
  split
  · exact .next h
  · exact .ite (.next h.keep) (.next h.keep)
  · exact .ite (.next h.keep) (.next h.keep)
  · exact .refused
  · exact .refused

theorem atuIn_legal {s : State} (h : s.Legal) : EndsLegal (atuIn s) := by
  unfold atuIn
  split
  · exact .next h
  · rename_i w rest _
    have hl : ({ s with atu := s.atu.leaveWrites rest } : State).Legal := h.keep
    dsimp only
    split
    · split
      · exact .next hl.keep
      · exact .refused
    · exact .ite .refused (.ite ((pmmrWrite_legal hl _ _ _).close fun _ _ h => .next h)
        ((busWriteLanes_legal hl _ _ _ _ _).close fun _ _ h => .ite (.next h.keep) (.next h)))
    all_goals exact .refused

theorem pciMemRead_legal {s : State} (h : s.Legal) (pa : Word) (be : BitVec 4) :
    EndsLegal (pciMemRead pa be s) := by
  unfold pciMemRead
  split
  · exact .next h
  · exact .refused
  all_goals exact .next (h.of_held (by simp))

theorem atuReadWord_legal {s : State} (h : s.Legal) (a : Word) : (atuReadWord a s).Legal := by
  unfold atuReadWord
  exact .ite ((pmmrRead_legal h _ _).bind fun _ _ h => .ok (bump_legal h))
    (.ite ((busRead_legal h _ _ _ _).bind fun _ _ h => .ok h) .refuse)

theorem atuReadFirst_legal {s : State} (h : s.Legal) (pa : Word) (be : BitVec 4) (a : Word) :
    EndsLegal (atuReadFirst pa be a s) := by
  unfold atuReadFirst
  exact (atuReadWord_legal h a).close fun _ _ h => .ite (.next h.keep) (.next h.keep)

theorem atuReadAhead_legal {s : State} (h : s.Legal) (d : InData) :
    EndsLegal (atuReadAhead d s) := by
  unfold atuReadAhead
  exact .ite (.next h.keep) ((atuReadWord_legal h _).close fun _ _ h => .next h.keep)

theorem atuRead_legal {s : State} (h : s.Legal) : EndsLegal (atuRead s) := by
  unfold atuRead
  split
  · dsimp only
    split
    · exact .next h.keep
    · exact atuReadFirst_legal h _ _ _
    · exact atuReadFirst_legal h _ _ _
    all_goals exact .refused
  · exact .ite (.next h) (atuReadAhead_legal h _)
  · exact .next h

theorem pciCfg_legal {s : State} (h : s.Legal) (c : CfgCycle) : EndsLegal (pciCfg c s) := by
  unfold pciCfg
  exact .ite (.next h.keep) (.ite .refused (.next (h.of_held (by simp))))

theorem tapClock_legal {s : State} (h : s.Legal) (tms tdi : Bool) :
    EndsLegal (tapClock tms tdi s) := by
  have ht : (tapAct tdi s).Legal := h.of_held (by simp)
  unfold tapClock
  exact .ite (.next ht.keep) .refused

/-! ## Events -/

theorem extWrite_legal {s : State} (h : s.Legal) (a : Word) (b : Byte) :
    (extWrite a b s).Legal := by
  unfold extWrite
  split
  · exact .ite (storeKey_legal h _ _) h
  · exact h

theorem extPost_legal {s : State} (h : s.Legal) (v : BitVec 8) : (extPost v s).Legal := by
  unfold extPost
  extract_lets p set
  have hset : ∀ {s : State}, s.Legal → ∀ (a : Word) (n : Nat), (set a n s).Legal := by
    intro s h a n
    dsimp only [set]
    split
    · exact .ite (storeKey_legal h _ _) h
    · exact h
  exact hset (hset h _ _) _ _

theorem perform_legal {s : State} (h : s.Legal) (e : Event) : EndsLegal (perform e s) := by
  unfold perform
  split
  · exact .next (resetEvent_legal h _)
  · exact tapClock_legal h _ _
  · exact .next h.keep
  · exact .refused
  · exact .next h.keep
  · exact .next h.keep
  · exact .next h.keep
  · exact .next h
  · exact .next h.keep
  · exact .next (h.of_held (by simp))
  · exact .next (h.of_held (by simp))
  · exact pciMemWrite_legal h _ _ _
  · exact pciMemRead_legal h _ _
  · exact .next (h.of_held (by simp))
  · exact pciCfg_legal h _
  · exact pciCfg_legal h _
  · exact .next (h.of_held (by simp))
  · exact .next (atuCfg_legal h)
  · exact .next (h.of_held (by simp))
  · exact .ite (atuIn_legal h) (.next h)
  · exact .ite (atuRead_legal h) (.next h)
  · exact .next h.keep
  · exact .next (h.of_held (by simp))
  · exact .next (h.of_held (by simp))
  · exact dmaIdle_legal h _
  · exact dmaFill_legal h _
  · exact dmaDrain_legal h _
  · exact dmaComplete_legal h _
  · split
    · exact .next h.keep
    · exact .refused
  · exact .next h.keep
  · exact .next h.keep
  · exact .next h.keep
  · exact .next h.keep
  · exact .next h.keep
  · exact .next (extWrite_legal h _ _)
  · exact .next (extPost_legal h _)

end Sys2Proof.Machine

end

