-- ==== Sys2Proof/Proofs/Legal/Accesses.lean ====
section
/-! SUPPORT. The invariant through the core's accesses, calls, returns, faults and interrupts. -/

namespace Sys2Proof.Machine

-- Proofs are elaborated one at a time: the check has memory for the stacks of few threads.
set_option Elab.async false

/-! ## Other agents between two accesses -/

theorem performAll_legal {s : State} (h : s.Legal) (es : List Event) : (performAll es s).Legal := by
  induction es generalizing s with
  | nil => exact .ok h
  | cons e es ih =>
    have hp := perform_legal (sampleInputs_legal h) e
    unfold performAll
    split
    · rename_i s' e'
      have h' : s'.Legal := hp.of_next e'
      exact .ite (ih h') (.over (h'.of_held rfl))
    · exact .fault
    · exact .refuse

theorem gap_legal {s : State} (h : s.Legal) : (gap s).Legal := by
  unfold gap
  split
  · exact performAll_legal h.keep _
  · exact .ok h

theorem waitBus_legal {s : State} (h : s.Legal) (ts : List Turn) : (waitBus ts s).Legal := by
  induction ts generalizing s with
  | nil => exact .over h.keep
  | cons t ts ih =>
    unfold waitBus
    exact (performAll_legal h.keep _).bind fun _ _ h => .ite (.ok h) (ih h)

theorem takeBus_legal {s : State} (h : s.Legal) : (takeBus s).Legal := by
  unfold takeBus
  exact .ite (.ok h) (waitBus_legal h _)

theorem Eff.Legal.andGap {α : Type} {x : Eff α} (hx : x.Legal) : x.andGap.Legal :=
  hx.bind fun _ _ h => (gap_legal h).bind fun _ _ h => .ok h

/-! ## Accesses of the core -/

theorem outboundWait_legal {s : State} (h : s.Legal) (write : Bool) :
    (outboundWait write s).Legal := by
  unfold outboundWait
  refine (gap_legal h).bind fun _ _ h => (takeBus_legal h).bind fun _ _ h => .ok ?_
  have hd := h.of_held (held_pciReadDiscard _)
  cases write
  · exact .ite (h.of_held (by simp)) h
  · exact .ite (hd.of_held (by simp)) hd

theorem outboundReady_legal {s : State} (h : s.Legal) (write : Bool) :
    (outboundReady write s).Legal := by
  unfold outboundReady
  exact .ite (outboundWait_legal h write) (.ok h)

theorem coreRead_legal {s : State} (h : s.Legal) (a : Word) (n : Nat) : (coreRead a n s).Legal := by
  unfold coreRead
  exact .ite ((outboundReady_legal h _).bind fun _ _ h =>
    .ite (.ok h.keep) (busRead_legal h _ _ _ _)) (busRead_legal h _ _ _ _)

theorem coreWrite_legal {s : State} (h : s.Legal) (cont : Bool) (a : Word) (bs : List Byte) :
    (coreWrite cont a bs s).Legal := by
  unfold coreWrite
  exact .ite (.bind (.ite (.ok h) (outboundReady_legal h _)) fun _ _ h =>
    .ite (.ok (h.of_held (by simp))) (busWrite_legal h _ _ _ _)) (busWrite_legal h _ _ _ _)

theorem configReady_legal {s : State} (h : s.Legal) (write : Bool) :
    (configReady write s).Legal := by
  unfold configReady
  exact .ite (outboundReady_legal h _) (.ok h)

theorem configRead_legal {s : State} (h : s.Legal) (a : Word) (be : BitVec 4) :
    (configRead a be s).Legal := by
  unfold configRead
  exact (configReady_legal h _).bind fun _ _ h => .ite (.ok (h.of_held (by simp))) (.ok (h.of_held (by simp)))

theorem configWrite_legal {s : State} (h : s.Legal) (a : Word) (be : BitVec 4) (v : Word) :
    (configWrite a be v s).Legal := by
  unfold configWrite
  exact (configReady_legal h _).bind fun _ _ h => .ok (h.of_held (held_ite (by simp) (by simp)))

theorem mmrLoad_legal {s : State} (h : s.Legal) (a : Word) (slot : Nat) :
    (mmrLoad a slot s).2.Legal :=
  h.of_held (held_mmrLoad a slot s)

theorem loadPiece_legal {s : State} (h : s.Legal) (a : Word) (n : Nat) :
    (loadPiece a n s).Legal := by
  unfold loadPiece
  split
  · exact .ok h
  · exact .fault
  · exact (takeBus_legal h).bind fun _ _ h =>
      .bind (.ite (configRead_legal h _ _) (pmmrRead_legal h _ _)) fun _ _ h =>
        .ok (bump_legal h)
  · exact (takeBus_legal h).bind fun _ _ h => coreRead_legal h _ _
  · exact (takeBus_legal h).bind fun _ _ h => .ok (h.of_held (held_ite (by simp) (by simp)))
  · exact .ok (bump_legal (mmrLoad_legal h a 0))

theorem storePiece_legal {s : State} (h : s.Legal) (cont : Bool) (a : Word) (bs : List Byte) :
    (storePiece cont a bs s).Legal := by
  unfold storePiece
  split
  · exact .ok (storeKey_legal h _ _)
  · exact .fault
  · exact (takeBus_legal h).bind fun _ _ h =>
      .ite (configWrite_legal h _ _ _) (pmmrWrite_legal h _ _ _)
  · exact (takeBus_legal h).bind fun _ _ h => coreWrite_legal h _ _ _
  · exact .refuse
  · exact mmrStore_legal h _ _

theorem gapBefore_legal {s : State} (h : s.Legal) (new : Word → Bool) (load : Bool)
    (ps : List (Word × Nat)) : (gapBefore new load ps s).Legal := by
  unfold gapBefore
  split
  · exact .ok h
  · exact .ite (gap_legal h) (.ok h)

theorem loadPieces_legal {s : State} (h : s.Legal) (new : Word → Bool) (ps : List (Word × Nat)) :
    (loadPieces new ps s).Legal := by
  induction ps generalizing s with
  | nil => exact .ok h
  | cons p ps ih =>
    exact (loadPiece_legal h _ _).bind fun _ _ h => (gapBefore_legal h _ _ _).bind fun _ _ h =>
      (ih h).bind fun _ _ h => .ok h

theorem storePieces_legal {s : State} (h : s.Legal) (new : Word → Bool) (cont : Bool)
    (ps : List (Word × Nat)) (bs : List Byte) : (storePieces new cont ps bs s).Legal := by
  induction ps generalizing s cont bs with
  | nil => exact .ok h
  | cons p ps ih =>
    exact (storePiece_legal h _ _ _).bind fun _ _ h => (gapBefore_legal h _ _ _).bind fun _ _ h =>
      ih h _ _

theorem load_legal {s : State} (h : s.Legal) (a : Word) (n : Nat) : (load a n s).Legal := by
  unfold load
  exact .ite (.trap h) (loadPieces_legal h _ _)

theorem store_legal {s : State} (h : s.Legal) (a : Word) (bs : List Byte) :
    (store a bs s).Legal := by
  unfold store
  split
  · exact .trap h
  · exact storePieces_legal h _ _ _ _

theorem lockReady_legal {s : State} (h : s.Legal) (a : Word) : (lockReady a s).Legal := by
  unfold lockReady
  exact .ite ((takeBus_legal h).bind fun _ _ h =>
    .ite (outboundReady_legal h _) (.ite (configReady_legal h _) (.ok h))) (.ok h)

theorem loadWord_legal {s : State} (h : s.Legal) (a : Word) : (loadWord a s).Legal :=
  (load_legal h a 4).bind fun _ _ h => .ok h

theorem storeWord_legal {s : State} (h : s.Legal) (a v : Word) : (storeWord a v s).Legal :=
  store_legal h a _

theorem loadWords_legal {s : State} (h : s.Legal) (a : Word) (n : Nat) :
    (loadWords a n s).Legal :=
  (load_legal h a _).bind fun _ _ h => .ok h

theorem storeWords_legal {s : State} (h : s.Legal) (a : Word) (ws : List Word) :
    (storeWords a ws s).Legal :=
  store_legal h a _

theorem storeList_legal {s : State} (h : s.Legal) (ps : List (Word × Word)) :
    (storeList ps s).Legal := by
  induction ps generalizing s with
  | nil => exact .ok h
  | cons p ps ih =>
    exact (storeWord_legal h _ _).bind fun _ _ h =>
      .bind (.ite (.ok h) (gap_legal h)) fun _ _ h => ih h

theorem loadEach_legal {s : State} (h : s.Legal) (a : Word) (n : Nat) : (loadEach a n s).Legal := by
  induction n generalizing a s with
  | zero => exact .ok h
  | succ n ih =>
    exact (loadWord_legal h _).bind fun _ _ h =>
      .bind (.ite (.ok h) (gap_legal h)) fun _ _ h => (ih h _).bind fun _ _ h => .ok h

theorem loadDown_legal {s : State} (h : s.Legal) (a : Word) (n : Nat) : (loadDown a n s).Legal := by
  induction n generalizing a s with
  | zero => exact .ok h
  | succ n ih =>
    exact (loadWord_legal h _).bind fun _ _ h =>
      .bind (.ite (.ok h) (gap_legal h)) fun _ _ h => (ih h _).bind fun _ _ h => .ok h

theorem fetchWord_legal {s : State} (h : s.Legal) (a : Word) : (fetchWord a s).Legal := by
  unfold fetchWord
  split
  · exact .trap h
  · exact .trap h
  · exact .fault
  · exact .refuse
  · exact .refuse
  · refine (takeBus_legal h).bind fun _ _ h => ?_
    split
    · exact (coreRead_legal h _ _).bind fun _ _ h => .ok h
    · exact .ok (h.of_held (by simp))
    · split
      · exact .ok h
      · exact .ok (h.of_held (by simp))

/-! ## The register cache and the call operation -/

theorem spill_legal {s : State} (h : s.Legal) (e : Frame) : (spill e s).Legal :=
  (storeWords_legal h _ _).andGap.bind fun _ _ h => (storeWords_legal h _ _).andGap.bind fun _ _ h =>
    (storeWords_legal h _ _).andGap.bind fun _ _ h => storeWords_legal h _ _

/-- A cache of at most seven frames at 16-byte addresses in place of the present one. -/
theorem rc_legal {s : State} (h : s.Legal) {rc : List Frame} (hl : rc.length ≤ 7)
    (hf : ∀ e ∈ rc, e.addr &&& 15 = 0) : ({ s with rc := rc } : State).Legal :=
  { h with cached := hl, frames := hf }

/-- Where a push does not spill there is room for one more set (45_call_return.md R541). -/
theorem room_of_not_pushSpills {s : State} {pc : Word} {n : Nat}
    (h : ¬ s.pushSpills pc n = true) : n + 1 ≠ 8 := by
  intro e
  simp [State.pushSpills, e] at h

theorem pushFrame_legal {s : State} (h : s.Legal) (pc : Word) : (pushFrame pc s).Legal := by
  have hf : ∀ e ∈ s.currentFrame :: s.rc, e.addr &&& 15 = 0 := by
    intro e he
    obtain rfl | he := List.mem_cons.1 he
    · exact and_mask_clear s.fp 0xFFFFFFF0
    · exact h.frames e he
  have hl := h.cached
  unfold pushFrame
  refine .ite .refuse ?_
  dsimp only
  split
  · split
    · exact spill_legal (rc_legal h (by simpa using hl)
        fun e he => hf e (List.mem_of_mem_dropLast he)) _
    · exact .ok h
  · rename_i hp
    have := room_of_not_pushSpills hp
    exact .ok (rc_legal h (by simp only [List.length_cons]; omega) hf)

theorem enterFrame_legal {s : State} (h : s.Legal) (nfp low : Word) : (enterFrame nfp low s).Legal :=
  h.keep

theorem callOp_legal {s : State} (h : s.Legal) (target base rrr next pc : Word) :
    (callOp target base rrr next pc s).Legal := by
  have hp := pushFrame_legal (setPc_legal (s := { s with r := s.r.set 2 next }) h.keep pc) pc
  unfold callOp
  split
  · rename_i e
    exact .ok (setIp_legal (enterFrame_legal (hp.of_ok e) _ _) _)
  · rename_i e
    exact .trap { hp.of_trap e with pc := h.pc, cached := h.cached, frames := h.frames }
  · rename_i e
    exact .over (hp.of_over e)
  · exact .fault
  · exact .refuse

theorem loadFrame_legal {s : State} (h : s.Legal) (f : Word) : (loadFrame f s).Legal :=
  (loadWords_legal h _ _).andGap.bind fun _ _ h => (loadWords_legal h _ _).andGap.bind fun _ _ h =>
    (loadWords_legal h _ _).andGap.bind fun _ _ h => (loadWords_legal h _ _).bind fun _ _ h => .ok h

theorem popFrame_legal {s : State} (h : s.Legal) (f : Word) : (popFrame f s).Legal := by
  unfold popFrame
  split
  · rename_i e rest hr
    have hl := h.cached
    have hf := h.frames
    rw [hr] at hl hf
    exact .ite (.ok { h with
      cached := Nat.le_of_succ_le hl, frames := fun x hx => hf x (List.mem_cons_of_mem _ hx) }) .refuse
  · exact (loadFrame_legal h f).bind fun _ _ h => .ok h.keep

theorem getFpAndIp_legal {s : State} (h : s.Legal) : (getFpAndIp s).Legal := by
  unfold getFpAndIp
  exact .ite .refuse ((popFrame_legal h _).bind fun _ _ h => .ok (setIp_legal h.keep _))

/-! ## Taking a fault -/

theorem selectProcedure_legal {s : State} (h : s.Legal) (n : Nat) (reads : List Access) :
    (selectProcedure n reads s).Legal := by
  unfold selectProcedure
  exact .ite (.trap h) ((loadWord_legal h _).bind fun _ _ h => .ok h)

theorem selectHandler_legal {s : State} (h : s.Legal) (tt : Nat) : (selectHandler tt s).Legal := by
  unfold selectHandler
  refine (loadWord_legal h _).bind fun _ _ h => ?_
  split
  · exact .ok h
  · exact (gap_legal h).bind fun _ _ h => selectProcedure_legal h _ _
  · exact .refuse

theorem failStop_legal {s : State} (h : s.Legal) (code : Word) : (failStop code s).Legal := by
  have hx := (takeBus_legal h).bind fun _ _ h =>
    busRead_legal h .core .inboundUndescribed code 4
  unfold failStop
  split
  · rename_i e
    exact (hx.of_ok e).keep
  · rename_i e
    exact hx.of_over e
  · exact h.keep

theorem systemError_legal {s : State} (h : s.Legal) : (systemError s).Legal := failStop_legal h _

/-- The end of a fault call: the handler's frame entered, the trace kept. -/
theorem enterHandler_legal {s : State} (h : s.Legal) (nfp low target : Word) (p : Option Pending) :
    (((enterFrame nfp low s).keepTrace nfp p).setIp target).Legal :=
  setIp_legal ((enterFrame_legal h nfp low).of_held (held_keepTrace _ _ _)) target

theorem overrideCall_legal {s : State} (h : s.Legal) (f : FaultRecord) (second : Trap)
    (pushed : Bool) : EndsLegal (overrideCall f second pushed s) := by
  have hx := (gap_legal h).bind fun _ _ h => (selectHandler_legal h 0).andGap
  unfold overrideCall
  split
  · rename_i e
    exact .next (systemError_legal (hx.of_trap e))
  · rename_i e
    exact .next (hx.of_over e)
  · exact .fault
  · exact .refused
  · rename_i hd s1 e
    refine .ite .refused ?_
    have h1 := setPc_legal (hx.of_ok e) (setBit (setBit s1.pc 1 true) 0 false)
    extract_lets nsp s2 s3 nfp
    have h3 : s3.Legal := .ite h1 h1.keep
    have hy : Eff.Legal ((if pushed then Eff.ok () s3 else (pushFrame s3.pc s3).andGap).bind
        fun _ s => storeList (recordStores (nfp - 64) (f.words (some second) s)) s.bump) :=
      .bind (.ite (.ok h3) (pushFrame_legal h3 _).andGap) fun _ _ h =>
        storeList_legal (bump_legal h) _
    split
    · rename_i e
      exact .next (enterHandler_legal (hy.of_ok e) _ _ _ _)
    · rename_i e
      exact .next (systemError_legal (hy.of_trap e))
    · rename_i e
      exact .next (hy.of_over e)
    · exact .fault
    · exact .refused

theorem faultCall_legal {s : State} (h : s.Legal) (f : FaultRecord) {k : List Access → State → Res}
    (hk : ∀ made s, s.Legal → EndsLegal (k made s)) : EndsLegal (faultCall f s k) := by
  have hx := (gap_legal h).bind fun _ _ h => (selectHandler_legal h f.code.1).andGap
  unfold faultCall
  split
  · rename_i e
    exact overrideCall_legal (hx.of_trap e) _ _ _
  · rename_i e
    exact .next (hx.of_over e)
  · exact .fault
  · exact .refused
  · rename_i hd s1 e
    refine .ite .refused ?_
    extract_lets nsp nfp s2 s3 made
    have h3 : s3.Legal := setPc_legal (s := s2) ((hx.of_ok e).keep) _
    have hy : Eff.Legal ((pushFrame s3.pc s3).andGap.bind
        fun _ s => storeList (recordStores (nfp - 64) (f.words none s)) s.bump) :=
      (pushFrame_legal h3 _).andGap.bind fun _ _ h => storeList_legal (bump_legal h) _
    split
    · rename_i e
      exact overrideCall_legal (hy.of_trap e) _ _ _
    · rename_i e
      exact .next (hy.of_over e)
    · exact .fault
    · exact .refused
    · rename_i e
      exact hk _ _ (enterHandler_legal (hy.of_ok e) _ _ _ _)

theorem traceFault_legal {s : State} (h : s.Legal) (bits flags : Word) (fip rip : Option Word)
    (pending : Option Pending) : EndsLegal (traceFault bits flags fip rip pending s) := by
  unfold traceFault
  exact faultCall_legal (setPc_legal (setTc_legal h _) _) _ fun _ _ h => .next h

theorem traceFaultCall_legal {s : State} (h : s.Legal) (made : List Access) :
    EndsLegal (traceFaultCall made s) := by
  unfold traceFaultCall
  exact .ite (.ite (.next h) (traceFault_legal h _ _ _ _ _)) (.next h)

theorem raise_legal {s : State} (h : s.Legal) (t : Trap) (ev : Events) (next : Word) :
    EndsLegal (raise t ev next s) := by
  unfold raise
  exact .ite .refused (faultCall_legal (bump_legal h) _ fun made _ h => traceFaultCall_legal h made)

/-! ## The end of an instruction -/

theorem traceAfter_legal {s : State} (h : s.Legal) (a : Word) (ev : Events) :
    EndsLegal (traceAfter a ev s) := by
  unfold traceAfter
  exact .ite (.ite .refused (.ite (.next (bump_legal h)) (traceFault_legal (bump_legal h) _ _ _ _ _)))
    (.next (bump_legal h))

theorem retire_legal {s : State} (h : s.Legal) (ev : Events) (next : Word) :
    EndsLegal (retire ev next s) :=
  traceAfter_legal (setIp_legal h next) _ ev

theorem advance_legal {s : State} (h : s.Legal) : EndsLegal (advance s) := retire_legal h _ _

theorem invalidOperand_legal {s : State} (h : s.Legal) (len : Word) :
    EndsLegal (invalidOperand len s) := raise_legal h _ _ _

/-- A state that keeps the invariant, at the IP of another. -/
theorem atIp_legal {s t : State} (h : s.Legal) (h' : t.Legal) :
    ({ t with ip := s.ip } : State).Legal :=
  { h' with ip := h.ip }

theorem orRaise_legal {α : Type} {s : State} (h : s.Legal) {ev : Events} {len : Word} {x : Eff α}
    {k : α → State → Res} (hx : x.Legal) (hk : ∀ v s, s.Legal → EndsLegal (k v s)) :
    EndsLegal (orRaise ev len s x k) :=
  match hx with
  | .ok h' => hk _ _ h'
  | .trap h' => raise_legal (atIp_legal h h') _ _ _
  | .over h' => .next h'
  | .fault => .fault
  | .refuse => .refused

/-! ## Returns -/

theorem prereturnTrace_legal {s : State} (h : s.Legal) : EndsLegal (prereturnTrace s) := by
  unfold prereturnTrace
  exact traceFault_legal h.keep _ _ _ _ _

theorem localReturn_legal {s : State} (h : s.Legal) : EndsLegal (localReturn s) :=
  orRaise_legal h (getFpAndIp_legal h) fun _ _ h => traceAfter_legal h _ _

theorem supervisorReturn_legal {s : State} (h : s.Legal) (t : Bool) :
    EndsLegal (supervisorReturn t s) :=
  orRaise_legal h (getFpAndIp_legal h) fun _ _ h => traceAfter_legal (setPc_legal h _) _ _

theorem restorePc_legal {s : State} (h : s.Legal) (sup : Bool) (pc : Word) :
    (restorePc sup pc s).Legal := by
  unfold restorePc
  exact .ite (setPc_legal h _) h

theorem loadSaved_legal {s : State} (h : s.Legal) : (loadSaved s).Legal :=
  (loadWord_legal h _).andGap.bind fun _ _ h => (loadWord_legal h _).andGap.bind fun _ _ h => .ok h

theorem loadPending_legal {s : State} (h : s.Legal) (sup : Bool) (pc : Word) :
    (loadPending sup pc s).Legal := by
  unfold loadPending
  exact .ite ((loadWord_legal h _).andGap.bind fun _ _ h =>
    (loadWord_legal h _).andGap.bind fun _ _ h => .ok h) (.ok h)

theorem traceFaultReturn_legal {s : State} (h : s.Legal) (a : Word) (ev : Events)
    (pending : Option Pending) : EndsLegal (traceFaultReturn a ev pending s) := by
  have hb := bump_legal h
  unfold traceFaultReturn
  refine .ite (.ite .refused (.ite (traceFault_legal hb _ _ _ _ _) ?_)) (.next hb)
  split
  · exact traceFault_legal hb _ _ _ _ _
  · exact .next hb

theorem loadRecord_legal {s : State} (h : s.Legal) : (loadRecord s).Legal :=
  (loadSaved_legal h).bind fun _ _ h => (loadWord_legal h _).andGap.bind fun _ _ h =>
    (loadPending_legal h _ _).bind fun _ _ h => .ok h

theorem faultReturn_legal {s : State} (h : s.Legal) : EndsLegal (faultReturn s) := by
  unfold faultReturn
  refine orRaise_legal h ((loadRecord_legal h).bind fun _ _ h =>
    (getFpAndIp_legal h).bind fun _ _ h => .ok h) fun v s' h => ?_
  have hp := restorePc_legal (setAc_legal h v.1.2) s.supervisor v.1.1
  exact traceFaultReturn_legal (.ite (setTc_legal hp _) hp) _ _ _

theorem interruptReturn_legal {s : State} (h : s.Legal) : EndsLegal (interruptReturn s) := by
  unfold interruptReturn
  refine orRaise_legal h ((loadSaved_legal h).bind fun _ _ h =>
    (getFpAndIp_legal h).bind fun _ _ h => .ok h) fun v s' h => ?_
  have hp := restorePc_legal (setAc_legal h v.2) s.supervisor v.1
  exact .ite (.next hp.keep) (traceAfter_legal hp _ _)

/-! ## Taking an interrupt -/

theorem vectorEntry_legal {s : State} (h : s.Legal) (vec : Nat) : (vectorEntry vec s).Legal := by
  unfold vectorEntry
  exact .ite (loadWord_legal h _) (.ite (loadWord_legal h _) (loadWord_legal h _))

theorem deliver_legal {s : State} (h : s.Legal) (kind : InterruptKind) (vec : Nat) :
    (deliver kind vec s).Legal := by
  unfold deliver
  refine (pushFrame_legal h.keep _).andGap.bind fun _ _ h =>
    (storeList_legal h _).andGap.bind fun _ s1 h => ?_
  have hf := setPc_legal (enterFrame_legal h (align16 (if bit s.pc 13 then s.sp else s.isp) + 16) 7)
    (interruptPc (vec / 8))
  extract_lets s2 s3
  have h3 : s3.Legal := by
    dsimp only [s3]
    split
    · exact hf.keep
    · exact hf
  exact (vectorEntry_legal h3 vec).bind fun _ _ h =>
    .ite .refuse (.ok (setIp_legal h.keep _))

theorem checkTable_legal {s : State} (h : s.Legal) : (checkTable s).Legal := by
  unfold checkTable
  extract_lets setPrio
  have hset : ∀ x {s : State}, s.Legal → (setPrio x s).Legal := fun x s h => h.keep
  have hgive : ∀ (a w : Word) (x : Nat) {s : State}, s.Legal →
      ((storeWord a w s).bind fun _ s => Eff.ok () (setPrio x s)).Legal :=
    fun a w x s h => (storeWord_legal h a w).bind fun _ _ h => .ok (hset x h)
  refine (loadWord_legal h _).bind fun x s1 h => ?_
  split
  · exact hgive _ _ _ h
  · refine .ite (hgive _ _ _ h) ((load_legal h _ _).bind fun zs s2 h => ?_)
    dsimp only
    split
    · exact hgive _ _ _ h
    · exact (store_legal h _ _).bind fun _ _ h => (storeWord_legal h _ _).bind fun _ _ h =>
        (gap_legal (hset _ h)).bind fun _ _ h => deliver_legal h _ _

theorem deliverInterrupt_legal {s : State} (h : s.Legal) (kind : InterruptKind) :
    (deliverInterrupt kind s).Legal := by
  unfold deliverInterrupt
  split
  · exact deliver_legal h.keep _ _
  · exact checkTable_legal h
  · exact .ite .refuse (deliver_legal h.keep _ _)

theorem takeInterrupt_legal {s : State} (h : s.Legal) (kind : InterruptKind) :
    EndsLegal (takeInterrupt kind s) :=
  (deliverInterrupt_legal h kind).close fun _ _ h => .next (bump_legal h)

end Sys2Proof.Machine

end

