-- ==== Sys2Proof/Proofs/Legal/Step.lean ====
section
/-! SUPPORT. The invariant through every instruction and every step (O3), and at reset (O2). -/

namespace Sys2Proof.Machine

-- Proofs are elaborated one at a time: the check has memory for the stacks of few threads.
set_option Elab.async false

/-! ## The shapes of instructions -/

theorem withDst_legal {s : State} (h : s.Legal) {s1 s2 : Src} {d : SrcDst}
    {k : Word → Word → Reg → Res} (hk : ∀ a b r, EndsLegal (k a b r)) :
    EndsLegal (withDst s1 s2 d s k) := by
  unfold withDst
  split
  · exact hk _ _ _
  · exact invalidOperand_legal h _

theorem withSrcs_legal {s : State} (h : s.Legal) {s1 s2 : Src} {k : Word → Word → Res}
    (hk : ∀ a b, EndsLegal (k a b)) : EndsLegal (withSrcs s1 s2 s k) := by
  unfold withSrcs
  split
  · exact hk _ _
  · exact invalidOperand_legal h _

theorem withSrcDst_legal {s : State} (h : s.Legal) {x : Src} {d : SrcDst} {k : Word → Reg → Res}
    (hk : ∀ a r, EndsLegal (k a r)) : EndsLegal (withSrcDst x d s k) := by
  unfold withSrcDst
  split
  · exact hk _ _
  · exact invalidOperand_legal h _

theorem privileged_legal {s : State} (h : s.Legal) {k : Res} (hk : EndsLegal k) :
    EndsLegal (privileged s k) := by
  unfold privileged
  exact .ite hk (raise_legal h _ _ _)

/-- An instruction that writes a register and goes on. -/
theorem advance_setReg_legal {s : State} (h : s.Legal) (n : Reg) (v : Word) :
    EndsLegal (advance (s.setReg n v)) := advance_legal (setReg_legal h n v)

theorem advance_setRegs_legal {s : State} (h : s.Legal) (n : Reg) (vs : List Word) :
    EndsLegal (advance (s.setRegs n vs)) := advance_legal (setRegs_legal h n vs)

theorem intOverflow_legal {s : State} (h : s.Legal) (ev : Events) (len : Word) :
    EndsLegal (intOverflow ev len s) := by
  unfold intOverflow
  exact .ite (retire_legal (setOf_legal h) _ _) (raise_legal h _ _ _)

theorem integerResult_legal {s : State} (h : s.Legal) (t : Int) (r : Reg) :
    EndsLegal (integerResult t r s) := by
  unfold integerResult
  exact .ite (intOverflow_legal (setReg_legal h _ _) _ _) (advance_setReg_legal h _ _)

theorem zeroDivide_legal {s : State} (h : s.Legal) (r : Reg) (n : Nat) :
    EndsLegal (zeroDivide r n s) := raise_legal (setRegs_legal h _ _) _ _ _

theorem binary_legal {s : State} (h : s.Legal) (f : Word → Word → Word) (s1 s2 : Src) (d : SrcDst) :
    EndsLegal (binary f s1 s2 d s) := withDst_legal h fun _ _ _ => advance_setReg_legal h _ _

theorem unary_legal {s : State} (h : s.Legal) (f : Word → Word) (x : Src) (d : SrcDst) :
    EndsLegal (unary f x d s) := withSrcDst_legal h fun _ _ => advance_setReg_legal h _ _

theorem integerOp_legal {s : State} (h : s.Legal) (f : Int → Int → Int) (s1 s2 : Src) (d : SrcDst) :
    EndsLegal (integerOp f s1 s2 d s) := withDst_legal h fun _ _ _ => integerResult_legal h _ _

theorem conditional_legal {s : State} (h : s.Legal) (mask : BitVec 3) (s1 s2 : Src) (d : SrcDst)
    {k : Word → Word → Reg → Res} (hk : ∀ a b r, EndsLegal (k a b r)) :
    EndsLegal (conditional mask s1 s2 d s k) :=
  withDst_legal h fun _ _ _ => .ite (hk _ _ _) (advance_legal h)

theorem compareOp_legal {s : State} (h : s.Legal) (f : Word → Word → BitVec 3) (s1 s2 : Src) :
    EndsLegal (compareOp f s1 s2 s) := withSrcs_legal h fun _ _ => advance_legal (setCc_legal h _)

theorem compareStep_legal {s : State} (h : s.Legal) (f : Word → Word → BitVec 3) (delta : Word)
    (s1 s2 : Src) (d : SrcDst) : EndsLegal (compareStep f delta s1 s2 d s) :=
  withDst_legal h fun _ _ _ => advance_setReg_legal (setCc_legal h _) _ _

theorem divideOp_legal {s : State} (h : s.Legal) (s1 s2 : Src) (d : SrcDst)
    {f : Word → Word → Reg → Res} (hf : ∀ a b r, EndsLegal (f a b r)) :
    EndsLegal (divideOp f s1 s2 d s) :=
  withDst_legal h fun _ _ _ => .ite (zeroDivide_legal h _ _) (hf _ _ _)

theorem modifyOp_legal {s : State} (h : s.Legal) (f : Word → Word → Word → Word) (s1 s2 : Src)
    (d : SrcDst) : EndsLegal (modifyOp f s1 s2 d s) :=
  withDst_legal h fun _ _ _ => advance_setReg_legal h _ _

theorem selectOp_legal {s : State} (h : s.Legal) (mask : BitVec 3) (s1 s2 : Src) (d : SrcDst) :
    EndsLegal (selectOp mask s1 s2 d s) := withDst_legal h fun _ _ _ => advance_setReg_legal h _ _

theorem scanOp_legal {s : State} (h : s.Legal) (v : Word) (r : Reg) : EndsLegal (scanOp v r s) := by
  unfold scanOp
  split <;> exact advance_legal (setCc_legal (setReg_legal h _ _) _)

theorem testOp_legal {s : State} (h : s.Legal) (mask : BitVec 3) (d : SrcDst) :
    EndsLegal (testOp mask d s) := by
  unfold testOp
  split
  · exact advance_setReg_legal h _ _
  · exact invalidOperand_legal h _

theorem faultIf_legal {s : State} (h : s.Legal) (mask : BitVec 3) : EndsLegal (faultIf mask s) := by
  unfold faultIf
  exact .ite (raise_legal h _ _ _) (advance_legal h)

theorem moveOp_legal {s : State} (h : s.Legal) (k : Nat) (x : Src) (d : SrcDst) :
    EndsLegal (moveOp k x d s) := by
  unfold moveOp
  split
  · exact advance_setRegs_legal h _ _
  · exact invalidOperand_legal h _

theorem finishAccess_legal {s : State} (h : s.Legal) (a : Word) (n : Nat) (ev : Events)
    (next : Word) : EndsLegal (finishAccess a n ev next s) := by
  unfold finishAccess
  exact .ite (raise_legal h _ _ _) (retire_legal h _ _)

theorem loadOp_legal {s : State} (h : s.Legal) (n k : Nat) (f : List Byte → List Word) (m : MemOp)
    (d : Reg) : EndsLegal (loadOp n k f m d s) := by
  unfold loadOp
  split
  · exact invalidOperand_legal h _
  · exact orRaise_legal h (load_legal h _ _) fun _ _ h =>
      finishAccess_legal (setRegs_legal h _ _) _ _ _ _

theorem storeOp_legal {s : State} (h : s.Legal) (n k : Nat) (x : Reg) (m : MemOp) :
    EndsLegal (storeOp n k x m s) := by
  unfold storeOp
  dsimp only
  split
  · exact raise_legal h _ _ _
  · exact .ite (orRaise_legal h (store_legal h _ _) fun _ _ h => finishAccess_legal h _ _ _ _)
      (invalidOperand_legal h _)

theorem storeIntegerOp_legal {s : State} (h : s.Legal) (n : Nat) (x : Reg) (m : MemOp) :
    EndsLegal (storeIntegerOp n x m s) := by
  unfold storeIntegerOp
  exact orRaise_legal h (store_legal h _ _) fun _ _ h =>
    .ite (raise_legal h _ _ _) (.ite (retire_legal h _ _) (intOverflow_legal h _ _))

theorem branchIf_legal {s : State} (h : s.Legal) (c : Bool) (target : Word) :
    EndsLegal (branchIf c target s) := by
  unfold branchIf
  exact .ite (retire_legal h _ _) (advance_legal h)

theorem checkBitBranch_legal {s : State} (h : s.Legal) (want : Bool) (s1 : CSrc) (s2 : CReg)
    (disp : BitVec 11) : EndsLegal (checkBitBranch want s1 s2 disp s) := by
  unfold checkBitBranch
  split
  · exact branchIf_legal (setCc_legal h _) _ _
  · exact invalidOperand_legal h _

theorem compareBranch_legal {s : State} (h : s.Legal) (f : Word → Word → BitVec 3)
    (mask : BitVec 3) (s1 : CSrc) (s2 : CReg) (disp : BitVec 11) :
    EndsLegal (compareBranch f mask s1 s2 disp s) := by
  unfold compareBranch
  split
  · exact branchIf_legal (setCc_legal h _) _ _
  · exact invalidOperand_legal h _

theorem branchAndLink_legal {s : State} (h : s.Legal) (r : Reg) (next target : Word) :
    EndsLegal (branchAndLink r next target s) := by
  have hr := setReg_legal h r next
  unfold branchAndLink
  exact retire_legal (.ite hr.keep hr) _ _

theorem callInstruction_legal {s : State} (h : s.Legal) (target base rrr pc : Word) (sup : Bool)
    (table : List Access) (len : Word) :
    EndsLegal (callInstruction target base rrr pc sup table len s) := by
  unfold callInstruction
  exact orRaise_legal h (callOp_legal h _ _ _ _ _) fun _ _ h => traceAfter_legal h _ _

theorem systemCall_legal {s : State} (h : s.Legal) (a e : Word) : EndsLegal (systemCall a e s) := by
  unfold systemCall
  exact .ite (callInstruction_legal h _ _ _ _ _ _ _)
    (.ite (callInstruction_legal h _ _ _ _ _ _ _) .refused)

/-! ## Instructions of their own shape -/

theorem execEmul_legal {s : State} (h : s.Legal) (s1 s2 : Src) (d : SrcDst) :
    EndsLegal (execEmul s1 s2 d s) := by
  unfold execEmul
  split
  · exact advance_setRegs_legal h _ _
  · exact invalidOperand_legal h _

theorem execEdiv_legal {s : State} (h : s.Legal) (s1 s2 : Src) (d : SrcDst) :
    EndsLegal (execEdiv s1 s2 d s) := by
  unfold execEdiv
  split
  · exact .ite (zeroDivide_legal h _ _)
      (.ite (advance_setRegs_legal h _ _) (advance_setRegs_legal h _ _))
  · exact invalidOperand_legal h _

theorem execEshro_legal {s : State} (h : s.Legal) (s1 s2 : Src) (d : SrcDst) :
    EndsLegal (execEshro s1 s2 d s) := by
  unfold execEshro
  split
  · exact advance_setReg_legal h _ _
  · exact invalidOperand_legal h _

theorem execBalx_legal {s : State} (h : s.Legal) (m : MemOp) (d : Reg) :
    EndsLegal (execBalx m d s) := by
  unfold execBalx
  split
  · exact branchAndLink_legal h _ _ _
  · exact invalidOperand_legal h _

theorem execLda_legal {s : State} (h : s.Legal) (m : MemOp) (d : Reg) :
    EndsLegal (execLda m d s) := by
  unfold execLda
  split
  · exact retire_legal (setReg_legal h _ _) _ _
  · exact invalidOperand_legal h _

theorem execCalls_legal {s : State} (h : s.Legal) (x : Src) : EndsLegal (execCalls x s) := by
  unfold execCalls
  split
  · exact .ite (raise_legal h _ _ _)
      (orRaise_legal h (loadWord_legal h _).andGap fun _ _ h => systemCall_legal h _ _)
  · exact invalidOperand_legal h _

theorem execRet_legal {s : State} (h : s.Legal) : EndsLegal (execRet s) := by
  unfold execRet
  refine .ite (prereturnTrace_legal h) (.ite .refused ?_)
  split
  · exact localReturn_legal h
  · exact faultReturn_legal h
  · exact supervisorReturn_legal h _
  · exact supervisorReturn_legal h _
  · exact interruptReturn_legal h
  · exact .refused

theorem flushFrames_legal {s : State} (h : s.Legal) (fs : List Frame) : (flushFrames fs s).Legal := by
  induction fs generalizing s with
  | nil => exact .ok h
  | cons e older ih =>
    exact (ih h).bind fun _ _ h => .bind (.ite (.ok h) (gap_legal h)) fun _ _ h => spill_legal h e

theorem flushCache_legal {s : State} (h : s.Legal) : (flushCache s).Legal := by
  unfold flushCache
  split
  · exact .trap h
  · exact flushFrames_legal h _

theorem execFlushreg_legal {s : State} (h : s.Legal) : EndsLegal (execFlushreg s) := by
  unfold execFlushreg
  refine orRaise_legal h (flushCache_legal h) fun _ s' h => ?_
  have hr : ({ s' with rc := [] } : State).Legal := rc_legal h (Nat.zero_le 7) (by simp)
  exact retire_legal hr.keep _ _

theorem readModifyWrite_legal {s : State} (h : s.Legal) (a : Word) (f : Word → Word) :
    (readModifyWrite a f s).Legal := by
  unfold readModifyWrite
  refine (lockReady_legal h a).bind fun _ s h => ?_
  have hx := (loadWord_legal h a).bind fun w _ h => (storeWord_legal h a (f w)).bind fun _ _ h =>
    Eff.Legal.ok (v := w) h
  split
  · exact .trap h
  · exact hx

theorem atomicOp_legal {s : State} (h : s.Legal) (a : Word) (f : Word → Word) (r : Reg) :
    EndsLegal (atomicOp a f r s) := by
  unfold atomicOp
  exact orRaise_legal h (readModifyWrite_legal h _ _) fun _ _ h =>
    retire_legal (setReg_legal h _ _) _ _

/-! ## Processor management -/

theorem setInterrupts_legal {s s' : State} (h : s.Legal) {f : Word}
    (e : setInterrupts f s = some s') : s'.Legal := by
  unfold setInterrupts at e
  split at e
  · cases e; exact h.keep
  · split at e
    · cases e; exact h.keep
    · split at e
      · cases e; exact h
      · cases e

theorem lockCache_legal {s : State} (h : s.Legal) (n : Word) : EndsLegal (lockCache n s) := by
  unfold lockCache
  exact .ite .refused (advance_legal h.keep)

theorem storeAll_legal {s : State} (h : s.Legal) (a : Word) (ws : List Word) :
    (storeAll a ws s).Legal := by
  unfold storeAll
  split
  · exact .trap h
  · exact storeList_legal h _

theorem storeSets_legal {s : State} (h : s.Legal) (sets k : Nat) (zero : Bool) (range a : Word) :
    EndsLegal (storeSets sets k zero range a s) := by
  unfold storeSets
  exact .ite (invalidOperand_legal h _)
    (orRaise_legal h (storeAll_legal h _ _) fun _ _ h => retire_legal h _ _)

theorem giveStatus_legal {s : State} (h : s.Legal) (v : Word) (d : SrcDst) :
    EndsLegal (giveStatus v d s) := by
  unfold giveStatus
  split
  · exact advance_setReg_legal h _ _
  · exact invalidOperand_legal h _

theorem cacheControl_legal {s : State} (h : s.Legal) (f : Nat) (s2 : Src) (d : SrcDst) :
    EndsLegal (cacheControl f s2 d s) := by
  unfold cacheControl
  split
  · exact advance_legal h.keep
  · exact advance_legal h.keep
  · exact advance_legal h.keep
  · split
    · exact lockCache_legal h _
    · exact invalidOperand_legal h _
  · exact giveStatus_legal h _ _
  · exact giveStatus_legal h _ _
  · split
    · exact storeSets_legal h _ _ _ _ _
    · exact invalidOperand_legal h _
  · exact invalidOperand_legal h _

theorem dataCacheControl_legal {s : State} (h : s.Legal) (f : Nat) (s2 : Src) (d : SrcDst) :
    EndsLegal (dataCacheControl f s2 d s) := by
  unfold dataCacheControl
  split
  · exact advance_legal h.keep
  · exact advance_legal h.keep
  · exact advance_legal h
  · exact advance_legal h
  · exact advance_legal h
  · exact giveStatus_legal h _ _
  · split
    · exact storeSets_legal h _ _ _ _ _
    · exact invalidOperand_legal h _
  · exact invalidOperand_legal h _

theorem postInterrupt_legal {s : State} (h : s.Legal) (v : Nat) : (postInterrupt v s).Legal := by
  unfold postInterrupt
  extract_lets p finish
  have hfin : ∀ w {s : State}, s.Legal → (finish w s).Legal := fun w s h =>
    (storeWord_legal h _ _).bind fun _ _ h => .ok h.keep
  exact (loadWord_legal h _).bind fun w s h => .ite (hfin _ h) ((load_legal h _ _).bind fun _ _ h =>
    (store_legal h _ _).bind fun _ _ h => hfin _ h)

theorem requestInterrupt_legal {s : State} (h : s.Legal) (v : Nat) :
    EndsLegal (requestInterrupt v s) := by
  unfold requestInterrupt
  exact .ite .refused (orRaise_legal h (postInterrupt_legal h v) fun _ _ h => retire_legal h _ _)

theorem configureCache_legal {s : State} (h : s.Legal) (mode : Nat) (s2 : Src) :
    EndsLegal (configureCache mode s2 s) := by
  unfold configureCache
  refine .ite (advance_legal h.keep) ?_
  split
  · exact advance_legal h.keep
  · split
    · exact lockCache_legal h.keep _
    · exact invalidOperand_legal h _
  · split
    · exact lockCache_legal h.keep _
    · exact invalidOperand_legal h _
  · exact invalidOperand_legal h _

theorem modifyMmr_legal {s : State} (h : s.Legal) (r : Mmr) (v mask : Word) (d : Reg) (ev : Events) :
    EndsLegal (modifyMmr r v mask d ev s) := by
  unfold modifyMmr
  exact orRaise_legal h (.ite (writeMmr_legal h _ _)
    (.ite (.trap h) (.ok (h.of_held (held_touchMmr s r))))) fun _ _ h =>
      retire_legal (setReg_legal h _ _) _ _

theorem modifyRegister_legal {s : State} (h : s.Legal) (off : Nat) (s2 : Src) (d : SrcDst) :
    EndsLegal (modifyRegister off s2 d s) := by
  unfold modifyRegister
  split
  · refine .ite (raise_legal h _ _ _) ?_
    split
    · exact modifyMmr_legal h _ _ _ _ _
    · exact .ite (retire_legal (setReg_legal h _ _) _ _) .refused
  · exact invalidOperand_legal h _

theorem requestBreakpoints_legal {s : State} (h : s.Legal) (d : SrcDst) :
    EndsLegal (requestBreakpoints d s) := by
  unfold requestBreakpoints
  split
  · exact .ite (advance_setReg_legal h _ _) (advance_setReg_legal h.keep _ _)
  · exact invalidOperand_legal h _

/-! ## Initialization -/

/-- The NMI vector in the data RAM, the rest of which is lost. -/
theorem cacheNmiVector_legal {s : State} (h : s.Legal) (v : Word) : (cacheNmiVector v s).Legal :=
  { h with mem := Memory.wf_writeBytes (Memory.wf_dropBelow h.mem _) _ _ }

theorem firstFrame_legal {s : State} (h : s.Legal) (isp limit : Word) :
    (firstFrame isp limit s).Legal :=
  (rc_legal h (Nat.zero_le 7) (by simp) : ({ s with rc := [] } : State).Legal).keep

theorem loadControls_legal {s : State} (h : s.Legal) (ws : List Word) : (loadControls ws s).Legal :=
  h.of_held (by simp [loadControls])

theorem loadPointers_legal {s : State} (h : s.Legal) (p0 p1 p2 p3 p4 p5 : Word) :
    (loadPointers p0 p1 p2 p3 p4 p5 s).Legal :=
  { h with ac := and_mask_clear p2 acMask }

theorem processTables_legal {s : State} (h : s.Legal) (p : Word) : (processTables p s).Legal := by
  unfold processTables
  refine (loadWord_legal h _).andGap.bind fun isp _ h => (loadWord_legal h _).andGap.bind fun _ _ h =>
    (loadWord_legal h _).andGap.bind fun nmi _ h => (loadWord_legal h _).andGap.bind fun _ _ h =>
    (loadWord_legal h _).andGap.bind fun limit _ h => (loadEach_legal h _ _).andGap.bind fun ws _ h =>
    (loadWord_legal h _).andGap.bind fun tc _ h => (loadWord_legal h _).bind fun bcon _ h => ?_
  split
  · exact .refuse
  · have ht := setTc_legal (loadControls_legal
      (cacheNmiVector_legal (firstFrame_legal h isp limit) nmi) ws) tc
    have hb := ht.of_held (held_setMmr _ bcon .bcon)
    dsimp only
    generalize State.setMmr _ bcon .bcon = u at hb ⊢
    exact .ok hb.keep

theorem processPrcb_legal {s : State} (h : s.Legal) (p : Word) : (processPrcb p s).Legal := by
  unfold processPrcb
  refine .ite .refuse ((loadEach_legal h.keep _ _).andGap.bind fun ws s h => ?_)
  have hl := loadPointers_legal h (ws.getD 0 0) (ws.getD 1 0) (ws.getD 2 0) (ws.getD 3 0)
    (ws.getD 4 0) (ws.getD 5 0)
  exact .ite (.over (failStop_legal hl _)) (.ite .refuse (processTables_legal hl p))

theorem reinitialize_legal {s : State} (h : s.Legal) (p start : Word) :
    (reinitialize p start s).Legal := by
  unfold reinitialize
  exact (processPrcb_legal h.keep p).bind fun _ _ h =>
    .ok (setIp_legal (h.of_held (held_destroyGlobals _)) _)

theorem enterInitialize_legal {s : State} (h : s.Legal) : (enterInitialize s).Legal :=
  { h with pc := (by decide : (0x001F2002 : Word) &&& ~~~pcMask = 0) }

theorem readBootRecord_legal {s : State} (h : s.Legal) : (readBootRecord s).Legal := by
  unfold readBootRecord
  exact (load_legal h _ _).andGap.bind fun _ _ h => .ite ((loadWord_legal h.keep _).andGap.bind
    fun _ _ h => (loadWord_legal h _).andGap.bind fun _ _ h =>
      (loadDown_legal h _ _).andGap.bind fun _ _ h => .ok h) .refuse

theorem startUp_legal {s : State} (h : s.Legal) (boot : Word × Word × List Word) :
    (startUp boot s).Legal := by
  unfold startUp
  exact .ite ((processPrcb_legal h _).bind fun _ _ h => .ok (setIp_legal h.keep _))
    (.over (failStop_legal h _))

theorem coreInitialize_legal {s : State} (h : s.Legal) : EndsLegal (coreInitialize s) := by
  have hx := (readBootRecord_legal (enterInitialize_legal (s := { s with run := .ready })
    h.keep)).bind fun boot _ h => startUp_legal h boot
  unfold coreInitialize
  refine .ite (.next (failStop_legal h _)) ?_
  split
  · rename_i e
    exact .next (bump_legal (hx.of_ok e))
  · rename_i e
    exact .next (systemError_legal (hx.of_trap e))
  · rename_i e
    exact .next (hx.of_over e)
  · exact .fault
  · exact .refused

theorem reinitializeCore_legal {s : State} (h : s.Legal) (s2 : Src) (d : SrcDst) :
    EndsLegal (reinitializeCore s2 d s) := by
  unfold reinitializeCore
  split
  · exact orRaise_legal h (reinitialize_legal h _ _) fun _ _ h => traceAfter_legal h _ _
  · exact invalidOperand_legal h _

theorem systemControl_legal {s : State} (h : s.Legal) (a : Word) (s2 : Src) (d : SrcDst) :
    EndsLegal (systemControl a s2 d s) := by
  unfold systemControl
  split
  · exact requestInterrupt_legal h _
  · exact advance_legal h.keep
  · exact configureCache_legal h _ _
  · exact reinitializeCore_legal h _ _
  · exact modifyRegister_legal h _ _ _
  · exact requestBreakpoints_legal h _
  · exact invalidOperand_legal h _

theorem execModpc_legal {s : State} (h : s.Legal) (s1 s2 : Src) (d : SrcDst) :
    EndsLegal (execModpc s1 s2 d s) := by
  unfold execModpc
  split
  · exact .ite (advance_setReg_legal h _ _)
      (privileged_legal h (advance_setReg_legal (setPc_legal h _) _ _))
  · exact invalidOperand_legal h _

theorem execIntctl_legal {s : State} (h : s.Legal) (x : Src) (d : SrcDst) :
    EndsLegal (execIntctl x d s) := by
  refine withSrcDst_legal h fun f r => privileged_legal h ?_
  split
  · rename_i e
    exact advance_setReg_legal (setInterrupts_legal h e) _ _
  · exact invalidOperand_legal h _

theorem execHalt_legal {s : State} (h : s.Legal) (x : Src) : EndsLegal (execHalt x s) := by
  unfold execHalt
  split
  · refine privileged_legal h ?_
    split
    · rename_i e
      exact advance_legal (setInterrupts_legal h e).keep
    · exact invalidOperand_legal h _
  · exact invalidOperand_legal h _

theorem execIcctl_legal {s : State} (h : s.Legal) (s1 s2 : Src) (d : SrcDst) :
    EndsLegal (execIcctl s1 s2 d s) := by
  unfold execIcctl
  split
  · exact privileged_legal h (cacheControl_legal h _ _ _)
  · exact invalidOperand_legal h _

theorem execDcctl_legal {s : State} (h : s.Legal) (s1 s2 : Src) (d : SrcDst) :
    EndsLegal (execDcctl s1 s2 d s) := by
  unfold execDcctl
  split
  · exact privileged_legal h (dataCacheControl_legal h _ _ _)
  · exact invalidOperand_legal h _

theorem execSysctl_legal {s : State} (h : s.Legal) (s1 s2 : Src) (d : SrcDst) :
    EndsLegal (execSysctl s1 s2 d s) := by
  unfold execSysctl
  split
  · exact privileged_legal h (systemControl_legal h _ _ _)
  · exact invalidOperand_legal h _

/-! ## Every instruction, every step -/

theorem exec_legal {s : State} (h : s.Legal) (i : Instr) : EndsLegal (exec i s) := by
  cases i with
  | notbit | and | andnot | setbit | notand | xor | or | nor | xnor | ornot | clrbit | notor | nand
  | alterbit | addo | subo | shro | shrdi | shri | shlo | rotate | mulo =>
    exact binary_legal h _ _ _ _
  | not | bswap => exact unary_legal h _ _ _
  | addi s1 s2 d | muli s1 s2 d => exact integerOp_legal h _ _ _ _
  | subi s1 s2 d => exact integerOp_legal h (fun a b => b - a) s1 s2 d
  | cmpob | cmpib | cmpos | cmpis | cmpo | cmpi | concmpo | concmpi | scanbyte | chkbit =>
    exact compareOp_legal h _ _ _
  | cmpinco | cmpinci | cmpdeco | cmpdeci => exact compareStep_legal h _ _ _ _ _
  | shli =>
    exact withDst_legal h fun _ _ _ =>
      .ite (advance_setReg_legal h _ _) (intOverflow_legal (setReg_legal h _ _) _ _)
  | addc | subc =>
    exact withDst_legal h fun _ _ _ => advance_legal (setCc_legal (setReg_legal h _ _) _)
  | divo | remo | remi | modi =>
    exact divideOp_legal h _ _ _ fun _ _ _ => advance_setReg_legal h _ _
  | divi => exact divideOp_legal h _ _ _ fun _ _ _ => integerResult_legal h _ _
  | emul => exact execEmul_legal h _ _ _
  | ediv => exact execEdiv_legal h _ _ _
  | eshro => exact execEshro_legal h _ _ _
  | mov | movl | movt | movq => exact moveOp_legal h _ _ _
  | modify s1 s2 d => exact modifyOp_legal h (fun a b c => merge a b c) s1 s2 d
  | extract s1 s2 d =>
    exact modifyOp_legal h
      (fun a b c => (if 32 ≤ a.toNat then 0 else c >>> a.toNat) &&& lowMask b) s1 s2 d
  | spanbit | scanbit => exact withSrcDst_legal h fun _ _ => scanOp_legal h _ _
  | atmod | atadd => exact withDst_legal h fun _ _ _ => atomicOp_legal h _ _ _
  | modac s1 s2 d =>
    exact withDst_legal h fun _ _ _ => advance_setReg_legal (setAc_legal h _) _ _
  | modtc s1 s2 d =>
    exact withDst_legal h fun _ _ _ => advance_setReg_legal (setTc_legal h _) _ _
  | modpc s1 s2 d => exact execModpc_legal h s1 s2 d
  | intctl x d => exact execIntctl_legal h x d
  | intdis | inten => exact privileged_legal h (advance_legal h.keep)
  | halt x => exact execHalt_legal h x
  | sysctl s1 s2 d => exact execSysctl_legal h s1 s2 d
  | icctl s1 s2 d => exact execIcctl_legal h s1 s2 d
  | dcctl s1 s2 d => exact execDcctl_legal h s1 s2 d
  | addono | addog | addoe | addoge | addol | addone | addole | addoo | subono | subog | suboe
  | suboge | subol | subone | subole | suboo =>
    exact conditional_legal h _ _ _ _ fun _ _ _ => advance_setReg_legal h _ _
  | addino | addig | addie | addige | addil | addine | addile | addio | subino | subig | subie
  | subige | subil | subine | subile | subio =>
    exact conditional_legal h _ _ _ _ fun _ _ _ => integerResult_legal h _ _
  | selno | selg | sele | selge | sell | selne | selle | selo => exact selectOp_legal h _ _ _ _
  | testno | testg | teste | testge | testl | testne | testle | testo => exact testOp_legal h _ _
  | bbc | bbs => exact checkBitBranch_legal h _ _ _ _
  | cmpobg | cmpobe | cmpobge | cmpobl | cmpobne | cmpoble | cmpibno | cmpibg | cmpibe | cmpibge
  | cmpibl | cmpibne | cmpible | cmpibo => exact compareBranch_legal h _ _ _ _ _
  | b | bx | mark | fmark => exact retire_legal h _ _
  | bal => exact branchAndLink_legal h _ _ _
  | balx => exact execBalx_legal h _ _
  | bno | bg | be | bge | bl | bne | ble | bo => exact branchIf_legal h _ _
  | call | callx => exact callInstruction_legal h _ _ _ _ _ _ _
  | calls => exact execCalls_legal h _
  | ret => exact execRet_legal h
  | flushreg => exact execFlushreg_legal h
  | faultno | faultg | faulte | faultge | faultl | faultne | faultle | faulto =>
    exact faultIf_legal h _
  | syncf => exact advance_legal h
  | lda => exact execLda_legal h _ _
  | ld | ldob | ldos | ldib | ldis | ldl | ldt | ldq => exact loadOp_legal h _ _ _ _ _
  | st | stob | stos | stl | stt | stq => exact storeOp_legal h _ _ _ _
  | stib | stis => exact storeIntegerOp_legal h _ _ _

theorem fetchInstr_legal {s : State} (h : s.Legal) : (fetchInstr s).Legal := by
  unfold fetchInstr
  refine (fetchWord_legal h _).andGap.bind fun _ s h => ?_
  split
  · exact (fetchWord_legal h _).andGap.bind fun _ _ h => .ok h
  · exact .ok h

theorem runInstr_legal {s : State} (h : s.Legal) : EndsLegal (runInstr s) := by
  have hx := fetchInstr_legal (s := endLate s) h.keep
  unfold runInstr
  split
  · rename_i e
    exact exec_legal (hx.of_ok e) _
  · rename_i e
    exact raise_legal (hx.of_ok e) _ _ _
  · rename_i e
    exact raise_legal (hx.of_trap e) _ _ _
  · rename_i e
    exact .next (hx.of_over e)
  · exact .fault
  · exact .refused

theorem coreStep_legal {s : State} (h : s.Legal) : EndsLegal (coreStep s) := by
  unfold coreStep
  split
  · exact .next h
  · exact .next h
  · exact .refused
  · exact .ite (.next h) (coreInitialize_legal h)
  · refine .ite (.next h) ?_
    split
    · exact takeInterrupt_legal h _
    · exact .ite (.next h) (runInstr_legal h)

theorem step_legal {s : State} (h : s.Legal) : EndsLegal (step s) := by
  unfold step
  split
  · exact coreStep_legal (sampleInputs_legal h)
  · exact coreStep_legal (sampleInputs_legal h.keep)
  · exact perform_legal (sampleInputs_legal h.keep) _
  · exact (performAll_legal h.keep _).close fun _ _ h => .next h

/-- Settles O3: every operation on the way of a step keeps the invariant. -/
theorem stepKeepsLegal : Obligations.StepKeepsLegal := fun _ _ h e => (step_legal h).of_next e

/-- Settles O2. -/
theorem resetIsLegal : Obligations.ResetIsLegal := reset_legal

end Sys2Proof.Machine

end

