-- ==== Sys2Proof/Proofs/Registers.lean ====
section
/-! SUPPORT. Register groups and operand forms (O7), and the values at reset (O1). -/

namespace Sys2Proof.Machine

-- Proofs are elaborated one at a time: the check has memory for the stacks of few threads.
set_option Elab.async false

/-! ## Register groups -/

/-- The group of `k` registers from `n` on, as the obligations write it. -/
def regGroup (n : Reg) (k : Nat) : List Reg := (List.range k).map fun j => n + BitVec.ofNat 5 j

theorem regGroup_succ (n : Reg) (k : Nat) : regGroup n (k + 1) = n :: regGroup (n + 1) k := by
  have hj (j : Nat) : n + BitVec.ofNat 5 (j + 1) = n + 1 + BitVec.ofNat 5 j := by
    rw [Nat.add_comm j 1, BitVec.ofNat_add, BitVec.add_assoc]; rfl
  rw [regGroup, List.range_succ_eq_map, List.map_cons, List.map_map, BitVec.add_zero]
  exact congrArg _ (List.map_congr_left fun j _ => hj j)

/-- A group without r2 reads its registers (10_state.md R46). -/
theorem readRegs_eq_map {n : Reg} {k : Nat} (h : 2 ∉ regGroup n k) (s : State) (slot : Nat) :
    s.readRegs n slot k = (regGroup n k).map s.reg := by
  induction k generalizing n slot with
  | zero => rfl
  | succ k ih =>
    rw [regGroup_succ, List.mem_cons, not_or] at h
    obtain ⟨hn, hk⟩ := h
    rw [State.readRegs, readReg_of_ne (Ne.symm hn), ih hk, regGroup_succ, List.map_cons]

/-- `aligned` in the words of 10_state.md R49. -/
theorem aligned_iff {n : Reg} {k : Nat} (hk : 1 ≤ k) :
    aligned n k = true ↔ n.toNat % (if k = 1 then 1 else if k = 2 then 2 else 4) = 0 := by
  simp [aligned, groupAlign, show k ≤ 1 ↔ k = 1 by omega]

/-- An aligned group does not wrap: it holds r2 just when r2 lies between its ends. -/
theorem two_mem_regGroup {n : Reg} {k : Nat} (hk : k ≤ 4) (ha : aligned n k = true) :
    2 ∈ regGroup n k ↔ n.toNat ≤ 2 ∧ 2 < n.toNat + k := by
  have hn := n.isLt
  have hwrap : n.toNat + k ≤ 32 := by
    interval_cases k <;> simp [aligned, groupAlign] at ha <;> omega
  have h2 : (2 : Reg).toNat = 2 := rfl
  simp only [regGroup, List.mem_map, List.mem_range, ← BitVec.toNat_inj, BitVec.toNat_add,
    BitVec.toNat_ofNat, h2]
  constructor
  · rintro ⟨j, hj, e⟩; omega
  · rintro ⟨h1, h2⟩; exact ⟨2 - n.toNat, by omega, by omega⟩

theorem destGroup_eq_some {n : Reg} {k : Nat} (hk : k ≤ 4) (ha : aligned n k = true)
    (h2 : 2 ∉ regGroup n k) : destGroup n k = some n := by
  rw [two_mem_regGroup hk ha] at h2
  simp [destGroup, ha]
  omega

theorem destGroup_eq_none {n : Reg} {k : Nat} (hk : k ≤ 4)
    (h : aligned n k = false ∨ 2 ∈ regGroup n k) : destGroup n k = none := by
  cases ha : aligned n k with
  | false => simp [destGroup, ha]
  | true =>
    obtain ⟨h1, h2⟩ := (two_mem_regGroup hk ha).1 (h.resolve_left (by simp [ha]))
    simp [destGroup, h1, h2]

theorem dest_of_ne {n : Reg} (h : n ≠ 2) : dest (.reg n) = some n := if_neg h

theorem srcs_aligned {n : Reg} {k : Nat} (ha : aligned n k = true) (h2 : 2 ∉ regGroup n k)
    (s : State) (slot : Nat) : s.srcs (.reg n) k slot = some ((regGroup n k).map s.reg) := by
  rw [State.srcs, if_pos ha, readRegs_eq_map h2]

theorem srcs_misaligned {n : Reg} {k : Nat} (ha : aligned n k = false) (s : State) (slot : Nat) :
    s.srcs (.reg n) k slot = none := by
  rw [State.srcs, ha]; rfl

/-- A group written from `n` on reads back in order. -/
theorem reg_setRegs_getD (s : State) (n m : Reg) {vs : List Word} (h : vs.length ≤ 4) :
    (s.setRegs n vs).reg m = (vs[(m - n).toNat]?).getD (s.reg m) :=
  State.reg_setRegs s n m vs (by omega)

/-- Settles O7. -/
theorem registersAndOperands : Obligations.RegistersAndOperands := by
  intro s n m v vs l slot k q p
  refine ⟨State.reg_setReg s n m v, reg_setRegs_getD s n m, fun hn => ?_, ⟨rfl, rfl, rfl, rfl, rfl⟩,
    ⟨rfl, rfl, rfl⟩, fun hk1 hk4 => ?_⟩
  · have hr := readReg_of_ne hn s slot
    exact ⟨hr, congrArg some hr, hr, hr, congrArg some hr, dest_of_ne hn⟩
  · intro proper grp
    have hp : proper ↔ aligned n k = true := (aligned_iff hk1).symm
    have hnp : ¬ proper ↔ aligned n k = false := by rw [hp, Bool.not_eq_true]
    refine ⟨fun ha h2 => srcs_aligned (hp.1 ha) h2 s slot, fun ha => srcs_misaligned (hnp.1 ha) s slot,
      rfl, fun ha h2 => ?_, fun h => ?_, rfl⟩
    · exact ⟨destGroup_eq_some hk4 (hp.1 ha) h2, destGroup_eq_some hk4 (hp.1 ha) h2⟩
    · have h' := h.imp_left hnp.1
      exact ⟨destGroup_eq_none hk4 h', destGroup_eq_none hk4 h'⟩

/-! ## Reset -/

/-- Settles O1. -/
theorem resetValues : Obligations.ResetValues := by
  unfold Obligations.ResetValues
  refine ⟨?_, ?_, ?_, ?_, ?_, ?_, ?_⟩
  all_goals decide

end Sys2Proof.Machine

end

