-- ==== Sys2Proof/Proofs/Refusals.lean ====
section
/-! SUPPORT. Privileged instructions in user mode (O52) and stores that a check stops (O33). -/

namespace Sys2Proof.Machine

-- Proofs are elaborated one at a time: the check has memory for the stacks of few threads.
set_option Elab.async false

/-! ## Instructions refused in user mode -/

/-- A privileged instruction in user mode (47_processor_mgmt.md R620). -/
theorem privileged_user {s : State} (h : s.supervisor = false) (k : Res) :
    privileged s k = raise .mismatch .none (s.ip + 4) s := by
  simp [privileged, h]

/-- Settles O52. -/
theorem privilegedInstructions : Obligations.PrivilegedInstructions := by
  intro s s1 s2 d a b r hu h1 h2 h3
  have user := privileged_user hu
  refine ⟨fun hb => ?_, ?_, ?_, ?_, ?_, user _, user _, ?_⟩
  · change execModpc s1 s2 d s = _
    simp only [execModpc, h2, h3, if_neg hb, user]
  · change execSysctl s1 s2 d s = _
    simp only [execSysctl, h1, user]
  · change execIcctl s1 s2 d s = _
    simp only [execIcctl, h1, user]
  · change execDcctl s1 s2 d s = _
    simp only [execDcctl, h1, user]
  · change execIntctl s1 d s = _
    simp only [execIntctl, withSrcDst_of h1 h3, user]
  · change execHalt s1 s = _
    simp only [execHalt, h1, user]

/-! ## Stores that a protection check stops -/

section
variable {s : State} {m : MemOp} {t : Trap}

/-- A store instruction whose check fails raises that fault; the state is as it was (R281). -/
theorem storeOp_of_storeTrap {n : Nat} (h : s.storeTrap (s.efa m) n = some t) (k : Nat) (x : Reg) :
    storeOp n k x m s = raise t (access (s.efa m) n true) (s.ip + m.len) s := by
  simp only [storeOp, h]

theorem storeIntegerOp_of_storeTrap {n : Nat} (hn : n ≤ 4)
    (h : s.storeTrap (s.efa m) n = some t) (x : Reg) :
    storeIntegerOp n x m s = raise t (access (s.efa m) n true) (s.ip + m.len) s := by
  have hl (v : Word) : ((wordBytes v).take n).length = n := by simpa [wordBytes] using hn
  simp only [storeIntegerOp, store, hl, h, orRaise_trap]

theorem st_of_storeTrap (h : s.storeTrap (s.efa m) 4 = some t) (x : Reg) :
    exec (.st x m) s = raise t (access (s.efa m) 4 true) (s.ip + m.len) s :=
  storeOp_of_storeTrap h 1 x

/-- The stores of another size than a word, all stopped by the same check. -/
theorem stores_of_storeTrap (h : ∀ n ∈ [1, 2, 8, 12, 16], s.storeTrap (s.efa m) n = some t)
    (x : Reg) :
    exec (.stob x m) s = raise t (access (s.efa m) 1 true) (s.ip + m.len) s ∧
    exec (.stos x m) s = raise t (access (s.efa m) 2 true) (s.ip + m.len) s ∧
    exec (.stib x m) s = raise t (access (s.efa m) 1 true) (s.ip + m.len) s ∧
    exec (.stis x m) s = raise t (access (s.efa m) 2 true) (s.ip + m.len) s ∧
    exec (.stl x m) s = raise t (access (s.efa m) 8 true) (s.ip + m.len) s ∧
    exec (.stt x m) s = raise t (access (s.efa m) 12 true) (s.ip + m.len) s ∧
    exec (.stq x m) s = raise t (access (s.efa m) 16 true) (s.ip + m.len) s := by
  have h1 := h 1 (by decide)
  have h2 := h 2 (by decide)
  exact ⟨storeOp_of_storeTrap h1 1 x, storeOp_of_storeTrap h2 1 x,
    storeIntegerOp_of_storeTrap (by decide) h1 x, storeIntegerOp_of_storeTrap (by decide) h2 x,
    storeOp_of_storeTrap (h 8 (by decide)) 2 x, storeOp_of_storeTrap (h 12 (by decide)) 3 x,
    storeOp_of_storeTrap (h 16 (by decide)) 4 x⟩

end

/-- Data RAM is below core MMR space. -/
theorem badMmrAccess_low {a : Word} {n : Nat} (h : a.toNat + n ≤ 0xFF000000) :
    badMmrAccess a n = false := by
  simp [badMmrAccess, touchesMmr]
  omega

theorem storeTrap_ramProtected {s : State} {a : Word} {n : Nat} (hm : a.toNat + n ≤ 0xFF000000)
    (h : s.ramProtected a n = true) : s.storeTrap a n = some .mismatch := by
  simp [State.storeTrap, badMmrAccess_low hm, h]

theorem storeTrap_badMmrAccess {s : State} {a : Word} {n : Nat} (h : badMmrAccess a n = true) :
    s.storeTrap a n = some .unimplemented := by
  simp [State.storeTrap, h]

/-- The sizes of the stores other than `st`. -/
theorem size_bounds {n : Nat} (h : n ∈ [1, 2, 8, 12, 16]) : 1 ≤ n ∧ n ≤ 16 ∧ n ≠ 4 := by
  fin_cases h <;> decide

/-- Settles O33. -/
theorem storeProtection : Obligations.StoreProtection := by
  intro s x m
  refine ⟨fun ha hp => ?_, fun h40 ha hu hp => ?_, fun ha => ?_⟩
  · have h (n : Nat) (hn : n ≤ 16) : s.storeTrap (s.efa m) n = some .mismatch :=
      storeTrap_ramProtected (by omega) (by
        rcases hp with hp | hp <;> simp [State.ramProtected, ha, hp])
    exact ⟨st_of_storeTrap (h 4 (by decide)) x,
      stores_of_storeTrap (fun n hn => h n (size_bounds hn).2.1) x⟩
  · have h (n : Nat) (h0 : 1 ≤ n) (hn : n ≤ 16) : s.storeTrap (s.efa m) n = some .mismatch :=
      storeTrap_ramProtected (by omega) (by
        have : 0x40 < (s.efa m).toNat + n := by omega
        simp [State.ramProtected, ha, hu, hp, this])
    exact ⟨st_of_storeTrap (h 4 (by decide) (by decide)) x,
      stores_of_storeTrap (fun n hn => h n (size_bounds hn).1 (size_bounds hn).2.1) x⟩
  · have h (n : Nat) (h0 : 1 ≤ n) (hn : n ≠ 4 ∨ (s.efa m).toNat % 4 ≠ 0) :
        s.storeTrap (s.efa m) n = some .unimplemented :=
      storeTrap_badMmrAccess (by
        have : 0xFF000000 < (s.efa m).toNat + n := by omega
        simpa [badMmrAccess, touchesMmr, this] using hn)
    exact ⟨fun h4 => st_of_storeTrap (h 4 (by decide) (.inr h4)) x,
      stores_of_storeTrap (fun n hn => h n (size_bounds hn).1 (.inl (size_bounds hn).2.2)) x⟩

end Sys2Proof.Machine

end

