-- ==== Sys2Proof/Proofs/IllFormed.lean ====
section
/-! SUPPORT. What ill-formed operands do (O53). -/

namespace Sys2Proof.Machine

-- Proofs are elaborated one at a time: the check has memory for the stacks of few threads.
set_option Elab.async false

/-! ## Operand fields without a value or a register to write -/

theorem src_of_not_ok {x : Src} (h : x.ok = false) (s : State) (slot : Nat) :
    s.src x slot = none := by
  cases x with
  | sfr => rfl
  | reg | lit => cases h

theorem srcs_of_not_groupOk {x : Src} {k : Nat} (h : x.groupOk k = false) (s : State) (slot : Nat) :
    s.srcs x k slot = none := by
  cases x with
  | sfr => rfl
  | reg n => exact srcs_misaligned h s slot
  | lit => cases h

theorem cobrReg_of_not_ok {x : CReg} (h : x.ok = false) (s : State) (slot : Nat) :
    s.cobrReg x slot = none := by
  cases x with
  | sfr => rfl
  | reg => cases h

theorem destGroup_of_not_ok {n : Reg} {k : Nat} (h : destGroupOk n k = false) :
    destGroup n k = none :=
  if_neg (Bool.eq_false_iff.1 h)

theorem dests_of_not_ok {d : SrcDst} {k : Nat} (h : d.destOk k = false) : dests d k = none := by
  cases d with
  | reg => exact destGroup_of_not_ok h
  | lit => rfl

/-- A single destination is ill-formed only where it is r2 or a literal. -/
theorem dest_of_not_ok {d : SrcDst} (h : d.destOk 1 = false) : dest d = none := by
  cases d with
  | lit => rfl
  | reg n =>
    refine if_pos (BitVec.eq_of_toNat_eq (y := (2 : Reg)) ?_)
    have : (2 : Reg).toNat = 2 := rfl
    simp [SrcDst.destOk, destGroupOk, groupAligned] at h
    omega

/-! ## What each shape does with an ill-formed operand -/

section
variable {s1 s2 x : Src} {d : SrcDst} {r : Reg} {m : MemOp}

theorem withDst_illFormed (h : (s1.ok && s2.ok && d.destOk 1) = false) (s : State)
    (k : Word → Word → Reg → Res) : withDst s1 s2 d s k = invalidOperand 4 s := by
  simp only [Bool.and_eq_false_iff, or_assoc] at h
  unfold withDst
  split
  next e1 e2 e3 =>
    obtain h | h | h := h
    · simp [src_of_not_ok h] at e1
    · simp [src_of_not_ok h] at e2
    · simp [dest_of_not_ok h] at e3
  next => rfl

theorem withSrcs_illFormed (h : (s1.ok && s2.ok) = false) (s : State) (k : Word → Word → Res) :
    withSrcs s1 s2 s k = invalidOperand 4 s := by
  rw [Bool.and_eq_false_iff] at h
  unfold withSrcs
  split
  next e1 e2 =>
    obtain h | h := h
    · simp [src_of_not_ok h] at e1
    · simp [src_of_not_ok h] at e2
  next => rfl

theorem withSrcDst_illFormed (h : (x.ok && d.destOk 1) = false) (s : State)
    (k : Word → Reg → Res) : withSrcDst x d s k = invalidOperand 4 s := by
  rw [Bool.and_eq_false_iff] at h
  unfold withSrcDst
  split
  next e1 e2 =>
    obtain h | h := h
    · simp [src_of_not_ok h] at e1
    · simp [dest_of_not_ok h] at e2
  next => rfl

theorem execModpc_illFormed (h : (s2.ok && d.destOk 1) = false) (s : State) :
    execModpc s1 s2 d s = invalidOperand 4 s := by
  rw [Bool.and_eq_false_iff] at h
  unfold execModpc
  split
  next e1 e2 =>
    obtain h | h := h
    · simp [src_of_not_ok h] at e1
    · simp [dest_of_not_ok h] at e2
  next => rfl

theorem moveOp_illFormed {k : Nat} (h : (x.groupOk k && d.destOk k) = false) (s : State) :
    moveOp k x d s = invalidOperand 4 s := by
  rw [Bool.and_eq_false_iff] at h
  unfold moveOp
  split
  next e1 e2 =>
    obtain h | h := h
    · simp [srcs_of_not_groupOk h] at e1
    · simp [dests_of_not_ok h] at e2
  next => rfl

/-- `mov` takes one register, which is always aligned: only a reserved form has no value. -/
theorem groupOk_one (x : Src) : x.groupOk 1 = x.ok := by
  cases x <;> simp [Src.groupOk, Src.ok, groupAligned, Nat.mod_one]

theorem execEmul_illFormed (h : (s1.ok && s2.ok && d.destOk 2) = false) (s : State) :
    execEmul s1 s2 d s = invalidOperand 4 s := by
  simp only [Bool.and_eq_false_iff, or_assoc] at h
  unfold execEmul
  split
  next e1 e2 e3 =>
    obtain h | h | h := h
    · simp [src_of_not_ok h] at e1
    · simp [src_of_not_ok h] at e2
    · simp [dests_of_not_ok h] at e3
  next => rfl

theorem execEdiv_illFormed (h : (s1.ok && s2.groupOk 2 && d.destOk 2) = false) (s : State) :
    execEdiv s1 s2 d s = invalidOperand 4 s := by
  simp only [Bool.and_eq_false_iff, or_assoc] at h
  unfold execEdiv
  split
  next e1 e2 e3 =>
    obtain h | h | h := h
    · simp [src_of_not_ok h] at e1
    · simp [srcs_of_not_groupOk h] at e2
    · simp [dests_of_not_ok h] at e3
  next => rfl

theorem execEshro_illFormed (h : (s1.ok && s2.groupOk 2 && d.destOk 1) = false) (s : State) :
    execEshro s1 s2 d s = invalidOperand 4 s := by
  simp only [Bool.and_eq_false_iff, or_assoc] at h
  unfold execEshro
  split
  next e1 e2 e3 =>
    obtain h | h | h := h
    · simp [src_of_not_ok h] at e1
    · simp [srcs_of_not_groupOk h] at e2
    · simp [dest_of_not_ok h] at e3
  next => rfl

theorem execHalt_illFormed (h : x.ok = false) (s : State) : execHalt x s = invalidOperand 4 s := by
  simp only [execHalt, src_of_not_ok h]

theorem execCalls_illFormed (h : x.ok = false) (s : State) : execCalls x s = invalidOperand 4 s := by
  simp only [execCalls, src_of_not_ok h]

theorem testOp_illFormed (h : d.destOk 1 = false) (mask : BitVec 3) (s : State) :
    testOp mask d s = invalidOperand 4 s := by
  simp only [testOp, dest_of_not_ok h]

theorem checkBitBranch_illFormed {y : CReg} (h : y.ok = false) (want : Bool) (z : CSrc)
    (disp : BitVec 11) (s : State) : checkBitBranch want z y disp s = invalidOperand 4 s := by
  simp only [checkBitBranch, cobrReg_of_not_ok h]

theorem compareBranch_illFormed {y : CReg} (h : y.ok = false) (f : Word → Word → BitVec 3)
    (mask : BitVec 3) (z : CSrc) (disp : BitVec 11) (s : State) :
    compareBranch f mask z y disp s = invalidOperand 4 s := by
  simp only [compareBranch, cobrReg_of_not_ok h]

theorem loadOp_illFormed {k : Nat} (h : destGroupOk r k = false) (n : Nat)
    (f : List Byte → List Word) (s : State) : loadOp n k f m r s = invalidOperand m.len s := by
  simp only [loadOp, destGroup_of_not_ok h]

theorem execLda_illFormed (h : destGroupOk r 1 = false) (s : State) :
    execLda m r s = invalidOperand m.len s := by
  simp only [execLda, destGroup_of_not_ok h]

theorem execBalx_illFormed (h : destGroupOk r 1 = false) (s : State) :
    execBalx m r s = invalidOperand m.len s := by
  simp only [execBalx, destGroup_of_not_ok h]

/-- The double and quad word stores check alignment after protection (R281). -/
theorem storeOp_misaligned {k n : Nat} {s : State} (h : aligned r k = false)
    (ht : s.storeTrap (s.efa m) n = none) : storeOp n k r m s = invalidOperand m.len s := by
  simp [storeOp, ht, h]

/-- The encoder writes as many words as the addressing mode has (30_encoding.md R245). -/
theorem memWords_len (op : BitVec 8) (r : Reg) (m : MemOp) :
    BitVec.ofNat 32 (4 * (memWords op r m).length) = m.len := by
  cases m <;> rfl

end

/-! ## Every instruction -/

/-- The fault of an ill-formed instruction, its length the encoder's. -/
theorem exec_illFormed (s : State) {i : Instr} (hf : operandsFirst i = true)
    (h : i.wellFormed = false) :
    exec i s = invalidOperand (BitVec.ofNat 32 (4 * (encode i).length)) s := by
  cases i with
  | notbit | and | andnot | setbit | notand | xor | or | nor | xnor | ornot | clrbit | notor | nand
  | alterbit | addo | addi | subo | subi | shro | shrdi | shri | shlo | rotate | shli | cmpinco
  | cmpinci | cmpdeco | cmpdeci | addc | subc | atmod | atadd | modac | modify | extract | modtc
  | mulo | remo | divo | muli | remi | modi | divi | addono | addino | subono | subino | selno
  | addog | addig | subog | subig | selg | addoe | addie | suboe | subie | sele | addoge | addige
  | suboge | subige | selge | addol | addil | subol | subil | sell | addone | addine | subone
  | subine | selne | addole | addile | subole | subile | selle | addoo | addio | suboo | subio
  | selo =>
    exact withDst_illFormed h s _
  | not | bswap | spanbit | scanbit | intctl => exact withSrcDst_illFormed h s _
  | cmpob | cmpib | cmpos | cmpis | cmpo | cmpi | concmpo | concmpi | scanbyte | chkbit =>
    exact withSrcs_illFormed h s _
  | modpc s1 s2 d => exact execModpc_illFormed (s1 := s1) h s
  | mov x d => exact moveOp_illFormed ((groupOk_one x).symm ▸ h) s
  | movl | movt | movq => exact moveOp_illFormed h s
  | emul => exact execEmul_illFormed h s
  | ediv => exact execEdiv_illFormed h s
  | eshro => exact execEshro_illFormed h s
  | halt => exact execHalt_illFormed h s
  | calls => exact execCalls_illFormed h s
  | testno | testg | teste | testge | testl | testne | testle | testo =>
    exact testOp_illFormed h _ s
  | bbc | bbs => exact checkBitBranch_illFormed h _ _ _ s
  | cmpobg | cmpobe | cmpobge | cmpobl | cmpobne | cmpoble | cmpibno | cmpibg | cmpibe | cmpibge
  | cmpibl | cmpibne | cmpible | cmpibo => exact compareBranch_illFormed h _ _ _ _ s
  | ld | ldob | ldos | ldib | ldis | ldl | ldt | ldq =>
    exact (loadOp_illFormed h _ _ s).trans (by rw [encode, memWords_len])
  | lda => exact (execLda_illFormed h s).trans (by rw [encode, memWords_len])
  | balx => exact (execBalx_illFormed h s).trans (by rw [encode, memWords_len])
  | sysctl | icctl | dcctl | stl | stt | stq => cases hf
  | intdis | inten | mark | fmark | flushreg | syncf | b | call | ret | bal | bno | bg | be | bge
  | bl | bne | ble | bo | faultno | faultg | faulte | faultge | faultl | faultne | faultle | faulto
  | stob | bx | callx | stos | st | stib | stis => cases h

/-- Settles O53. -/
theorem illFormedOperandsFault : Obligations.IllFormedOperandsFault := by
  refine ⟨fun s i => exec_illFormed s, fun s x m => ⟨?_, ?_, ?_⟩, fun s s1 s2 d h => ⟨?_, ?_, ?_⟩⟩
  · exact storeOp_misaligned
  · exact storeOp_misaligned
  · exact storeOp_misaligned
  · change execSysctl s1 s2 d s = _
    simp only [execSysctl, src_of_not_ok h, invalidOperand]
  · change execIcctl s1 s2 d s = _
    simp only [execIcctl, src_of_not_ok h, invalidOperand]
  · change execDcctl s1 s2 d s = _
    simp only [execDcctl, src_of_not_ok h, invalidOperand]

end Sys2Proof.Machine

end

