-- ==== Sys2Proof/Proofs/Mmr.lean ====
section
/-! SUPPORT. Word accesses to the core and peripheral memory-mapped registers (O34). -/

namespace Sys2Proof.Machine

-- Proofs are elaborated one at a time: the check has memory for the stacks of few threads.
set_option Elab.async false

/-! ## Word accesses in one piece -/

section
variable {s s' : State} {a : Word}

theorem pieces_word (h4 : a.toNat % 4 = 0) : pieces a 4 4 = [(a, 4)] := by
  simp [pieces, h4, show a.toNat % 2 = 0 by omega]

theorem badMmrAccess_word (h4 : a.toNat % 4 = 0) : badMmrAccess a 4 = false := by
  simp [badMmrAccess, h4]

theorem load_word (h4 : a.toNat % 4 = 0) :
    load a 4 s = (loadPiece a 4 s).bind fun bs s => .ok bs s := by
  simp [load, badMmrAccess_word h4, pieces_word h4, loadPieces, gapBefore]

theorem store_word (h4 : a.toNat % 4 = 0) (ht : s.storeTrap a 4 = none) (v : Word) :
    store a (wordBytes v) s = (storePiece false a (wordBytes v) s).bind fun _ s => .ok () s := by
  have hv : (wordBytes v).take 4 = wordBytes v := rfl
  simp [store, ht, pieces_word h4, storePieces, gapBefore, hv]

theorem unaligned_word (h4 : a.toNat % 4 = 0) : s.unaligned a 4 = false := by
  simp [State.unaligned, boundary, h4]

theorem storeTrap_word (h4 : a.toNat % 4 = 0) (h : 0x400 ≤ a.toNat) : s.storeTrap a 4 = none := by
  simp [State.storeTrap, badMmrAccess_word h4, State.ramProtected]
  omega

/-- A word load that gives `w`: the register written, the rest as the load left it. -/
theorem exec_ld {m : MemOp} {d : Reg} {w : Word} (hd : d ≠ 2) (h4 : (s.efa m).toNat % 4 = 0)
    (hl : load (s.efa m) 4 s = .ok (wordBytes w) s') (te : s'.te = false) :
    exec (.ld m d) s = .next (((s'.setReg d w).setIp (s'.ip + m.len)).bump) := by
  change loadOp 4 1 bytesToWords m d s = _
  have hdg : destGroup d 1 = some d := destGroup_eq_some (by decide)
    (by simp [aligned, groupAlign, Nat.mod_one]) (by simpa [regGroup] using Ne.symm hd)
  have hw : bytesToWords (wordBytes w) = [w] := by
    simpa using bytesToWords_flatMap [w]
  simp only [loadOp, hdg, hl, orRaise_ok, hw, State.setRegs]
  rw [finishAccess, unaligned_word h4, if_neg (by decide), retire_quiet (by simpa using te)]

/-- A word store outside the data RAM is its one piece. -/
theorem exec_st_eq {m : MemOp} (h4 : (s.efa m).toNat % 4 = 0) (h : 0x400 ≤ (s.efa m).toNat)
    (x : Reg) : exec (.st x m) s =
      orRaise (access (s.efa m) 4 true) m.len s
        (storePiece false (s.efa m) (wordBytes (s.readReg x 40)) s) fun _ s' =>
          retire (access (s.efa m) 4 true) (s'.ip + m.len) s' := by
  change storeOp 4 1 x m s = _
  have ha : aligned x 1 = true := by simp [aligned, groupAlign, Nat.mod_one]
  have hb : ((s.readRegs x 40 1).flatMap wordBytes).take 4 = wordBytes (s.readReg x 40) := by
    simp [State.readRegs]
  simp only [storeOp, storeTrap_word h4 h, ha, hb, if_true, store_word h4 (storeTrap_word h4 h),
    finishAccess, unaligned_word h4, Bool.false_eq_true, if_false]
  cases storePiece false (s.efa m) (wordBytes (s.readReg x 40)) s <;> rfl

/-- A word store that goes through. -/
theorem exec_st {m : MemOp} {x : Reg} (h4 : (s.efa m).toNat % 4 = 0) (h : 0x400 ≤ (s.efa m).toNat)
    (hs : storePiece false (s.efa m) (wordBytes (s.readReg x 40)) s = .ok () s')
    (te : s'.te = false) : exec (.st x m) s = .next ((s'.setIp (s'.ip + m.len)).bump) := by
  rw [exec_st_eq h4 h, hs, orRaise_ok, retire_quiet te]

/-- A word store that traps leaves the state as it was. -/
theorem exec_st_trap {m : MemOp} {x : Reg} {t : Trap} (h4 : (s.efa m).toNat % 4 = 0)
    (h : 0x400 ≤ (s.efa m).toNat)
    (hs : storePiece false (s.efa m) (wordBytes (s.readReg x 40)) s = .trap t s) :
    exec (.st x m) s = raise t (access (s.efa m) 4 true) (s.ip + m.len) s := by
  rw [exec_st_eq h4 h, hs, orRaise_trap]

end

/-- The counter of free values is not part of an effect. -/
theorem Effect.of_bump {s t : State} {regs : List (Reg × Word)} {ac next : Word}
    (h : Effect s.bump t regs ac next) : Effect s t regs ac next :=
  { h with rest := h.rest }

/-! ## Core MMRs

`mmrLoad` and `mmrStore` are unfolded as constants, before they meet an address, as for the invariant:
the kernel must not count down from FF000000H. -/

/-- `r` is the core MMR at `a` (10_state.md R89). -/
abbrev IsMmr (a : Word) (r : Mmr) : Prop :=
  0xFF000000 ≤ a.toNat ∧ a.toNat % 4 = 0 ∧ mmrAt (a.toNat - 0xFF000000) = some r

theorem region_mmr {a : Word} (h : 0xFF000000 ≤ a.toNat) : region a = .mmr := by
  unfold region
  simp only [show ¬ a.toNat < 0x400 by omega, show ¬ a.toNat < 0x1000 by omega,
    show ¬ a.toNat < 0x1800 by omega, show ¬ a.toNat < 0x2000 by omega,
    show ¬ a.toNat < 0xFEFFFF60 by omega, show ¬ a.toNat < 0xFF000000 by omega, if_false]

theorem mmrLoad_of_isMmr {a : Word} {r : Mmr} (h : IsMmr a r) (hr : ∀ x, r ≠ .ipb x) (slot : Nat)
    (s : State) : mmrLoad a slot s = (s.mmrValue slot r, s.touchMmr r) := by
  obtain ⟨f, hf⟩ : ∃ f, f = mmrLoad := ⟨_, rfl⟩
  rw [← hf]
  delta mmrLoad at hf
  rw [hf]
  simp only [h.2.2]

/-- A word load of a core MMR (10_state.md R86, R87). -/
theorem load_mmr {s : State} {a : Word} {r : Mmr} (h : IsMmr a r) (hr : ∀ x, r ≠ .ipb x) :
    load a 4 s = .ok (wordBytes (s.mmrValue 0 r)) (s.touchMmr r).bump := by
  rw [load_word h.2.1, loadPiece, region_mmr h.1]
  simp only [mmrLoad_of_isMmr h hr, Eff.bind_ok]

theorem storePiece_mmr {s : State} {a : Word} (h : 0xFF000000 ≤ a.toNat) (v : Word) :
    storePiece false a (wordBytes v) s = mmrStore a v s := by
  simp only [storePiece, region_mmr h, bytesToWord_wordBytes]

theorem te_of_held {s t : State} (h : t.held = s.held) : t.te = s.te := by
  simp only [State.held, Prod.mk.injEq] at h
  simp only [State.te, h.2.2.2.1]

theorem ip_of_held {s t : State} (h : t.held = s.held) : t.ip = s.ip := by
  simp only [State.held, Prod.mk.injEq] at h
  exact h.2.1

/-- What a word load of a core MMR leaves. -/
theorem exec_ld_mmr {s : State} {m : MemOp} {d : Reg} {r : Mmr} (te : s.te = false) (hd : d ≠ 2)
    (h : IsMmr (s.efa m) r) (hr : ∀ x, r ≠ .ipb x) :
    exec (.ld m d) s = .next
      ((((s.touchMmr r).bump.setReg d (s.mmrValue 0 r)).setIp (s.ip + m.len)).bump) := by
  have hh : (s.touchMmr r).bump.held = s.held := held_touchMmr s r
  rw [exec_ld hd h.2.1 (load_mmr h hr) ((te_of_held hh).trans te), ip_of_held hh]

/-- A core MMR at `p.1` that a load leaves alone and that holds `p.2`. -/
def MmrHolds (s : State) (p : Word × Word) : Prop :=
  ∃ r, IsMmr p.1 r ∧ (∀ x, r ≠ .ipb x) ∧ s.touchMmr r = s ∧ s.mmrValue 0 r = p.2

theorem exec_ld_of_mmrHolds {s : State} {m : MemOp} {d : Reg} {p : Word × Word} (te : s.te = false)
    (hd : d ≠ 2) (h : MmrHolds s p) (ha : s.efa m = p.1) :
    ∃ t, exec (.ld m d) s = .next t ∧ Effect s t [(d, p.2)] s.ac (s.ip + m.len) := by
  obtain ⟨r, hr, hi, hs, hv⟩ := h
  refine ⟨_, exec_ld_mmr te hd (ha ▸ hr) hi, ?_⟩
  rw [hs, hv]
  exact (Effect.ofReg s.bump d p.2 (s.ip + m.len)).of_bump


/-! ## TMR0 -/

/-- With auto-reload on, TMR.tc reads a free value; else TMR reads as it stands (R932). -/
theorem mmrValue_tmr0 (s : State) (slot : Nat) :
    (s.timer0.tmr &&& 6 ≠ 6 → s.mmrValue slot (.tmr false) = s.timer0.tmr) ∧
      (s.timer0.tmr &&& 6 = 6 →
        s.mmrValue slot (.tmr false) &&& ~~~1 = s.timer0.tmr &&& 0x3E) := by
  have hb : s.timer0.tmr &&& 6 = 6 ↔ (bit s.timer0.tmr 1 && bit s.timer0.tmr 2) = true := by
    rw [Bool.and_eq_true, bit, bit]
    constructor
    · intro h
      have h1 := congrArg (·.getLsbD 1) h
      have h2 := congrArg (·.getLsbD 2) h
      simpa using And.intro h1 h2
    · rintro ⟨h1, h2⟩
      apply BitVec.eq_of_getLsbD_eq
      intro i hi
      interval_cases i <;> simp [h1, h2]
  have hv : s.mmrValue slot (.tmr false) = if bit s.timer0.tmr 1 && bit s.timer0.tmr 2 then
    (s.timer0.tmr &&& 0x3E) ||| (s.undef slot &&& 1) else s.timer0.tmr := rfl
  refine ⟨fun h => by rw [hv, if_neg (hb.not.1 h)], fun h => ?_⟩
  rw [hv, if_pos (hb.1 h)]
  have : (0x3E : Word) &&& ~~~1 = 0x3E := rfl
  have h1 : (1 : Word) &&& ~~~1 = 0#32 := rfl
  rw [BitVec.and_comm, BitVec.and_or_distrib_left]
  simp only [BitVec.and_comm (~~~1), BitVec.and_assoc, this, h1, BitVec.and_zero, BitVec.or_zero]

theorem exec_ld_tmr0 {s : State} {m : MemOp} {d : Reg} (te : s.te = false) (hd : d ≠ 2)
    (ha : s.efa m = 0xFF000308) :
    ∃ t, exec (.ld m d) s = .next t ∧ t.reg d = s.mmrValue 0 (.tmr false) ∧
      (∀ n, n ≠ d → t.reg n = s.reg n) ∧ t.ip = (s.ip + m.len) &&& 0xFFFFFFFC ∧
      t = { s with g := t.g, r := t.r, pfpDirty := t.pfpDirty, ip := t.ip, fresh := t.fresh
                   timer0 := { s.timer0 with tmr := s.timer0.tmr &&& 0x3E } } := by
  have hr : IsMmr (s.efa m) (.tmr false) := by rw [ha]; decide
  refine ⟨_, exec_ld_mmr te hd hr nofun, ?_⟩
  have e := Effect.ofReg (s.touchMmr (.tmr false)).bump d (s.mmrValue 0 (.tmr false)) (s.ip + m.len)
  refine ⟨e.written _ (List.mem_singleton_self _), fun n hn => ?_, e.ip, ?_⟩
  · exact e.others n fun p hp => by rw [List.mem_singleton.1 hp]; exact hn
  · exact e.rest.trans (by rw [e.ac]; rfl)

/-! ## Stores to core MMRs in supervisor mode -/

/-- A store that the mode allows goes to the register's own checks (10_state.md R86). -/
theorem mmrStore_of_isMmr {s : State} {a : Word} {r : Mmr} (h : IsMmr a r)
    (hs : s.supervisor = true ∨ a.toNat < 0xFF008000) (v : Word) :
    mmrStore a v s = writeMmr r v s := by
  obtain ⟨f, hf⟩ : ∃ f, f = mmrStore := ⟨_, rfl⟩
  rw [← hf]
  delta mmrStore at hf
  rw [hf]
  rcases hs with hs | ha
  · simp [h.2.2, hs]
  · have : ¬ 0x8000 ≤ a.toNat - 0xFF000000 := by omega
    simp [h.2.2, this]

/-- The register's own checks in supervisor mode, passed (10_state.md R86 item 3). -/
theorem writeMmr_ok {s : State} {v : Word} {r : Mmr} (hs : s.supervisor = true)
    (hr : r.needsRights = true → s.dbg.rights = true) (hi : r = .icon → iconLegal v = true)
    (hp : ∀ i, r = .pmcon i → pmconLegal v = true) : writeMmr r v s = .ok () (s.setMmr v r) := by
  have hr' : (r.needsRights && !s.dbg.rights) = false := by
    cases e : r.needsRights
    · rfl
    · simp [hr e]
  have hi' : (decide (r = .icon) && !iconLegal v) = false := by
    by_cases e : r = .icon
    · simp [hi e]
    · simp [e]
  unfold writeMmr
  dsimp only
  rw [hr', hi']
  cases r with
  | pmcon i => simp [Mmr.guardTimer, hp i rfl]
  | _ => simp [Mmr.guardTimer, hs]

theorem exec_st_mmr {s : State} {m : MemOp} {x : Reg} {r : Mmr} (te : s.te = false)
    (hs : s.supervisor = true) (h : IsMmr (s.efa m) r)
    (hr : r.needsRights = true → s.dbg.rights = true)
    (hi : r = .icon → iconLegal (s.readReg x 40) = true)
    (hp : ∀ i, r = .pmcon i → pmconLegal (s.readReg x 40) = true) :
    exec (.st x m) s = .next (((s.setMmr (s.readReg x 40) r).setIp (s.ip + m.len)).bump) := by
  have hh := held_setMmr s (s.readReg x 40) r
  have hst := (storePiece_mmr h.1 _).trans
    ((mmrStore_of_isMmr h (.inl hs) _).trans (writeMmr_ok hs hr hi hp))
  rw [exec_st h.2.1 (by have := h.1; omega) hst ((te_of_held hh).trans te), ip_of_held hh]

/-- A core MMR at `p.1` with no check but the mode, that a store of `v` leaves as `p.2` says. -/
def MmrTakes (s : State) (v : Word) (p : Word × State) : Prop :=
  ∃ r, IsMmr p.1 r ∧ r.needsRights = false ∧ r ≠ .icon ∧ (∀ i, r ≠ .pmcon i) ∧ s.setMmr v r = p.2

theorem exec_st_of_mmrTakes {s : State} {m : MemOp} {x : Reg} {p : Word × State} (te : s.te = false)
    (hs : s.supervisor = true) (h : MmrTakes s (s.readReg x 40) p) (ha : s.efa m = p.1) :
    exec (.st x m) s = .next ((p.2.setIp (s.ip + m.len)).bump) := by
  obtain ⟨r, hr, hn, hi, hp, hv⟩ := h
  rw [← hv]
  exact exec_st_mmr te hs (ha ▸ hr) (by simp [hn]) (fun e => absurd e hi) (fun i e => absurd e (hp i))

/-- A breakpoint register without the rights (62_tracing.md R900). -/
theorem writeMmr_rights {s : State} {r : Mmr} (hr : r.needsRights = true)
    (hd : s.dbg.rights = false) (v : Word) : writeMmr r v s = .trap .unimplemented s := by
  cases r with
  | ipb | dab | bpcon => simp [writeMmr, Mmr.guardTimer, Mmr.needsRights, hd]
  | _ => cases hr

/-- A breakpoint register at `p.1` that a store of `v` leaves as `p.2` says. -/
def BreakpointTakes (s : State) (v : Word) (p : Word × State) : Prop :=
  ∃ r, IsMmr p.1 r ∧ r.needsRights = true ∧ s.setMmr v r = p.2

theorem exec_st_of_breakpointTakes {s : State} {m : MemOp} {x : Reg} {p : Word × State}
    (te : s.te = false) (hs : s.supervisor = true) (h : BreakpointTakes s (s.readReg x 40) p)
    (ha : s.efa m = p.1) :
    (s.dbg.rights = true → exec (.st x m) s = .next ((p.2.setIp (s.ip + m.len)).bump)) ∧
      (s.dbg.rights = false →
        exec (.st x m) s = raise .unimplemented (access (s.efa m) 4 true) (s.ip + m.len) s) := by
  obtain ⟨r, hr, hn, hv⟩ := h
  rw [← ha] at hr
  rw [← hv]
  refine ⟨fun hd => exec_st_mmr te hs hr (fun _ => hd) ?_ ?_, fun hd => ?_⟩
  · rintro rfl; cases hn
  · rintro i rfl; cases hn
  · exact exec_st_trap hr.2.1 (by have := hr.1; omega)
      ((storePiece_mmr hr.1 _).trans
        ((mmrStore_of_isMmr hr (.inl hs) _).trans (writeMmr_rights hn hd _)))

/-! ## Stores to core MMR space in user mode -/

theorem mmrStore_supervisorSpace {s : State} {a : Word} (hu : s.supervisor = false)
    (h : 0xFF008000 ≤ a.toNat) (v : Word) : mmrStore a v s = .trap .mismatch s := by
  obtain ⟨f, hf⟩ : ∃ f, f = mmrStore := ⟨_, rfl⟩
  rw [← hf]
  delta mmrStore at hf
  rw [hf]
  have : 0x8000 ≤ a.toNat - 0xFF000000 := by omega
  simp [this, hu]

/-- A timer closed to user mode (63_timers.md R933). -/
theorem writeMmr_guarded {s : State} {r : Mmr} {y : Bool} (hu : s.supervisor = false)
    (hr : r.guardTimer = some y) (hy : bit (s.timer y).tmr 3 = true) (v : Word) :
    writeMmr r v s = .trap .mismatch s := by
  simp [writeMmr, hr, hu, hy]

theorem exec_st_guarded {s : State} {m : MemOp} {x : Reg} {r : Mmr} (hu : s.supervisor = false)
    (ht : s.timer0.tmr.getLsbD 3 = true) (h : IsMmr (s.efa m) r) (ha : (s.efa m).toNat < 0xFF008000)
    (hr : r.guardTimer = some false) :
    exec (.st x m) s = raise .mismatch (access (s.efa m) 4 true) (s.ip + m.len) s :=
  exec_st_trap h.2.1 (by have := h.1; omega)
    ((storePiece_mmr h.1 _).trans ((mmrStore_of_isMmr h (.inr ha) _).trans
      (writeMmr_guarded hu hr ht _)))

/-! ## Peripheral registers -/

/-- `a` is the word of the peripheral registers at offset `off` from 1000H, POCCDP excepted
(10_state.md R90). -/
abbrev IsPmmr (a : Word) (off : Nat) : Prop :=
  region a = .pmmr ∧ a.toNat % 4 = 0 ∧ 0x400 ≤ a.toNat ∧ isPoccdp a = false ∧
    (wordAddr a).toNat - 0x1000 = off

theorem laneBytes_word (w : Word) : laneBytes w 0 4 = wordBytes w := rfl

theorem laneWord_wordBytes (v : Word) : laneWord (wordBytes v) 0 = v := by
  simp [laneWord, bytesToWord_wordBytes]

/-- A word load of a peripheral register by a core that has the bus (10_state.md R91). -/
theorem load_pmmr {s : State} {a : Word} {off : Nat} (h : IsPmmr a off)
    (hg : s.coreGranted = true) : load a 4 s = .ok (wordBytes (s.pmmrWord off 0)) s.bump := by
  obtain ⟨hr, h4, -, hp, ho⟩ := h
  rw [load_word h4, loadPiece, hr]
  simp only [takeBus_granted hg, Eff.bind_ok, hp, Bool.false_eq_true, if_false, pmmrRead, ho,
    byteOffset, h4, laneBytes_word]

/-- A word store to a peripheral register by a core that has the bus, which stays up. -/
theorem storePiece_pmmr {s t : State} {a v : Word} {off : Nat} (h : IsPmmr a off)
    (hg : s.coreGranted = true) (hw : pmmrWriteWord off 0xFFFFFFFF v s = .ok () t)
    (hrun : t.run = s.run) : storePiece false a (wordBytes v) s = .ok () t := by
  obtain ⟨hr, h4, -, hp, ho⟩ := h
  have hm : laneMask (laneEnables 0 4) = 0xFFFFFFFF := by decide
  rw [storePiece, hr]
  simp only [takeBus_granted hg, Eff.bind_ok, hp, Bool.false_eq_true, if_false, pmmrWrite, ho,
    byteOffset, h4, wordBytes_length, laneWord_wordBytes, hm, hw, hrun, if_true]

/-- A peripheral register at `p.1` that holds `p.2`. -/
def PmmrHolds (s : State) (p : Word × Word) : Prop :=
  ∃ off, IsPmmr p.1 off ∧ s.pmmrWord off 0 = p.2

theorem exec_ld_of_pmmrHolds {s : State} {m : MemOp} {d : Reg} {p : Word × Word} (te : s.te = false)
    (hd : d ≠ 2) (hg : s.coreGranted = true) (h : PmmrHolds s p) (ha : s.efa m = p.1) :
    ∃ t, exec (.ld m d) s = .next t ∧ Effect s t [(d, p.2)] s.ac (s.ip + m.len) := by
  obtain ⟨off, hp, hv⟩ := h
  rw [← ha] at hp
  refine ⟨_, exec_ld hd hp.2.1 (load_pmmr hp hg) te, ?_⟩
  rw [hv]
  exact (Effect.ofReg s.bump d p.2 (s.ip + m.len)).of_bump

/-- A peripheral register at `p.1` that a store of `v` leaves as `p.2` says. -/
def PmmrTakes (s : State) (v : Word) (p : Word × State) : Prop :=
  ∃ off, IsPmmr p.1 off ∧ pmmrWriteWord off 0xFFFFFFFF v s = .ok () p.2 ∧ p.2.run = s.run ∧
    p.2.held = s.held

theorem exec_st_of_pmmrTakes {s : State} {m : MemOp} {x : Reg} {p : Word × State} (te : s.te = false)
    (hg : s.coreGranted = true) (h : PmmrTakes s (s.readReg x 40) p) (ha : s.efa m = p.1) :
    exec (.st x m) s = .next ((p.2.setIp (s.ip + m.len)).bump) := by
  obtain ⟨off, hp, hw, hr, hh⟩ := h
  rw [← ha] at hp
  rw [exec_st hp.2.1 hp.2.2.1 (storePiece_pmmr hp hg hw hr) ((te_of_held hh).trans te),
    ip_of_held hh]


/-- All byte lanes are enabled in a word store. -/
theorem ones_and (v : Word) : 4294967295#32 &&& v = v := BitVec.allOnes_and

theorem merge_ones (v old : Word) : merge 4294967295#32 v old = v := by
  rw [merge, BitVec.and_comm, ones_and]
  simp

/-! ## The accesses together -/

/-- Settles O34: each list of the statement names the registers at its addresses, in order, the core
MMRs by name and the peripheral registers by offset from 1000H. -/
theorem mmrAccess : Obligations.MmrAccess := by
  intro s m d x v te hd hv fault
  subst hv
  refine ⟨fun p hp => exec_ld_of_mmrHolds te hd (List.forall_iff_forall_mem.1 ?coreLoads p hp),
    fun p hp hg => exec_ld_of_pmmrHolds te hd hg (List.forall_iff_forall_mem.1 ?peripheralLoads p hp),
    ?tmr0Load,
    fun hs => ⟨fun p hp => exec_st_of_mmrTakes te hs (List.forall_iff_forall_mem.1 ?coreStores p hp),
      fun p hp => exec_st_of_breakpointTakes te hs
        (List.forall_iff_forall_mem.1 ?breakpointStores p hp),
      ?iconStore, ?pmconStore, ?tmr0Store⟩,
    fun p hp hg => exec_st_of_pmmrTakes te hg (List.forall_iff_forall_mem.1 ?peripheralStores p hp),
    ?supervisorSpace, ?guardedTimer⟩
  case coreLoads =>
    refine ⟨⟨.trr false, ?_⟩, ⟨.tcr false, ?_⟩, ⟨.trr true, ?_⟩, ⟨.tcr true, ?_⟩, ⟨.dlmcon, ?_⟩,
      ⟨.lmadr false, ?_⟩, ⟨.lmmr false, ?_⟩, ⟨.lmadr true, ?_⟩, ⟨.lmmr true, ?_⟩, ⟨.dab false, ?_⟩,
      ⟨.dab true, ?_⟩, ⟨.bpcon, ?_⟩, ⟨.ipnd, ?_⟩, ⟨.imsk, ?_⟩, ⟨.icon, ?_⟩, ⟨.imap0, ?_⟩,
      ⟨.imap1, ?_⟩, ⟨.imap2, ?_⟩, ⟨.pmcon 0, ?_⟩, ⟨.pmcon 1, ?_⟩, ⟨.pmcon 2, ?_⟩, ⟨.pmcon 3, ?_⟩,
      ⟨.pmcon 4, ?_⟩, ⟨.pmcon 5, ?_⟩, ⟨.pmcon 6, ?_⟩, ⟨.pmcon 7, ?_⟩, ⟨.bcon, ?_⟩, ⟨.prcb, ?_⟩,
      ⟨.isp, ?_⟩, ⟨.ssp, ?_⟩⟩
    all_goals exact ⟨by dsimp only; decide, nofun, rfl, rfl⟩
  case peripheralLoads =>
    refine ⟨⟨0x200, ?_⟩, ⟨0x204, ?_⟩, ⟨0x240, ?_⟩, ⟨0x254, ?_⟩, ⟨0x288, ?_⟩, ⟨0x290, ?_⟩, ⟨0x2C8, ?_⟩,
      ⟨0x310, ?_⟩, ⟨0x318, ?_⟩, ⟨0x320, ?_⟩, ⟨0x328, ?_⟩, ⟨0x32C, ?_⟩, ⟨0x334, ?_⟩, ⟨0x400, ?_⟩,
      ⟨0x404, ?_⟩, ⟨0x450, ?_⟩, ⟨0x500, ?_⟩, ⟨0x504, ?_⟩, ⟨0x51C, ?_⟩, ⟨0x538, ?_⟩, ⟨0x53C, ?_⟩,
      ⟨0x600, ?_⟩, ⟨0x604, ?_⟩, ⟨0x680, ?_⟩, ⟨0x684, ?_⟩, ⟨0x690, ?_⟩⟩
    all_goals exact ⟨by dsimp only; decide, by simp [State.pmmrWord, State.atuRead, Mu.read, Dma.read,
      MemCtl.read, I2c.read]⟩
  case tmr0Load =>
    intro ha
    obtain ⟨t, e, hr, ho, hi, hrest⟩ := exec_ld_tmr0 te hd ha
    exact ⟨t, e, by rw [hr]; exact mmrValue_tmr0 s 0, ho, hi, hrest⟩
  case coreStores =>
    refine ⟨⟨.dlmcon, ?_⟩, ⟨.lmadr false, ?_⟩, ⟨.lmmr false, ?_⟩, ⟨.lmadr true, ?_⟩, ⟨.lmmr true, ?_⟩,
      ⟨.ipnd, ?_⟩, ⟨.imsk, ?_⟩, ⟨.imap0, ?_⟩, ⟨.imap1, ?_⟩, ⟨.imap2, ?_⟩, ⟨.bcon, ?_⟩, ⟨.prcb, ?_⟩,
      ⟨.isp, ?_⟩, ⟨.ssp, ?_⟩, ⟨.trr false, ?_⟩, ⟨.tcr false, ?_⟩, ⟨.trr true, ?_⟩, ⟨.tcr true, ?_⟩⟩
    all_goals exact ⟨by dsimp only; decide, rfl, nofun, nofun, rfl⟩
  case breakpointStores =>
    refine ⟨⟨.ipb false, ?_⟩, ⟨.ipb true, ?_⟩, ⟨.dab false, ?_⟩, ⟨.dab true, ?_⟩, ⟨.bpcon, ?_⟩⟩
    all_goals exact ⟨by dsimp only; decide, rfl, rfl⟩
  case iconStore =>
    intro ha h14 h9
    exact exec_st_mmr (r := .icon) te hs (by rw [ha]; decide) nofun
      (fun _ => by rw [iconLegal, h14, decide_eq_true h9]; rfl) nofun
  case pmconStore =>
    intro i ha hw
    have hi : ∀ i : Fin 8, IsMmr (0xFF008600 + BitVec.ofNat 32 (8 * i.val)) (.pmcon i) := by decide
    exact exec_st_mmr (r := .pmcon i) te hs (ha ▸ hi i) nofun nofun fun _ _ => decide_eq_true hw
  case tmr0Store =>
    intro ha
    exact ⟨_, exec_st_mmr (r := .tmr false) te hs (by rw [ha]; decide) nofun nofun nofun, rfl, rfl,
      rfl, rfl, rfl⟩
  case peripheralStores =>
    refine ⟨⟨0x2C8, ?_⟩, ⟨0x310, ?_⟩, ⟨0x318, ?_⟩, ⟨0x320, ?_⟩, ⟨0x32C, ?_⟩, ⟨0x504, ?_⟩, ⟨0x53C, ?_⟩,
      ⟨0x600, ?_⟩, ⟨0x688, ?_⟩⟩
    all_goals
      refine ⟨by dsimp only; decide, ?_, rfl, rfl⟩
      simp [pmmrWriteWord, atuBlockWrite, Mu.write, MemCtl.write, I2c.write, ones_and,
        merge_ones]
    all_goals rfl
  case supervisorSpace =>
    intro hu ha h4
    exact exec_st_trap h4 (by omega) ((storePiece_mmr (by omega) _).trans
      (mmrStore_supervisorSpace hu ha _))
  case guardedTimer =>
    intro hu ht ha
    have hr : ∃ r, IsMmr (s.efa m) r ∧ (s.efa m).toNat < 0xFF008000 ∧ r.guardTimer = some false := by
      obtain ha | ha | ha := ha <;> rw [ha]
      · exact ⟨.trr false, by decide⟩
      · exact ⟨.tcr false, by decide⟩
      · exact ⟨.tmr false, by decide⟩
    obtain ⟨r, hr, hlt, hg⟩ := hr
    exact exec_st_guarded hu ht hr hlt hg

end Sys2Proof.Machine

end

