-- ==== Sys2Proof/Proofs/Prcb.lean ====
section
/-! SUPPORT. PRCB processing of an image in memory (spec/70_reset_and_hazards.md R1325). -/

namespace Sys2Proof.Machine

-- Proofs are elaborated one at a time: the check has memory for the stacks of few threads.
set_option Elab.async false

/-! ## Reads that initialization makes -/

/-- The parts of the state that a load from memory depends on. -/
def State.busView (s : State) : List Host.Cell × Atu × MemCtl × Board × List Turn × Arbiter :=
  (s.mem, s.atu, s.mc, s.board, s.schedule, s.arb)

section
variable {s t : State}

theorem holds_of_busView {a v : Word} (e : t.busView = s.busView) (h : s.holds a v) :
    t.holds a v := by
  simp only [State.busView, Prod.mk.injEq] at e
  obtain ⟨hmem, ha, hm, hb, -, -⟩ := e
  obtain ⟨k, hp, hr⟩ := h
  exact ⟨k, fun i hi => (cell_congr ha hm hb _).trans (hp i hi), by rw [hmem, hr]⟩

theorem undisturbed_of_busView (e : t.busView = s.busView) (h : s.undisturbed) : t.undisturbed := by
  simp only [State.busView, Prod.mk.injEq] at e
  obtain ⟨-, -, -, -, hs, ha⟩ := e
  exact undisturbed_congr hs ha h

/-- Everything of the image stands where it stood. -/
theorem hasImage_of_busView {p : Word} {i : Image} (e : t.busView = s.busView)
    (h : s.HasImage p i) : t.HasImage p i :=
  { h with
    words := fun x hx => holds_of_busView e (h.words x hx)
    controls := fun j hj => holds_of_busView e (h.controls j hj) }

theorem loadWord_gap {a v : Word} (hu : s.undisturbed) (h : s.holds a v) :
    (loadWord a s).andGap = .ok v s := by
  rw [loadWord_holds h (hu.alone _ _), Eff.andGap_ok v hu]

/-- Words loaded one by one at rising addresses, each where memory holds it. -/
theorem loadEach_holds {a : Word} {ws : List Word} (hu : s.undisturbed)
    (h : ∀ j (hj : j < ws.length), s.holds (a + BitVec.ofNat 32 (4 * j)) ws[j]) :
    loadEach a ws.length s = .ok ws s := by
  induction ws generalizing a with
  | nil => rfl
  | cons w ws ih =>
    have h0 : s.holds a w := by
      have := h 0 (Nat.zero_lt_succ _)
      simpa using this
    have ht := ih (a := a + 4) fun j hj => by
      have := h (j + 1) (by simpa using hj)
      rwa [show 4 * (j + 1) = 4 + 4 * j by omega, BitVec.ofNat_add, ← BitVec.add_assoc] at this
    rw [List.length_cons, loadEach, loadWord_holds h0 (hu.alone _ _), Eff.bind_ok,
      gap_undisturbed hu, ite_self, Eff.bind_ok, ht, Eff.bind_ok]

/-- The same at falling addresses. -/
theorem loadDown_holds {a : Word} {ws : List Word} (hu : s.undisturbed)
    (h : ∀ j (hj : j < ws.length), s.holds (a - BitVec.ofNat 32 (4 * j)) ws[j]) :
    loadDown a ws.length s = .ok ws s := by
  induction ws generalizing a with
  | nil => rfl
  | cons w ws ih =>
    have h0 : s.holds a w := by
      have := h 0 (Nat.zero_lt_succ _)
      simpa using this
    have ht := ih (a := a - 4) fun j hj => by
      have := h (j + 1) (by simpa using hj)
      rwa [show 4 * (j + 1) = 4 + 4 * j by omega, BitVec.ofNat_add, ← BitVec.sub_sub] at this
    rw [List.length_cons, loadDown, loadWord_holds h0 (hu.alone _ _), Eff.bind_ok,
      gap_undisturbed hu, ite_self, Eff.bind_ok, ht, Eff.bind_ok]

end

/-! ## PRCB processing -/

/-- The control registers, each from its word of the control table (R1324). -/
theorem loadControls_eq (ws : List Word) (s : State) :
    loadControls ws s = { s with
      intc := { s.intc with
        imap0 := ws.getD 0 0 &&& 0xFFFF
        imap1 := ws.getD 1 0 &&& 0xFFFF
        imap2 := ws.getD 2 0 &&& 0x00FF0000
        icon := ws.getD 3 0 &&& 0x7C00 }
      bus := { s.bus with
        pmcon := Vector.ofFn fun j : Fin 8 => ws.getD (4 + 2 * j.val) 0 &&& 0x00C00000 } } := by
  have hp : (loadControls ws s).bus.pmcon =
      Vector.ofFn fun j : Fin 8 => ws.getD (4 + 2 * j.val) 0 &&& 0x00C00000 := by
    ext j hj
    simp only [Vector.getElem_ofFn]
    interval_cases j <;> simp [loadControls, State.setMmr]
  rw [← hp]
  simp only [loadControls, State.setMmr]

/-- The state after PRCB processing of the image `i` with its PRCB at `p` (70_reset_and_hazards.md
R1325). -/
def prcbLoaded (p : Word) (i : Image) (s : State) : State :=
  { s with
    prcb := p
    faultBase := i.faultBase
    ctrlBase := i.ctrlBase
    intBase := i.intBase
    sptBase := i.sptBase
    isp := i.isp
    ssp := i.ssp &&& 0xFFFFFFFC
    sspTe := bit i.ssp 0
    ac := i.ac &&& acMask
    tc := i.tc &&& tcMask
    unalignedFault := !bit i.faultConfig 30
    icEnabled := !bit i.cacheConfig 16
    g := s.g.set 15 i.isp
    r := newLocals s.fresh i.isp (i.isp + 64)
    rc := []
    rcLimit := i.limit.extractLsb' 8 3
    frameAddr := i.isp
    pfpDirty := false
    dirtyFrames := []
    kept := []
    mem := Memory.writeBytes (Memory.dropBelow s.mem 0x400) 0 (wordBytes i.nmi)
    intc := { s.intc with
      blockNmi := false
      imap0 := i.controls.getD 0 0 &&& 0xFFFF
      imap1 := i.controls.getD 1 0 &&& 0xFFFF
      imap2 := i.controls.getD 2 0 &&& 0x00FF0000
      icon := i.controls.getD 3 0 &&& 0x7C00 }
    bus := { s.bus with
      pmcon := Vector.ofFn fun j : Fin 8 => i.controls.getD (4 + 2 * j.val) 0 &&& 0x00C00000
      bcon := i.bcon &&& 7 }
    dbg := { s.dbg with ipb0 := 0, ipb1 := 0, dab0 := 0, dab1 := 0 }
    timer0 := Timer.cleared (s.undef 60) (s.undef 61)
    timer1 := Timer.cleared (s.undef 62) (s.undef 63)
    fresh := s.fresh + 1 }

section
variable {s : State} {p : Word} {i : Image}

/-- ICON and the bus widths of an image are values the source defines. -/
theorem State.HasImage.controlsRefused (h : s.HasImage p i) : controlsRefused i.controls = none := by
  have hi : iconLegal (i.controls.getD 3 0) = true := by
    rw [iconLegal, bit, h.icon.1, decide_eq_true h.icon.2]; rfl
  have hw : (List.range 8).all (fun j => pmconLegal (i.controls.getD (4 + 2 * j) 0)) = true :=
    List.all_eq_true.2 fun j hj => decide_eq_true (h.widths j (List.mem_range.1 hj))
  rw [Machine.controlsRefused, hi, hw]; rfl

/-- A base that is aligned and placed as R1318 asks. -/
theorem State.HasImage.placed_ok (h : s.HasImage p i) {b : Word} {n : Nat}
    (hb : (b, n) ∈ [(p, 40), (i.faultBase, 256), (i.ctrlBase, 112), (i.intBase, 1028),
      (i.sptBase, 1088)]) : misaligned b = false ∧ reservedImage b n = false := by
  obtain ⟨h3, hlo, hhi⟩ := h.placed _ hb
  have h4 : b.toNat % 4 = 0 := by
    have e := congrArg BitVec.toNat h3
    rwa [BitVec.toNat_and, show (3 : Word).toNat = 2 ^ 2 - 1 from rfl,
      Nat.and_two_pow_sub_one_eq_mod] at e
  simp only at hlo hhi
  refine ⟨by simp [misaligned, h4], ?_⟩
  simp only [reservedImage, Bool.or_eq_false_iff, decide_eq_false_iff_not]
  omega

theorem processTables_hasImage (hu : s.undisturbed) (h : s.HasImage p i) (hp : s.prcb = p)
    (hf : s.faultBase = i.faultBase) (hc : s.ctrlBase = i.ctrlBase) (hi : s.intBase = i.intBase)
    (hs : s.sptBase = i.sptBase) (ha : s.ac = i.ac &&& acMask)
    (hu' : s.unalignedFault = !bit i.faultConfig 30) (hn : s.intc.blockNmi = false) :
    processTables p s = .ok () (prcbLoaded p i s) := by
  have word {a v : Word} (hm : (a, v) ∈ _) : (loadWord a s).andGap = .ok v s :=
    loadWord_gap hu (h.words (a, v) hm)
  have hcs : (loadEach (i.ctrlBase + 0x10) 19 s).andGap = .ok i.controls s := by
    rw [← h.length, loadEach_holds hu h.controls, Eff.andGap_ok _ hu]
  have hb : s.holds (i.ctrlBase + 0x6C) i.bcon := h.words (i.ctrlBase + 108, i.bcon) (by simp)
  unfold processTables
  rw [word (a := p + 0x1C) (v := i.isp) (by simp), Eff.bind_ok,
    word (a := p + 0x20) (v := i.cacheConfig) (by simp), Eff.bind_ok, hi,
    word (a := i.intBase + 996) (v := i.nmi) (by simp), Eff.bind_ok, hs,
    word (a := i.sptBase + 0x0C) (v := i.ssp) (by simp), Eff.bind_ok,
    word (a := p + 0x24) (v := i.limit) (by simp), Eff.bind_ok, hc, hcs, Eff.bind_ok, hc,
    word (a := i.ctrlBase + 0x68) (v := i.tc) (by simp), Eff.bind_ok,
    hc, loadWord_holds hb (hu.alone _ _), Eff.bind_ok, h.controlsRefused]
  simp only [loadControls_eq, firstFrame, cacheNmiVector, State.setTc, State.setMmr, prcbLoaded,
    State.undef, hp, hf, hc, hi, hs, ha, hu', hn]

/-- PRCB processing of an image that stands in memory (R1325). -/
theorem processPrcb_hasImage (hu : s.undisturbed) (h : s.HasImage p i) :
    processPrcb p s = .ok () (prcbLoaded p i s) := by
  have hu' : State.undisturbed { s with prcb := p } := hu
  have hw : loadEach p 6 { s with prcb := p } =
      .ok [i.faultBase, i.ctrlBase, i.ac, i.faultConfig, i.intBase, i.sptBase] { s with prcb := p } := by
    refine loadEach_holds (ws := [_, _, _, _, _, _]) hu fun j hj => ?_
    have word {a v : Word} (hm : (a, v) ∈ _) : State.holds { s with prcb := p } a v :=
      h.words (a, v) hm
    simp only [List.length_cons, List.length_nil] at hj
    interval_cases j
    · exact word (by simp)
    · exact word (by simp)
    · exact word (by simp)
    · exact word (by simp)
    · exact word (by simp)
    · exact word (by simp)
  obtain ⟨mp, rp⟩ := h.placed_ok (b := p) (n := 40) (by simp)
  obtain ⟨mf, rf⟩ := h.placed_ok (b := i.faultBase) (n := 256) (by simp)
  obtain ⟨mc, rc⟩ := h.placed_ok (b := i.ctrlBase) (n := 112) (by simp)
  obtain ⟨mi, ri⟩ := h.placed_ok (b := i.intBase) (n := 1028) (by simp)
  obtain ⟨ms, rs⟩ := h.placed_ok (b := i.sptBase) (n := 1088) (by simp)
  unfold processPrcb
  rw [rp, if_neg (by decide), hw, Eff.andGap_ok _ hu', Eff.bind_ok]
  simp only [List.getD_cons_zero, List.getD_cons_succ, loadPointers, mp, mf, mc, mi, ms, rf, rc, ri,
    rs, Bool.or_false, Bool.false_eq_true, if_false]
  exact processTables_hasImage (undisturbed_of_busView (s := s) rfl hu)
    (hasImage_of_busView (s := s) rfl h) rfl rfl rfl rfl rfl rfl rfl rfl

end

/-! ## What PRCB processing leaves -/

/-- Forgetting the low cells leaves the others. -/
theorem Memory.get_dropBelow (m : List Host.Cell) {n k : Nat} (hk : n ≤ k) :
    Memory.get (Memory.dropBelow m n) k = Memory.get m k := by
  induction m with
  | nil => rfl
  | cons c m ih =>
    obtain ⟨a, b⟩ := c
    rw [Memory.dropBelow] at ih ⊢
    by_cases ha : n ≤ a
    · rw [List.filter_cons_of_pos (by simpa using ha), Memory.get, Memory.get, ih]
    · rw [List.filter_cons_of_neg (by simpa using ha), ih, Memory.get, if_neg (by omega),
        if_neg (by omega)]

/-- The key of memory outside the data RAM is at least 400H. -/
theorem le_of_cell {s : State} {x : Word} {k : Nat} (hx : 0x400 ≤ x.toNat) (h : s.cell x = some k) :
    0x400 ≤ k := by
  unfold State.cell at h
  split at h
  · injection h with h; omega
  · split at h
    · rename_i ht
      injection h with h
      have := target_key ht
      omega
    · cases h
  · cases h

/-- The NMI vector in word 0 of the data RAM leaves the memory elsewhere (R1325). -/
theorem peek_cacheNmi {s t : State} (v : Word) (ha : t.atu = s.atu) (hm : t.mc = s.mc)
    (hb : t.board = s.board) (hmem : t.mem = (cacheNmiVector v s).mem) {x : Word}
    (hx : 0x400 ≤ x.toNat) : t.peek x = s.peek x := by
  rw [peek_eq, peek_eq, cell_congr ha hm hb]
  cases hc : s.cell x with
  | none => rfl
  | some k =>
    have hk := le_of_cell hx hc
    have hlen : (wordBytes v)[k - 0]? = none :=
      List.getElem?_eq_none (by rw [wordBytes_length]; omega)
    rw [Option.map_some, Option.map_some, hmem, cacheNmiVector, Memory.read_writeBytes,
      if_pos (Nat.zero_le _), hlen, Option.getD_none, Memory.read, Memory.get_dropBelow _ hk,
      Memory.read]

theorem bytesAt_cacheNmi {s t : State} (v : Word) (hmem : t.mem = (cacheNmiVector v s).mem) :
    t.bytesAt 0 (wordBytes v) := by
  intro j hj
  have hj4 : j < 4 := hj
  have hn : (0 + BitVec.ofNat 32 j : Word).toNat = j := by
    rw [BitVec.toNat_add, BitVec.toNat_ofNat, show (0 : Word).toNat = 0 from rfl]; omega
  have hr : region (0 + BitVec.ofNat 32 j) = .ram := by
    unfold region
    simp only [hn, show j < 0x400 by omega, if_true]
  rw [State.peek, hr]
  simp only [hn, hmem, cacheNmiVector, Memory.read_writeBytes, Nat.zero_le, if_true, Nat.sub_zero,
    List.getElem?_eq_getElem hj, Option.getD_some]


/-- The image is loaded, from the state `u` in which PRCB processing begins, `u` having the memory, the
board and the units of `s` and the caches off; the registers that start the program are free. -/
theorem loaded_of_prcbLoaded {s u : State} {p : Word} {i : Image} (g : Vector Word 16)
    (ip : Word) (fresh : Nat) (hg : g[15] = i.isp)
    (hmem : u.mem = s.mem) (hboard : u.board = s.board)
    (hunits : u.cpcu = s.cpcu ∧ u.mc = s.mc ∧ u.arb = s.arb ∧ u.atu = s.atu ∧ u.mu = s.mu ∧
      u.dma0 = s.dma0 ∧ u.dma1 = s.dma1 ∧ u.i2c = s.i2c ∧ u.tap = s.tap)
    (hdc : u.dcEnabled = false) (hic : u.icLocked = 0) :
    Loaded s { prcbLoaded p i u with g := g, ip := ip, fresh := fresh } p i where
  pointers := ⟨rfl, rfl, rfl, rfl, rfl, rfl⟩
  frame := ⟨hg, newLocals_one _ _ _, newLocals_zero _ _ _, rfl⟩
  limit := by
    change (i.limit.extractLsb' 8 3).toNat = _
    rw [BitVec.extractLsb'_toNat, Nat.shiftRight_eq_div_pow]
  supervisorStack := ⟨rfl, rfl⟩
  ac := rfl
  faultConfig := rfl
  caches := ⟨rfl, hdc, hic⟩
  tc := rfl
  maps := ⟨rfl, rfl, rfl⟩
  icon := rfl
  pmcon := fun j => Vector.getElem_ofFn j.isLt
  bcon := rfl
  nmi := ⟨rfl, bytesAt_cacheNmi (s := u) i.nmi rfl⟩
  breakpoints := ⟨rfl, rfl, rfl, rfl⟩
  timers := ⟨rfl, rfl⟩
  memory := fun x hx => by
    obtain ⟨-, hm, -, ha, -⟩ := hunits
    refine Eq.trans ?_ (peek_congr ha hm hboard hmem x)
    exact peek_cacheNmi (s := u) (t := { prcbLoaded p i u with g := g, ip := ip, fresh := fresh })
      i.nmi rfl rfl rfl rfl hx
  units := hunits

/-! ## `sysctl` message 03H -/

/-- The global registers but g15 destroyed, execution goes on at `start`. -/
theorem destroyGlobals_setIp_bump (s : State) (start : Word) :
    ((destroyGlobals s).setIp start).bump =
      { s with g := (destroyGlobals s).g, ip := start &&& 0xFFFFFFFC, fresh := s.fresh + 2 } := by
  simp only [destroyGlobals, State.setIp, State.bump]

theorem destroyGlobals_g15 (s : State) : (destroyGlobals s).g[15] = s.g[15] := by
  simp [destroyGlobals]

theorem prcbLoaded_g15 (p : Word) (i : Image) (s : State) : (prcbLoaded p i s).g[15] = i.isp := by
  simp [prcbLoaded]

/-- The state in which `sysctl` reinitialize processes the PRCB: both caches off (R1330). -/
def cachesOff (s : State) : State :=
  { s with icEnabled := false, icLocked := 0, dcEnabled := false, stale := [] }

theorem reinitialize_hasImage {s : State} {p : Word} {i : Image} (hu : s.undisturbed)
    (h : s.HasImage p i) (start : Word) :
    reinitialize p start s =
      .ok () ((destroyGlobals (prcbLoaded p i (cachesOff s))).setIp start) := by
  have hp := processPrcb_hasImage (s := cachesOff s) (undisturbed_of_busView (s := s) rfl hu)
    (hasImage_of_busView (s := s) rfl h)
  rw [cachesOff] at hp
  rw [reinitialize, hp, Eff.bind_ok, cachesOff]

/-- `sysctl` message 03H with its image in memory (47_processor_mgmt.md R661). -/
theorem exec_sysctl_reinitialize {s : State} {i : Image} {s1 s2 : Src} {d : SrcDst} {a start : Word}
    {r : Reg} (hu : s.undisturbed) (hs : s.supervisor = true) (te : s.te = false)
    (h1 : s.src s1 30 = some a) (ha : a.toNat / 256 % 256 = 3) (h2 : s.src s2 31 = some start)
    (hd : dest d = some r) (h : s.HasImage (s.reg r) i) :
    exec (.sysctl s1 s2 d) s =
      .next ((destroyGlobals (prcbLoaded (s.reg r) i (cachesOff s))).setIp start).bump := by
  have hf : field a 8 8 = 3 := ha
  have hv : s.srcDst d 32 = s.reg r := by
    have hr := ne_two_of_dest hd
    cases d with
    | lit => cases hd
    | reg n =>
      have : n = r := by
        rw [dest, writable] at hd
        split at hd
        · cases hd
        · exact Option.some.inj hd
      subst this
      exact readReg_of_ne hr s 32
  change execSysctl s1 s2 d s = _
  simp only [execSysctl, h1, privileged, hs, if_true, systemControl, hf, reinitializeCore, h2, hv,
    reinitialize_hasImage hu h, orRaise_ok]
  refine traceAfter_quiet ?_ _ _
  simpa only [State.te, destroyGlobals, State.setIp, prcbLoaded, cachesOff] using te

end Sys2Proof.Machine

end

