-- ==== Sys2Proof/Proofs/Initialization.lean ====
section
/-! SUPPORT. Initialization after reset and by `sysctl` message 03H (O60). -/

namespace Sys2Proof.Machine

-- Proofs are elaborated one at a time: the check has memory for the stacks of few threads.
set_option Elab.async false

/-- The end of message 03H as the obligation says it (R661, R1330). -/
theorem loaded_reinitialize (s : State) (p start : Word) (i : Image) :
    Loaded s ((destroyGlobals (prcbLoaded p i (cachesOff s))).setIp start).bump p i := by
  rw [destroyGlobals_setIp_bump]
  exact loaded_of_prcbLoaded _ _ _ ((destroyGlobals_g15 _).trans (prcbLoaded_g15 p i _)) rfl rfl
    ⟨rfl, rfl, rfl, rfl, rfl, rfl, rfl, rfl, rfl⟩ rfl rfl

/-! ## The boot record -/

/-- A byte whose top bits are not 11 is a bus width that the source defines (R1314; 20_memory.md
R176). -/
theorem pmconLegal_width (w : Byte) (h : w.toNat / 64 ≠ 3) :
    pmconLegal ((bytesToWord [w] &&& 0xC0) <<< 16) = true := by
  revert w
  decide

/-- The core at the start of its boot record: its inputs sampled, initialization entered (R1310). -/
def booting (s : State) : State := enterInitialize { sampleInputs s with run := .ready }

/-- The same with the bus width byte in PMCON14_15 (R1314). -/
def bootWidth (width : Byte) (s : State) : State :=
  { booting s with bus := { (booting s).bus with
      pmcon := (booting s).bus.pmcon.set 7 ((bytesToWord [width] &&& 0xC0) <<< 16) } }

/-- Sampling the inputs changes the interrupt controller only. -/
theorem sampleInputs_eq (s : State) : sampleInputs s = { s with intc := (sampleInputs s).intc } := by
  unfold sampleInputs
  dsimp only
  split <;> rfl

theorem sampleInputs_busView (s : State) : (sampleInputs s).busView = s.busView := by
  rw [sampleInputs_eq]; rfl

theorem booting_busView (s : State) : (booting s).busView = s.busView := sampleInputs_busView s

theorem bootWidth_busView (w : Byte) (s : State) : (bootWidth w s).busView = s.busView :=
  sampleInputs_busView s

theorem readBootRecord_holds {s : State} {width : Byte} {firstIp p c0 c1 c2 c3 c4 c5 : Word}
    (hu : s.undisturbed) (hp : ∃ k, s.plain 0xFEFFFF38 1 k) (hw : s.bytesAt 0xFEFFFF38 [width])
    (hl : width.toNat / 64 ≠ 3) (h0 : s.holds 0xFEFFFF40 firstIp) (h1 : s.holds 0xFEFFFF44 p)
    (hc0 : s.holds 0xFEFFFF48 c0) (hc1 : s.holds 0xFEFFFF4C c1) (hc2 : s.holds 0xFEFFFF50 c2)
    (hc3 : s.holds 0xFEFFFF54 c3) (hc4 : s.holds 0xFEFFFF58 c4) (hc5 : s.holds 0xFEFFFF5C c5) :
    readBootRecord (booting s) = .ok (firstIp, p, [c5, c4, c3, c2, c1, c0]) (bootWidth width s) := by
  have e := booting_busView s
  have e' := bootWidth_busView width s
  have hb : (booting s).undisturbed := undisturbed_of_busView e hu
  have hb' : (bootWidth width s).undisturbed := undisturbed_of_busView e' hu
  have hload : (load 0xFEFFFF38 1 (booting s)).andGap = .ok [width] (booting s) := by
    simp only [State.busView, Prod.mk.injEq] at e
    obtain ⟨hmem, ha, hm, hbo, -, -⟩ := e
    obtain ⟨k, hk⟩ := hp
    have hk' : (booting s).plain 0xFEFFFF38 1 k := fun j hj => (cell_congr ha hm hbo _).trans (hk j hj)
    have hr := readBytes_of_bytesAt (bs := [width]) hk hw
    rw [load_plain hk' (by simp [isSize]) (hb.alone _ _), Eff.andGap_ok _ hb, hmem]
    exact congrArg (Eff.ok · _) hr
  have word {a v : Word} (h : s.holds a v) :
      (loadWord a (bootWidth width s)).andGap = .ok v (bootWidth width s) :=
    loadWord_gap hb' (holds_of_busView e' h)
  have hdown : (loadDown 0xFEFFFF5C 6 (bootWidth width s)).andGap =
      .ok [c5, c4, c3, c2, c1, c0] (bootWidth width s) := by
    rw [← Eff.andGap_ok _ hb']
    refine congrArg Eff.andGap (loadDown_holds (ws := [_, _, _, _, _, _]) hb' fun j hj => ?_)
    simp only [List.length_cons, List.length_nil] at hj
    refine holds_of_busView e' ?_
    interval_cases j
    · exact hc5
    · exact hc4
    · exact hc3
    · exact hc2
    · exact hc1
    · exact hc0
  unfold readBootRecord
  rw [hload, Eff.bind_ok]
  dsimp only
  rw [if_pos (pmconLegal_width width hl)]
  change ((loadWord 0xFEFFFF40 (bootWidth width s)).andGap.bind _) = _
  rw [word h0, Eff.bind_ok, word h1, Eff.bind_ok, hdown, Eff.bind_ok]

/-! ## The bus confidence test -/

/-- One addition of the test as the obligation writes it: the carry is not cut to one bit. -/
def addCheck (a : Nat × Nat) (w : Word) : Nat × Nat :=
  ((w.toNat + a.1 + a.2) % 2 ^ 32, (w.toNat + a.1 + a.2) / 2 ^ 32)

/-- A sum of two words and a carry carries one bit at most, so the carry need not be cut. -/
theorem addWithCarry_eq {a : Nat × Nat} (h1 : a.1 < 2 ^ 32) (h2 : a.2 ≤ 1) (w : Word) :
    addWithCarry w.toNat a = addCheck a w ∧ (addCheck a w).1 < 2 ^ 32 ∧ (addCheck a w).2 ≤ 1 := by
  have hw := w.isLt
  refine ⟨Prod.ext rfl ?_, ?_, ?_⟩ <;> simp only [addWithCarry, addCheck] <;> omega

theorem foldl_addWithCarry (ws : List Word) {a : Nat × Nat} (h1 : a.1 < 2 ^ 32) (h2 : a.2 ≤ 1) :
    ws.foldl (fun acc w => addWithCarry w.toNat acc) a = ws.foldl addCheck a := by
  induction ws generalizing a with
  | nil => rfl
  | cons w ws ih =>
    obtain ⟨e, l1, l2⟩ := addWithCarry_eq h1 h2 w
    rw [List.foldl_cons, List.foldl_cons, e, ih l1 l2]

theorem confidenceSum_eq (firstIp p : Word) (ws : List Word) :
    confidenceSum firstIp p ws =
      (p.toNat + firstIp.toNat + (ws.foldl addCheck (0xFFFFFFFF, 0)).1 +
        (ws.foldl addCheck (0xFFFFFFFF, 0)).2) % 2 ^ 32 := by
  rw [confidenceSum, foldl_addWithCarry ws (a := (0xFFFFFFFF, 0)) (by decide) (by decide)]
  rfl

/-- A core that has the bus stops with its fail code, whatever the code's address answers (R1313). -/
theorem failStop_run {s : State} (h : s.coreGranted = true) (code : Word) :
    (failStop code s).run = .stopped code := by
  unfold failStop
  rw [takeBus_granted h, Eff.bind_ok]
  unfold busRead
  split
  next e => rfl
  next e => split at e <;> cases e
  next => rfl

/-! ## The core turn -/

/-- A core that is starting and may move initializes, its inputs sampled (R1310). -/
theorem step_starting {s : State} (hs : s.schedule = []) (hr : s.run = .starting)
    (hh : s.coreHeld = false) : step s = coreInitialize (sampleInputs s) := by
  have hr' : (sampleInputs s).run = .starting := by rw [sampleInputs_eq]; exact hr
  have hh' : (sampleInputs s).coreHeld = false := by rw [sampleInputs_eq]; exact hh
  simp only [step, hs, coreStep, hr', hh', Bool.false_eq_true, if_false]

/-- No self test fails, with the inputs sampled as without (R1312). -/
theorem sampleInputs_noSelfTest {s : State}
    (ht : s.board.stest = false ∨ s.board.bistMask &&& 0x7C = 0) :
    ((sampleInputs s).board.stest &&
      (sampleInputs s).board.bistMask.setWidth 32 &&& 0x7C != 0) = false := by
  rw [sampleInputs_eq]
  obtain ht | ht := ht
  · simp [ht]
  · have : s.board.bistMask.setWidth 32 &&& (0x7C : Word) = (s.board.bistMask &&& 0x7C).setWidth 32 := by
      rw [BitVec.setWidth_and]; rfl
    rw [this, ht]
    simp

section
variable {s t : State} (ht : s.board.stest = false ∨ s.board.bistMask &&& 0x7C = 0)
include ht

theorem coreInitialize_ok (h : (readBootRecord (booting s)).bind startUp = .ok () t) :
    coreInitialize (sampleInputs s) = .next t.bump := by
  rw [booting] at h
  simp only [coreInitialize, sampleInputs_noSelfTest ht, Bool.false_eq_true, if_false, h]

theorem coreInitialize_over (h : (readBootRecord (booting s)).bind startUp = .over t) :
    coreInitialize (sampleInputs s) = .next t := by
  rw [booting] at h
  simp only [coreInitialize, sampleInputs_noSelfTest ht, Bool.false_eq_true, if_false, h]

end

/-- The state in which a started core runs its first instruction (R1320, R1335). -/
def started (p firstIp : Word) (i : Image) (u : State) : State :=
  { prcbLoaded p i u with
    g := (destroyGlobals (prcbLoaded p i u)).g.set 0 Machine.deviceId
    ip := firstIp &&& 0xFFFFFFFC
    fresh := (prcbLoaded p i u).fresh + 2 }

theorem startUp_hasImage {u : State} {p firstIp : Word} {i : Image} {ws : List Word}
    (hu : u.undisturbed) (h : u.HasImage p i) (h0 : confidenceSum firstIp p ws = 0) :
    ∃ t, startUp (firstIp, p, ws) u = .ok () t ∧ t.bump = started p firstIp i u := by
  unfold startUp
  rw [if_pos h0, processPrcb_hasImage hu h, Eff.bind_ok]
  refine ⟨_, rfl, ?_⟩
  simp only [destroyGlobals, State.setIp, State.bump, started]

theorem loaded_started (s : State) (width : Byte) (p firstIp : Word) (i : Image) :
    Loaded s (started p firstIp i (bootWidth width s)) p i := by
  have hg : ((destroyGlobals (prcbLoaded p i (bootWidth width s))).g.set 0 Machine.deviceId)[15] =
      i.isp := by
    rw [Vector.getElem_set_ne (by decide) (by decide) (by decide), destroyGlobals_g15, prcbLoaded_g15]
  have he := sampleInputs_eq s
  refine loaded_of_prcbLoaded _ _ _ hg ?_ ?_ ?_ rfl rfl
  · rw [bootWidth, booting, he]; rfl
  · rw [bootWidth, booting, he]; rfl
  · rw [bootWidth, booting, he]
    exact ⟨rfl, rfl, rfl, rfl, rfl, rfl, rfl, rfl, rfl⟩

/-- Settles O60: after reset by one core turn, then by `sysctl` message 03H. -/
theorem initialization : Obligations.Initialization := by
  intro s i hu
  refine ⟨?_, ?_⟩
  · intro width firstIp p c0 c1 c2 c3 c4 c5 hs hr hh ht hp hw hl h0 h1 hc0 hc1 hc2 hc3 hc4 hc5 add acc
      sum
    have hb := readBootRecord_holds hu hp hw hl h0 h1 hc0 hc1 hc2 hc3 hc4 hc5
    have hsum : confidenceSum firstIp p [c5, c4, c3, c2, c1, c0] = sum := confidenceSum_eq _ _ _
    have hu' : (bootWidth width s).undisturbed := undisturbed_of_busView (bootWidth_busView width s) hu
    rw [step_starting hs hr hh]
    refine ⟨fun hne => ?_, fun hz hi => ?_⟩
    · have hover : (readBootRecord (booting s)).bind startUp =
          .over (failStop 0xFEFFFF64 (bootWidth width s)) := by
        rw [hb, Eff.bind_ok, startUp, if_neg (by rw [hsum]; exact hne)]
      exact ⟨_, coreInitialize_over ht hover, failStop_run hu'.1 _⟩
    · obtain ⟨t, e, hbump⟩ := startUp_hasImage hu'
        (hasImage_of_busView (bootWidth_busView width s) hi) (hsum.trans hz)
      have hok : (readBootRecord (booting s)).bind startUp = .ok () t := by rw [hb, Eff.bind_ok, e]
      exact ⟨_, hbump ▸ coreInitialize_ok ht hok, loaded_started s width p firstIp i, rfl, rfl, rfl,
        rfl, Vector.getElem_set_self _⟩
  · intro s1 s2 d a start r hsup te h1 ha h2 hd hi
    refine ⟨_, exec_sysctl_reinitialize hu hsup te h1 ha h2 hd hi,
      loaded_reinitialize s (s.reg r) start i, rfl, rfl, rfl, rfl, rfl, rfl, rfl, rfl, rfl, rfl, rfl⟩

end Sys2Proof.Machine

end

section
/-! SUPPORT. Memory: stores read back (O8), accesses off their natural boundary (O32), and the cache
controls (O50). -/

namespace Sys2Proof.Machine

-- Proofs are elaborated one at a time: the check has memory for the stacks of few threads.
set_option Elab.async false

/-! ## Stores that are read back -/

/-- What writing the bytes of a run of cells leaves: the bytes there, and every byte elsewhere. -/
theorem withMem_stored {s : State} {a : Word} {bs : List Byte} {key : Nat}
    (hp : s.plainW a bs.length key) (st : List (Nat × Word)) :
    (s.withMem (Memory.writeBytes s.mem key bs) st).bytesAt a bs ∧
    ∀ x, outside a bs.length x →
      (s.withMem (Memory.writeBytes s.mem key bs) st).peek x = s.peek x := by
  have hr := State.plain_of_plainW hp
  refine ⟨bytesAt_write hr rfl rfl rfl rfl, fun x hx => peek_write hr ?_ ?_ ?_ ?_ hx⟩ <;> rfl

/-- Settles O8. -/
theorem memoryWriteReadsBack : Obligations.MemoryWriteReadsBack := by
  intro s a bs hm hq
  obtain ⟨ht, key, hp⟩ := hm
  have made : ∃ st, store a bs s = .ok () (s.withMem (Memory.writeBytes s.mem key bs) st) := by
    rcases hq with hu | ⟨hg, hn, ho⟩
    · rw [store, ht]
      exact storePieces_plain _ hu.1 hp (Nat.le_refl _) (.inl hu)
    · exact store_plain ht hp (by simpa [isSize] using hn) ⟨hg, .inr ho⟩
  obtain ⟨st, hs⟩ := made
  obtain ⟨hin, hout⟩ := withMem_stored hp st
  exact ⟨_, hs, hin, hout, fun hw => Memory.wf_writeBytes hw key bs⟩

/-! ## Accesses off their natural boundary

The access is made first; then the fault is raised or the instruction ends (20_memory.md R148). -/

/-- Off its natural boundary an access is unaligned as soon as the fault is enabled. -/
theorem unaligned_offBoundary {s : State} {a : Word} {n : Nat} (h : a.toNat % boundary n ≠ 0) :
    s.unaligned a n = s.unalignedFault := by
  simp [State.unaligned, h]

theorem finishAccess_unaligned {s : State} {a : Word} {n : Nat} (h : s.unaligned a n = true)
    (ev : Events) (next : Word) : finishAccess a n ev next s = raise (.unaligned a) ev next s := by
  rw [finishAccess, if_pos h]

/-- With the overflow fault masked and tracing off, AC.of is set and the instruction completes. -/
theorem intOverflow_masked {s : State} (te : s.te = false) (hom : bit s.ac 12 = true) (ev : Events)
    (len : Word) : intOverflow ev len s =
      .next ((s.withAc (setBit s.ac 8 true)).setIp (s.ip + len)).bump := by
  rw [intOverflow, if_pos hom]
  exact retire_quiet (s := s.withAc (setBit s.ac 8 true)) te _ _

/-- A short as a word. -/
theorem bytesToWord_pair (u v : Byte) : bytesToWord [u, v] = (v ++ u).setWidth 32 := by
  apply BitVec.eq_of_getLsbD_eq
  intro i hi
  simp only [bytesToWord, BitVec.getLsbD_or, BitVec.getLsbD_setWidth, BitVec.getLsbD_shiftLeft,
    BitVec.getLsbD_append]
  by_cases h : i < 8
  · simp [h, hi]
  · simp [h, hi, show i - 8 < 32 by omega, BitVec.getLsbD_of_ge u i (by omega)]

section
variable {s : State} {m : MemOp}

/-- A load off its boundary: with the fault enabled it is raised with the destination written, else
the load completes. -/
theorem loadOp_offBoundary {d r : Reg} {n k key : Nat} {bs : List Byte} {ws : List Word}
    {f : List Byte → List Word} (hu : s.undisturbed) (hn : isSize n) (hl : bs.length = n)
    (hf : f bs = ws) (hw : ws.length = k) (hk : 0 < k ∧ k ≤ 32)
    (hb : (s.efa m).toNat % boundary n ≠ 0) (hp : s.plain (s.efa m) n key)
    (hm : s.bytesAt (s.efa m) bs) (hd : destGroup d k = some r) :
    (s.unalignedFault = true → loadOp n k f m d s =
      raise (.unaligned (s.efa m)) (access (s.efa m) n false) (s.ip + m.len) (s.setRegs r ws)) ∧
    (s.unalignedFault = false → s.te = false →
      ∃ t, loadOp n k f m d s = .next t ∧ t.reg r = ws.headD 0) := by
  subst hl hf
  refine ⟨fun he => ?_, fun he te => ?_⟩
  · simp only [loadOp, hd, load_plain hp hn (hu.alone _ _), readBytes_of_bytesAt hp hm, orRaise_ok]
    exact finishAccess_unaligned (by simp [unaligned_offBoundary hb, he]) _ _
  · obtain ⟨t, ht, eff⟩ := loadOp_plain (f := f) te rfl hn (hu.alone _ _) hp hm
      ((unaligned_offBoundary hb).trans he) hd (hw ▸ hk.2)
    obtain ⟨w, ws, e⟩ := List.exists_cons_of_length_pos (hw ▸ hk.1)
    rw [e] at eff ⊢
    exact ⟨t, ht, eff.written (r, w) List.mem_cons_self⟩

/-- A store off its boundary: with the fault enabled it is raised with the bytes in memory, else the
store completes. -/
theorem storeOp_offBoundary {x : Reg} {n k : Nat} {bs : List Byte} (hu : s.undisturbed)
    (hn : isSize n) (hl : bs.length = n) (hbs : ((s.readRegs x 40 k).flatMap wordBytes).take n = bs)
    (hb : (s.efa m).toNat % boundary n ≠ 0) (hm : s.mayStore (s.efa m) n)
    (ha : aligned x k = true) :
    (s.unalignedFault = true → ∃ t, t.bytesAt (s.efa m) bs ∧
      (∀ z, outside (s.efa m) n z → t.peek z = s.peek z) ∧
      t = { s with mem := t.mem, stale := t.stale } ∧
      storeOp n k x m s =
        raise (.unaligned (s.efa m)) (access (s.efa m) n true) (s.ip + m.len) t) ∧
    (s.unalignedFault = false → s.te = false →
      ∃ t, storeOp n k x m s = .next t ∧ t.bytesAt (s.efa m) bs) := by
  refine ⟨fun he => ?_, fun he te => ?_⟩
  · obtain ⟨ht, key, hp⟩ := hm
    subst hl
    obtain ⟨st, hs⟩ := store_plain ht hp hn (hu.alone _ _)
    obtain ⟨hin, hout⟩ := withMem_stored hp st
    refine ⟨_, hin, hout, rfl, ?_⟩
    simp only [storeOp, ht, ha, if_true, hbs, hs, orRaise_ok]
    exact finishAccess_unaligned (by simp [unaligned_offBoundary hb, he]) _ _
  · obtain ⟨t, ht, eff⟩ := storeOp_plain te hn (hu.alone _ _) hm ha
      ((unaligned_offBoundary hb).trans he) hbs hl
    exact ⟨t, ht, eff.stored⟩

/-- An integer store off its boundary: the alignment fault comes before integer overflow (R296),
which is masked where the store completes. -/
theorem storeIntegerOp_offBoundary {x : Reg} {n : Nat} {bs : List Byte} (hu : s.undisturbed)
    (hn : isSize n) (hl : bs.length = n) (hbs : (wordBytes (s.readReg x 40)).take n = bs)
    (hb : (s.efa m).toNat % boundary n ≠ 0) (hm : s.mayStore (s.efa m) n) :
    (s.unalignedFault = true → ∃ t, t.bytesAt (s.efa m) bs ∧
      (∀ z, outside (s.efa m) n z → t.peek z = s.peek z) ∧
      t = { s with mem := t.mem, stale := t.stale } ∧
      storeIntegerOp n x m s =
        raise (.unaligned (s.efa m)) (access (s.efa m) n true) (s.ip + m.len) t) ∧
    (s.unalignedFault = false → s.te = false → bit s.ac 12 = true →
      ∃ t, storeIntegerOp n x m s = .next t ∧ t.bytesAt (s.efa m) bs) := by
  obtain ⟨ht, key, hp⟩ := hm
  subst hl
  obtain ⟨st, hs⟩ := store_plain ht hp hn (hu.alone _ _)
  obtain ⟨hin, hout⟩ := withMem_stored hp st
  have hr := State.plain_of_plainW hp
  refine ⟨fun he => ⟨_, hin, hout, rfl, ?_⟩, fun he te hom => ?_⟩
  · simp only [storeIntegerOp, hbs, hs, orRaise_ok]
    rw [State.withMem_unaligned, unaligned_offBoundary hb, if_pos he, State.withMem_ip]
  · simp only [storeIntegerOp, hbs, hs, orRaise_ok]
    rw [State.withMem_unaligned, unaligned_offBoundary hb, if_neg (by simp [he])]
    split
    · exact ⟨_, retire_quiet (by simpa using te) _ _, (StoreEffect.ofStore hr st _).stored⟩
    · exact ⟨_, intOverflow_masked (by simpa using te) (by simpa using hom) _ _,
        (StoreEffect.ofWrite hr st _ _).stored⟩

end

/-- Settles O32. -/
theorem unalignedAccessFaults : Obligations.UnalignedAccessFaults := by
  intro s m d r x u v a b c e hu
  have size : ∀ n ∈ [2, 4, 8, 12, 16], isSize n := by unfold isSize; decide
  refine ⟨fun key => ?ld, fun key => ?ldos, fun key => ?ldis, fun key => ?ldl, fun key => ?ldt,
    fun key => ?ldq, ?st, ?stos, ?stl, ?stt, ?stq, ?stis⟩
  case ld =>
    exact loadOp_offBoundary hu (size 4 (by decide)) rfl (bytesToWords_flatMap [a]) rfl (by decide)
  case ldos =>
    exact loadOp_offBoundary hu (size 2 (by decide)) rfl (by rw [bytesToWord_pair]) rfl (by decide)
  case ldis =>
    exact loadOp_offBoundary hu (size 2 (by decide)) rfl (by simp [bytesToWord_pair]) rfl
      (by decide)
  case ldl =>
    exact loadOp_offBoundary hu (size 8 (by decide)) rfl (bytesToWords_flatMap [a, b]) rfl
      (by decide)
  case ldt =>
    exact loadOp_offBoundary hu (size 12 (by decide)) rfl (bytesToWords_flatMap [a, b, c]) rfl
      (by decide)
  case ldq =>
    exact loadOp_offBoundary hu (size 16 (by decide)) rfl (bytesToWords_flatMap [a, b, c, e]) rfl
      (by decide)
  case st => exact storeOp_offBoundary hu (size 4 (by decide)) rfl rfl
  case stos => exact storeOp_offBoundary hu (size 2 (by decide)) rfl rfl
  case stl => exact storeOp_offBoundary hu (size 8 (by decide)) rfl rfl
  case stt =>
    exact storeOp_offBoundary hu (size 12 (by decide)) rfl
      (by simp [State.readRegs, wordBytes, BitVec.add_assoc])
  case stq =>
    exact storeOp_offBoundary hu (size 16 (by decide)) rfl
      (by simp [State.readRegs, wordBytes, BitVec.add_assoc])
  case stis => exact storeIntegerOp_offBoundary hu (size 2 (by decide)) rfl rfl

/-! ## Cache controls -/

section
variable {s : State} {s1 : Src} {d : SrcDst} {a : Word}

theorem field_lowByte (a : Word) : field a 0 8 = a.toNat % 256 := by
  simp [field]

/-- In supervisor mode the low byte of src1 selects the function (47_processor_mgmt.md R640). -/
theorem exec_icctl (hs : s.supervisor = true) (h1 : s.src s1 30 = some a) (s2 : Src) (d : SrcDst) :
    exec (.icctl s1 s2 d) s = cacheControl (a.toNat % 256) s2 d s := by
  change execIcctl s1 s2 d s = _
  simp only [execIcctl, h1, privileged, hs, if_true, field_lowByte]

/-- The same of the data cache (R650). -/
theorem exec_dcctl (hs : s.supervisor = true) (h1 : s.src s1 30 = some a) (s2 : Src) (d : SrcDst) :
    exec (.dcctl s1 s2 d) s = dataCacheControl (a.toNat % 256) s2 d s := by
  change execDcctl s1 s2 d s = _
  simp only [execDcctl, h1, privileged, hs, if_true, field_lowByte]

/-- With tracing off a status word `v`, stated as `w`, goes to the destination. -/
theorem giveStatus_quiet {r : Reg} (te : s.te = false) (hd : dest d = some r) {v w : Word}
    (h : v = w) : giveStatus v d s = .next (s.setReg r w).nextInstr := by
  simp only [giveStatus, hd, h]
  exact advance_quiet (by simpa using te)

end

/-- A status word with its enable bit, bit 0. -/
theorem or_bitAt_zero {v : Word} (h : v &&& 1 = 0) (b : Bool) :
    v ||| bitAt b 0 = v + (if b = true then 1 else 0) := by
  cases b
  · simp [bitAt]
  · exact (BitVec.add_eq_or_of_and_eq_zero v 1 h).symm

/-- The lock status word: the number of locked blocks in its high byte. -/
theorem lockStatus_eq (n : Byte) : (0x00080001 : Word) ||| (n.setWidth 32 <<< 24) =
    BitVec.ofNat 32 (n.toNat * 2 ^ 24 + 0x00080001) := by
  have hn := n.isLt
  apply BitVec.eq_of_toNat_eq
  rw [BitVec.or_comm, BitVec.toNat_or, BitVec.toNat_shiftLeft, BitVec.toNat_setWidth,
    Nat.mod_eq_of_lt (a := n.toNat) (by omega), Nat.shiftLeft_eq, BitVec.toNat_ofNat,
    Nat.mod_eq_of_lt (a := n.toNat * 2 ^ 24) (by omega),
    Nat.mod_eq_of_lt (a := n.toNat * 2 ^ 24 + 0x00080001) (by omega), ← Nat.shiftLeft_eq]
  exact (Nat.shiftLeft_add_eq_or_of_lt (by decide) _).symm

/-- Settles O50. -/
theorem cacheControls : Obligations.CacheControls := by
  intro s s1 s2 d a r te hs h1 hd
  have ic := exec_icctl hs h1 s2 d
  have dc := exec_dcctl hs h1 s2 d
  refine ⟨fun h => ?_, fun h => ?_, fun h => ?_, fun h => ?_, fun h => ?_, fun h => ?_,
    fun h => ?_⟩ <;> rw [h] at ic dc
  · exact ⟨ic.trans (advance_quiet te), dc.trans (advance_quiet te)⟩
  · exact ⟨ic.trans (advance_quiet te), dc.trans (advance_quiet te)⟩
  · exact ⟨ic.trans (advance_quiet te), dc.trans (advance_quiet te)⟩
  · exact dc.trans (advance_quiet te)
  · exact ⟨ic.trans (giveStatus_quiet te hd (or_bitAt_zero (by decide) _)),
      dc.trans (giveStatus_quiet te hd (or_bitAt_zero (by decide) _))⟩
  · exact ic.trans (giveStatus_quiet te hd (lockStatus_eq _))
  · exact ic

end Sys2Proof.Machine

end

section
/-! SUPPORT. The decoder inverts the encoder (O4), and `lda` in every addressing mode (O28). -/

namespace Sys2Proof.Laws

-- Proofs are elaborated one at a time: the check has memory for the stacks of few threads.
set_option Elab.async false

/-! ## The decoder inverts the encoder -/

/-- Every instruction comes back, by the law of its format (30_encoding.md R221). -/
theorem decode_encodeBytes (i : Instr) : RoundTrip.Statement i := by
  cases i with
  | notbit | and | andnot | setbit | notand | xor | or | nor | xnor | not | ornot | clrbit
  | notor | nand | alterbit | addo | addi | subo | subi | cmpob | cmpib | cmpos | cmpis | shro
  | shrdi | shri | shlo | rotate | shli | cmpo | cmpi | concmpo | concmpi | cmpinco | cmpinci
  | cmpdeco | cmpdeci | scanbyte | bswap | chkbit | addc | subc | intdis | inten | mov | eshro
  | movl | movt | movq | atmod | atadd | spanbit | scanbit | modac | modify | extract | modtc
  | modpc | intctl | sysctl | icctl | dcctl | halt | calls | mark | fmark | flushreg | syncf
  | emul | ediv | mulo | remo | divo | muli | remi | modi | divi | addono | addino | subono
  | subino | selno | addog | addig | subog | subig | selg | addoe | addie | suboe | subie | sele
  | addoge | addige | suboge | subige | selge | addol | addil | subol | subil | sell | addone
  | addine | subone | subine | selne | addole | addile | subole | subile | selle | addoo | addio
  | suboo | subio | selo =>
    exact reg_trip rfl (by decide) (by decide) rfl
  | testno | testg | teste | testge | testl | testne | testle | testo =>
    exact test_trip rfl (by decide) (by decide) (fun _ _ _ => rfl)
  | bbc | cmpobg | cmpobe | cmpobge | cmpobl | cmpobne | cmpoble | bbs | cmpibno | cmpibg
  | cmpibe | cmpibge | cmpibl | cmpibne | cmpible | cmpibo =>
    exact cobr_trip rfl (by decide) (by decide) (fun _ => rfl)
  | b | call | ret | bal | bno | bg | be | bge | bl | bne | ble | bo | faultno | faultg | faulte
  | faultge | faultl | faultne | faultle | faulto =>
    exact ctrl_trip rfl (by decide) rfl
  | ldob | stob | bx | balx | callx | ldos | stos | lda | ld | st | ldl | stl | ldt | stt | ldq
  | stq | ldib | stib | ldis | stis =>
    exact mem_trip rfl (by decide) rfl rfl

/-- No encoding is another or begins another: the decoder reads one off the shared bytes. -/
theorem encodeBytes_append_inj {i j : Instr} {rest rest' : List Byte}
    (h : encodeBytes i ++ rest = encodeBytes j ++ rest') : i = j ∧ rest = rest' := by
  have e : Except.ok (ε := DecodeError) (i, rest) = .ok (j, rest') :=
    calc Except.ok (i, rest)
      _ = decode (encodeBytes i ++ rest) := (decode_encodeBytes i rest).symm
      _ = decode (encodeBytes j ++ rest') := congrArg decode h
      _ = .ok (j, rest') := decode_encodeBytes j rest'
  exact Prod.mk.inj (Except.ok.inj e)

/-- Settles O4: the round trip by the laws of the five formats, and injectivity from it. -/
theorem decodeEncodeAgree : Obligations.DecodeEncodeAgree :=
  ⟨decode_encodeBytes, fun _ _ _ _ => encodeBytes_append_inj⟩

end Sys2Proof.Laws

namespace Sys2Proof.Machine

/-! ## Effective addresses -/

/-- What the scale multiplies the index by (30_encoding.md R243). -/
def scaleFactor : Scale → Nat
  | .x1 => 1
  | .x2 => 2
  | .x4 => 4
  | .x8 => 8
  | .x16 => 16

/-- Each scale shifts by the logarithm of its factor. -/
theorem scaled_eq_mul (sc : Scale) (v : Word) :
    scaled sc v = v * BitVec.ofNat 32 (scaleFactor sc) := by
  cases sc with
  | x1 => exact (BitVec.mul_one v).symm
  | x2 => exact BitVec.shiftLeft_eq_mul_twoPow v 1
  | x4 => exact BitVec.shiftLeft_eq_mul_twoPow v 2
  | x8 => exact BitVec.shiftLeft_eq_mul_twoPow v 3
  | x16 => exact BitVec.shiftLeft_eq_mul_twoPow v 4

/-- The destination of `lda` is any register but r2. -/
theorem destGroup_one_of_ne {r : Reg} (h : r ≠ 2) : destGroup r 1 = some r :=
  destGroup_eq_some (by decide) ((aligned_iff le_rfl).2 (Nat.mod_one _))
    (by simpa [regGroup] using h.symm)

/-- `lda` leaves the effective address in its destination (40_data_movement.md R300). -/
theorem exec_lda {s : State} (te : s.te = false) {r : Reg} (hr : r ≠ 2) (m : MemOp) :
    ∃ t, exec (.lda m r) s = .next t ∧ Effect s t [(r, s.efa m)] s.ac (s.ip + m.len) := by
  refine ⟨_, ?_, Effect.ofReg s r (s.efa m) (s.ip + m.len)⟩
  change execLda m r s = _
  rw [execLda, destGroup_one_of_ne hr]
  exact retire_quiet (by simpa using te) _ _

/-- Settles O28. -/
theorem loadAddressModes : Obligations.LoadAddressModes := by
  intro s r b x off disp sc n te hr hn
  obtain rfl : n = scaleFactor sc := hn
  have lda {v : Word} (m : MemOp) (hv : s.efa m = v) :
      ∃ t, exec (.lda m r) s = .next t ∧ Effect s t [(r, v)] s.ac (s.ip + m.len) :=
    hv ▸ exec_lda te hr m
  have hoff : off.setWidth 32 = BitVec.ofNat 32 off.toNat := (BitVec.ofNat_toNat ..).symm
  have hidx := scaled_eq_mul sc (s.readReg x 31)
  refine ⟨lda (.absOff off) ?absOff, lda (.regOff b off) ?regOff, lda (.regInd b) rfl,
    lda (.ipDisp disp) ?ipDisp, lda (.regIdx b sc x) ?regIdx, lda (.absDisp disp) rfl,
    lda (.regDisp b disp) rfl, lda (.idxDisp sc x disp) ?idxDisp,
    lda (.regIdxDisp b sc x disp) ?regIdxDisp⟩
  case absOff => exact hoff
  case regOff => exact congrArg (s.readReg b 30 + ·) hoff
  case ipDisp => exact add_right_comm s.ip disp 8
  case regIdx => exact congrArg (s.readReg b 30 + ·) hidx
  case idxDisp => exact congrArg (· + disp) hidx
  case regIdxDisp => exact congrArg (s.readReg b 30 + · + disp) hidx

end Sys2Proof.Machine

end

section
/-! SUPPORT. Printed words (O5), and data movement: selects (O26), moves (O27), loads (O29), stores
(O30) and integer stores (O31). -/

namespace Sys2Proof.Laws

-- Proofs are elaborated one at a time: the check has memory for the stacks of few threads.
set_option Elab.async false

/-- A printed word that begins with the bytes of an instruction decodes to it, by the round trip. -/
theorem decodeTableWord_of_encode {nbits w : Nat} {i : Instr}
    (h : encodeBytes i <+: bytesOfWord (BitVec.ofNat 32 (w % 2 ^ nbits)) ++
      bytesOfWord (BitVec.ofNat 32 (w % 2 ^ nbits / 2 ^ 32))) :
    decodeTableWord nbits w = some i := by
  obtain ⟨rest, e⟩ := h
  simp only [decodeTableWord, ← e, decode_encodeBytes i rest]

/-- Settles O5: each word is the encoding of the instruction beside it. -/
theorem printedWordsDecode : Obligations.PrintedWordsDecode := by
  refine ⟨?ld, ?addo, ?lda, ?b, ?bbc, ?calls, ?sysctl⟩
  all_goals exact decodeTableWord_of_encode (by decide)

end Sys2Proof.Laws

namespace Sys2Proof.Machine

-- Proofs are elaborated one at a time: the check has memory for the stacks of few threads.
set_option Elab.async false

/-! ## Conditions

What each mask asks of AC.cc (10_state.md R59), in the words of the obligations. -/

/-- A condition that agrees with a mask at all eight condition codes agrees with it in every
state. -/
theorem cond_iff {mask : BitVec 3} {p : BitVec 3 → Prop}
    (h : ∀ c, ((mask &&& c != 0) || (mask == c)) = true ↔ p c) (s : State) :
    s.cond mask = true ↔ p s.cc := h s.cc

section
variable (s : State)

theorem cond_unordered : s.cond 0b000 = true ↔ s.cc = 0 :=
  cond_iff (p := fun c => c = 0) (by decide) s

theorem cond_greater : s.cond 0b001 = true ↔ s.cc.getLsbD 0 = true :=
  cond_iff (p := fun c => c.getLsbD 0 = true) (by decide) s

theorem cond_equal : s.cond 0b010 = true ↔ s.cc.getLsbD 1 = true :=
  cond_iff (p := fun c => c.getLsbD 1 = true) (by decide) s

theorem cond_greaterOrEqual : s.cond 0b011 = true ↔ s.cc.extractLsb' 0 2 ≠ 0 :=
  cond_iff (p := fun c => c.extractLsb' 0 2 ≠ 0) (by decide) s

theorem cond_less : s.cond 0b100 = true ↔ s.cc.getLsbD 2 = true :=
  cond_iff (p := fun c => c.getLsbD 2 = true) (by decide) s

theorem cond_notEqual :
    s.cond 0b101 = true ↔ s.cc.getLsbD 2 = true ∨ s.cc.getLsbD 0 = true :=
  cond_iff (p := fun c => c.getLsbD 2 = true ∨ c.getLsbD 0 = true) (by decide) s

theorem cond_lessOrEqual : s.cond 0b110 = true ↔ s.cc.extractLsb' 1 2 ≠ 0 :=
  cond_iff (p := fun c => c.extractLsb' 1 2 ≠ 0) (by decide) s

theorem cond_ordered : s.cond 0b111 = true ↔ s.cc ≠ 0 :=
  cond_iff (p := fun c => c ≠ 0) (by decide) s

end

/-! ## Selects -/

/-- A select writes src2 when its condition holds, else src1 (40_data_movement.md R306). -/
theorem selectOp_effect {s : State} {s1 s2 : Src} {d : SrcDst} {a b : Word} {r : Reg}
    (te : s.te = false) (h1 : s.src s1 30 = some a) (h2 : s.src s2 31 = some b)
    (hd : dest d = some r) {mask : BitVec 3} {p : Prop} [Decidable p]
    (hp : s.cond mask = true ↔ p) :
    ∃ t, selectOp mask s1 s2 d s = .next t ∧
      Effect s t [(r, if p then b else a)] s.ac (s.ip + 4) := by
  rw [selectOp, withDst_of h1 h2 hd, if_congr hp rfl rfl]
  exact advance_setReg te r _

/-- Settles O26. -/
theorem selectByConditionCode : Obligations.SelectByConditionCode := by
  intro s s1 s2 d a b r te h1 h2 hd
  have opcode (op : BitVec 12) : [regWord op s1 s2 d].map opcode12 = [op] :=
    congrArg ([·]) (opcode12_regWord op s1 s2 d)
  exact ⟨selectOp_effect te h1 h2 hd (cond_unordered s), opcode 0x784,
    selectOp_effect te h1 h2 hd (cond_greater s), opcode 0x794,
    selectOp_effect te h1 h2 hd (cond_equal s), opcode 0x7A4,
    selectOp_effect te h1 h2 hd (cond_greaterOrEqual s), opcode 0x7B4,
    selectOp_effect te h1 h2 hd (cond_less s), opcode 0x7C4,
    selectOp_effect te h1 h2 hd (cond_notEqual s), opcode 0x7D4,
    selectOp_effect te h1 h2 hd (cond_lessOrEqual s), opcode 0x7E4,
    selectOp_effect te h1 h2 hd (cond_ordered s), opcode 0x7F4⟩

/-! ## Moves -/

/-- A move reads its whole source group, then writes the destination group. -/
theorem moveOp_effect {s : State} {x : Src} {d : SrcDst} {vs : List Word} {r : Reg} {k : Nat}
    (te : s.te = false) (hl : vs.length ≤ 32) (hx : s.srcs x k 40 = some vs)
    (hd : dests d k = some r) :
    ∃ t, moveOp k x d s = .next t ∧ Effect s t (group r vs) s.ac (s.ip + 4) := by
  simp only [moveOp, hx, hd]
  exact advance_setRegs te r vs hl

/-- Settles O27. -/
theorem moveResults : Obligations.MoveResults := by
  intro s x d a b c e r te
  refine ⟨?mov, ?movl, ?movt, ?movq, fun n => ⟨rfl, rfl, rfl, rfl⟩⟩
  all_goals exact moveOp_effect te (by simp)

/-! ## Loads -/

/-- No alignment fault: it is disabled, or the access lies on its natural boundary. -/
theorem unaligned_eq_false {s : State} {a : Word} {n : Nat}
    (h : s.unalignedFault = false ∨ a.toNat % boundary n = 0) : s.unaligned a n = false := by
  rcases h with h | h <;> simp [State.unaligned, h]

/-- A byte as a word. -/
theorem bytesToWord_singleton (x : Byte) : bytesToWord [x] = x.setWidth 32 := by
  simp [bytesToWord]

/-- A load whose bytes `f` turns into `ws` leaves `ws` in its destination group (R283). -/
theorem loadOp_effect {s : State} {m : MemOp} {d r : Reg} {n k key : Nat} {bs : List Byte}
    {f : List Byte → List Word} {ws : List Word} (te : s.te = false) (hn : isSize n)
    (hl : bs.length = n) (hf : f bs = ws) (hw : ws.length ≤ 32) (hp : s.plain (s.efa m) n key)
    (hb : s.bytesAt (s.efa m) bs)
    (hu : s.unalignedFault = false ∨ (s.efa m).toNat % boundary n = 0) (hq : s.alone (s.efa m) n)
    (hd : destGroup d k = some r) :
    ∃ t, loadOp n k f m d s = .next t ∧ Effect s t (group r ws) s.ac (s.ip + m.len) := by
  subst hf
  exact loadOp_plain te hl hn hq hp hb (unaligned_eq_false hu) hd hw

/-- Settles O29. -/
theorem loadResults : Obligations.LoadResults := by
  intro s m d r x y a b c e te
  refine ⟨fun key => ?ld, fun key hp hb => ?ldob, fun key => ?ldos, fun key hp hb => ?ldib,
    fun key => ?ldis, fun key => ?ldl, fun key => ?ldt, fun key => ?ldq⟩
  case ld =>
    exact loadOp_effect te (by simp [isSize]) rfl (bytesToWords_flatMap [a]) (by simp)
  case ldob =>
    exact loadOp_effect (ws := [x.setWidth 32]) te (by simp [isSize]) rfl
      (by rw [bytesToWord_singleton]) (by simp) hp hb (.inr (Nat.mod_one _))
  case ldos =>
    exact loadOp_effect (ws := [(y ++ x).setWidth 32]) te (by simp [isSize]) rfl
      (by rw [bytesToWord_pair]) (by simp)
  case ldib =>
    exact loadOp_effect (ws := [x.signExtend 32]) te (by simp [isSize]) rfl
      (by simp [bytesToWord_singleton]) (by simp) hp hb (.inr (Nat.mod_one _))
  case ldis =>
    exact loadOp_effect (ws := [(y ++ x).signExtend 32]) te (by simp [isSize]) rfl
      (by simp [bytesToWord_pair]) (by simp)
  case ldl =>
    exact loadOp_effect te (by simp [isSize]) rfl (bytesToWords_flatMap [a, b]) (by simp)
  case ldt =>
    exact loadOp_effect te (by simp [isSize]) rfl (bytesToWords_flatMap [a, b, c]) (by simp)
  case ldq =>
    exact loadOp_effect te (by simp [isSize]) rfl (bytesToWords_flatMap [a, b, c, e]) (by simp)

/-! ## Stores -/

/-- A store of the low bytes `bs` of a register group leaves them in memory (R281). -/
theorem storeOp_effect {s : State} {x : Reg} {m : MemOp} {n k : Nat} {bs : List Byte}
    (te : s.te = false) (hn : isSize n)
    (hbs : ((s.readRegs x 40 k).flatMap wordBytes).take n = bs) (hl : bs.length = n)
    (hm : s.mayStore (s.efa m) n) (ha : aligned x k = true)
    (hu : s.unalignedFault = false ∨ (s.efa m).toNat % boundary n = 0)
    (hq : s.alone (s.efa m) n) :
    ∃ t, storeOp n k x m s = .next t ∧ StoreEffect s t (s.efa m) bs s.ac (s.ip + m.len) :=
  storeOp_plain te hn hq hm ha (unaligned_eq_false hu) hbs hl

/-- Settles O30. -/
theorem storeResults : Obligations.StoreResults := by
  intro s x m te
  refine ⟨?st, fun hm ha => ?stob, ?stos, ?stl, ?stt, ?stq⟩
  case st => exact storeOp_effect te (by simp [isSize]) rfl rfl
  case stob => exact storeOp_effect te (by simp [isSize]) rfl rfl hm ha (.inr (Nat.mod_one _))
  case stos => exact storeOp_effect te (by simp [isSize]) rfl rfl
  case stl => exact storeOp_effect te (by simp [isSize]) rfl rfl
  case stt =>
    exact storeOp_effect te (by simp [isSize])
      (by simp [State.readRegs, wordBytes, BitVec.add_assoc]) rfl
  case stq =>
    exact storeOp_effect te (by simp [isSize])
      (by simp [State.readRegs, wordBytes, BitVec.add_assoc]) rfl

/-! ## Integer stores

The bytes are stored first; then the bits above them decide on overflow (R295, R296). -/

/-- The bits of a word from bit `lo` up are what is left of it above `lo` bits. -/
theorem field_upper (v : Word) {lo : Nat} (h : lo ≤ 32) :
    field v lo (32 - lo) = v.toNat / 2 ^ lo := by
  refine Nat.mod_eq_of_lt (Nat.div_lt_of_lt_mul ?_)
  rw [← Nat.pow_add, Nat.add_sub_of_le h]
  exact v.isLt

/-- With the overflow fault enabled, overflow is raised (41_arithmetic.md R331). -/
theorem intOverflow_unmasked {s : State} (hom : bit s.ac 12 = false) (ev : Events) (len : Word) :
    intOverflow ev len s = raise .overflow ev (s.ip + len) s := by
  simp [intOverflow, hom]

/-- An integer store that no check and no alignment fault stops: the bytes lie in memory, and then
the instruction ends, or integer overflow is signalled when the bits above, of value `v / 2 ^ (8n)`,
are neither all zeros nor all ones. -/
theorem storeIntegerOp_effect {s : State} {x : Reg} {m : MemOp} {n : Nat} {bs : List Byte}
    (te : s.te = false) (hn : isSize n) (h8 : 8 * n ≤ 32)
    (hbs : (wordBytes (s.readReg x 40)).take n = bs) (hl : bs.length = n)
    (hm : s.mayStore (s.efa m) n)
    (hu : s.unalignedFault = false ∨ (s.efa m).toNat % boundary n = 0)
    (hq : s.alone (s.efa m) n) {u : Nat} (hv : (s.readReg x 40).toNat / 2 ^ (8 * n) = u) :
    (u = 0 ∨ u = 2 ^ (32 - 8 * n) - 1 →
      ∃ t, storeIntegerOp n x m s = .next t ∧
        StoreEffect s t (s.efa m) bs s.ac (s.ip + m.len)) ∧
    (u ≠ 0 → u ≠ 2 ^ (32 - 8 * n) - 1 → bit s.ac 12 = true →
      ∃ t, storeIntegerOp n x m s = .next t ∧
        StoreEffect s t (s.efa m) bs (s.ac ||| 0x100) (s.ip + m.len)) ∧
    (u ≠ 0 → u ≠ 2 ^ (32 - 8 * n) - 1 → bit s.ac 12 = false →
      ∃ t, t.bytesAt (s.efa m) bs ∧ (∀ z, outside (s.efa m) n z → t.peek z = s.peek z) ∧
        t = { s with mem := t.mem, stale := t.stale } ∧
        storeIntegerOp n x m s =
          raise .overflow (access (s.efa m) n true) (s.ip + m.len) t) := by
  obtain ⟨ht, key, hp⟩ := hm
  subst hl
  obtain ⟨st, hs⟩ := store_plain ht hp hn hq
  have hr := State.plain_of_plainW hp
  have stored : storeIntegerOp bs.length x m s =
      let t := s.withMem (Memory.writeBytes s.mem key bs) st
      if u = 0 ∨ u = 2 ^ (32 - 8 * bs.length) - 1 then
        retire (access (s.efa m) bs.length true) (s.ip + m.len) t
      else intOverflow (access (s.efa m) bs.length true) m.len t := by
    simp only [storeIntegerOp, hbs, hs, orRaise_ok, field_upper _ h8, hv, State.withMem_unaligned,
      unaligned_eq_false hu, State.withMem_ip, Bool.or_eq_true, decide_eq_true_eq,
      Bool.false_eq_true, if_false]
  refine ⟨fun h => ?inRange, fun h0 h1 hom => ?masked, fun h0 h1 hom => ?unmasked⟩
  case inRange =>
    rw [stored, if_pos h]
    exact ⟨_, retire_quiet (by simpa using te) _ _, StoreEffect.ofStore hr st _⟩
  case masked =>
    rw [stored, if_neg (not_or.2 ⟨h0, h1⟩)]
    exact ⟨_, intOverflow_masked (by simpa using te) (by simpa using hom) _ _,
      StoreEffect.ofWrite hr st _ _⟩
  case unmasked =>
    rw [stored, if_neg (not_or.2 ⟨h0, h1⟩)]
    obtain ⟨hin, hout⟩ := withMem_stored hp st
    exact ⟨_, hin, hout, rfl, intOverflow_unmasked (by simpa using hom) _ _⟩

/-- Settles O31. -/
theorem storeIntegerResults : Obligations.StoreIntegerResults := by
  intro s x m te
  refine ⟨fun hm hq => ?stib, fun hm hu hq => ?stis⟩
  case stib =>
    exact storeIntegerOp_effect te (by simp [isSize]) (by decide) rfl rfl hm (.inr (Nat.mod_one _))
      hq rfl
  case stis =>
    exact storeIntegerOp_effect te (by simp [isSize]) (by decide) rfl rfl hm hu hq rfl

end Sys2Proof.Machine

end

section
/-! SUPPORT. Arithmetic: the ordinal and integer instructions (O9, O10, O11, O15), shifts (O9, O12),
carry (O13), 64-bit results (O14) and the conditional forms (O16 to O19). -/

namespace Sys2Proof.Machine

-- Proofs are elaborated one at a time: the check has memory for the stacks of few threads.
set_option Elab.async false

/-- The one word of a REG instruction carries its opcode. -/
theorem map_opcode12_regWord (op : BitVec 12) (s1 s2 : Src) (d : SrcDst) :
    [regWord op s1 s2 d].map opcode12 = [op] :=
  congrArg ([·]) (opcode12_regWord op s1 s2 d)

/-! ## Integer overflow

The result is written first; then overflow sets AC.of or is raised (41_arithmetic.md R331). -/

theorem overflowAc_of_fits {t : Int} (h : fits t) (ac : Word) : overflowAc ac t = ac := if_pos h

theorem overflowAc_of_not_fits {t : Int} (h : ¬ fits t) (ac : Word) :
    overflowAc ac t = ac ||| 0x100 := if_neg h

section
variable {s : State}

/-- Overflow masked, after a register is written: the register and AC.of. -/
theorem intOverflow_setReg_effect (te : s.te = false) (hom : bit s.ac 12 = true) (r : Reg)
    (v : Word) : ∃ u, intOverflow .none 4 (s.setReg r v) = .next u ∧
      Effect s u [(r, v)] (s.ac ||| 0x100) (s.ip + 4) := by
  refine ⟨_, intOverflow_masked (by simpa using te) (by simpa using hom) _ _, ?_⟩
  rw [State.setReg_withAc, State.setReg_ac, State.setReg_ip, setBit_of]
  exact Effect.ofRegs s r [v] _ _ (by simp)

/-- Overflow not masked, after a register is written. -/
theorem intOverflow_setReg_raises (hom : bit s.ac 12 = false) (r : Reg) (v : Word) :
    intOverflow .none 4 (s.setReg r v) = raise .overflow .none (s.ip + 4) (s.setReg r v) := by
  rw [intOverflow_unmasked (by simpa using hom), State.setReg_ip]

theorem integerResult_of_fits {t : Int} (h : fits t) (r : Reg) (s : State) :
    integerResult t r s = advance (s.setReg r (BitVec.ofInt 32 t)) := by
  simp [integerResult, overflows_eq, h]

theorem integerResult_of_not_fits {t : Int} (h : ¬ fits t) (r : Reg) (s : State) :
    integerResult t r s = intOverflow .none 4 (s.setReg r (BitVec.ofInt 32 t)) := by
  simp only [integerResult, overflows_eq, h, not_false_eq_true, decide_true, if_true]

/-- An integer result that fits, or whose overflow is masked, completes the instruction. -/
theorem integerResult_effect (te : s.te = false) {t : Int} (h : fits t ∨ bit s.ac 12 = true)
    (r : Reg) : ∃ u, integerResult t r s = .next u ∧
      Effect s u [(r, BitVec.ofInt 32 t)] (overflowAc s.ac t) (s.ip + 4) := by
  by_cases hf : fits t
  · rw [integerResult_of_fits hf, overflowAc_of_fits hf]
    exact advance_setReg te r _
  · rw [integerResult_of_not_fits hf, overflowAc_of_not_fits hf]
    exact intOverflow_setReg_effect te (h.resolve_left hf) r _

/-- An integer result that does not fit is raised when the fault is not masked. -/
theorem integerResult_raises (hom : bit s.ac 12 = false) {t : Int} (h : ¬ fits t) (r : Reg) :
    integerResult t r s =
      raise .overflow .none (s.ip + 4) (s.setReg r (BitVec.ofInt 32 t)) := by
  rw [integerResult_of_not_fits h, intOverflow_setReg_raises hom]

end

/-! ## Shapes of the arithmetic instructions

`a` and `b` are the values of src1 and src2, `r` is the destination. -/

section
variable {s : State} {s1 s2 : Src} {d : SrcDst} {a b : Word} {r : Reg}
  (h1 : s.src s1 30 = some a) (h2 : s.src s2 31 = some b) (hd : dest d = some r)
include h1 h2 hd

/-- An instruction that writes one register with a function of its operands. -/
theorem binary_effect (te : s.te = false) {f : Word → Word → Word} {v : Word} (hv : f a b = v) :
    ∃ t, binary f s1 s2 d s = .next t ∧ Effect s t [(r, v)] s.ac (s.ip + 4) := by
  rw [binary, withDst_of h1 h2 hd, hv]
  exact advance_setReg te r v

theorem integerOp_of (f : Int → Int → Int) :
    integerOp f s1 s2 d s = integerResult (f a.toInt b.toInt) r s :=
  withDst_of h1 h2 hd

theorem divideOp_of_ne_zero (ha : a ≠ 0) (f : Word → Word → Reg → Res) :
    divideOp f s1 s2 d s = f a b r := by
  rw [divideOp, withDst_of h1 h2 hd, if_neg ha]

/-- A division that completes with a register written. -/
theorem divideOp_effect (te : s.te = false) (ha : a ≠ 0) {f : Word → Word → Word} {v : Word}
    (hv : f a b = v) :
    ∃ t, divideOp (fun a b r => advance (s.setReg r (f a b))) s1 s2 d s = .next t ∧
      Effect s t [(r, v)] s.ac (s.ip + 4) := by
  rw [divideOp_of_ne_zero h1 h2 hd ha, hv]
  exact advance_setReg te r v

/-- A conditional instruction does its operation when its condition `p` holds (R355, R372). -/
theorem conditional_of {mask : BitVec 3} {p : Prop} [Decidable p] (hp : s.cond mask = true ↔ p)
    (k : Word → Word → Reg → Res) :
    conditional mask s1 s2 d s k = if p then k a b r else advance s := by
  rw [conditional, withDst_of h1 h2 hd, if_congr hp rfl rfl]

/-- A conditional instruction that writes a register. -/
theorem conditional_setReg_effect (te : s.te = false) {mask : BitVec 3} {p : Prop} [Decidable p]
    (hp : s.cond mask = true ↔ p) (f : Word → Word → Word) :
    ∃ t, conditional mask s1 s2 d s (fun a b r => advance (s.setReg r (f a b))) = .next t ∧
      Effect s t (if p then [(r, f a b)] else []) s.ac (s.ip + 4) := by
  rw [conditional_of h1 h2 hd hp]
  by_cases h : p
  · simp only [if_pos h]
    exact advance_setReg te r _
  · simp only [if_neg h]
    exact advance_effect te

/-- A conditional integer instruction that does not raise overflow. -/
theorem conditional_integer_effect (te : s.te = false) {mask : BitVec 3} {p : Prop} [Decidable p]
    (hp : s.cond mask = true ↔ p) (f : Word → Word → Int)
    (hf : p → fits (f a b) ∨ bit s.ac 12 = true) :
    ∃ t, conditional mask s1 s2 d s (fun a b r => integerResult (f a b) r s) = .next t ∧
      Effect s t (if p then [(r, BitVec.ofInt 32 (f a b))] else [])
        (if p then overflowAc s.ac (f a b) else s.ac) (s.ip + 4) := by
  rw [conditional_of h1 h2 hd hp]
  by_cases h : p
  · simp only [if_pos h]
    exact integerResult_effect te (hf h) r
  · simp only [if_neg h]
    exact advance_effect te

/-- A conditional integer instruction that raises overflow. -/
theorem conditional_integer_raises {mask : BitVec 3} {p : Prop} (hp : s.cond mask = true ↔ p)
    (f : Word → Word → Int) (h : p) (hf : ¬ fits (f a b)) (hom : bit s.ac 12 = false) :
    conditional mask s1 s2 d s (fun a b r => integerResult (f a b) r s) =
      raise .overflow .none (s.ip + 4) (s.setReg r (BitVec.ofInt 32 (f a b))) := by
  rw [conditional, withDst_of h1 h2 hd, if_pos (hp.2 h)]
  exact integerResult_raises hom hf r

end

/-- Division by zero is raised with a free value in the destination (R332). -/
theorem divideOp_zero {s : State} {s1 s2 : Src} {d : SrcDst} {b : Word} {r : Reg}
    (h1 : s.src s1 30 = some 0) (h2 : s.src s2 31 = some b) (hd : dest d = some r)
    (f : Word → Word → Reg → Res) :
    divideOp f s1 s2 d s = raise .zeroDivide .none (s.ip + 4) (s.setReg r (s.undef 20)) := by
  rw [divideOp, withDst_of h1 h2 hd, if_pos rfl]
  rfl

section
variable {s : State} {s1 s2 : Src} {d : SrcDst} {a : Word} {ws : List Word} {r : Reg}

/-- `ediv` by zero is raised with free values in its two destination registers (R332). -/
theorem execEdiv_zero (h1 : s.src s1 30 = some 0) (h2 : s.srcs s2 2 40 = some ws)
    (hd : dests d 2 = some r) : execEdiv s1 s2 d s =
      raise .zeroDivide .none (s.ip + 4) (s.setRegs r [s.undef 20, s.undef 21]) := by
  simp only [execEdiv, h1, h2, hd, if_true]
  rfl

/-- `ediv` by another divisor: remainder and quotient, or free values when the quotient is too
large (R347). -/
theorem execEdiv_of_ne_zero (h1 : s.src s1 30 = some a) (h2 : s.srcs s2 2 40 = some ws)
    (hd : dests d 2 = some r) (ha : a ≠ 0) {n : Nat} (hn : longValue ws = n) :
    execEdiv s1 s2 d s =
      if 2 ^ 32 ≤ n / a.toNat then advance (s.setRegs r [s.undef 20, s.undef 21])
      else advance (s.setRegs r [BitVec.ofNat 32 (n % a.toNat), BitVec.ofNat 32 (n / a.toNat)]) := by
  simp only [execEdiv, h1, h2, hd, if_neg ha, hn]

end

/-! ## Ordinal arithmetic -/

/-- A shift right of an ordinal divides it by a power of two. -/
theorem ushiftRight_eq_ofNat_div (b : Word) (n : Nat) :
    b >>> n = BitVec.ofNat 32 (b.toNat / 2 ^ n) := by
  rw [← Nat.shiftRight_eq_div_pow, ← BitVec.toNat_ushiftRight, BitVec.ofNat_toNat,
    BitVec.setWidth_eq]

/-- An arithmetic shift right divides an integer by a power of two, rounding down. -/
theorem sshiftRight_eq_ofInt_div (b : Word) (n : Nat) :
    b.sshiftRight n = BitVec.ofInt 32 (b.toInt / 2 ^ n) := by
  rw [BitVec.sshiftRight, Int.shiftRight_eq_div_pow]
  norm_cast

/-- Settles O9. -/
theorem ordinalArithmetic : Obligations.OrdinalArithmetic := by
  intro s s1 s2 d a b r te h1 h2 hd
  have opcode (op : BitVec 12) := map_opcode12_regWord op s1 s2 d
  have result {f : Word → Word → Word} {v : Word} (hv : f a b = v) :=
    binary_effect h1 h2 hd te hv
  refine ⟨result rfl, result rfl, opcode 0x592, result rfl, opcode 0x701, result rfl, opcode 0x59C,
    result ?shro, opcode 0x598, result ?shri, opcode 0x59B, result rfl, result ?rotate⟩
  case shro =>
    split
    · exact ushiftRight_eq_ofNat_div b _
    · rfl
  case shri => exact sshiftRight_eq_ofInt_div b _
  case rotate => rw [BitVec.rotateLeft_def, Nat.mod_mod]

/-! ## Division -/

/-- Settles O10. -/
theorem divisionResults : Obligations.DivisionResults := by
  intro s s1 s2 d a b r te h1 h2 hd ha
  have result {f : Word → Word → Word} {v : Word} (hv : f a b = v) :=
    divideOp_effect h1 h2 hd te ha hv
  have hmod : b.toInt.tmod a.toInt = b.toInt - b.toInt.tdiv a.toInt * a.toInt := by
    rw [Int.tmod_def, Int.mul_comm]
  refine ⟨result ?divo, result ?remo, result ?remi, result ?modi⟩
  case divo => exact BitVec.ofNatLT_eq_ofNat _
  case remo => rw [← Nat.mod_eq_sub_div_mul]; exact BitVec.ofNatLT_eq_ofNat _
  case remi => rw [hmod]
  case modi => rw [modulo, hmod]

/-- Settles O11. -/
theorem integerArithmetic : Obligations.IntegerArithmetic := by
  intro s s1 s2 d a b r te h1 h2 hd
  have completes {x : Res} {t : Int} (e : x = integerResult t r s)
      (h : fits t ∨ bit s.ac 12 = true) : ∃ u, x = .next u ∧
        Effect s u [(r, BitVec.ofInt 32 t)] (overflowAc s.ac t) (s.ip + 4) :=
    e ▸ integerResult_effect te h r
  exact ⟨completes (integerOp_of h1 h2 hd (· + ·)),
    completes (integerOp_of h1 h2 hd fun a b => b - a), completes (integerOp_of h1 h2 hd (· * ·)),
    fun ha => completes (divideOp_of_ne_zero h1 h2 hd ha _)⟩

/-- Settles O15. -/
theorem arithmeticFaults : Obligations.ArithmeticFaults := by
  refine ⟨fun s s1 s2 d a b r h1 h2 hd hom => ?overflow, fun s s1 s2 d b ws r h1 => ?zero⟩
  case overflow =>
    have raises {x : Res} {t : Int} (e : x = integerResult t r s) (h : ¬ fits t) :
        x = raise .overflow .none (s.ip + 4) (s.setReg r (BitVec.ofInt 32 t)) :=
      e.trans (integerResult_raises hom h r)
    exact ⟨raises (integerOp_of h1 h2 hd (· + ·)),
      raises (integerOp_of h1 h2 hd fun a b => b - a), raises (integerOp_of h1 h2 hd (· * ·)),
      fun ha => raises (divideOp_of_ne_zero h1 h2 hd ha _)⟩
  case zero =>
    refine ⟨fun h2 hd => ?_, fun h2 hd => ?_⟩
    · have zero := divideOp_zero h1 h2 hd
      exact ⟨_, zero _, zero _, zero _, zero _, zero _⟩
    · exact ⟨_, _, execEdiv_zero h1 h2 hd⟩

/-! ## The conditional forms -/

/-- Settles O16. -/
theorem addOrdinalConditional : Obligations.AddOrdinalConditional := by
  intro s s1 s2 d a b r te h1 h2 hd
  have opcode (op : BitVec 12) := map_opcode12_regWord op s1 s2 d
  have effect {mask : BitVec 3} {p : Prop} [Decidable p] (hp : s.cond mask = true ↔ p) :=
    conditional_setReg_effect h1 h2 hd te hp fun a b => b + a
  exact ⟨effect (cond_unordered s), opcode 0x780, effect (cond_greater s), opcode 0x790,
    effect (cond_equal s), opcode 0x7A0, effect (cond_greaterOrEqual s), opcode 0x7B0,
    effect (cond_less s), opcode 0x7C0, effect (cond_notEqual s), opcode 0x7D0,
    effect (cond_lessOrEqual s), opcode 0x7E0, effect (cond_ordered s), opcode 0x7F0⟩

/-- Settles O17. -/
theorem subOrdinalConditional : Obligations.SubOrdinalConditional := by
  intro s s1 s2 d a b r te h1 h2 hd
  have opcode (op : BitVec 12) := map_opcode12_regWord op s1 s2 d
  have effect {mask : BitVec 3} {p : Prop} [Decidable p] (hp : s.cond mask = true ↔ p) :=
    conditional_setReg_effect h1 h2 hd te hp fun a b => b - a
  exact ⟨effect (cond_unordered s), opcode 0x782, effect (cond_greater s), opcode 0x792,
    effect (cond_equal s), opcode 0x7A2, effect (cond_greaterOrEqual s), opcode 0x7B2,
    effect (cond_less s), opcode 0x7C2, effect (cond_notEqual s), opcode 0x7D2,
    effect (cond_lessOrEqual s), opcode 0x7E2, effect (cond_ordered s), opcode 0x7F2⟩

/-- Settles O18. -/
theorem addIntegerConditional : Obligations.AddIntegerConditional := by
  intro s s1 s2 d a b r te h1 h2 hd
  have opcode (op : BitVec 12) := map_opcode12_regWord op s1 s2 d
  have effect {mask : BitVec 3} {p : Prop} [Decidable p] (hp : s.cond mask = true ↔ p) :=
    conditional_integer_effect h1 h2 hd te hp fun a b => a.toInt + b.toInt
  have raises {mask : BitVec 3} {p : Prop} (hp : s.cond mask = true ↔ p) :=
    conditional_integer_raises h1 h2 hd hp fun a b => a.toInt + b.toInt
  exact ⟨effect (cond_unordered s), raises (cond_unordered s), opcode 0x781,
    effect (cond_greater s), raises (cond_greater s), opcode 0x791,
    effect (cond_equal s), raises (cond_equal s), opcode 0x7A1,
    effect (cond_greaterOrEqual s), raises (cond_greaterOrEqual s), opcode 0x7B1,
    effect (cond_less s), raises (cond_less s), opcode 0x7C1,
    effect (cond_notEqual s), raises (cond_notEqual s), opcode 0x7D1,
    effect (cond_lessOrEqual s), raises (cond_lessOrEqual s), opcode 0x7E1,
    effect (cond_ordered s), raises (cond_ordered s), opcode 0x7F1⟩

/-- Settles O19. -/
theorem subIntegerConditional : Obligations.SubIntegerConditional := by
  intro s s1 s2 d a b r te h1 h2 hd
  have opcode (op : BitVec 12) := map_opcode12_regWord op s1 s2 d
  have effect {mask : BitVec 3} {p : Prop} [Decidable p] (hp : s.cond mask = true ↔ p) :=
    conditional_integer_effect h1 h2 hd te hp fun a b => b.toInt - a.toInt
  have raises {mask : BitVec 3} {p : Prop} (hp : s.cond mask = true ↔ p) :=
    conditional_integer_raises h1 h2 hd hp fun a b => b.toInt - a.toInt
  exact ⟨effect (cond_unordered s), raises (cond_unordered s), opcode 0x783,
    effect (cond_greater s), raises (cond_greater s), opcode 0x793,
    effect (cond_equal s), raises (cond_equal s), opcode 0x7A3,
    effect (cond_greaterOrEqual s), raises (cond_greaterOrEqual s), opcode 0x7B3,
    effect (cond_less s), raises (cond_less s), opcode 0x7C3,
    effect (cond_notEqual s), raises (cond_notEqual s), opcode 0x7D3,
    effect (cond_lessOrEqual s), raises (cond_lessOrEqual s), opcode 0x7E3,
    effect (cond_ordered s), raises (cond_ordered s), opcode 0x7F3⟩

/-! ## Shift left integer

The loop of `shli` doubles the value while it fits (41_arithmetic.md R350). -/

/-- The two highest bits of a word agree when its double fits. -/
theorem top_bits_agree_iff (v : Word) : v.getLsbD 31 = v.getLsbD 30 ↔ fits (v.toInt * 2) := by
  have hv := v.isLt
  rw [Bool.eq_iff_iff, BitVec.getLsbD, BitVec.getLsbD, Nat.testBit_eq_decide_div_mod_eq,
    Nat.testBit_eq_decide_div_mod_eq, decide_eq_true_iff, decide_eq_true_iff,
    BitVec.toInt_eq_toNat_cond]
  omega

/-- A double that fits is the value shifted by one. -/
theorem toInt_shiftLeft_one {v : Word} (h : fits (v.toInt * 2)) :
    (v <<< 1).toInt = v.toInt * 2 := by
  have hv := v.isLt
  rw [BitVec.toInt_eq_toNat_cond] at h ⊢
  rw [BitVec.toInt_eq_toNat_cond, BitVec.toNat_shiftLeft, Nat.shiftLeft_eq]
  omega

/-- What fits after more doublings fits before them. -/
theorem fits_of_fits_mul_two_pow {x : Int} {k : Nat} (h : fits (x * 2 ^ k)) : fits x := by
  have hk : (1 : Int) ≤ 2 ^ k := one_le_pow₀ (by decide)
  rcases le_total 0 x with hx | hx
  · have := le_mul_of_one_le_right hx hk
    omega
  · have := mul_le_mul_of_nonpos_left hk hx
    omega

/-- The loop stops after `k` of `n` shifts when that is all of them, or one more would overflow. -/
theorem shiftInteger_eq {v : Word} {k n : Nat} (hkn : k ≤ n) (hf : fits (v.toInt * 2 ^ k))
    (hs : k = n ∨ ¬ fits (v.toInt * 2 ^ (k + 1))) :
    shiftInteger v n = (BitVec.ofInt 32 (v.toInt * 2 ^ k), n - k) := by
  induction k generalizing v n with
  | zero =>
    cases n with
    | zero => simp [shiftInteger]
    | succ n =>
      have hne : ¬ v.getLsbD 31 = v.getLsbD 30 := by
        rw [top_bits_agree_iff]
        simpa using hs
      rw [shiftInteger, beq_eq_false_iff_ne.2 hne, if_neg Bool.false_ne_true, pow_zero, mul_one,
        BitVec.ofInt_toInt, Nat.sub_zero]
  | succ k ih =>
    obtain ⟨n, rfl⟩ : ∃ m, n = m + 1 := ⟨n - 1, by omega⟩
    have hdouble (j : Nat) : v.toInt * 2 ^ (j + 1) = v.toInt * 2 * 2 ^ j := by ring
    rw [hdouble] at hf ⊢
    rw [hdouble] at hs
    have h2 : fits (v.toInt * 2) := fits_of_fits_mul_two_pow hf
    have hstep : shiftInteger v (n + 1) = shiftInteger (v <<< 1) n := by
      rw [shiftInteger, beq_iff_eq.2 ((top_bits_agree_iff v).2 h2), if_pos rfl]
    rw [← toInt_shiftLeft_one h2] at hf hs ⊢
    rw [hstep, ih (by omega) hf (hs.imp_left (by omega)), Nat.add_sub_add_right]

/-- Settles O12. -/
theorem shiftLeftInteger : Obligations.ShiftLeftInteger := by
  intro s s1 s2 d a b r k te h1 h2 hd hk hf
  have shli (hs : k = min a.toNat 32 ∨ ¬ fits (b.toInt * 2 ^ (k + 1))) :
      exec (.shli s1 s2 d) s =
        let u := s.setReg r (BitVec.ofInt 32 (b.toInt * 2 ^ k))
        if min a.toNat 32 - k = 0 then advance u else intOverflow .none 4 u := by
    change execShli s1 s2 d s = _
    rw [execShli, withDst_of h1 h2 hd, shiftInteger_eq hk hf hs]
  refine ⟨fun e => ?all, fun hlt hn => ⟨fun hom => ?masked, fun hom => ?unmasked⟩⟩
  case all =>
    rw [shli (.inl e), if_pos (by omega)]
    exact advance_setReg te r _
  case masked =>
    rw [shli (.inr hn), if_neg (by omega)]
    exact intOverflow_setReg_effect te hom r _
  case unmasked =>
    rw [shli (.inr hn), if_neg (by omega)]
    exact intOverflow_setReg_raises hom r _

/-! ## Carry -/

/-- The condition code of a 33-bit sum, bit by bit. -/
theorem carryCc_eq_append {t : Nat} (h : t < 2 ^ 33) (ovf : Bool) :
    carryCc t ovf = 0#1 ++ BitVec.ofBool (decide (2 ^ 32 ≤ t)) ++ BitVec.ofBool ovf := by
  by_cases hc : 2 ^ 32 ≤ t
  · rw [carryCc, show t / 2 ^ 32 % 2 = 1 by omega, decide_eq_true hc]
    cases ovf <;> rfl
  · rw [carryCc, show t / 2 ^ 32 % 2 = 0 by omega, decide_eq_false hc]
    cases ovf <;> rfl

theorem carry_le_one (s : State) : s.carry ≤ 1 := Bool.toNat_le _

/-- An instruction that writes a register and the condition code of a 33-bit sum. -/
theorem advance_setReg_carryCc {s : State} (te : s.te = false) (r : Reg) {t : Nat}
    (ht : t < 2 ^ 33) (same : Bool) (b : Word) :
    ∃ u, advance ((s.setReg r (BitVec.ofNat 32 t)).setCc
        (carryCc t (same && (b.getLsbD 31 != (BitVec.ofNat 32 t).getLsbD 31)))) = .next u ∧
      Effect s u [(r, BitVec.ofNat 32 t)] (withCc s.ac
        (0#1 ++ BitVec.ofBool (decide (2 ^ 32 ≤ t)) ++
          BitVec.ofBool (same && (b.getLsbD 31 != t.testBit 31)))) (s.ip + 4) := by
  have hbit : (BitVec.ofNat 32 t).getLsbD 31 = t.testBit 31 := by
    rw [BitVec.getLsbD_ofNat, decide_eq_true (by decide), Bool.true_and]
  rw [hbit, carryCc_eq_append ht, setCc_setReg]
  exact advance_setCc_setReg te _ r _

/-- Settles O13. -/
theorem carryArithmetic : Obligations.CarryArithmetic := by
  intro s s1 s2 d a b r te h1 h2 hd c add sub
  have ha := a.isLt
  have hb := b.isLt
  have hna := (~~~a).isLt
  have hc : c ≤ 1 := carry_le_one s
  refine ⟨?addc, ?subc⟩
  case addc =>
    change ∃ t, execAddc s1 s2 d s = .next t ∧ _
    rw [execAddc, withDst_of h1 h2 hd]
    exact advance_setReg_carryCc te r (t := add) (by omega) _ b
  case subc =>
    change ∃ t, execSubc s1 s2 d s = .next t ∧ _
    rw [execSubc, withDst_of h1 h2 hd]
    exact advance_setReg_carryCc te r (t := sub) (by omega) _ b

/-! ## 64-bit results -/

/-- Settles O14. -/
theorem extendedArithmetic : Obligations.ExtendedArithmetic := by
  intro s s1 s2 d a b lo hi r te h1
  refine ⟨fun h2 hd => ?emul, fun h2 hd ha => ?ediv, fun h2 hd => ?eshro⟩
  case emul =>
    change ∃ t, execEmul s1 s2 d s = .next t ∧ _
    simp only [execEmul, h1, h2, hd]
    exact advance_setRegs te r [_, _] (by simp)
  case ediv =>
    have ediv := execEdiv_of_ne_zero h1 h2 hd ha (n := hi.toNat * 2 ^ 32 + lo.toNat) rfl
    refine ⟨fun hq => ?fits, fun hq => ?tooLarge⟩
    case fits =>
      rw [if_neg (Nat.not_le.2 hq)] at ediv
      obtain ⟨t, e, eff⟩ := advance_setRegs te r [_, _] (by simp)
      exact ⟨t, ediv.trans e, eff⟩
    case tooLarge =>
      rw [if_pos hq] at ediv
      obtain ⟨t, e, eff⟩ := advance_setRegs te r [_, _] (by simp)
      exact ⟨t, _, _, ediv.trans e, eff⟩
  case eshro =>
    change ∃ t, execEshro s1 s2 d s = .next t ∧ _
    simp only [execEshro, h1, h2, hd]
    exact advance_setReg te r _

end Sys2Proof.Machine

end

section
/-! SUPPORT. Logical operations (O20), bit operations and scans (O21), fields and bytes (O22). -/

namespace Sys2Proof.Machine

-- Proofs are elaborated one at a time: the check has memory for the stacks of few threads.
set_option Elab.async false

/-! ## Shapes of the logical instructions

`a` and `b` are the values of the sources, `r` is the destination. -/

section
variable {s : State} {s1 s2 : Src} {d : SrcDst} {a b : Word} {r : Reg} (te : s.te = false)
  (h1 : s.src s1 30 = some a)
include te h1

/-- An instruction that writes one register with a function of its one source. -/
theorem unary_effect (hd : dest d = some r) (f : Word → Word) :
    ∃ t, unary f s1 d s = .next t ∧ Effect s t [(r, f a)] s.ac (s.ip + 4) := by
  rw [unary, withSrcDst_of h1 hd]
  exact advance_setReg te r _

/-- An instruction that writes the condition code with a function of its operands. -/
theorem compareOp_effect (h2 : s.src s2 31 = some b) {f : Word → Word → BitVec 3} {c : BitVec 3}
    (hc : f a b = c) :
    ∃ t, compareOp f s1 s2 s = .next t ∧ Effect s t [] (withCc s.ac c) (s.ip + 4) := by
  rw [compareOp, withSrcs_of h1 h2, hc]
  exact advance_setCc te c

/-- An instruction that reads and writes src/dst: a destination is not r2, so the value read is the
register's. -/
theorem modifyOp_effect (h2 : s.src s2 31 = some b) (hd : dest d = some r)
    {f : Word → Word → Word → Word} {v : Word} (hv : f a b (s.reg r) = v) :
    ∃ t, modifyOp f s1 s2 d s = .next t ∧ Effect s t [(r, v)] s.ac (s.ip + 4) := by
  rw [modifyOp, withDst_of h1 h2 hd, readReg_of_ne (ne_two_of_dest hd), hv]
  exact advance_setReg te r _

end

/-! ## Logical operations

`xor` and `xnor` are written with `and` and `or` in their rules (42_logical_bit.md R409, R410). -/

theorem or_and_not_and_eq_xor (a b : Word) : (b ||| a) &&& ~~~(b &&& a) = b ^^^ a := by
  refine BitVec.eq_of_getLsbD_eq fun i hi => ?_
  simp only [BitVec.getLsbD_and, BitVec.getLsbD_or, BitVec.getLsbD_not, BitVec.getLsbD_xor, hi,
    decide_true, Bool.true_and]
  cases b.getLsbD i <;> cases a.getLsbD i <;> rfl

theorem not_or_or_and_eq_not_xor (a b : Word) : ~~~(b ||| a) ||| (b &&& a) = ~~~(b ^^^ a) := by
  rw [← or_and_not_and_eq_xor, BitVec.not_and, BitVec.not_not]

/-- Settles O20. -/
theorem logicalResults : Obligations.LogicalResults := by
  intro s s1 s2 d a b r te h1 h2 hd
  have result {f : Word → Word → Word} {v : Word} (hv : f a b = v) :=
    binary_effect h1 h2 hd te hv
  exact ⟨result rfl, result rfl, result rfl, result BitVec.not_and.symm, result rfl, result rfl,
    result rfl, result BitVec.not_or.symm, result (or_and_not_and_eq_xor a b),
    result (not_or_or_and_eq_not_xor a b), unary_effect te h1 hd _⟩

/-! ## Bit operations -/

theorem oneBit_getLsbD (a : Word) (j : Nat) :
    (oneBit a).getLsbD j = decide (j = a.toNat % 32) := by
  have hn : a.toNat % 32 < 32 := Nat.mod_lt _ (by decide)
  change ((1#32) <<< (a.toNat % 32)).getLsbD j = _
  rw [← BitVec.twoPow_eq, BitVec.getLsbD_twoPow, decide_eq_true hn, Bool.true_and]
  exact decide_eq_decide.2 eq_comm

section
variable (a b : Word) (j : Nat)

/-- A bit set (R413). -/
theorem or_oneBit_getLsbD :
    (b ||| oneBit a).getLsbD j = if j = a.toNat % 32 then true else b.getLsbD j := by
  rw [BitVec.getLsbD_or, oneBit_getLsbD]
  split <;> simp [*]

/-- A bit cleared (R414). -/
theorem and_not_oneBit_getLsbD :
    (b &&& ~~~oneBit a).getLsbD j = if j = a.toNat % 32 then false else b.getLsbD j := by
  rw [BitVec.getLsbD_and, BitVec.getLsbD_not, oneBit_getLsbD]
  by_cases hj : j < 32
  · split <;> simp [*]
  · simp [hj, BitVec.getLsbD_of_ge b j (Nat.not_lt.1 hj)]

/-- A bit inverted (R415). -/
theorem xor_oneBit_getLsbD :
    (b ^^^ oneBit a).getLsbD j = if j = a.toNat % 32 then !b.getLsbD j else b.getLsbD j := by
  rw [BitVec.getLsbD_xor, oneBit_getLsbD]
  split <;> simp [*]

/-- A bit replaced by a condition bit (R416). -/
theorem ite_oneBit_getLsbD (c : Bool) :
    (if c then b ||| oneBit a else b &&& ~~~oneBit a).getLsbD j =
      if j = a.toNat % 32 then c else b.getLsbD j := by
  cases c
  · exact and_not_oneBit_getLsbD a b j
  · exact or_oneBit_getLsbD a b j

end

/-! ## Bit scans -/

theorem topBit_zero (n : Nat) : topBit 0 n = none := by
  induction n with
  | zero => rfl
  | succ n ih => rw [topBit, Nat.zero_testBit, if_neg Bool.false_ne_true, ih]

/-- The most significant one bit, by its two properties. -/
theorem topBit_eq_some {v i n : Nat} (hin : i < n) (hi : v.testBit i = true)
    (hj : ∀ j, i < j → j < n → v.testBit j = false) : topBit v n = some i := by
  induction n with
  | zero => exact absurd hin (Nat.not_lt_zero i)
  | succ n ih =>
    rw [topBit]
    rcases Nat.lt_succ_iff_lt_or_eq.1 hin with hlt | rfl
    · rw [hj n hlt (Nat.lt_succ_self n), if_neg Bool.false_ne_true]
      exact ih hlt fun j h1 h2 => hj j h1 (Nat.lt_succ_of_lt h2)
    · rw [if_pos hi]

section
variable {s : State} (te : s.te = false) (r : Reg)
include te

/-- No bit found: all ones and condition code 000. -/
theorem scanOp_zero_effect : ∃ t, scanOp 0 r s = .next t ∧
    Effect s t [(r, 0xFFFFFFFF)] (withCc s.ac 0b000) (s.ip + 4) := by
  rw [scanOp, show topBit (0 : Word).toNat 32 = none from topBit_zero 32]
  simp only [setCc_setReg]
  exact advance_setCc_setReg te _ r _

/-- The most significant one bit found: its number and condition code 010. -/
theorem scanOp_effect {v : Word} {i : Nat} (hi : i < 32) (hv : v.getLsbD i = true)
    (hj : ∀ j, i < j → j < 32 → v.getLsbD j = false) : ∃ t, scanOp v r s = .next t ∧
      Effect s t [(r, BitVec.ofNat 32 i)] (withCc s.ac 0b010) (s.ip + 4) := by
  rw [scanOp, topBit_eq_some hi hv hj]
  simp only [setCc_setReg]
  exact advance_setCc_setReg te _ r _

end

/-- Settles O21. `spanbit` scans the complement of its source. -/
theorem bitAndScanResults : Obligations.BitAndScanResults := by
  intro s s1 s2 d a b r te h1 h2 hd
  have result (f : Word → Word → Word) := binary_effect h1 h2 hd te (f := f) rfl
  have scanbit : exec (.scanbit s1 d) s = scanOp a r s := withSrcDst_of h1 hd
  have spanbit : exec (.spanbit s1 d) s = scanOp (~~~a) r s := withSrcDst_of h1 hd
  refine ⟨⟨_, _, _, _, fun j _ => ?bits, result _, result _, result _, result _⟩,
    fun ha => ?scanNone, fun i hi hv hj => ?scanOne, fun ha => ?spanNone, fun i hi hv hj => ?spanOne⟩
  case bits =>
    exact ⟨or_oneBit_getLsbD a b j, and_not_oneBit_getLsbD a b j, xor_oneBit_getLsbD a b j,
      ite_oneBit_getLsbD a b j _⟩
  case scanNone =>
    rw [scanbit, ha]
    exact scanOp_zero_effect te r
  case scanOne =>
    rw [scanbit]
    exact scanOp_effect te r hi hv hj
  case spanNone =>
    rw [spanbit, ha]
    exact scanOp_zero_effect te r
  case spanOne =>
    rw [spanbit]
    refine scanOp_effect te r hi ?_ fun j h1 h2 => ?_
    · rw [BitVec.getLsbD_not, hv, decide_eq_true hi]; rfl
    · rw [BitVec.getLsbD_not, hj j h1 h2, Bool.not_true, Bool.and_false]

/-! ## Bit fields and bytes -/

theorem lowMask_getLsbD (len : Word) {i : Nat} (hi : i < 32) :
    (lowMask len).getLsbD i = decide (i < len.toNat) := by
  rw [lowMask]
  split
  next h =>
    rw [decide_eq_true (Nat.lt_of_lt_of_le hi h)]
    exact (BitVec.getLsbD_allOnes (v := 32)).trans (decide_eq_true hi)
  next h =>
    have hpow : (1 : Word) <<< len.toNat = BitVec.ofNat 32 (2 ^ len.toNat) := by
      apply BitVec.eq_of_toNat_eq
      simp [Nat.shiftLeft_eq]
    have hmask : (1 : Word) <<< len.toNat - 1 = BitVec.ofNat 32 (2 ^ len.toNat - 1) := by
      rw [hpow]
      exact BitVec.ofNat_sub_ofNat_of_le _ 1 (by decide) Nat.one_le_two_pow
    rw [hmask, BitVec.getLsbD_ofNat, Nat.testBit_two_pow_sub_one, decide_eq_true hi, Bool.true_and]

/-- A field shifted down, 0 past bit 31, and cut to its length (R419). -/
theorem extract_getLsbD (pos len v : Word) {i : Nat} (hi : i < 32) :
    ((if 32 ≤ pos.toNat then 0 else v >>> pos.toNat) &&& lowMask len).getLsbD i =
      (decide (i < len.toNat) && decide (pos.toNat + i < 32) && v.getLsbD (pos.toNat + i)) := by
  have hshift : (if 32 ≤ pos.toNat then 0 else v >>> pos.toNat) = v >>> pos.toNat :=
    ite_eq_right_iff.2 fun h => (BitVec.ushiftRight_eq_zero h).symm
  rw [hshift, BitVec.getLsbD_and, BitVec.getLsbD_ushiftRight, lowMask_getLsbD len hi]
  by_cases hp : pos.toNat + i < 32
  · rw [decide_eq_true hp, Bool.and_true, Bool.and_comm]
  · rw [BitVec.getLsbD_of_ge v _ (Nat.not_lt.1 hp), Bool.and_false, Bool.false_and]

theorem merge_getLsbD (mask new old : Word) {i : Nat} (hi : i < 32) :
    (merge mask new old).getLsbD i =
      if mask.getLsbD i = true then new.getLsbD i else old.getLsbD i := by
  rw [merge, BitVec.getLsbD_or, BitVec.getLsbD_and, BitVec.getLsbD_and, BitVec.getLsbD_not]
  cases mask.getLsbD i <;> simp [hi]

/-- Some byte lane is equal, by its number. -/
theorem sameByte_iff (a b : Word) : sameByte a b = true ↔
    ∃ k : Fin 4, a.extractLsb' (8 * k) 8 = b.extractLsb' (8 * k) 8 := by
  simp [sameByte, Fin.exists_fin_succ, or_assoc]

theorem boolCc_of_iff {c : Bool} {p : Prop} [Decidable p] (h : c = true ↔ p) :
    boolCc c = if p then 0b010 else 0b000 := if_congr h rfl rfl

/-- Settles O22. -/
theorem fieldAndByteResults : Obligations.FieldAndByteResults := by
  intro s s1 s2 d a b r te h1 h2 hd
  have readWrite {f : Word → Word → Word → Word} {v : Word} (hv : f a b (s.reg r) = v) :=
    modifyOp_effect te h1 h2 hd hv
  have compare {f : Word → Word → BitVec 3} {c : BitVec 3} (hc : f a b = c) :=
    compareOp_effect te h1 h2 hc
  refine ⟨⟨_, fun i hi => extract_getLsbD a b (s.reg r) hi, ?extract⟩,
    ⟨_, fun i hi => merge_getLsbD a b (s.reg r) hi, ?modify⟩, unary_effect te h1 hd swapBytes,
    ?scanbyte, ?chkbit⟩
  case extract =>
    change ∃ t, execExtract s1 s2 d s = .next t ∧ _
    exact readWrite rfl
  case modify =>
    change ∃ t, execModify s1 s2 d s = .next t ∧ _
    exact readWrite rfl
  case scanbyte => exact compare (boolCc_of_iff (sameByte_iff a b))
  case chkbit => exact compare (boolCc_of_iff Iff.rfl)

end Sys2Proof.Machine

end

section
/-! SUPPORT. Compares (O23), compares with a step (O24), and tests of the condition code (O25). -/

namespace Sys2Proof.Machine

-- Proofs are elaborated one at a time: the check has memory for the stacks of few threads.
set_option Elab.async false

/-! ## Compared values

`Compare` is defined on integers (43_compare.md R450); an ordinal is its own integer, and a byte or
half word compares by its low bits. -/

/-- Ordinals compare as natural numbers. -/
theorem compareCc_natCast (m n : Nat) :
    compareCc m n = if m < n then 0b100 else if m = n then 0b010 else 0b001 :=
  if_congr Int.ofNat_lt rfl (if_congr Int.ofNat_inj rfl rfl)

theorem compareOrdinal_eq (a b : Word) : compareOrdinal a b =
    if a.toNat < b.toNat then 0b100 else if a.toNat = b.toNat then 0b010 else 0b001 :=
  compareCc_natCast a.toNat b.toNat

/-- The low bits of a word as an ordinal: the remainder by a power of two. -/
theorem lowOrdinal_eq (n : Nat) (v : Word) : lowOrdinal n v = (v.toNat % 2 ^ n : Nat) :=
  congrArg Nat.cast (BitVec.toNat_setWidth n v)

/-- The low bits of a word as an integer. -/
theorem lowInteger_eq {n : Nat} (h : n ≤ 32) (v : Word) :
    lowInteger n v = (v.extractLsb' 0 n).toInt :=
  congrArg BitVec.toInt (BitVec.setWidth_eq_extractLsb' h)

theorem compareCc_lowOrdinal (n : Nat) (a b : Word) :
    compareCc (lowOrdinal n a) (lowOrdinal n b) =
      if a.toNat % 2 ^ n < b.toNat % 2 ^ n then 0b100
      else if a.toNat % 2 ^ n = b.toNat % 2 ^ n then 0b010 else 0b001 := by
  rw [lowOrdinal_eq, lowOrdinal_eq, compareCc_natCast]

theorem compareCc_lowInteger {n : Nat} (h : n ≤ 32) (a b : Word) :
    compareCc (lowInteger n a) (lowInteger n b) =
      if (a.extractLsb' 0 n).toInt < (b.extractLsb' 0 n).toInt then 0b100
      else if (a.extractLsb' 0 n).toInt = (b.extractLsb' 0 n).toInt then 0b010 else 0b001 := by
  rw [lowInteger_eq h, lowInteger_eq h, compareCc]

/-! ## Shapes of the compare instructions

`a` and `b` are the values of the sources, `r` is the destination. -/

section
variable {s : State} {s1 s2 : Src} {d : SrcDst} {a b : Word} {r : Reg} (te : s.te = false)
  (h1 : s.src s1 30 = some a) (h2 : s.src s2 31 = some b)
include te h1 h2

/-- A conditional compare keeps AC when AC.cc[2] is 1: the condition code is written back. Else it
reports whether `p` holds (R457, R458). -/
theorem conditionalCompare_effect {le : Word → Word → Bool} {p : Prop} [Decidable p]
    (hp : le a b = true ↔ p) :
    ∃ t, conditionalCompare le s1 s2 s = .next t ∧
      Effect s t [] (if s.cc.getLsbD 2 = true then s.ac
        else withCc s.ac (if p then 0b010 else 0b001)) (s.ip + 4) := by
  have ac (c : BitVec 3) : (if s.cc.getLsbD 2 = true then s.ac else withCc s.ac c) =
      withCc s.ac (if s.cc.getLsbD 2 = true then s.cc else c) := by
    rw [apply_ite (withCc s.ac), show withCc s.ac s.cc = s.ac from withCc_self s.ac]
  rw [ac, conditionalCompare]
  exact compareOp_effect te h1 h2 (if_congr Iff.rfl rfl (if_congr hp rfl rfl))

/-- A compare that also writes a register: both results are of the operands as read. -/
theorem compareStep_effect (hd : dest d = some r) {f : Word → Word → BitVec 3} {delta v : Word}
    {c : BitVec 3} (hc : f a b = c) (hv : b + delta = v) :
    ∃ t, compareStep f delta s1 s2 d s = .next t ∧
      Effect s t [(r, v)] (withCc s.ac c) (s.ip + 4) := by
  rw [compareStep, withDst_of h1 h2 hd, hc, hv]
  exact advance_setCc_setReg te c r v

end

/-- Settles O23: every compare reports its operands by `compareCc`. -/
theorem compareResults : Obligations.CompareResults := by
  intro s s1 s2 a b te h1 h2
  have opcode (op : BitVec 12) := map_opcode12_regWord op s1 s2 (.reg 0)
  have compare {f : Word → Word → BitVec 3} {c : BitVec 3} (hc : f a b = c) :=
    compareOp_effect te h1 h2 hc
  have conditional {le : Word → Word → Bool} {p : Prop} [Decidable p] (hp : le a b = true ↔ p) :=
    conditionalCompare_effect te h1 h2 hp
  exact ⟨compare (compareOrdinal_eq a b), compare rfl,
    compare (compareCc_lowOrdinal 8 a b), opcode 0x594,
    compare (compareCc_lowInteger (by decide) a b),
    compare (compareCc_lowOrdinal 16 a b), opcode 0x596,
    compare (compareCc_lowInteger (by decide) a b),
    conditional decide_eq_true_iff, conditional decide_eq_true_iff, opcode 0x5A3⟩

/-- Settles O24: the compare reads src2 before the step, and a decrement adds -1. -/
theorem compareAndStepResults : Obligations.CompareAndStepResults := by
  intro s s1 s2 d a b r te h1 h2 hd
  have step {f : Word → Word → BitVec 3} {delta v : Word} {c : BitVec 3} (hc : f a b = c)
      (hv : b + delta = v) := compareStep_effect te h1 h2 hd hc hv
  have decrement : b + -1 = b - 1 := (BitVec.sub_eq_add_neg b 1).symm
  exact ⟨step (compareOrdinal_eq a b) rfl, step rfl rfl,
    step (compareOrdinal_eq a b) decrement, map_opcode12_regWord 0x5A6 s1 s2 d,
    step rfl decrement⟩

/-! ## Tests -/

/-- TEST words its condition apart for mask 000 (R464), yet it agrees with that of the branches: a
mask other than 000 that equals AC.cc has a bit in common with it. -/
theorem condTest_eq_cond (s : State) (mask : BitVec 3) : s.condTest mask = s.cond mask := by
  rw [State.condTest, State.cond]
  by_cases hm : mask = 0
  · rw [if_pos hm, hm, show 0 &&& s.cc = 0 from BitVec.zero_and, bne_self_eq_false, Bool.false_or,
      Bool.beq_comm]
  · rw [if_neg hm]
    by_cases hc : mask = s.cc
    · rw [← hc, BitVec.and_self, bne_iff_ne.2 hm, Bool.true_or]
    · rw [beq_eq_false_iff_ne.2 hc, Bool.or_false]

/-- A test writes whether its condition holds (R464). -/
theorem testOp_effect {s : State} {d : SrcDst} {r : Reg} (te : s.te = false)
    (hd : dest d = some r) {mask : BitVec 3} {p : Prop} [Decidable p]
    (hp : s.cond mask = true ↔ p) :
    ∃ t, testOp mask d s = .next t ∧
      Effect s t [(r, if p then 1 else 0)] s.ac (s.ip + 4) := by
  simp only [testOp, hd, condTest_eq_cond]
  rw [if_congr hp rfl rfl]
  exact advance_setReg te r _

/-- The one word of a TEST instruction carries its opcode. -/
theorem map_opcode8_testWord (op : BitVec 8) (d : SrcDst) : [testWord op d].map opcode8 = [op] :=
  congrArg ([·]) (Laws.test_op op d)

/-- Settles O25: the conditions are those of the branches, by `condTest_eq_cond`. -/
theorem testConditionCode : Obligations.TestConditionCode := by
  intro s d r te hd
  have opcode (op : BitVec 8) := map_opcode8_testWord op d
  have effect {mask : BitVec 3} {p : Prop} [Decidable p] (hp : s.cond mask = true ↔ p) :=
    testOp_effect te hd hp
  exact ⟨effect (cond_unordered s), opcode 0x20, effect (cond_greater s), opcode 0x21,
    effect (cond_equal s), opcode 0x22, effect (cond_greaterOrEqual s), opcode 0x23,
    effect (cond_less s), opcode 0x24, effect (cond_notEqual s), opcode 0x25,
    effect (cond_lessOrEqual s), opcode 0x26, effect (cond_ordered s), opcode 0x27⟩

end Sys2Proof.Machine

end

section
/-! SUPPORT. Branches: unconditional and with a link (O35), by the condition code (O36), on one bit
(O37), and after a compare (O38). -/

namespace Sys2Proof.Machine

-- Proofs are elaborated one at a time: the check has memory for the stacks of few threads.
set_option Elab.async false

/-! ## Opcodes -/

/-- The one word of a CTRL instruction carries its opcode. -/
theorem map_opcode8_ctrlWord (op : BitVec 8) (disp : BitVec 22) :
    [ctrlWord op disp].map opcode8 = [op] :=
  congrArg ([·]) (Laws.ctrl_op op disp)

/-- The one word of a COBR instruction carries its opcode. -/
theorem map_opcode8_cobrWord (op : BitVec 8) (s1 : CSrc) (s2 : CReg) (disp : BitVec 11) :
    [cobrWord op s1 s2 disp].map opcode8 = [op] :=
  congrArg ([·]) (Laws.cobr_op op s1 s2 disp)

/-! ## Unconditional branches

Each effect leaves `target &&& 0xFFFFFFFC` in IP (44_branch.md R490). -/

/-- With tracing off a call is no trace event. -/
theorem callTraced_quiet {s : State} (te : s.te = false) : s.callTraced s.pc = false := by
  rw [State.callTraced, show bit s.pc 0 = false from te, Bool.false_and]

/-- A branch that is taken writes IP alone. -/
theorem takeBranch_effect {s : State} (te : s.te = false) (target : Word) :
    ∃ t, takeBranch target s = .next t ∧ Effect s t [] s.ac target :=
  ⟨_, retire_quiet te _ target, Effect.ofIp s target⟩

/-- A branch with a link also writes its link register; the prereturn flag, which lies in r0, stays
as it was. -/
theorem branchAndLink_effect {s : State} (te : s.te = false) (r : Reg) (next target : Word) :
    ∃ t, branchAndLink r next target s = .next t ∧ Effect s t [(r, next)] s.ac target := by
  refine ⟨_, ?_, Effect.ofReg s r next target⟩
  rw [branchAndLink, callTraced_quiet te, if_neg Bool.false_ne_true]
  exact retire_quiet ((State.setReg_te ..).trans te) _ target

/-- Settles O35. The target of `balx` is the effective address before the link is written. -/
theorem branchResults : Obligations.BranchResults := by
  intro s disp m d te
  refine ⟨takeBranch_effect te _, takeBranch_effect te _, branchAndLink_effect te _ _ _,
    fun hd => ?balx⟩
  case balx =>
    change ∃ t, execBalx m d s = .next t ∧ _
    rw [execBalx, destGroup_one_of_ne hd]
    exact branchAndLink_effect te d _ _

/-! ## Conditional branches -/

/-- With tracing off a branch goes to its target when its condition holds, else to the next
instruction. -/
theorem branchIf_quiet {s : State} (te : s.te = false) {c : Bool} {p : Prop} [Decidable p]
    (hp : c = true ↔ p) (target : Word) :
    branchIf c target s = .next (s.setIp (if p then target else s.ip + 4)).bump := by
  rw [branchIf, if_congr hp rfl rfl]
  split
  · exact retire_quiet te _ target
  · exact advance_quiet te

/-- A conditional branch writes IP alone. -/
theorem branchIf_effect {s : State} (te : s.te = false) {c : Bool} {p : Prop} [Decidable p]
    (hp : c = true ↔ p) (target : Word) :
    ∃ t, branchIf c target s = .next t ∧
      Effect s t [] s.ac (if p then target else s.ip + 4) :=
  ⟨_, branchIf_quiet te hp target, Effect.ofIp s _⟩

/-- A conditional branch that reports a condition code `k` writes it and IP. -/
theorem branchIf_setCc_effect {s : State} (te : s.te = false) {c : Bool} {p : Prop} [Decidable p]
    (hp : c = true ↔ p) (k : BitVec 3) (target : Word) :
    ∃ t, branchIf c target (s.setCc k) = .next t ∧
      Effect s t [] (withCc s.ac k) (if p then target else s.ip + 4) := by
  rw [← setCc_ac]
  exact ⟨_, branchIf_quiet ((State.setCc_te s k).trans te) hp target, Effect.ofCc s k _⟩

/-- Settles O36: the conditions are those of the selects. -/
theorem branchByConditionCode : Obligations.BranchByConditionCode := by
  intro s disp te
  have opcode (op : BitVec 8) := map_opcode8_ctrlWord op disp
  have effect {mask : BitVec 3} {p : Prop} [Decidable p] (hp : s.cond mask = true ↔ p) :=
    branchIf_effect te hp (s.ctrlTarget disp)
  exact ⟨effect (cond_unordered s), opcode 0x10, effect (cond_greater s), opcode 0x11,
    effect (cond_equal s), opcode 0x12, effect (cond_greaterOrEqual s), opcode 0x13,
    effect (cond_less s), opcode 0x14, effect (cond_notEqual s), opcode 0x15,
    effect (cond_lessOrEqual s), opcode 0x16, effect (cond_ordered s), opcode 0x17⟩

/-! ## Check bit and branch -/

/-- The bit goes to the condition code, and the branch is taken when it is the bit wanted
(R505, R506). -/
theorem checkBitBranch_effect {s : State} {s2 : CReg} {b : Word} (te : s.te = false)
    (h2 : s.cobrReg s2 31 = some b) (want : Bool) (s1 : CSrc) (disp : BitVec 11) :
    let x := b.getLsbD ((s.cobrSrc s1 30).toNat % 32)
    ∃ t, checkBitBranch want s1 s2 disp s = .next t ∧
      Effect s t [] (withCc s.ac (if x = true then 0b010 else 0b000))
        (if x = want then s.cobrTarget disp else s.ip + 4) := by
  simp only [checkBitBranch, h2]
  exact branchIf_setCc_effect te beq_iff_eq _ _

/-! ## Compare and branch

The branch asks for a bit in common of the mask and the new condition code (R507). So mask 000 never
branches here, where `bno` would branch on condition code 000. -/

/-- The mask has a bit for each outcome of a compare. -/
theorem and_compareCc_ne_zero (mask : BitVec 3) (x y : Int) :
    (mask &&& compareCc x y != 0) = true ↔
      x < y ∧ mask.getLsbD 2 = true ∨ x = y ∧ mask.getLsbD 1 = true ∨
        y < x ∧ mask.getLsbD 0 = true := by
  have outcome : ∀ m : BitVec 3, ((m &&& 0b100 != 0) = m.getLsbD 2) ∧
      ((m &&& 0b010 != 0) = m.getLsbD 1) ∧ ((m &&& 0b001 != 0) = m.getLsbD 0) := by decide
  obtain ⟨less, equal, greater⟩ := outcome mask
  rcases lt_trichotomy x y with h | h | h
  · rw [compareCc, if_pos h, less]
    simp [h, h.ne, h.not_gt]
  · rw [compareCc, if_neg h.not_lt, if_pos h, equal]
    simp [h]
  · rw [compareCc, if_neg h.not_gt, if_neg h.ne', greater]
    simp [h, h.ne', h.not_gt]

section
variable {x y : Int}

theorem compareMask_never : (0b000 &&& compareCc x y != 0) = true ↔ False :=
  (and_compareCc_ne_zero ..).trans (by simp)

theorem compareMask_greater : (0b001 &&& compareCc x y != 0) = true ↔ x > y :=
  (and_compareCc_ne_zero ..).trans (by simp)

theorem compareMask_equal : (0b010 &&& compareCc x y != 0) = true ↔ x = y :=
  (and_compareCc_ne_zero ..).trans (by simp)

theorem compareMask_greaterOrEqual : (0b011 &&& compareCc x y != 0) = true ↔ x ≥ y :=
  (and_compareCc_ne_zero ..).trans (by simp; omega)

theorem compareMask_less : (0b100 &&& compareCc x y != 0) = true ↔ x < y :=
  (and_compareCc_ne_zero ..).trans (by simp)

theorem compareMask_notEqual : (0b101 &&& compareCc x y != 0) = true ↔ x ≠ y :=
  (and_compareCc_ne_zero ..).trans (by simp)

theorem compareMask_lessOrEqual : (0b110 &&& compareCc x y != 0) = true ↔ x ≤ y :=
  (and_compareCc_ne_zero ..).trans (by simp; omega)

theorem compareMask_always : (0b111 &&& compareCc x y != 0) = true ↔ True :=
  (and_compareCc_ne_zero ..).trans (by simp; omega)

end

/-- The compare reports its operands, and the new condition code decides the branch. -/
theorem compareBranch_effect {s : State} {s2 : CReg} {b : Word} {f : Word → Word → BitVec 3}
    {s1 : CSrc} {c mask : BitVec 3} {p : Prop} [Decidable p] (te : s.te = false)
    (h2 : s.cobrReg s2 31 = some b) (hc : f (s.cobrSrc s1 30) b = c)
    (hp : (mask &&& f (s.cobrSrc s1 30) b != 0) = true ↔ p) (disp : BitVec 11) :
    ∃ t, compareBranch f mask s1 s2 disp s = .next t ∧
      Effect s t [] (withCc s.ac c) (if p then s.cobrTarget disp else s.ip + 4) := by
  subst hc
  simp only [compareBranch, h2]
  exact branchIf_setCc_effect te hp _ _

/-- Settles O38: integers and ordinals branch on the outcome of one compare, by
`and_compareCc_ne_zero`. -/
theorem compareAndBranch : Obligations.CompareAndBranch := by
  intro s s1 s2 disp b te h2 a
  have opcode (op : BitVec 8) := map_opcode8_cobrWord op s1 s2 disp
  have integer {mask : BitVec 3} {p : Prop} [Decidable p]
      (hp : (mask &&& compareInteger a b != 0) = true ↔ p) :=
    compareBranch_effect te h2 (s1 := s1) (f := compareInteger) rfl hp disp
  have ordinal {mask : BitVec 3} {p : Prop} [Decidable p]
      (hp : (mask &&& compareOrdinal a b != 0) = true ↔ p) :=
    compareBranch_effect te h2 (compareOrdinal_eq a b) hp disp
  have toInt_eq : a.toInt = b.toInt ↔ a = b := BitVec.toInt_inj
  have toNat_eq : (a.toNat : Int) = b.toNat ↔ a = b := Int.ofNat_inj.trans BitVec.toNat_inj
  exact ⟨integer compareMask_never, opcode 0x38, integer compareMask_greater, opcode 0x39,
    integer (compareMask_equal.trans toInt_eq), opcode 0x3A,
    integer compareMask_greaterOrEqual, opcode 0x3B, integer compareMask_less, opcode 0x3C,
    integer (compareMask_notEqual.trans toInt_eq.not), opcode 0x3D,
    integer compareMask_lessOrEqual, opcode 0x3E, integer compareMask_always, opcode 0x3F,
    ordinal (compareMask_greater.trans Int.ofNat_lt), opcode 0x31,
    ordinal (compareMask_equal.trans toNat_eq), opcode 0x32,
    ordinal (compareMask_greaterOrEqual.trans Int.ofNat_le), opcode 0x33,
    ordinal (compareMask_less.trans Int.ofNat_lt), opcode 0x34,
    ordinal (compareMask_notEqual.trans toNat_eq.not), opcode 0x35,
    ordinal (compareMask_lessOrEqual.trans Int.ofNat_le), opcode 0x36⟩

end Sys2Proof.Machine

namespace Sys2Proof.Laws

/-- Settles O37. (The shape of the two instructions has this name in `Machine`.) -/
theorem checkBitBranch : Obligations.CheckBitBranch := by
  intro s s1 s2 disp b te h2 a
  have effect (want : Bool) := Machine.checkBitBranch_effect te h2 want s1 disp
  refine ⟨?bbc, effect true⟩
  case bbc =>
    have swap {x : Bool} {u v : Word} : (if x = true then u else v) = if x = false then v else u := by
      cases x <;> rfl
    rw [swap]
    exact effect false

end Sys2Proof.Laws

end

section
/-! SUPPORT. Calls and returns: `call` and `callx` (O39), `calls` (O40), `ret` (O41), a call and its
return (O42), `flushreg` (O43), and the return from a fault and from an interrupt (O58). -/

namespace Sys2Proof.Machine

-- Proofs are elaborated one at a time: the check has memory for the stacks of few threads.
set_option Elab.async false

/-! ## Words in memory -/

/-- Two runs of bytes next to each other lie in memory as one. -/
theorem bytesAt_append {s : State} {a : Word} {bs cs : List Byte} :
    s.bytesAt a (bs ++ cs) ↔ s.bytesAt a bs ∧ s.bytesAt (a + BitVec.ofNat 32 bs.length) cs := by
  have shift (j : Nat) : a + BitVec.ofNat 32 bs.length + BitVec.ofNat 32 j =
      a + BitVec.ofNat 32 (bs.length + j) := by rw [BitVec.add_assoc, ← BitVec.ofNat_add]
  refine ⟨fun h => ⟨fun i hi => ?_, fun j hj => ?_⟩, fun ⟨hb, hc⟩ i hi => ?_⟩
  · rw [h i (by rw [List.length_append]; omega), List.getElem_append_left hi]
  · rw [shift, h (bs.length + j) (by rw [List.length_append]; omega),
      List.getElem_append_right (by omega)]
    simp
  · by_cases hlt : i < bs.length
    · rw [hb i hlt, List.getElem_append_left hlt]
    · have hc := hc (i - bs.length) (by rw [List.length_append] at hi; omega)
      rw [shift, show bs.length + (i - bs.length) = i by omega] at hc
      rw [hc, List.getElem_append_right (by omega)]

/-- `t` is `s` with the words `ws` stored from `a` on, the memory elsewhere as it was. -/
structure Stored (s t : State) (a : Word) (ws : List Word) : Prop where
  words : t.bytesAt a (ws.flatMap wordBytes)
  others : ∀ x, outside a (4 * ws.length) x → t.peek x = s.peek x

/-- Two stores next to each other are one of all the words. -/
theorem Stored.append {s t u : State} {a b : Word} {vs ws : List Word} (hv : Stored s t a vs)
    (hw : Stored t u b ws) (hb : b = a + BitVec.ofNat 32 (4 * vs.length))
    (hl : 4 * vs.length + 4 * ws.length ≤ 2 ^ 32) : Stored s u a (vs ++ ws) := by
  subst hb
  have apart (i : Nat) (hi : i < 4 * vs.length) :
      outside (a + BitVec.ofNat 32 (4 * vs.length)) (4 * ws.length) (a + BitVec.ofNat 32 i) := by
    intro j hj e
    rw [BitVec.add_assoc, BitVec.add_right_inj, ← BitVec.ofNat_add] at e
    have := congrArg BitVec.toNat e
    rw [BitVec.toNat_ofNat, BitVec.toNat_ofNat, Nat.mod_eq_of_lt (by omega),
      Nat.mod_eq_of_lt (by omega)] at this
    omega
  constructor
  case words =>
    rw [List.flatMap_append, bytesAt_append, flatMap_wordBytes_length]
    refine ⟨fun i hi => ?_, hw.words⟩
    rw [hw.others _ (apart i (by rwa [flatMap_wordBytes_length] at hi)), hv.words i hi]
  case others =>
    intro x hx
    rw [List.length_append, Nat.mul_add] at hx
    rw [hw.others x fun j hj => ?_, hv.others x fun i hi => hx i (by omega)]
    rw [BitVec.add_assoc, ← BitVec.ofNat_add]
    exact hx _ (by omega)

/-- Words stored in one access where they may be. -/
theorem storeWords_stored {s : State} {a : Word} {ws : List Word} (hu : s.undisturbed)
    (hn : isSize (4 * ws.length)) (hm : s.mayStore a (4 * ws.length)) :
    ∃ m st, storeWords a ws s = .ok () (s.withMem m st) ∧ Stored s (s.withMem m st) a ws := by
  obtain ⟨ht, key, hp⟩ := hm
  rw [← flatMap_wordBytes_length] at hn ht hp
  obtain ⟨st, hs⟩ := store_plain ht hp hn (hu.alone _ _)
  obtain ⟨hin, hout⟩ := withMem_stored hp st
  exact ⟨_, st, hs, hin, fun x hx => hout x (by rwa [flatMap_wordBytes_length])⟩

/-- Where a store is allowed depends on the mode, BCON and the address decode. -/
theorem mayStore_congr {s t : State} (hp : t.supervisor = s.supervisor) (hb : t.bus = s.bus)
    (ha : t.atu = s.atu) (hm : t.mc = s.mc) (hbd : t.board = s.board) {a : Word} {n : Nat}
    (h : s.mayStore a n) : t.mayStore a n := by
  obtain ⟨ht, key, hk⟩ := h
  exact ⟨(storeTrap_congr hp hb a n).trans ht, key,
    fun i hi => (cellW_congr ha hm hbd _).trans (hk i hi)⟩

/-! ## Save areas

A frame's 16 registers go to memory and come back in four quad words (45_call_return.md R541, R543). -/

/-- The quad word of index `i` of a save area. -/
def quadWord (ws : List Word) (i : Nat) : List Word := (ws.drop (4 * i)).take 4

theorem quadWord_length {ws : List Word} {i : Nat} (h : 4 * i + 4 ≤ ws.length) :
    (quadWord ws i).length = 4 := by
  rw [quadWord, List.length_take, List.length_drop]
  omega

/-- The words up to a quad word, and it. -/
theorem take_append_quadWord (ws : List Word) (i : Nat) :
    ws.take (4 * i) ++ quadWord ws i = ws.take (4 * i + 4) := by
  rw [quadWord, List.take_add]

/-- Sixteen words are four quad words. -/
theorem quadWords_append {ws : List Word} (h : ws.length = 16) :
    quadWord ws 0 ++ quadWord ws 1 ++ quadWord ws 2 ++ quadWord ws 3 = ws := by
  have first : quadWord ws 0 = ws.take (4 * 1) := rfl
  rw [first, take_append_quadWord, take_append_quadWord ws 2, take_append_quadWord ws 3,
    List.take_of_length_le (by omega)]

/-- The 64 bytes of the save area at `a` may be stored. -/
def State.frameStorable (s : State) (a : Word) : Prop :=
  s.mayStore a 16 ∧ s.mayStore (a + 16) 16 ∧ s.mayStore (a + 32) 16 ∧ s.mayStore (a + 48) 16

theorem frameStorable_congr {s t : State} (hp : t.supervisor = s.supervisor) (hb : t.bus = s.bus)
    (ha : t.atu = s.atu) (hm : t.mc = s.mc) (hbd : t.board = s.board) {a : Word}
    (h : s.frameStorable a) : t.frameStorable a := by
  obtain ⟨h0, h1, h2, h3⟩ := h
  exact ⟨mayStore_congr hp hb ha hm hbd h0, mayStore_congr hp hb ha hm hbd h1,
    mayStore_congr hp hb ha hm hbd h2, mayStore_congr hp hb ha hm hbd h3⟩

/-- A spill, by quad words. -/
theorem spill_eq (e : Frame) (s : State) : spill e s =
    (storeWords e.addr (quadWord e.regs.toList 0) s).andGap.bind fun _ s =>
    (storeWords (e.addr + 16) (quadWord e.regs.toList 1) s).andGap.bind fun _ s =>
    (storeWords (e.addr + 32) (quadWord e.regs.toList 2) s).andGap.bind fun _ s =>
    storeWords (e.addr + 48) (quadWord e.regs.toList 3) s := rfl

/-- One quad word of a spill, other words perhaps stored before it. -/
theorem storeWords_quadWord {s : State} {a : Word} {ws : List Word} (hu : s.undisturbed)
    (hl : ws.length = 16) (hm : s.mayStore a 16) {i : Nat} (hi : i < 4) (m : List Host.Cell)
    (st : List (Nat × Word)) :
    ∃ m' st', storeWords a (quadWord ws i) (s.withMem m st) = .ok () (s.withMem m' st') ∧
      Stored (s.withMem m st) (s.withMem m' st') a (quadWord ws i) := by
  have h4 : (quadWord ws i).length = 4 := quadWord_length (by omega)
  exact storeWords_stored (undisturbed_congr rfl rfl hu) (by simp [isSize, h4])
    (by rw [h4]; exact mayStore_congr (s := s) rfl rfl rfl rfl rfl hm)

/-- A spill where it may be stored leaves the registers in the save area and nothing else. -/
theorem spill_stored {s : State} {e : Frame} (hu : s.undisturbed) (hf : s.frameStorable e.addr) :
    ∃ m st, spill e s = .ok () (s.withMem m st) ∧
      Stored s (s.withMem m st) e.addr e.regs.toList := by
  have hl : e.regs.toList.length = 16 := e.regs.length_toList
  obtain ⟨h0, h1, h2, h3⟩ := hf
  obtain ⟨m0, st0, e0, w0⟩ := storeWords_quadWord hu hl h0 (i := 0) (by omega) s.mem s.stale
  obtain ⟨m1, st1, e1, w1⟩ := storeWords_quadWord hu hl h1 (i := 1) (by omega) m0 st0
  obtain ⟨m2, st2, e2, w2⟩ := storeWords_quadWord hu hl h2 (i := 2) (by omega) m1 st1
  obtain ⟨m3, st3, e3, w3⟩ := storeWords_quadWord hu hl h3 (i := 3) (by omega) m2 st2
  change storeWords e.addr (quadWord e.regs.toList 0) s = _ at e0
  have noGap (m : List Host.Cell) (st : List (Nat × Word)) :
      (Eff.ok () (s.withMem m st)).andGap = .ok () (s.withMem m st) :=
    Eff.andGap_ok () (undisturbed_congr rfl rfl hu)
  refine ⟨m3, st3, ?made, ?stored⟩
  case made =>
    rw [spill_eq, e0, noGap, Eff.bind_ok, e1, noGap, Eff.bind_ok, e2, noGap, Eff.bind_ok, e3]
  case stored =>
    have len (i : Nat) (hi : i < 4) : (quadWord e.regs.toList i).length = 4 :=
      quadWord_length (by omega)
    have all := ((w0.append w1 ?_ ?_).append w2 ?_ ?_).append w3 ?_ ?_
    · rwa [quadWords_append hl] at all
    all_goals simp [len]

/-- The quad word of index `i` of words that lie in memory. -/
theorem loadWords_quadWord {s : State} {a : Word} {ws : List Word} {key : Nat}
    (hu : s.undisturbed) (hl : ws.length = 16) (hp : s.plain a 64 key)
    (hb : s.bytesAt a (ws.flatMap wordBytes)) {i : Nat} (hi : i < 4) :
    loadWords (a + BitVec.ofNat 32 (16 * i)) 4 s = .ok (quadWord ws i) s := by
  have h4 : (quadWord ws i).length = 4 := quadWord_length (by omega)
  have hbytes : s.bytesAt (a + BitVec.ofNat 32 (16 * i)) ((quadWord ws i).flatMap wordBytes) := by
    rw [← List.take_append_drop (4 * i + 4) ws, ← take_append_quadWord, List.flatMap_append,
      List.flatMap_append, bytesAt_append, bytesAt_append, flatMap_wordBytes_length,
      List.length_take, Nat.min_eq_left (by omega), ← Nat.mul_assoc] at hb
    obtain ⟨⟨-, hq⟩, -⟩ := hb
    exact hq
  have hrun : s.plain (a + BitVec.ofNat 32 (16 * i)) 16 (key + 16 * i) :=
    State.plain_take (State.plain_drop hp _) (by omega)
  have h16 : ((quadWord ws i).flatMap wordBytes).length = 16 := by
    rw [flatMap_wordBytes_length, h4]
  have hread := readBytes_of_bytesAt (k := key + 16 * i) (by rwa [h16]) hbytes
  rw [h16] at hread
  rw [loadWords, load_plain hrun (by simp [isSize]) (hu.alone _ _), Eff.bind_ok, hread,
    bytesToWords_flatMap]

/-- A save area in memory is read back. -/
theorem loadFrame_plain {s : State} {f : Word} {ws : List Word} {key : Nat} (hu : s.undisturbed)
    (hl : ws.length = 16) (hp : s.plain f 64 key) (hb : s.bytesAt f (ws.flatMap wordBytes)) :
    loadFrame f s = .ok ws s := by
  have quad (i : Nat) (hi : i < 4) := loadWords_quadWord hu hl hp hb hi
  have q0 : loadWords f 4 s = .ok (quadWord ws 0) s := by
    simpa using quad 0 (by omega)
  have q1 : loadWords (f + 16) 4 s = .ok (quadWord ws 1) s := quad 1 (by omega)
  have q2 : loadWords (f + 32) 4 s = .ok (quadWord ws 2) s := quad 2 (by omega)
  have q3 : loadWords (f + 48) 4 s = .ok (quadWord ws 3) s := quad 3 (by omega)
  simp only [loadFrame, q0, q1, q2, q3, Eff.andGap_ok _ hu, Eff.bind_ok, quadWords_append hl]

/-! ## `flushreg` -/

/-- Frames whose save areas may be stored and do not overlap all reach memory. -/
theorem flushFrames_stored {s : State} (hu : s.undisturbed) (l : List Frame)
    (hf : ∀ e ∈ l, s.frameStorable e.addr)
    (hd : l.Pairwise fun e f => ∀ i, i < 64 → outside e.addr 64 (f.addr + BitVec.ofNat 32 i)) :
    ∃ m st, flushFrames l s = .ok () (s.withMem m st) ∧
      (∀ e ∈ l, (s.withMem m st).bytesAt e.addr (e.regs.toList.flatMap wordBytes)) ∧
      ∀ x, (∀ e ∈ l, outside e.addr 64 x) → (s.withMem m st).peek x = s.peek x := by
  induction l with
  | nil => exact ⟨s.mem, s.stale, rfl, fun e he => absurd he List.not_mem_nil, fun _ _ => rfl⟩
  | cons e older ih =>
    obtain ⟨apart, hd⟩ := List.pairwise_cons.1 hd
    obtain ⟨m, st, hfl, hin, hout⟩ := ih (fun f h => hf f (List.mem_cons_of_mem _ h)) hd
    have hu' : (s.withMem m st).undisturbed := undisturbed_congr rfl rfl hu
    obtain ⟨m', st', hs, hstored⟩ := spill_stored hu'
      (frameStorable_congr (s := s) rfl rfl rfl rfl rfl (hf e List.mem_cons_self))
    have kept {x : Word} (hx : outside e.addr 64 x) :
        (s.withMem m' st').peek x = (s.withMem m st).peek x :=
      hstored.others x (by rwa [Vector.length_toList])
    refine ⟨m', st', ?_, fun f h => ?_, fun x hx => ?_⟩
    · rw [flushFrames, hfl, Eff.bind_ok, gap_undisturbed hu', ite_self, Eff.bind_ok, hs]
      rfl
    · rcases List.mem_cons.1 h with rfl | h
      · exact hstored.words
      · intro i hi
        have h64 : i < 64 := by simpa [flatMap_wordBytes_length] using hi
        rw [kept (apart f h i h64), hin f h i hi]
    · rw [kept (hx e List.mem_cons_self), hout x fun f h => hx f (List.mem_cons_of_mem _ h)]

/-- A spill that may be stored does not trap. -/
theorem spillTrap_none {s : State} {e : Frame} (h : s.frameStorable e.addr) :
    s.spillTrap e = none := by
  obtain ⟨⟨h0, -⟩, ⟨h1, -⟩, ⟨h2, -⟩, ⟨h3, -⟩⟩ := h
  simp only [State.spillTrap, List.findSome?_cons, List.findSome?_nil, add_zero, h0, h1, h2, h3]

/-- Where no spill would trap the whole cache is flushed. -/
theorem flushCache_storable {s : State} (h : ∀ e ∈ s.rc, s.frameStorable e.addr) :
    flushCache s = flushFrames s.rc s := by
  rw [flushCache,
    List.findSome?_eq_none_iff.2 fun e he => spillTrap_none (h e (List.mem_reverse.1 he))]

/-- The state after a flush, but for IP: the memory that the spills leave, and no frame cached. -/
def State.flushed (s : State) (m : List Host.Cell) (st : List (Nat × Word)) : State :=
  { s.withMem m st with rc := [], pfpDirty := false, dirtyFrames := [] }

/-- Settles O43. -/
theorem flushRegisters : Obligations.FlushRegisters := by
  intro s te hu hf hd
  obtain ⟨m, st, hfl, hin, hout⟩ := flushFrames_stored hu s.rc hf hd
  have step : exec .flushreg s = .next ((s.flushed m st).setIp (s.ip + 4)).bump := by
    change execFlushreg s = _
    rw [execFlushreg, flushCache_storable hf, hfl, orRaise_ok]
    exact retire_quiet (s := s.flushed m st) te _ _
  refine ⟨_, step, rfl, fun e he i hi => ?_, fun x hx => ?_, rfl, rfl⟩
  · exact (peek_congr rfl rfl rfl rfl _).trans (hin e he i hi)
  · exact (peek_congr rfl rfl rfl rfl _).trans (hout x hx)

/-! ## Tracing where nothing is traced -/

/-- No trace mode is on and no breakpoint armed. -/
def State.untraced (s : State) : Prop :=
  s.tc &&& 0xFE = 0 ∧ s.dbg.ipb0 = 0 ∧ s.dbg.ipb1 = 0 ∧ s.dbg.bpcon = 0

/-- An instruction that is no forced mark reports nothing where tracing is off or idle. -/
theorem traceAfter_untraced {s : State} (h : s.te = false ∨ s.untraced) (a : Word) {ev : Events}
    (hflags : ev.flags = 0) (hmark : ev.fmark = false) : traceAfter a ev s = .next s.bump := by
  rcases h with te | ⟨tc, h0, h1, hb⟩
  · exact traceAfter_quiet te a ev
  · refine traceAfter_calm a ev h0 h1 hb hflags ?_
    rw [traceBits_modes tc, hmark]
    simp [bitAt]

/-- Nor is a call traced. -/
theorem callTraced_untraced {s : State} {pc : Word} (h : bit pc 0 = false ∨ s.untraced) :
    s.callTraced pc = false := by
  rcases h with te | ⟨tc, -⟩
  · rw [State.callTraced, te, Bool.false_and]
  · rw [State.callTraced, traceMode_bit tc 3 rfl]
    exact Bool.and_false _

/-! ## Calls that spill -/

/-- The mode that process controls set is theirs. -/
theorem supervisor_setPc (s : State) (v : Word) : (s.setPc v).supervisor = bit v 1 := by
  unfold State.supervisor State.setPc bit pcMask
  rw [BitVec.getLsbD_and, show (0x001F2403 : Word).getLsbD 1 = true from rfl, Bool.and_true]

/-- When a push spills (45_call_return.md R541, R542). -/
theorem pushSpills_iff (s : State) (pc : Word) (n : Nat) : s.pushSpills pc n = true ↔
    n + 1 = 8 ∨ (¬ (pc.getLsbD 13 = true ∧ 28 ≤ pc.toNat / 2 ^ 16 % 32) ∧
      8 - s.rcLimit.toNat ≤ n + 1) := by
  simp only [State.pushSpills, Bool.or_eq_true, Bool.and_eq_true, beq_iff_eq, Bool.not_eq_true',
    Bool.eq_false_iff, ne_eq, decide_eq_true_eq]
  exact Iff.rfl

/-- A push that spills stores the oldest set, which has left the cache (45_call_return.md R541). -/
theorem pushFrame_spills {s : State} {pc : Word} {e : Frame}
    (hfp : s.rc = [] ∨ s.fp = s.frameAddr) (hs : s.pushSpills pc s.rc.length = true)
    (he : (s.currentFrame :: s.rc).getLast? = some e) :
    pushFrame pc s = spill e { s with rc := (s.currentFrame :: s.rc).dropLast } := by
  have hmoved : ¬ (decide (s.rc ≠ []) && s.fp != s.frameAddr) = true := by
    rcases hfp with h | h <;> simp [h]
  rw [pushFrame, if_neg hmoved]
  simp only [hs, if_true, he]

/-- The state in which the spill of a call is made: r2 holds the return IP, PC is the call's, the
current set is cached and the oldest is not. -/
def State.pushedFull (s : State) (ret pc : Word) : State :=
  { (s.pushed ret).setPc pc with rc := (s.pushed ret).rc.dropLast }

/-- A call whose push spills: what it leaves. -/
theorem callOp_spills {s : State} {pc next : Word} {e : Frame} (target base rrr : Word)
    (hu : s.undisturbed) (hfp : s.rc = [] ∨ s.fp = s.frameAddr)
    (hs : s.pushSpills pc s.rc.length = true) (he : (s.pushed next).rc.getLast? = some e)
    (hf : (s.setPc pc).frameStorable e.addr) :
    ∃ m st, callOp target base rrr next pc s =
        .ok () ((enterFrame (align16 base) (rrr ||| bitAt (s.callTraced pc) 3)
          ((s.pushedFull next pc).withMem m st)).setIp target) ∧
      Stored (s.pushedFull next pc) ((s.pushedFull next pc).withMem m st) e.addr e.regs.toList := by
  obtain ⟨m, st, hsp, hst⟩ := spill_stored (s := s.pushedFull next pc)
    (undisturbed_congr rfl rfl hu) (frameStorable_congr (s := s.setPc pc) rfl rfl rfl rfl rfl hf)
  have hpush : pushFrame pc (({ s with r := s.r.set 2 next } : State).setPc pc) =
      spill e (s.pushedFull next pc) := pushFrame_spills hfp hs he
  refine ⟨m, st, ?_, hst⟩
  rw [callOp, hpush, hsp]
  rfl

/-- What a call instruction whose push spills does, where nothing is traced under the process controls
of the call. -/
theorem callInstruction_spills {s : State} {pc len : Word} {e : Frame} (target base rrr : Word)
    (sup : Bool) (tab : List Access) (q : bit pc 0 = false ∨ s.untraced) (hu : s.undisturbed)
    (hfp : s.rc = [] ∨ s.fp = s.frameAddr) (hs : s.pushSpills pc s.rc.length = true)
    (he : (s.pushed (s.ip + len)).rc.getLast? = some e) (hf : (s.setPc pc).frameStorable e.addr) :
    ∃ t, callInstruction target base rrr pc sup tab len s = .next t ∧
      SpillingCallEffect s t e target (align16 base) (s.ip + len) rrr (pc &&& pcMask) := by
  obtain ⟨m, st, hc, hstored⟩ := callOp_spills target base rrr hu hfp hs he hf
  rw [callTraced_untraced q, show rrr ||| bitAt false 3 = rrr from BitVec.or_zero] at hc
  refine ⟨(State.setIp (enterFrame (align16 base) rrr ((s.pushedFull (s.ip + len) pc).withMem m st))
    target).bump, ?step, ?effect⟩
  case step =>
    rw [callInstruction, hc, orRaise_ok]
    refine traceAfter_untraced ?_ _ rfl rfl
    exact q.imp (te_setPc s pc).trans id
  case effect =>
    constructor
    case ip => rfl
    case fp => exact Vector.getElem_set_self _
    case sp => exact newLocals_one _ _ _
    case pfp => exact newLocals_zero _ _ _
    case saved => rfl
    case spilled => exact hstored.words
    case globals =>
      intro n h16 h31
      exact (enterFrame_global (align16 base) rrr ((s.pushedFull (s.ip + len) pc).withMem m st) h16
        h31).trans (global_congr (s := s)
        (t := (s.pushedFull (s.ip + len) pc).withMem m st) rfl h16)
    case memory => exact fun x hx => hstored.others x (by rwa [Vector.length_toList])
    case rest => rfl

/-- The same of a call whose frame fits in the cache. -/
theorem callInstruction_fits_untraced {s : State} {pc : Word} (target base rrr : Word) (sup : Bool)
    (tab : List Access) (len : Word) (q : bit pc 0 = false ∨ s.untraced) (h : s.canPush pc) :
    ∃ t, callInstruction target base rrr pc sup tab len s = .next t ∧
      CallEffect s t target (align16 base) (s.ip + len) rrr (pc &&& pcMask) := by
  obtain ⟨u, hu, hte, htc, hdbg, he⟩ := callInstruction_made target base rrr sup tab len h
  rw [callTraced_untraced q, show rrr ||| bitAt false 3 = rrr from BitVec.or_zero] at he
  have quiet : u.te = false ∨ u.untraced :=
    q.imp hte.trans fun h => by rwa [State.untraced, htc, hdbg]
  exact ⟨u.bump, hu.trans (traceAfter_untraced quiet _ rfl rfl), he⟩

/-! ## `call`, `callx` and `calls` -/

/-- Whether a frame may be pushed without a spill. -/
theorem canPush_iff (s : State) (pc : Word) : s.canPush pc ↔
    (s.rc = [] ∨ s.fp = s.frameAddr) ∧ ¬ s.pushSpills pc s.rc.length = true := by
  rw [State.canPush, Bool.not_eq_true]

/-- Settles O39. A call leaves the process controls as they are. -/
theorem callResults : Obligations.CallResults := by
  intro s disp m e spills all storable
  have hspills (pc : Word) : s.pushSpills pc s.rc.length = true ↔ spills pc := pushSpills_iff s pc _
  have hcan (pc : Word) : s.canPush pc ↔ (s.rc = [] ∨ s.fp = s.frameAddr) ∧ ¬ spills pc := by
    rw [canPush_iff, hspills]
  refine ⟨hcan, fun te hfp => ⟨fun hn => ?fits, fun hs hst => ?spilling⟩⟩
  case fits =>
    have made (target len : Word) := callInstruction_fits_untraced target s.sp 0 false [] len
      (.inl te) ((hcan s.pc).2 ⟨hfp, hn⟩)
    exact ⟨made _ 4, made _ m.len⟩
  case spilling =>
    obtain ⟨hu, hf⟩ := hst
    have hf' : (s.setPc s.pc).frameStorable e.addr :=
      frameStorable_congr (supervisor_setPc s s.pc) rfl rfl rfl rfl hf
    have made (target len : Word) := callInstruction_spills (len := len) target s.sp 0 false []
      (.inl te) hu hfp ((hspills s.pc).2 hs) (e := e)
    exact ⟨fun he => made _ 4 he hf', fun he => made _ m.len he hf'⟩

/-- Process controls of a call through table entry `e` (45_call_return.md R539, R555). -/
def State.callsPc (s : State) (e : Word) : Word :=
  if s.supervisor = true ∨ e &&& 3 = 0 then s.pc
  else setBit (setBit s.pc 1 true) 0 s.sspTe

/-- The stack pointer that its frame starts above. -/
def State.callsBase (s : State) (e : Word) : Word :=
  if s.supervisor = true ∨ e &&& 3 = 0 then s.sp else s.ssp

/-- Its return type: 000, or 01t with the trace enable of the caller. -/
def State.callsType (s : State) (e : Word) : Word :=
  if s.supervisor = true ∨ e &&& 3 = 0 then 0 else if s.te = true then 3 else 2

/-- A call through a table entry of a kind that is not reserved is a call instruction. -/
theorem systemCall_eq {s : State} {a e : Word}
    (he : e &&& 3 = 0 ∨ e &&& 3 = 2 ∨ s.supervisor = true) :
    ∃ sup, systemCall a e s = callInstruction (e &&& 0xFFFFFFFC) (s.callsBase e) (s.callsType e)
      (s.callsPc e) sup [tableRead a] 4 s := by
  have low (v : Word) : field e 0 2 = v.toNat ↔ e &&& 3 = v := by
    rw [field_low2, BitVec.toNat_inj]
  have hlocal : (s.supervisor || decide (field e 0 2 = 0)) = true ↔
      s.supervisor = true ∨ e &&& 3 = 0 := by
    rw [Bool.or_eq_true, decide_eq_true_eq]
    exact or_congr Iff.rfl (low 0)
  unfold systemCall State.callsBase State.callsType State.callsPc
  by_cases hk : s.supervisor = true ∨ e &&& 3 = 0
  · simp only [hlocal.2 hk, hk, if_true]
    exact ⟨false, rfl⟩
  · have h2 : e &&& 3 = 2 := by tauto
    have hs : 2 ||| bitAt s.te 0 = if s.te = true then (3 : Word) else 2 := by
      cases s.te <;> rfl
    simp only [if_neg hk, ← hs]
    exact ⟨true, (if_neg (mt hlocal.1 hk)).trans (if_pos ((low 2).2 h2))⟩

/-- `calls` with the number of a procedure whose table entry memory holds. -/
theorem exec_calls {s : State} {x : Src} {n e : Word} (hx : s.src x 30 = some n)
    (hn : n.toNat ≤ 259) (hu : s.undisturbed) (he : s.holds (s.sptBase + 48 + 4 * n) e) :
    exec (.calls x) s = systemCall (s.sptBase + 48 + 4 * n) e s := by
  change execCalls x s = _
  simp only [execCalls, hx, if_neg (Nat.not_lt.2 hn), loadWord_gap hu he, orRaise_ok]

/-- Settles O40. -/
theorem systemCallResults : Obligations.SystemCallResults := by
  intro s x n e f hx quiet oldest storable pc base low
  refine ⟨fun hn => ?tooLarge, fun hn hu he hk q => ?made⟩
  case tooLarge =>
    change execCalls x s = _
    simp only [execCalls, hx, if_pos hn]
  case made =>
    obtain ⟨sup, hcall⟩ := systemCall_eq (a := s.sptBase + 48 + 4 * n) hk
    rw [exec_calls hx hn hu he, hcall]
    refine ⟨callInstruction_fits_untraced _ _ _ _ _ _ q, fun hfp hfull ho hf => ?spilling⟩
    case spilling =>
      have hs : s.pushSpills pc s.rc.length = true := by
        by_contra h
        exact hfull ((canPush_iff s pc).2 ⟨hfp, h⟩)
      exact callInstruction_spills _ _ _ _ _ q hu hfp hs ho hf

/-! ## `ret` -/

section
variable {s : State}

theorem field_low3 (v : Word) : field v 0 3 = (v &&& 7).toNat := by
  rw [field, Nat.pow_zero, Nat.div_one, BitVec.toNat_and]
  exact (Nat.and_two_pow_sub_one_eq_mod v.toNat 3).symm

/-- With tracing off no `ret` is traced before it is executed. -/
theorem prereturn_quiet (te : s.te = false) : s.prereturn = false := by
  rw [State.prereturn, te, Bool.and_false, Bool.false_and]

/-- The state after a return to the frame at `f` with the registers `regs`, the cache then holding
`rc` (45_call_return.md R566). -/
def State.returned (s : State) (f : Word) (regs : Vector Word 16) (rc : List Frame) : State :=
  ({ s with
      r := regs, rc := rc, g := s.g.set 15 f, frameAddr := f
      pfpDirty := s.dirtyFrames.contains f
      dirtyFrames := s.dirtyFrames.filter (· != f) } : State).setIp regs[2]

/-- A return leaves what it says, whatever becomes of AC, PC and the NMI block. -/
theorem ReturnEffect.ofReturned (s : State) (f : Word) (regs : Vector Word 16) (rc : List Frame)
    (ac pc : Word) (block : Bool) (fresh : Nat) :
    ReturnEffect s { s.returned f regs rc with
      ac := ac, pc := pc, intc := { s.intc with blockNmi := block }, fresh := fresh }
      f regs rc ac pc block := by
  constructor
  case ip => rfl
  case fp => exact Vector.getElem_set_self _
  case locals => rfl
  case cache => rfl
  case globals =>
    intro n h16 h31
    rw [← enterFrame_global f 0 s h16 h31]
    refine global_congr ?_ h16
    rfl
  case memory => exact fun a => peek_congr rfl rfl rfl rfl a
  case rest => rfl

/-- With no frame cached the frame returned to is read from its save area (45_call_return.md R543). -/
theorem getFpAndIp_filled {ws : List Word} {key : Nat} (hu : s.undisturbed) (hl : ws.length = 16)
    (hrc : s.rc = []) (hp : s.plain (s.pfp &&& 0xFFFFFFF0) 64 key)
    (hb : s.bytesAt (s.pfp &&& 0xFFFFFFF0) (ws.flatMap wordBytes)) :
    getFpAndIp s =
      .ok () (s.returned (s.pfp &&& 0xFFFFFFF0) ⟨ws.toArray, by simpa using hl⟩ []) := by
  have hregs : (Vector.ofFn fun i : Fin 16 => ws.getD i.val 0) =
      ⟨ws.toArray, by simpa using hl⟩ := by
    ext i hi
    simp [hl, hi]
  have hmoved : ¬ (decide (s.rc ≠ []) && s.fp != s.frameAddr) = true := by simp [hrc]
  rw [getFpAndIp, if_neg hmoved]
  simp only [popFrame, hrc, loadFrame_plain hu hl hp hb, Eff.bind_ok, hregs]
  rfl

theorem State.returnsTo.clean {e : Frame} {older : List Frame} (h : s.returnsTo e older) :
    s.pfpDirty = false := by
  obtain ⟨-, -, -, hd⟩ := h
  exact hd

/-- To the newest cached frame no memory is read. -/
theorem getFpAndIp_returned {e : Frame} {older : List Frame} (h : s.returnsTo e older) :
    getFpAndIp s = .ok () (s.returned e.addr e.regs older) := getFpAndIp_cached h

/-- The return operation is that of the return type in PFP (45_call_return.md R560), with tracing off
and r0 as the call left it. -/
theorem exec_ret_types (te : s.te = false) (hd : s.pfpDirty = false) :
    (s.pfp &&& 7 = 0 → exec .ret s = localReturn s) ∧
    (s.pfp &&& 7 = 1 → exec .ret s = faultReturn s) ∧
    (s.pfp &&& 7 = 2 → exec .ret s = supervisorReturn false s) ∧
    (s.pfp &&& 7 = 3 → exec .ret s = supervisorReturn true s) ∧
    (s.pfp &&& 7 = 7 → exec .ret s = interruptReturn s) := by
  change (_ → execRet s = _) ∧ (_ → execRet s = _) ∧ (_ → execRet s = _) ∧ (_ → execRet s = _) ∧
    (_ → execRet s = _)
  unfold execRet
  rw [prereturn_quiet te, hd, field_low3]
  refine ⟨?_, ?_, ?_, ?_, ?_⟩ <;> (intro h; rw [h]; rfl)

/-- A local return with tracing off (45_call_return.md R561). -/
theorem exec_ret_local {f : Word} {regs : Vector Word 16} {rc : List Frame} (te : s.te = false)
    (hd : s.pfpDirty = false) (h : s.pfp &&& 7 = 0)
    (hget : getFpAndIp s = .ok () (s.returned f regs rc)) :
    exec .ret s = .next (s.returned f regs rc).bump := by
  obtain ⟨hlocal, -⟩ := exec_ret_types te hd
  rw [hlocal h, localReturn, hget, orRaise_ok]
  exact traceAfter_quiet (s := s.returned f regs rc) te _ _

/-- A supervisor return (45_call_return.md R563) to the newest cached frame, where nothing is traced
under the process controls restored. -/
theorem supervisorReturn_cached {e : Frame} {older : List Frame} (h : s.returnsTo e older) (t : Bool)
    {pc : Word} (hpc : pc = if s.supervisor = true then setBit (setBit s.pc 1 false) 0 t else s.pc)
    (q : bit pc 0 = false ∨ s.untraced) :
    ∃ u, supervisorReturn t s = .next u ∧
      ReturnEffect s u e.addr e.regs older s.ac (pc &&& pcMask) s.intc.blockNmi := by
  subst hpc
  refine ⟨_, ?_, ReturnEffect.ofReturned s e.addr e.regs older s.ac _ s.intc.blockNmi (s.fresh + 1)⟩
  simp only [supervisorReturn, getFpAndIp_returned h, orRaise_ok]
  refine traceAfter_untraced ?_ _ rfl rfl
  exact q.imp (te_setPc _ _).trans id

/-- A bit just written is read back. -/
theorem bit_setBit (v : Word) {i : Nat} (hi : i < 32) (b : Bool) : bit (setBit v i b) i = b := by
  cases b <;> simp [bit, setBit, hi]

end

/-- Settles O41. -/
theorem returnResults : Obligations.ReturnResults := by
  intro s e older ws te
  refine ⟨fun h ht => ?cached, fun hl key hrc hd ht hu hp hb => ?filled, fun h ht hs => ?toUser,
    fun h ht hs htc h0 h1 hb => ?toTraced, fun h ht hs => ?inUser⟩
  case cached =>
    exact ⟨_, exec_ret_local te h.clean ht (getFpAndIp_returned h),
      ReturnEffect.ofReturned s _ _ _ s.ac s.pc s.intc.blockNmi (s.fresh + 1)⟩
  case filled =>
    exact ⟨_, exec_ret_local te hd ht (getFpAndIp_filled hu hl hrc hp hb),
      ReturnEffect.ofReturned s _ _ _ s.ac s.pc s.intc.blockNmi (s.fresh + 1)⟩
  case toUser =>
    obtain ⟨-, -, htype, -⟩ := exec_ret_types te h.clean
    rw [htype ht]
    exact supervisorReturn_cached h false (by rw [if_pos hs]) (.inl (bit_setBit _ (by decide) false))
  case toTraced =>
    obtain ⟨-, -, -, htype, -⟩ := exec_ret_types te h.clean
    rw [htype ht]
    exact supervisorReturn_cached h true (by rw [if_pos hs]) (.inr ⟨htc, h0, h1, hb⟩)
  case inUser =>
    obtain ⟨-, -, htype2, htype3, -⟩ := exec_ret_types te h.clean
    have stays (t : Bool) := supervisorReturn_cached h t (pc := s.pc) (by rw [hs]; rfl) (.inl te)
    rcases ht with ht | ht
    · rw [htype2 ht]
      exact stays false
    · rw [htype3 ht]
      exact stays true

/-! ## A call and its return -/

/-- A word whose bits outside a mask are clear passes it unchanged. -/
theorem and_mask_of_clear {v m : Word} (h : v &&& ~~~m = 0) : v &&& m = v :=
  calc v &&& m = (v &&& m) ||| (v &&& ~~~m) := by rw [h]; exact BitVec.or_zero.symm
    _ = v := by rw [← BitVec.and_or_distrib_left, BitVec.or_not_self, BitVec.and_allOnes]

/-- The next word of an aligned one is aligned. -/
theorem add_four_aligned {v : Word} (h : v &&& 3 = 0) : (v + 4) &&& 3 = 0 := by
  have low (w : Word) : (w &&& 3).toNat = w.toNat % 4 := by
    rw [← field_low2, field, Nat.pow_zero, Nat.div_one]
    rfl
  have hv : v.toNat % 4 = 0 := by rw [← low, h]; rfl
  apply BitVec.eq_of_toNat_eq
  rw [low]
  change (v + 4).toNat % 4 = 0
  bv_omega

/-- The caller's frame as a call caches it. -/
def State.callerFrame (s : State) (ret : Word) : Frame :=
  { addr := s.fp &&& 0xFFFFFFF0, regs := s.r.set 2 ret }

/-- The state after a local call whose frame fits in the cache. -/
def State.called (s : State) (target ret : Word) : State :=
  (((enterFrame (align16 s.sp) 0 (s.pushed ret)).setPc s.pc).setIp target).bump

theorem called_te {s : State} (te : s.te = false) (target ret : Word) :
    (s.called target ret).te = false :=
  (te_setPc (enterFrame (align16 s.sp) 0 (s.pushed ret)) s.pc).trans te

/-- `call` with tracing off where its frame fits in the cache. -/
theorem exec_call_fits {s : State} (te : s.te = false) (h : s.canPush s.pc) (disp : BitVec 22) :
    exec (.call disp) s = .next (s.called (s.ctrlTarget disp) (s.ip + 4)) := by
  change callInstruction (s.ctrlTarget disp) s.sp 0 s.pc false [] 4 s = _
  rw [callInstruction, callOp_fits _ _ _ _ h, orRaise_ok, callTraced_quiet te]
  refine traceAfter_quiet ?_ _ _
  exact called_te te (s.ctrlTarget disp) (s.ip + 4)

theorem called_pfp (s : State) (target ret : Word) :
    (s.called target ret).pfp = s.fp &&& 0xFFFFFFF0 :=
  (newLocals_zero _ _ _).trans BitVec.or_zero

/-- A `ret` in the called frame goes to the caller's. -/
theorem called_returnsTo (s : State) (target ret : Word) :
    (s.called target ret).returnsTo (s.callerFrame ret) s.rc := by
  refine ⟨rfl, ?_, Vector.getElem_set_self _, rfl⟩
  rw [called_pfp, BitVec.and_assoc, BitVec.and_self]
  rfl

/-- The state after the call and the return. -/
def State.calledBack (s : State) (target ret : Word) : State :=
  ((s.called target ret).returned (s.fp &&& 0xFFFFFFF0) (s.r.set 2 ret) s.rc).bump

/-- With tracing off `ret` in the called frame comes back. -/
theorem exec_ret_called {s : State} (te : s.te = false) (target ret : Word) :
    exec .ret (s.called target ret) = .next (s.calledBack target ret) := by
  refine exec_ret_local (called_te te target ret) rfl ?_
    (getFpAndIp_returned (called_returnsTo s target ret))
  rw [called_pfp, BitVec.and_assoc]
  exact BitVec.and_zero

/-- Every register but the return IP comes back, where FP is on a 16-byte boundary. -/
theorem calledBack_reg {s : State} (hfp : s.fp &&& 15 = 0) (target ret : Word) {n : Reg}
    (h2 : n ≠ 2) : (s.calledBack target ret).reg n = s.reg n := by
  have hg : (s.calledBack target ret).g = s.g := by
    change (s.g.set 15 _).set 15 (s.fp &&& 0xFFFFFFF0) = s.g
    rw [Vector.set_set, and_mask_of_clear hfp]
    exact Vector.set_getElem_self _
  have hset : (s.calledBack target ret).reg n = (s.setReg 2 ret).reg n := by
    unfold State.reg
    rw [hg]
    rfl
  rw [hset, State.reg_setReg, if_neg h2]

/-- Settles O42. -/
theorem callThenReturnRestores : Obligations.CallThenReturnRestores := by
  intro s t disp hlegal te hpush hfp hcall
  rw [exec_call_fits te hpush] at hcall
  cases hcall
  refine ⟨_, exec_ret_called te _ _, ?ip, fun n h2 => calledBack_reg hfp _ _ h2, rfl, ?pc, rfl, rfl,
    fun a => peek_congr rfl rfl rfl rfl a⟩
  case ip =>
    change (s.r.set 2 (s.ip + 4))[2] &&& 0xFFFFFFFC = s.ip + 4
    rw [Vector.getElem_set_self]
    exact and_mask_of_clear (add_four_aligned hlegal.ip)
  case pc => exact and_mask_of_clear hlegal.pc

/-! ## Returns from a fault and from an interrupt -/

section
variable {s : State} {e : Frame} {older : List Frame} {pc ac code : Word}

/-- The saved PC and AC are read from the record below FP (45_call_return.md R562, R565). -/
theorem loadSaved_holds (hu : s.undisturbed) (hpc : s.holds (s.fp - 16) pc)
    (hac : s.holds (s.fp - 12) ac) : loadSaved s = .ok (pc, ac) s := by
  simp only [loadSaved, loadWord_gap hu hpc, loadWord_gap hu hac, Eff.bind_ok]

/-- Where the saved PC.te is 0 no pending trace is read (60_exceptions.md R771). -/
theorem loadRecord_holds (hu : s.undisturbed) (hpc : s.holds (s.fp - 16) pc)
    (hac : s.holds (s.fp - 12) ac) (hcode : s.holds (s.fp - 8) code) (te : bit pc 0 = false) :
    loadRecord s = .ok ((pc, ac), code, none) s := by
  have hp : readsPending s.supervisor pc = false := by
    rw [readsPending, te, Bool.and_false, Bool.false_and]
  simp only [loadRecord, loadSaved_holds hu hpc hac, loadWord_gap hu hcode, loadPending, hp,
    Bool.false_eq_true, if_false, Eff.bind_ok]

/-- With tracing off nothing is reported after a fault return. -/
theorem traceFaultReturn_quiet (te : s.te = false) (a : Word) (ev : Events)
    (pending : Option Pending) : traceFaultReturn a ev pending s = .next s.bump := by
  unfold traceFaultReturn
  rw [if_neg (by rw [te]; exact Bool.false_ne_true)]

/-- The state after a return from a fault or an interrupt but for the NMI block: AC restored, and in
supervisor mode PC. -/
def State.resumed (s : State) (e : Frame) (older : List Frame) (pc ac : Word) : State :=
  { s.returned e.addr e.regs older with
    ac := ac &&& acMask, pc := if s.supervisor = true then pc &&& pcMask else s.pc }

theorem restorePc_returned (s : State) (e : Frame) (older : List Frame) (pc ac : Word) :
    restorePc s.supervisor pc ((s.returned e.addr e.regs older).setAc ac) =
      s.resumed e older pc ac := by
  unfold State.resumed
  cases s.supervisor <;> rfl

theorem te_resumed (te : s.te = false) (hpc : bit pc 0 = false) (e : Frame) (older : List Frame)
    (ac : Word) : (s.resumed e older pc ac).te = false := by
  rw [← restorePc_returned]
  cases s.supervisor
  case false => exact te
  case true => exact (te_setPc _ pc).trans hpc

/-- A return from a fault that was no TRACE fault, nothing being traced after it. -/
theorem exec_ret_fault (te : s.te = false) (hu : s.undisturbed) (h : s.returnsTo e older)
    (ht : s.pfp &&& 7 = 1) (hpc : s.holds (s.fp - 16) pc) (hac : s.holds (s.fp - 12) ac)
    (hcode : s.holds (s.fp - 8) code) (hte : bit pc 0 = false) (hkind : field code 16 8 ≠ 1) :
    exec .ret s = .next (s.resumed e older pc ac).bump := by
  obtain ⟨-, hret, -⟩ := exec_ret_types te h.clean
  have htrace : (field code 16 8 == 1) = false := beq_false_of_ne hkind
  rw [hret ht]
  simp only [faultReturn, loadRecord_holds hu hpc hac hcode hte, getFpAndIp_returned h, Eff.bind_ok,
    orRaise_ok, htrace, restorePc_returned]
  exact traceFaultReturn_quiet (te_resumed te hte e older ac) _ _ _

/-- A return from an interrupt with tracing off: in supervisor mode it unblocks NMI. -/
theorem exec_ret_interrupt (te : s.te = false) (hu : s.undisturbed) (h : s.returnsTo e older)
    (ht : s.pfp &&& 7 = 7) (hpc : s.holds (s.fp - 16) pc) (hac : s.holds (s.fp - 12) ac)
    (hte : bit pc 0 = false) :
    exec .ret s = .next ({ s.resumed e older pc ac with intc := { s.intc with
      blockNmi := if s.supervisor = true then false else s.intc.blockNmi } } : State).bump := by
  obtain ⟨-, -, -, -, hret⟩ := exec_ret_types te h.clean
  rw [hret ht]
  simp only [interruptReturn, loadSaved_holds hu hpc hac, getFpAndIp_returned h, Eff.bind_ok,
    orRaise_ok, restorePc_returned]
  by_cases hs : s.supervisor = true
  · rw [if_pos hs, if_pos hs]
    rfl
  · rw [if_neg hs, if_neg hs]
    exact traceAfter_quiet (te_resumed te hte e older ac) _ _

end

/-- Settles O58. -/
theorem exceptionReturns : Obligations.ExceptionReturns := by
  intro s e older pc ac code te hu h hpc hac hte
  have effect (block : Bool) := ReturnEffect.ofReturned s e.addr e.regs older (ac &&& acMask)
    (if s.supervisor = true then pc &&& pcMask else s.pc) block (s.fresh + 1)
  refine ⟨fun ht hcode hkind => ?fault, fun ht => ?interrupt⟩
  case fault =>
    exact ⟨_, exec_ret_fault te hu h ht hpc hac hcode hte hkind, effect s.intc.blockNmi⟩
  case interrupt =>
    exact ⟨_, exec_ret_interrupt te hu h ht hpc hac hte, effect _⟩

end Sys2Proof.Machine

end

section
/-! SUPPORT. Faults by the condition code (O44), `syncf` and the marks (O45), `modtc` (O46), and
atomic accesses (O47). -/

namespace Sys2Proof.Machine

-- Proofs are elaborated one at a time: the check has memory for the stacks of few threads.
set_option Elab.async false

/-! ## Faults by the condition code

`p` is what the mask asks of AC.cc (46_fault_debug_atomic.md R590). -/

section
variable {s : State} {mask : BitVec 3} {p : Prop} (hp : s.cond mask = true ↔ p)
include hp

/-- A condition that is met raises CONSTRAINT.RANGE in the state as it was. -/
theorem faultIf_raises (h : p) : faultIf mask s = raise .range .none (s.ip + 4) s := by
  rw [faultIf, condTest_eq_cond, if_pos (hp.2 h)]

/-- A condition that is not met lets the instruction complete. -/
theorem faultIf_completes (h : ¬ p) (te : s.te = false) :
    faultIf mask s = .next s.nextInstr := by
  rw [faultIf, condTest_eq_cond, if_neg (mt hp.1 h)]
  exact advance_quiet te

end

/-- Settles O44: the conditions are those of the branches, by `condTest_eq_cond`. -/
theorem faultByConditionCode : Obligations.FaultByConditionCode := by
  intro s
  have opcode (op : BitVec 8) := map_opcode8_ctrlWord op 0
  exact ⟨faultIf_raises (cond_unordered s), faultIf_completes (cond_unordered s), opcode 0x18,
    faultIf_raises (cond_greater s), faultIf_completes (cond_greater s), opcode 0x19,
    faultIf_raises (cond_equal s), faultIf_completes (cond_equal s), opcode 0x1A,
    faultIf_raises (cond_greaterOrEqual s), faultIf_completes (cond_greaterOrEqual s), opcode 0x1B,
    faultIf_raises (cond_less s), faultIf_completes (cond_less s), opcode 0x1C,
    faultIf_raises (cond_notEqual s), faultIf_completes (cond_notEqual s), opcode 0x1D,
    faultIf_raises (cond_lessOrEqual s), faultIf_completes (cond_lessOrEqual s), opcode 0x1E,
    faultIf_raises (cond_ordered s), faultIf_completes (cond_ordered s), opcode 0x1F⟩

/-! ## `syncf` and the marks -/

/-- An instruction of one word that is no forced mark completes where tracing is off or idle. -/
theorem retire_untraced {s : State} (h : s.te = false ∨ s.untraced) {ev : Events}
    (hflags : ev.flags = 0) (hmark : ev.fmark = false) :
    retire ev (s.ip + 4) s = .next s.nextInstr :=
  traceAfter_untraced (s := s.setIp (s.ip + 4)) h s.ip hflags hmark

/-- With tracing on, an instruction of one word whose one trace event is a mark raises the trace
fault MARK after it has completed (62_tracing.md R885, R892). -/
theorem retire_marked {s : State} (te : s.te = true) (h0 : s.dbg.ipb0 = 0) (h1 : s.dbg.ipb1 = 0)
    (hb : s.dbg.bpcon = 0) {ev : Events} (hflags : ev.flags = 0) (hbits : s.traceBits 0 ev = 0x80) :
    retire ev (s.ip + 4) s =
      traceFault 0x80 0 (some s.ip) (some ((s.ip + 4) &&& 0xFFFFFFFC)) none s.nextInstr :=
  traceAfter_traced (s := s.setIp (s.ip + 4)) s.ip ev te h0 h1 hb hflags (by decide) hbits

/-- A forced mark is an event with every trace mode off. -/
theorem traceBits_fmark {s : State} (h : s.tc &&& 0xFE = 0) :
    s.traceBits 0 { fmark := true } = 0x80 := by
  rw [traceBits_modes h]
  decide

/-- A mark is an event in mark mode. -/
theorem traceBits_mark {s : State} (h : s.tc &&& 0xFE = 0x80) :
    s.traceBits 0 { mark := true } = 0x80 := by
  rw [traceBits_modes h]
  decide

/-- Settles O45. -/
theorem syncAndMarks : Obligations.SyncAndMarks := by
  intro s
  have unmarked (h : s.te = false ∨ s.untraced) :
      exec .syncf s = .next s.nextInstr ∧ exec .mark s = .next s.nextInstr :=
    ⟨retire_untraced h rfl rfl, retire_untraced h rfl rfl⟩
  refine ⟨fun te => ?off, fun te h0 h1 hb => ⟨fun htc => ?idle, fun htc => ?markMode⟩⟩
  case off =>
    obtain ⟨syncf, mark⟩ := unmarked (.inl te)
    exact ⟨syncf, mark, retire_quiet te _ _⟩
  case idle =>
    obtain ⟨syncf, mark⟩ := unmarked (.inr ⟨htc, h0, h1, hb⟩)
    exact ⟨syncf, mark, retire_marked te h0 h1 hb rfl (traceBits_fmark htc)⟩
  case markMode => exact retire_marked te h0 h1 hb rfl (traceBits_mark htc)

/-! ## Trace controls -/

/-- The bits that `modtc` writes: the mode bits under the mask, and the event flags that are set,
under the mask (R606). -/
theorem modtc_writable_getLsbD (tc mask : Word) {i : Nat} (hi : i < 32) :
    ((0x0F000000 &&& tc &&& mask) ||| (0x000000FE &&& mask)).getLsbD i =
      ((decide (24 ≤ i ∧ i ≤ 27) && tc.getLsbD i || decide (1 ≤ i ∧ i ≤ 7)) && mask.getLsbD i) := by
  have flags : ∀ i, i < 32 → (0x0F000000 : Word).getLsbD i = decide (24 ≤ i ∧ i ≤ 27) := by decide
  have modes : ∀ i, i < 32 → (0x000000FE : Word).getLsbD i = decide (1 ≤ i ∧ i ≤ 7) := by decide
  rw [BitVec.getLsbD_or, BitVec.getLsbD_and, BitVec.getLsbD_and, BitVec.getLsbD_and, flags i hi,
    modes i hi, Bool.and_or_distrib_right]

/-- The value that `modtc` leaves in TC, bit by bit. -/
theorem modtc_getLsbD {tc : Word} (htc : tc &&& ~~~tcMask = 0) (mask v : Word) {i : Nat}
    (hi : i < 32) :
    (merge ((0x0F000000 &&& tc &&& mask) ||| (0x000000FE &&& mask)) v tc &&& tcMask).getLsbD i =
      if 1 ≤ i ∧ i ≤ 7 then (if mask.getLsbD i = true then v.getLsbD i else tc.getLsbD i)
      else if 24 ≤ i ∧ i ≤ 27 then tc.getLsbD i && (!mask.getLsbD i || v.getLsbD i)
      else tc.getLsbD i := by
  have implemented : ∀ i, i < 32 →
      tcMask.getLsbD i = decide ((1 ≤ i ∧ i ≤ 7) ∨ (24 ≤ i ∧ i ≤ 27)) := by decide
  rw [BitVec.getLsbD_and, merge_getLsbD _ _ _ hi, modtc_writable_getLsbD tc mask hi,
    implemented i hi]
  by_cases hmode : 1 ≤ i ∧ i ≤ 7
  · have hflag : ¬ (24 ≤ i ∧ i ≤ 27) := by omega
    simp [hmode, hflag]
  by_cases hflag : 24 ≤ i ∧ i ≤ 27
  · cases tc.getLsbD i <;> cases mask.getLsbD i <;> simp [hmode, hflag]
  · have clear : tc.getLsbD i = false := by
      rw [← and_mask_of_clear htc, BitVec.getLsbD_and, implemented i hi,
        decide_eq_false (not_or.2 ⟨hmode, hflag⟩), Bool.and_false]
    simp [hmode, hflag, clear]

/-- Settles O46. -/
theorem modifyTraceControls : Obligations.ModifyTraceControls := by
  intro s s1 s2 d a b r te h1 h2 hd htc
  refine ⟨_, fun i hi => modtc_getLsbD htc a b hi, ?_⟩
  change execModtc s1 s2 d s = _
  rw [execModtc, withDst_of h1 h2 hd]
  exact advance_quiet (by simpa using te)

/-! ## Atomic accesses -/

theorem wordAddr_mod_four (a : Word) : (wordAddr a).toNat % 4 = 0 := by
  have low : field (wordAddr a) 0 2 = 0 := by
    rw [field_low2]
    exact congrArg BitVec.toNat (and_mask_clear a 0xFFFFFFFC)
  simpa [field] using low

/-- A word that memory holds is not POCCDP, which lies among the peripheral registers. -/
theorem isPoccdp_of_cell {s : State} {a : Word} {k : Nat} (h : s.cell (wordAddr a) = some k) :
    isPoccdp (wordAddr a) = false := by
  refine beq_eq_false_iff_ne.2 fun he => ?_
  have idem : wordAddr (wordAddr a) = wordAddr a := by
    rw [wordAddr, wordAddr, BitVec.and_assoc, BitVec.and_self]
  have hr : region (wordAddr a) = .pmmr := by
    rw [idem] at he
    simp [region, he, poccdpOffset]
  rw [State.cell, hr] at h
  cases h

section
variable {s : State} {a w : Word} (hg : s.coreGranted = true)
include hg

/-- A core that has the bus waits for nothing before it locks a word of memory. -/
theorem lockReady_of_cell {k : Nat} (h : s.cell (wordAddr a) = some k) :
    lockReady (wordAddr a) s = .ok () s := by
  rw [lockReady, takeBus_granted hg, Eff.bind_ok, isPoccdp_of_cell h,
    decide_eq_false (not_outbound_of_cell h), Bool.and_false]
  exact ite_self _

/-- A locked read and write of a word of memory: the word read, and the new one stored. -/
theorem readModifyWrite_stored (hw : s.holds (wordAddr a) w) (hm : s.mayStore (wordAddr a) 4)
    (f : Word → Word) :
    ∃ m st, readModifyWrite (wordAddr a) f s = .ok w (s.withMem m st) ∧
      Stored s (s.withMem m st) (wordAddr a) [f w] := by
  have alone := alone_of_aligned hg (by decide) (wordAddr_mod_four a)
  have load := loadWord_holds hw alone
  obtain ⟨ht, key, hp⟩ := hm
  obtain ⟨st, store⟩ := store_plain (bs := wordBytes (f w)) ht hp (by simp [isSize]) alone
  obtain ⟨hin, hout⟩ := withMem_stored (bs := wordBytes (f w)) hp st
  refine ⟨_, st, ?_, by simpa using hin, hout⟩
  have cell := State.plain_head (State.plain_of_plainW hp) (by decide)
  rw [readModifyWrite, lockReady_of_cell hg cell, Eff.bind_ok]
  simp only [load, storeWord, store, Eff.bind_ok]

/-- An atomic instruction on a word of memory: the word becomes `v`, the destination gets the old
word, nothing else changes (R609). -/
theorem atomicOp_effect (te : s.te = false) (hw : s.holds (wordAddr a) w)
    (hm : s.mayStore (wordAddr a) 4) (r : Reg) {f : Word → Word} {v : Word} (hv : f w = v) :
    ∃ t, atomicOp a f r s = .next t ∧ t.bytesAt (wordAddr a) (wordBytes v) ∧
      (∀ x, outside (wordAddr a) 4 x → t.peek x = s.peek x) ∧ t.reg r = w ∧
      (∀ n, n ≠ r → t.reg n = s.reg n) ∧ t.ip = (s.ip + 4) &&& 0xFFFFFFFC ∧
      t = { s with
        g := t.g, r := t.r, pfpDirty := t.pfpDirty, mem := t.mem, stale := t.stale, ip := t.ip
        fresh := t.fresh } := by
  subst hv
  obtain ⟨m, st, hrmw, stored⟩ := readModifyWrite_stored hg hw hm f
  have eff := Effect.ofReg (s.withMem m st) r w (s.ip + 4)
  refine ⟨_, ?step, fun i hi => ?word, fun x hx => ?memory, eff.written _ List.mem_cons_self,
    fun n hn => eff.others n (by simpa using hn), eff.ip, ?rest⟩
  case step =>
    simp only [atomicOp, hrmw, orRaise_ok]
    exact retire_quiet (by simpa using te) _ _
  case word => rw [eff.memory, stored.words i (by simpa using hi)]; simp
  case memory => rw [eff.memory, stored.others x hx]
  case rest => simpa using eff.rest

end

/-- Settles O47. A destination is not r2, so the value that `atmod` merges is the register's. -/
theorem atomicResults : Obligations.AtomicResults := by
  intro s s1 s2 d a b w r te h1 h2 hd hg hw hm
  have effect {f : Word → Word} {v : Word} (hv : f w = v) := atomicOp_effect hg te hw hm r hv
  have atadd : exec (.atadd s1 s2 d) s = _ := withDst_of h1 h2 hd
  have atmod : exec (.atmod s1 s2 d) s = _ := withDst_of h1 h2 hd
  rw [atadd, atmod]
  refine ⟨effect rfl, effect ?_⟩
  rw [readReg_of_ne (ne_two_of_dest hd), merge, BitVec.or_comm]

end Sys2Proof.Machine

end

section
/-! SUPPORT. Processor management: `modpc` and `modac` (O48), interrupt enables and `halt` (O49),
and the messages of `sysctl` (O51). -/

namespace Sys2Proof.Machine

-- Proofs are elaborated one at a time: the check has memory for the stacks of few threads.
set_option Elab.async false

/-- A privileged instruction in supervisor mode (47_processor_mgmt.md R620). -/
theorem privileged_supervisor {s : State} (h : s.supervisor = true) (k : Res) :
    privileged s k = k := by
  rw [privileged, if_pos h]

/-! ## Arithmetic and process controls -/

section
variable {s : State} {s2 : Src} {d : SrcDst} {mask : Word} {r : Reg}
  (h2 : s.src s2 31 = some mask) (hd : dest d = some r)
include h2 hd

/-- `modpc` with mask 0 reads PC, in either mode (R621). -/
theorem exec_modpc_read (h0 : mask = 0) (s1 : Src) :
    exec (.modpc s1 s2 d) s = advance (s.setReg r s.pc) := by
  change execModpc s1 s2 d s = _
  simp only [execModpc, h2, hd, if_pos h0]

/-- `modpc` with another mask writes PC, in supervisor mode. -/
theorem exec_modpc_write (h0 : mask ≠ 0) (hs : s.supervisor = true) (s1 : Src) :
    exec (.modpc s1 s2 d) s =
      advance ((s.setPc (merge mask (s.reg r) s.pc)).setReg r s.pc) := by
  change execModpc s1 s2 d s = _
  simp only [execModpc, h2, hd, if_neg h0, privileged_supervisor hs,
    readReg_of_ne (ne_two_of_dest hd)]

end

/-- Settles O48. -/
theorem modifyControls : Obligations.ModifyControls := by
  intro s s1 s2 d a b r te h2 hd
  refine ⟨fun h1 => ?modac, fun hb => ?read, fun hb hs hte => ?write⟩
  case modac =>
    have modac : exec (.modac s1 s2 d) s = _ := withDst_of h1 h2 hd
    exact modac.trans (advance_quiet (by simpa using te))
  case read => exact (exec_modpc_read h2 hd hb s1).trans (advance_quiet (by simpa using te))
  case write =>
    have off : (s.setPc (merge b (s.reg r) s.pc)).te = false := (te_setPc _ _).trans hte
    exact (exec_modpc_write h2 hd hb hs s1).trans (advance_quiet (by simpa using off))

/-! ## Interrupt enables -/

/-- What the functions 0, 1 and 2 do to ICON.gie (R625). -/
theorem setInterrupts_eq_some {f : Word} (hf : f.toNat ≤ 2) (s : State) :
    setInterrupts f s = some
      (if f = 0 then { s with intc := { s.intc with icon := setBit s.intc.icon 10 true } }
       else if f = 1 then { s with intc := { s.intc with icon := setBit s.intc.icon 10 false } }
       else s) := by
  have last (h0 : f ≠ 0) (h1 : f ≠ 1) : f = 2 := by bv_omega
  rw [setInterrupts]
  split_ifs with h0 h1 h2
  · rfl
  · rfl
  · rfl
  · exact absurd (last h0 h1) h2

theorem setInterrupts_eq_none {f : Word} (hf : 2 < f.toNat) (s : State) :
    setInterrupts f s = none := by
  rw [setInterrupts, if_neg, if_neg, if_neg] <;> rintro rfl <;> exact absurd hf (by decide)

/-- Enabling and disabling interrupts leaves PC as it was. -/
theorem setInterrupts_te {f : Word} {s t : State} (h : setInterrupts f s = some t) :
    t.te = s.te := by
  unfold setInterrupts at h
  split_ifs at h <;> cases h <;> rfl

section
variable {s : State} {x : Src} {f : Word} (hs : s.supervisor = true) (hx : s.src x 30 = some f)
include hs hx

theorem exec_intctl_valid {t : State} {d : SrcDst} {r : Reg} (te : s.te = false)
    (hd : dest d = some r) (ht : setInterrupts f s = some t) :
    exec (.intctl x d) s =
      .next (t.setReg r (if bit s.intc.icon 10 = true then 0 else 1)).nextInstr := by
  change execIntctl x d s = _
  simp only [execIntctl, withSrcDst_of hx hd, privileged_supervisor hs, ht]
  exact advance_quiet (by simpa [setInterrupts_te ht] using te)

theorem exec_intctl_invalid {d : SrcDst} {r : Reg} (hd : dest d = some r)
    (ht : setInterrupts f s = none) :
    exec (.intctl x d) s = raise .invalidOperand .none (s.ip + 4) s := by
  change execIntctl x d s = _
  simp only [execIntctl, withSrcDst_of hx hd, privileged_supervisor hs, ht, invalidOperand]

theorem exec_halt_valid {t : State} (te : s.te = false) (ht : setInterrupts f s = some t) :
    exec (.halt x) s = .next { t with halted := true }.nextInstr := by
  change execHalt x s = _
  simp only [execHalt, hx, privileged_supervisor hs, ht]
  exact advance_quiet ((setInterrupts_te ht).trans te)

theorem exec_halt_invalid (ht : setInterrupts f s = none) :
    exec (.halt x) s = raise .invalidOperand .none (s.ip + 4) s := by
  change execHalt x s = _
  simp only [execHalt, hx, privileged_supervisor hs, ht, invalidOperand]

end

/-- Settles O49. -/
theorem interruptEnables : Obligations.InterruptEnables := by
  intro s x d a r hs hx
  refine ⟨fun te => ⟨?intdis, ?inten⟩, fun te ha hd => ?intctl, fun te ha => ?halt,
    fun ha => ⟨?haltInvalid, fun hd => ?intctlInvalid⟩⟩
  case intdis => exact (privileged_supervisor hs _).trans (advance_quiet te)
  case inten => exact (privileged_supervisor hs _).trans (advance_quiet te)
  case intctl => exact exec_intctl_valid hs hx te hd (setInterrupts_eq_some ha s)
  case halt => exact exec_halt_valid hs hx te (setInterrupts_eq_some ha s)
  case haltInvalid => exact exec_halt_invalid hs hx (setInterrupts_eq_none ha s)
  case intctlInvalid => exact exec_intctl_invalid hs hx hd (setInterrupts_eq_none ha s)

/-! ## Messages of `sysctl` that touch no memory -/

/-- In supervisor mode `sysctl` acts by its message (R655). -/
theorem exec_sysctl {s : State} {s1 : Src} {a : Word} (hs : s.supervisor = true)
    (h1 : s.src s1 30 = some a) (s2 : Src) (d : SrcDst) :
    exec (.sysctl s1 s2 d) s = systemControl a s2 d s := by
  change execSysctl s1 s2 d s = _
  simp only [execSysctl, h1, privileged_supervisor hs]

theorem field_messageType (a : Word) : field a 8 8 = a.toNat / 256 % 256 := rfl

section
variable {s : State} {s2 : Src} {mode : Nat}

/-- Bit 0 of the mode disables the instruction cache, whatever the others (R660). -/
theorem configureCache_disable (te : s.te = false) (h : mode % 2 = 1) :
    configureCache mode s2 s = .next { s with icEnabled := false }.nextInstr := by
  rw [configureCache, if_pos h]
  · exact advance_quiet te
  all_goals omega

theorem configureCache_enable (te : s.te = false) :
    configureCache 0 s2 s = .next { s with icEnabled := true }.nextInstr :=
  advance_quiet te

/-- Load and lock: the cache enabled and invalidated, one block locked. -/
theorem configureCache_lock (te : s.te = false) {b : Word} (h2 : s.src s2 31 = some b)
    (h : mode = 4 ∨ mode = 6) : configureCache mode s2 s =
      .next { s with icEnabled := true, stale := [], icLocked := 1 }.nextInstr := by
  have lock : lockCache 1 { s with icEnabled := true } =
      .next { s with icEnabled := true, stale := [], icLocked := 1 }.nextInstr := advance_quiet te
  rcases h with rfl | rfl <;> simpa [configureCache, h2] using lock

theorem configureCache_invalid (heven : mode % 2 = 0) (h0 : mode ≠ 0) (h4 : mode ≠ 4)
    (h6 : mode ≠ 6) : configureCache mode s2 s = raise .invalidOperand .none (s.ip + 4) s := by
  rw [configureCache, if_neg (by omega)]
  · rfl
  all_goals assumption

end

section
variable {s : State} {d : SrcDst} {r : Reg} (te : s.te = false) (hd : dest d = some r)
include te hd

/-- Breakpoint rights are granted where no emulator holds them (R663). -/
theorem requestBreakpoints_granted (he : s.board.emulator = false) : requestBreakpoints d s =
    .next ({ s with dbg := { s.dbg with rights := true } }.setReg r 0x22).nextInstr := by
  simp only [requestBreakpoints, hd, he, Bool.false_eq_true, if_false]
  exact advance_quiet ((State.setReg_te _ _ _).trans te)

/-- A read of ICON: message 05H with mask 0 (R662). -/
theorem modifyRegister_readIcon {s2 : Src} {b : Word} (h2 : s.src s2 31 = some b)
    (hmask : s.reg r = 0) :
    modifyRegister 0x8510 s2 d s = .next (s.setReg r s.intc.icon).nextInstr := by
  have icon : mmrAt 0x8510 = some .icon := rfl
  have readable : s.mmrReadFaults .icon = false := rfl
  have untouched : s.touchMmr .icon = s := rfl
  have value : s.mmrValue 21 .icon = s.intc.icon := rfl
  simp only [modifyRegister, h2, hd, readReg_of_ne (ne_two_of_dest hd), hmask, icon, modifyMmr,
    readable, untouched, value, Nat.reduceMod, ne_eq, not_true_eq_false, Bool.false_eq_true,
    if_false, orRaise_ok]
  rw [retire_quiet (by simpa using te), State.nextInstr, State.setReg_ip]

end

/-! ## The pending priorities word -/

/-- The software priority is the number of the top bit of the word. -/
theorem highestPriority_toNat {w : Word} (h : w ≠ 0) :
    (highestPriority w).toNat = w.toNat.log2 := by
  have hw : w.toNat ≠ 0 := BitVec.toNat_ne.1 h
  have hlt : w.toNat.log2 < 32 := (Nat.log2_lt hw).2 w.isLt
  have top : topBit w.toNat 32 = some w.toNat.log2 :=
    topBit_eq_some hlt (Nat.testBit_log2 hw) fun j hj _ =>
      Nat.testBit_lt_two_pow ((Nat.log2_lt hw).1 hj)
  rw [highestPriority, top, Option.getD_some, BitVec.toNat_ofNat, Nat.mod_eq_of_lt hlt]

/-- The software priority is pending. -/
theorem highestPriority_pending {w : Word} (h : w ≠ 0) :
    w.getLsbD (highestPriority w).toNat = true := by
  rw [highestPriority_toNat h]
  exact Nat.testBit_log2 (BitVec.toNat_ne.1 h)

/-- No priority above the software priority is pending. -/
theorem highestPriority_highest {w : Word} {i : Nat} (hi : (highestPriority w).toNat < i) :
    w.getLsbD i = false := by
  by_cases h : w = 0
  · subst h
    exact BitVec.getLsbD_zero
  · rw [highestPriority_toNat h] at hi
    exact Nat.testBit_lt_two_pow ((Nat.log2_lt (BitVec.toNat_ne.1 h)).1 hi)

theorem highestPriority_zero : highestPriority 0 = 0 := rfl

theorem setBit_true_getLsbD (w : Word) (p : Nat) {i : Nat} (hi : i < 32) :
    (setBit w p true).getLsbD i = (w.getLsbD i || decide (i = p)) := by
  have one : ((1 : Word) <<< p).getLsbD i = decide (i = p) := by
    change ((1#32) <<< p).getLsbD i = _
    rw [← BitVec.twoPow_eq, BitVec.getLsbD_twoPow]
    by_cases h : i = p
    · subst h; simp [hi]
    · simp [h, Ne.symm h]
  rw [setBit, if_pos rfl, BitVec.getLsbD_or, one]

theorem setBit_true_ne_zero (w : Word) {p : Nat} (hp : p < 32) : setBit w p true ≠ 0 := by
  intro h
  have set := setBit_true_getLsbD w p hp
  simp [h] at set

/-! ## The interrupt table

Its first word holds the pending priorities, the byte `4 + p` the pending vectors of priority `p`
(61_interrupts.md R814). -/

section
variable {a : Word} {p : Nat} (hp : p < 32)
include hp

/-- A pending vector byte lies outside the pending priorities word. -/
theorem pendingByte_outside_word : outside a 4 (a + 4 + BitVec.ofNat 32 p) := by
  intro i hi
  bv_omega

theorem pendingByte_plainW {s : State} {key : Nat} (h : s.plainW a 36 key) :
    s.plainW (a + 4 + BitVec.ofNat 32 p) 1 (key + (4 + p)) := by
  have run := State.plainW_take (State.plainW_drop h (4 + p)) (j := 1) (by omega)
  rwa [BitVec.ofNat_add, ← BitVec.add_assoc] at run

end

/-- A byte stored where it may be, and what the store leaves. -/
theorem store_stored {s : State} {a : Word} {bs : List Byte} {key : Nat}
    (ht : s.storeTrap a bs.length = none) (hp : s.plainW a bs.length key) (hn : isSize bs.length)
    (hq : s.alone a bs.length) :
    ∃ m st, store a bs s = .ok () (s.withMem m st) ∧ (s.withMem m st).bytesAt a bs ∧
      ∀ x, outside a bs.length x → (s.withMem m st).peek x = s.peek x := by
  obtain ⟨st, hs⟩ := store_plain ht hp hn hq
  exact ⟨_, st, hs, withMem_stored hp st⟩

/-- A store of the bytes that lie there changes no byte. -/
theorem peek_of_rewritten {s t : State} {a : Word} {bs : List Byte} (hs : s.bytesAt a bs)
    (ht : t.bytesAt a bs) (hout : ∀ x, outside a bs.length x → t.peek x = s.peek x) (x : Word) :
    t.peek x = s.peek x := by
  by_cases hx : outside a bs.length x
  · exact hout x hx
  · simp only [outside, not_forall, not_not] at hx
    obtain ⟨i, hi, rfl⟩ := hx
    rw [ht i hi, hs i hi]

/-- One byte of memory. -/
theorem bytesAt_singleton {s : State} {a : Word} {z : Byte} :
    s.bytesAt a [z] ↔ s.peek a = some z := by
  refine ⟨fun h => by simpa using h 0 (by simp), fun h i hi => ?_⟩
  obtain rfl : i = 0 := by simpa using hi
  simpa using h

/-- A word of memory by its bytes. -/
theorem holds_of_bytesAt {s : State} {a w : Word} {key : Nat} (hp : s.plain a 4 key)
    (hb : s.bytesAt a (wordBytes w)) : s.holds a w :=
  ⟨key, hp, readBytes_of_bytesAt (bs := wordBytes w) hp hb⟩

/-- A load of one byte of memory. -/
theorem load_byte {s : State} {a : Word} {z : Byte} {key : Nat} (hg : s.coreGranted = true)
    (hp : s.plain a 1 key) (hz : s.peek a = some z) : load a 1 s = .ok [z] s := by
  have read : Memory.readBytes s.mem key 1 = [z] :=
    readBytes_of_bytesAt (bs := [z]) hp (bytesAt_singleton.2 hz)
  rw [load_plain hp (.inl rfl) (alone_of_aligned hg (.inl rfl) (Nat.mod_one _)), read]

/-- A byte comes back from the word made of it. -/
theorem setWidth_bytesToWord_singleton (z : Byte) : (bytesToWord [z]).setWidth 8 = z := by
  rw [bytesToWord_singleton, BitVec.setWidth_setWidth_of_le _ (by decide), BitVec.setWidth_eq]

/-- The state with memory replaced and the software priority that the word `w` gives. -/
def State.posted (s : State) (m : List Host.Cell) (st : List (Nat × Word)) (w : Word) : State :=
  { s.withMem m st with intc := { s.intc with swPrio := highestPriority w } }

/-- Posting a vector of no priority writes the word back as it was and only updates the software
priority (R656). -/
theorem postInterrupt_rescans {s : State} {v key : Nat} {w : Word} (hv : v < 8)
    (hq : s.alone s.intBase 4) (hp : s.plainW s.intBase 4 key)
    (ht : s.storeTrap s.intBase 4 = none) (hb : s.bytesAt s.intBase (wordBytes w)) :
    ∃ m st, postInterrupt v s = .ok () (s.posted m st w) ∧
      ∀ x, (s.withMem m st).peek x = s.peek x := by
  have read := loadWord_holds (holds_of_bytesAt (State.plain_of_plainW hp) hb) hq
  obtain ⟨m, st, hs, hin, hout⟩ := store_stored (bs := wordBytes w) ht hp (by simp [isSize]) hq
  refine ⟨m, st, ?_, peek_of_rewritten hb hin hout⟩
  simp only [postInterrupt, read, Eff.bind_ok, Nat.div_eq_of_lt hv, if_true, storeWord, hs]
  rfl

/-- Posting a vector sets its pending bit and the bit of its priority (R656). -/
theorem postInterrupt_posts {s : State} {v key : Nat} {w : Word} {z : Byte} (hv : 8 ≤ v)
    (hv' : v < 256) (hq : s.alone s.intBase 4) (hp : s.plainW s.intBase 36 key)
    (ht : s.storeTrap s.intBase 4 = none)
    (htz : s.storeTrap (s.intBase + 4 + BitVec.ofNat 32 (v / 8)) 1 = none)
    (hb : s.bytesAt s.intBase (wordBytes w))
    (hz : s.peek (s.intBase + 4 + BitVec.ofNat 32 (v / 8)) = some z) :
    ∃ m st, postInterrupt v s = .ok () (s.posted m st (setBit w (v / 8) true)) ∧
      (s.withMem m st).bytesAt s.intBase (wordBytes (setBit w (v / 8) true)) ∧
      (s.withMem m st).peek (s.intBase + 4 + BitVec.ofNat 32 (v / 8)) =
        some (z ||| BitVec.ofNat 8 (2 ^ (v % 8))) ∧
      ∀ x, outside s.intBase 4 x → x ≠ s.intBase + 4 + BitVec.ofNat 32 (v / 8) →
        (s.withMem m st).peek x = s.peek x := by
  have hprio : v / 8 < 32 := by omega
  have hnz : v / 8 ≠ 0 := by omega
  have apart := pendingByte_outside_word (a := s.intBase) hprio
  have hpz := pendingByte_plainW hprio hp
  have hpw := State.plainW_take hp (j := 4) (by omega)
  generalize hza : s.intBase + 4 + BitVec.ofNat 32 (v / 8) = za at *
  have hqz : s.alone za 1 := alone_of_aligned hq.1 (.inl rfl) (Nat.mod_one _)
  have readWord := loadWord_holds (holds_of_bytesAt (State.plain_of_plainW hpw) hb) hq
  have readByte := load_byte hq.1 (State.plain_of_plainW hpz) hz
  obtain ⟨m₁, st₁, storeByte, inByte, outByte⟩ :=
    store_stored (bs := [z ||| BitVec.ofNat 8 (2 ^ (v % 8))]) htz hpz (.inl rfl) hqz
  obtain ⟨m, st, storeW, inWord, outWord⟩ :=
    store_stored (s := s.withMem m₁ st₁) (bs := wordBytes (setBit w (v / 8) true)) ht hpw
      (by simp [isSize]) hq
  refine ⟨m, st, ?made, inWord, (outWord _ apart).trans (bytesAt_singleton.1 inByte),
    fun x hx hne => (outWord x hx).trans (outByte x ?elsewhere)⟩
  case made =>
    simp only [postInterrupt, readWord, Eff.bind_ok, hnz, if_false, hza, readByte,
      setWidth_bytesToWord_singleton, storeByte, storeWord, State.withMem_intBase, storeW]
    rfl
  case elsewhere =>
    intro i hi
    obtain rfl : i = 0 := by simpa using hi
    simpa using hne

/-- Message 00H with a vector that may be posted (R656). -/
theorem requestInterrupt_posted {s : State} {v : Nat} {m : List Host.Cell}
    {st : List (Nat × Word)} {w : Word} (te : s.te = false) (hv : v ≤ 243 ∨ 252 ≤ v)
    (ht : postInterrupt v s = .ok () (s.posted m st w)) :
    requestInterrupt v s = .next ((s.posted m st w).setIp (s.ip + 4)).bump := by
  have allowed : reservedVector v = false := by
    simp only [reservedVector, Bool.and_eq_false_iff, decide_eq_false_iff_not]
    omega
  rw [requestInterrupt, allowed, if_neg Bool.false_ne_true, ht, orRaise_ok]
  exact retire_quiet (s := s.posted m st w) te _ _

/-- Settles O51. -/
theorem systemControlMessages : Obligations.SystemControlMessages := by
  intro s s1 s2 d a b r te hs h1 h2 hd
  have message := exec_sysctl hs h1 s2 d
  refine ⟨fun h => ?invalidate, fun h => ?configure, fun h he => ?breakpoints,
    fun h hreg hmask => ?readIcon, fun h => ?unused,
    fun v w z key h hv hv8 hv' hq hp ht htz hb hz => ?post,
    fun w key h hv hq hp ht hb => ?rescan⟩ <;>
    simp only [systemControl, field_messageType, h, field_lowByte] at message
  case invalidate => exact message.trans (advance_quiet te)
  case configure =>
    refine ⟨fun hm => ?disable, fun hm => ?enable, fun hm => ?lock, fun heven h0 h4 h6 => ?invalid⟩
    case disable => exact message.trans (configureCache_disable te (by omega))
    case enable => exact message.trans (hm ▸ configureCache_enable te)
    case lock => exact message.trans (configureCache_lock te h2 hm)
    case invalid => exact message.trans (configureCache_invalid (by omega) h0 h4 h6)
  case breakpoints => exact message.trans (requestBreakpoints_granted te hd he)
  case readIcon =>
    have icon : field a 16 16 = 0x8510 := congrArg (· % 2 ^ 16) hreg
    rw [message, icon]
    exact modifyRegister_readIcon te hd h2 hmask
  case unused => exact message
  case post =>
    subst hv
    obtain ⟨m, st, hpost, inWord, inByte, others⟩ :=
      postInterrupt_posts hv8 (by omega) hq hp ht htz hb hz
    have pending := setBit_true_ne_zero w (p := a.toNat % 256 / 8) (by omega)
    exact ⟨_, _, message.trans (requestInterrupt_posted te hv' hpost),
      fun i hi => setBit_true_getLsbD w _ hi, inWord, inByte, others,
      highestPriority_pending pending,
      fun i hi _ => highestPriority_highest hi, rfl, rfl⟩
  case rescan =>
    obtain ⟨m, st, hpost, kept⟩ := postInterrupt_rescans hv hq hp ht hb
    refine ⟨_, message.trans (requestInterrupt_posted te (.inl (by omega)) hpost), kept, ?zero,
      highestPriority_pending, fun i hi _ => highestPriority_highest hi, rfl, rfl⟩
    rintro rfl
    exact highestPriority_zero

end Sys2Proof.Machine

end

section
/-! SUPPORT. A bus clock of a timer (O59). -/

namespace Sys2Proof.Machine

-- Proofs are elaborated one at a time: the check has memory for the stacks of few threads.
set_option Elab.async false

/-- Writing a bit leaves the others. -/
theorem setBit_getLsbD_of_ne (v : Word) {i j : Nat} (h : j ≠ i) (b : Bool) :
    (setBit v i b).getLsbD j = v.getLsbD j := by
  by_cases hj : j < 32
  · cases b
    case true => rw [setBit_true_getLsbD v i hj, decide_eq_false h, Bool.or_false]
    case false =>
      have one : ((1 : Word) <<< i).getLsbD j = false := by
        simpa [setBit, h] using setBit_true_getLsbD 0 i hj
      rw [setBit, if_neg Bool.false_ne_true, BitVec.getLsbD_and, BitVec.getLsbD_not, one]
      simp [hj]
  · rw [BitVec.getLsbD_of_ge _ j (by omega), BitVec.getLsbD_of_ge _ j (by omega)]

/-! ## What a clock leaves

Each clock of an enabled timer replaces the timer and perhaps signals its interrupt
(63_timers.md R934, R936). -/

/-- The state with timer `x` replaced by the first of `r`, and its interrupt signalled where the
second says so. -/
def State.clocked (s : State) (x : Bool) (r : Timer × Bool) : State :=
  if r.2 then postTimer x (s.setTimer x r.1) else s.setTimer x r.1

theorem setTimer_intc (s : State) (x : Bool) (t : Timer) : (s.setTimer x t).intc = s.intc := by
  cases x <;> rfl

/-- The signal sets bit 12 or 13 of IPND and no other. -/
theorem clocked_ipnd (s : State) (x : Bool) (r : Timer × Bool) (i : Nat) :
    (s.clocked x r).intc.ipnd.getLsbD i =
      (s.intc.ipnd.getLsbD i || (r.2 && decide (i = if x = true then 13 else 12))) := by
  unfold State.clocked
  cases r.2
  case false =>
    rw [if_neg Bool.false_ne_true, setTimer_intc, Bool.false_and, Bool.or_false]
  case true =>
    rw [if_pos rfl, Bool.true_and]
    change (setBit (s.setTimer x r.1).intc.ipnd (if x = true then 13 else 12) true).getLsbD i = _
    rw [setTimer_intc]
    by_cases hi : i < 32
    · exact setBit_true_getLsbD _ _ hi
    · have hne : i ≠ if x = true then 13 else 12 := by split <;> omega
      rw [BitVec.getLsbD_of_ge _ i (by omega), BitVec.getLsbD_of_ge _ i (by omega),
        decide_eq_false hne, Bool.or_false]

/-- What a clock leaves: the timer, the signal, and everything else as it was. -/
theorem clocked_leaves {s u : State} {x : Bool} {r : Timer × Bool} (h : u = s.clocked x r) :
    u.timer x = r.1 ∧ u.timer (!x) = s.timer (!x) ∧
      u = { s with
        timer0 := u.timer0, timer1 := u.timer1, intc := { s.intc with ipnd := u.intc.ipnd } } ∧
      ∀ i, u.intc.ipnd.getLsbD i =
        (s.intc.ipnd.getLsbD i || (r.2 && decide (i = if x = true then 13 else 12))) := by
  subst h
  refine ⟨?_, ?_, ?_, clocked_ipnd s x r⟩
  all_goals
    unfold State.clocked
    split <;> cases x <;> rfl

/-! ## The cases of a clock -/

section
variable {s : State} {x : Bool}

/-- A disabled timer stands still. -/
theorem timerClock_disabled (h : (s.timer x).tmr.getLsbD 1 = false) : timerClock x s = s :=
  if_neg (ne_true_of_eq_false h)

/-- An enabled timer whose prescaler is not full: the prescaler advances (R934). -/
theorem timerClock_prescales (h : (s.timer x).tmr.getLsbD 1 = true)
    (hp : (s.timer x).phase.toNat + 1 < (s.timer x).divisor) : timerClock x s =
      s.clocked x ({ s.timer x with phase := (s.timer x).phase + 1 }, false) := by
  have next : BitVec.ofNat 3 ((s.timer x).phase.toNat + 1) = (s.timer x).phase + 1 := by
    rw [BitVec.ofNat_add, BitVec.ofNat_toNat, BitVec.setWidth_eq]
    rfl
  rw [timerClock, bit, if_pos h, if_pos hp, next]
  rfl

/-- An enabled timer whose prescaler is full: a tick (R934). -/
theorem timerClock_ticks (h : (s.timer x).tmr.getLsbD 1 = true)
    (hp : (s.timer x).divisor ≤ (s.timer x).phase.toNat + 1) : timerClock x s =
      s.clocked x ({ s.timer x with phase := 0 } : Timer).tick := by
  rw [timerClock, bit, if_pos h, if_neg (Nat.not_lt.2 hp)]
  rfl

end

/-! ## The cases of a tick -/

/-- The count after a tick, before a reload (63_timers.md R935). -/
def Timer.count (t : Timer) : Word := if t.tcr = 0 then 0 else t.tcr - 1

section
variable {t : Timer}

theorem tick_counts (h : t.count ≠ 0) : t.tick = ({ t with tcr := t.count }, false) :=
  if_neg h

theorem tick_reloads (h : t.count = 0) (hr : bit t.tmr 2 = true) :
    t.tick = ({ t with tcr := t.trr }, decide (t.tcr ≠ 0)) :=
  (if_pos h).trans (if_pos hr)

/-- The tick that stops the timer sets TMR.tc and clears TMR.enable (R937). -/
theorem tick_stops (h : t.count = 0) (hr : bit t.tmr 2 = false) :
    t.tick = ({ t with tcr := 0, tmr := setBit (setBit t.tmr 0 true) 1 false }, true) :=
  (if_pos h).trans (if_neg (ne_true_of_eq_false hr))

end

/-- The bits of TMR of a timer that stops. -/
theorem stoppedTmr_getLsbD (v : Word) :
    (setBit (setBit v 0 true) 1 false).getLsbD 0 = true ∧
      (setBit (setBit v 0 true) 1 false).getLsbD 1 = false ∧
      ∀ i, 2 ≤ i → (setBit (setBit v 0 true) 1 false).getLsbD i = v.getLsbD i := by
  refine ⟨?tc, bit_setBit _ (by decide) false, fun i hi => ?others⟩
  case tc =>
    rw [setBit_getLsbD_of_ne _ (by decide)]
    exact bit_setBit v (by decide) true
  case others => rw [setBit_getLsbD_of_ne _ (by omega), setBit_getLsbD_of_ne _ (by omega)]

/-! ## The turn of a clock -/

/-- A clock of a timer, where the clocks run. -/
theorem perform_timerClock {s : State} (ho : s.run ≠ .once) (ht : s.run ≠ .selfTest) (x : Bool) :
    perform (.timerClock x) s = .next (timerClock x s) := by
  cases hr : s.run
  case once => exact absurd hr ho
  case selfTest => exact absurd hr ht
  all_goals simp only [perform, hr]

/-- Settles O59. -/
theorem timerClockCounts : Obligations.TimerClockCounts := by
  intro s x rest
  refine ⟨fun hturn ho ht => ?turn, ?clock⟩
  case turn =>
    rw [step, hturn]
    have run : (sampleInputs { s with schedule := rest }).run = s.run := by rw [sampleInputs_eq]
    exact perform_timerClock (run.trans_ne ho) (run.trans_ne ht) x
  case clock =>
    intro t u full count signals
    refine ⟨timerClock_disabled, fun enabled => ?enabled⟩
    have prescales (h : ¬ full) : u = _ := timerClock_prescales enabled (Nat.not_le.1 h)
    have ticks (h : full) {r : Timer × Bool} (ht : ({ t with phase := 0 } : Timer).tick = r) :
        u = s.clocked x r := ht ▸ timerClock_ticks enabled h
    have replaced : ∃ r, u = s.clocked x r := by
      by_cases h : full
      · exact ⟨_, ticks h rfl⟩
      · exact ⟨_, prescales h⟩
    obtain ⟨r, hr⟩ := replaced
    obtain ⟨-, other, rest, -⟩ := clocked_leaves hr
    refine ⟨other, rest, fun h => ?advances, fun h hc => ?counts, fun h hc hl => ?reloads,
      fun h hc hl => ?stops⟩
    case advances =>
      obtain ⟨timer, -, -, signal⟩ := clocked_leaves (prescales h)
      exact ⟨timer, signal⟩
    case counts =>
      obtain ⟨timer, -, -, signal⟩ := clocked_leaves (ticks h (tick_counts hc))
      exact ⟨timer, signal⟩
    case reloads =>
      obtain ⟨timer, -, -, signal⟩ := clocked_leaves (ticks h (tick_reloads hc hl))
      exact ⟨timer, signal⟩
    case stops =>
      obtain ⟨timer, -, -, signal⟩ := clocked_leaves (ticks h (tick_stops hc hl))
      exact ⟨signal, _, timer, stoppedTmr_getLsbD t.tmr⟩

end Sys2Proof.Machine

end

section
/-! SUPPORT. A core turn fetches, decodes and runs the instruction at IP (O6). -/

namespace Sys2Proof.Machine

-- Proofs are elaborated one at a time: the check has memory for the stacks of few threads.
set_option Elab.async false

/-! ## Fetch -/

/-- A bit of a word made of a byte and the bytes above it. -/
theorem getLsbD_bytesToWord_cons (b : Byte) (bs : List Byte) {i : Nat} (hi : i < 32) :
    (bytesToWord (b :: bs)).getLsbD i =
      if i < 8 then b.getLsbD i else (bytesToWord bs).getLsbD (i - 8) := by
  rw [bytesToWord, BitVec.getLsbD_or, BitVec.getLsbD_setWidth, BitVec.getLsbD_shiftLeft]
  by_cases h : i < 8
  · simp [h, hi]
  · simp [h, hi, BitVec.getLsbD_of_ge b i (by omega)]

/-- A byte comes back from the word made of it and others. -/
theorem extractLsb'_bytesToWord {bs : List Byte} {j : Nat} (hj : j < 4) (hb : j < bs.length) :
    (bytesToWord bs).extractLsb' (8 * j) 8 = bs[j] := by
  induction bs generalizing j with
  | nil => contradiction
  | cons b bs ih =>
    cases j with
    | zero =>
      refine BitVec.eq_of_getLsbD_eq fun i hi => ?_
      rw [BitVec.getLsbD_extractLsb', getLsbD_bytesToWord_cons _ _ (by omega)]
      simp [hi]
    | succ j =>
      rw [List.getElem_cons_succ, ← ih (by omega) (Nat.lt_of_succ_lt_succ hb)]
      refine BitVec.eq_of_getLsbD_eq fun i hi => ?_
      rw [BitVec.getLsbD_extractLsb', BitVec.getLsbD_extractLsb',
        getLsbD_bytesToWord_cons _ _ (by omega), if_neg (by omega),
        show 8 * (j + 1) + i - 8 = 8 * j + i by omega]

/-- Four bytes come back from the word made of them. -/
theorem bytesOfWord_bytesToWord {bs : List Byte} (h : bs.length = 4) :
    bytesOfWord (bytesToWord bs) = bs := by
  match bs, h with
  | [b0, b1, b2, b3], h =>
    have byte (j : Nat) (hj : j < 4) := extractLsb'_bytesToWord hj (hj.trans_eq h.symm)
    simpa [bytesOfWord] using And.intro (byte 0 (by omega)) <| And.intro (byte 1 (by omega)) <|
      And.intro (byte 2 (by omega)) (byte 3 (by omega))

section
variable {s : State}

/-- A fetch of a word that memory holds, no older word left for it to see (20_memory.md R155). -/
theorem fetchWord_memory {a : Word} {k : Nat} {w : Bool} (hg : s.coreGranted = true)
    (hr : region a = .bus) (ht : s.target a = .memory k w) (hs : ∀ e, e ∈ s.stale → e.1 ≠ k) :
    fetchWord a s = .ok (bytesToWord (Memory.readBytes s.mem k 4)) s := by
  have fresh : s.fetchChoices k = [bytesToWord (Memory.readBytes s.mem k 4)] := by
    have none_stale : (s.stale.filter fun e => e.1 == k) = [] :=
      List.filter_eq_nil_iff.2 fun e he => by simpa using hs e he
    rw [State.fetchChoices, none_stale, List.map_nil]
  simp only [fetchWord, hr, takeBus_granted hg, Eff.bind_ok, ht, fresh]

/-- An instruction, or an undefined opcode, that the word at IP decides. -/
theorem fetchInstr_oneWord {bs : List Byte} {d : Decoded} (hu : s.undisturbed)
    (h : fetchWord s.ip s = .ok (bytesToWord bs) s) (hl : bs.length = 4) (hd : decode bs = d)
    (hn : d ≠ .error .truncated) : fetchInstr s = .ok d s := by
  subst hd
  rw [fetchInstr, h, Eff.andGap_ok _ hu, Eff.bind_ok, bytesOfWord_bytesToWord hl]
  split
  · contradiction
  · rfl

/-- An instruction whose first word asks for the next one (30_encoding.md R245). -/
theorem fetchInstr_twoWords {bs cs : List Byte} (hu : s.undisturbed)
    (h : fetchWord s.ip s = .ok (bytesToWord bs) s) (hl : bs.length = 4)
    (h' : fetchWord (s.ip + 4) s = .ok (bytesToWord cs) s) (hl' : cs.length = 4)
    (hd : decode bs = .error .truncated) : fetchInstr s = .ok (decode (bs ++ cs)) s := by
  simp only [fetchInstr, h, h', Eff.andGap_ok _ hu, Eff.bind_ok, bytesOfWord_bytesToWord hl,
    bytesOfWord_bytesToWord hl', hd]

end

/-! ## The core turn -/

/-- The state in which a core turn runs its instruction: the inputs sampled, the late timer ticks
over (61_interrupts.md R833, 63_timers.md R938). -/
def State.turnBegun (s : State) (rest : List Turn) : State :=
  endLate (sampleInputs { s with schedule := rest })

/-- It differs from the state before in the schedule, the interrupt controller and the timers. -/
theorem turnBegun_eq (s : State) (rest : List Turn) : ∃ i t0 t1,
    s.turnBegun rest = { s with schedule := rest, intc := i, timer0 := t0, timer1 := t1 } :=
  ⟨_, _, _, by rw [State.turnBegun, sampleInputs_eq]; rfl⟩

/-- The schedule gives the core its turn. -/
theorem step_coreTurn {s : State} {rest : List Turn}
    (h : s.schedule = [] ∧ rest = [] ∨ s.schedule = .core :: rest) :
    step s = coreStep (sampleInputs { s with schedule := rest }) := by
  rcases h with ⟨h, rfl⟩ | h
  · have same : ({ s with schedule := [] } : State) = s := by rw [← h]
    simp only [step, h, same]
  · simp only [step, h]

section
variable {s : State}

/-- A core that is ready, with no interrupt to take, runs the instruction at IP. -/
theorem coreStep_runs (hr : s.run = .ready) (hh : s.coreHeld = false)
    (hi : s.selectInterrupt = none) (hl : s.halted = false) : coreStep s = runInstr s := by
  simp only [coreStep, hr, hh, hi, hl, Bool.false_eq_true, if_false]

theorem runInstr_fetched {u : State} {i : Instr} {bs : List Byte}
    (h : fetchInstr (endLate s) = .ok (.ok (i, bs)) u) : runInstr s = exec i u := by
  simp only [runInstr, h]

theorem runInstr_undefined {u : State} {e : DecodeError}
    (h : fetchInstr (endLate s) = .ok (.error e) u) :
    runInstr s = raise .invalidOpcode .none (u.ip + 4) u := by
  simp only [runInstr, h]

end

/-- Settles O6. -/
theorem stepRunsDecodedInstruction : Obligations.StepRunsDecodedInstruction := by
  intro s k w rest turn free u ready held noInterrupt running region target fresh
  obtain ⟨i, t0, t1, hu⟩ := turnBegun_eq s rest
  change u = _ at hu
  have granted : u.coreGranted = true := by
    simp only [State.coreHeld, Bool.or_eq_false_iff, Bool.not_eq_false'] at held
    rw [hu]
    exact held.2
  have undisturbed : u.undisturbed := ⟨granted, by rw [hu]; exact free⟩
  have length (k : Nat) : (Memory.readBytes s.mem k 4).length = 4 := Memory.readBytes_length ..
  have stepped : step s = runInstr (sampleInputs { s with schedule := rest }) := by
    rw [step_coreTurn turn]
    refine coreStep_runs ?_ ?_ noInterrupt ?_ <;> rw [sampleInputs_eq] <;> assumption
  have fetch {a : Word} {k : Nat} {w : Bool} (hr : Machine.region a = .bus)
      (ht : s.target a = .memory k w) (hs : ∀ e, e ∈ s.stale → e.1 ≠ k) :
      fetchWord a u = .ok (bytesToWord (Memory.readBytes s.mem k 4)) u := by
    rw [hu] at granted ⊢
    exact fetchWord_memory granted hr ht hs
  have ip : u.ip = s.ip := by rw [hu]
  have first : fetchWord u.ip u = _ := ip ▸ fetch region target fresh
  have oneWord {d : Decoded} (h : decode (Memory.readBytes s.mem k 4) = d)
      (hn : d ≠ .error .truncated) : fetchInstr u = .ok d u :=
    fetchInstr_oneWord undisturbed first (length k) h hn
  refine ⟨fun i h => ?decoded, fun h => ?undefined,
    fun i k' w' region' target' fresh' h h' => ?twoWords⟩
  case decoded => exact stepped.trans (runInstr_fetched (oneWord h nofun))
  case undefined =>
    rw [← ip]
    exact stepped.trans (runInstr_undefined (oneWord h nofun))
  case twoWords =>
    have second : fetchWord (u.ip + 4) u = _ := ip ▸ fetch region' target' fresh'
    have both := fetchInstr_twoWords undisturbed first (length k) second (length k') h
    rw [h'] at both
    exact stepped.trans (runInstr_fetched both)

end Sys2Proof.Machine

end

section
/-! SUPPORT. Taking a fault: through a local handler (O54), through a system procedure (O55). -/

namespace Sys2Proof.Machine

-- Proofs are elaborated one at a time: the check has memory for the stacks of few threads.
set_option Elab.async false

/-! ## What the fault call looks at -/

/-- Whether a frame may be pushed depends on the implemented bits of PC. -/
theorem canPush_mask {s : State} {pc : Word} : s.canPush (pc &&& pcMask) ↔ s.canPush pc := by
  unfold State.canPush
  rw [pushSpills_mask]

/-- Where a record may lie depends on the mode, BCON and the address decode. -/
theorem mayRecord_congr {s t : State} (hp : t.supervisor = s.supervisor) (hb : t.bus = s.bus)
    (ha : t.atu = s.atu) (hm : t.mc = s.mc) (hbd : t.board = s.board) {a : Word} {n : Nat}
    (h : s.mayRecord a n) : t.mayRecord a n := by
  obtain ⟨⟨k, hk⟩, ht⟩ := h
  exact ⟨⟨k, fun i hi => (cellW_congr ha hm hbd _).trans (hk i hi)⟩,
    fun i hi => (storeTrap_congr hp hb _ _).trans (ht i hi)⟩

theorem bit_zero_mask (pc : Word) : bit (pc &&& pcMask) 0 = bit pc 0 := by
  rw [bit, BitVec.getLsbD_and, show pcMask.getLsbD 0 = true from rfl, Bool.and_true]
  rfl

/-- The record of a fault at `fip`, no trace pending, with PC and AC as they stand. -/
def State.faultRecord (s : State) (code : Nat × Word) (fip : Word) (rip data : Option Word) :
    FaultRecord :=
  { code := code, fip := some fip, rip := rip, data := data, oldPc := s.pc, oldAc := s.ac }

/-- The state `s` as a fault call finds it: the process controls perhaps changed, free values
drawn. -/
def State.faulting (s : State) (pc : Word) (fresh : Nat) : State :=
  { s with pc := pc, fresh := fresh }

/-- A fault call with record `f` goes to the handler `h`, its frame above `nsp`: the handler is
selected, the faulting frame fits in the cache, the record may be written, and the call is no trace
event. -/
structure State.Reaches (s : State) (f : FaultRecord) (h : Handler) (nsp : Word) : Prop where
  undisturbed : s.undisturbed
  selected : selectHandler f.code.1 s = .ok h s
  kind : (f.isTrace && decide (h.kind = .localCall)) = false
  fits : s.canPush (faultPc f h.kind s)
  stack : nsp = if (decide (h.kind = .supervisorCall) && !s.supervisor) = true then s.ssp else s.sp
  storable : (s.setPc (faultPc f h.kind s)).mayRecord (faultFrame nsp) 64
  quiet : (bit (faultPc f h.kind s) 0 && bit s.tc 3 && !f.isTrace) = false

/-! ## The fault call -/

/-- The state after a fault call: the return IP in r2 of the cached frame, the record in memory. -/
def State.faulted (s : State) (f : FaultRecord) (h : Handler) (nsp : Word) (m : List Host.Cell)
    (st : List (Nat × Word)) : State :=
  ((enterFrame (faultFrame nsp) 1
    (((s.setPc (faultPc f h.kind s)).pushed (f.rip.getD (s.undef 13))).bump.withMem
      m st)).keepTrace (faultFrame nsp) f.pending).setIp h.target

/-- A word of a record, by its place below the frame above it. -/
theorem bytesAt_belowFrame {t : State} {nfp w : Word} {ws : List Word}
    (h : ∀ i (hi : i < ws.length),
      t.bytesAt (nfp - 64 + BitVec.ofNat 32 (4 * i)) (wordBytes ws[i])) {i j : Nat}
    (hij : 4 * i + j = 64) (hw : ws[i]? = some w) :
    t.bytesAt (nfp - BitVec.ofNat 32 j) (wordBytes w) := by
  obtain ⟨hi, rfl⟩ := List.getElem?_eq_some_iff.1 hw
  have place : nfp - 64 + BitVec.ofNat 32 (4 * i) = nfp - BitVec.ofNat 32 j := by bv_omega
  exact place ▸ h i hi

section
variable {s : State} {p : Word} {n : Nat} {code : Nat × Word} {fip : Word} {rip data : Option Word}
  {h : Handler} {nsp : Word}

/-- A fault call that reaches its handler. -/
theorem faultCall_reaches {f : FaultRecord} (hr : s.Reaches f h nsp)
    (k : List Access → State → Res) :
    ∃ made m st c, faultCall f s k = k made (s.faulted f h nsp m st) ∧
      s.plainW (faultFrame nsp - 64) (4 * 16) c ∧
      Memory.same m (Memory.writeBytes s.mem c ((f.words none
        ((s.setPc (faultPc f h.kind s)).pushed (f.rip.getD (s.undef 13)))).flatMap wordBytes)) := by
  obtain ⟨⟨c, hc⟩, ht⟩ := hr.storable
  have plain : s.plainW (faultFrame nsp - 64) 64 c :=
    fun i hi => (cellW_congr (s := s) rfl rfl rfl _).symm.trans (hc i hi)
  obtain ⟨made, m, st, call, mem⟩ := faultCall_fits hr.undisturbed hr.selected hr.kind
    (canPush_mask.2 hr.fits) nsp hr.stack plain ht k
  refine ⟨made, m, st, c, call.trans ?_, plain, mem⟩
  rw [te_setPc, hr.quiet]
  rfl

/-- What a fault call that reaches its handler leaves. -/
theorem faultCall_entry {f : FaultRecord} (hp : setBit p 10 false = setBit s.pc 10 false)
    (hf : f = (s.faulting p n).faultRecord code fip rip data)
    (hr : (s.faulting p n).Reaches f h nsp) (k : List Access → State → Res) : ∃ made t,
    faultCall f (s.faulting p n) k = k made t ∧
      FaultEntry s t code fip rip data (h.target &&& 0xFFFFFFFC) (faultFrame nsp)
        (faultPc f h.kind (s.faulting p n) &&& pcMask) := by
  obtain ⟨made, m, st, c, call, plain, mem⟩ := faultCall_reaches hr k
  refine ⟨made, _, call, ?_⟩
  obtain ⟨words, others⟩ := record_bytes (s := s) (t := (s.faulting p n).faulted f h nsp m st)
    (n := 16) rfl (fun i hi => (cellW_congr (s := s.faulting p n) rfl rfl rfl _).trans (plain i hi))
    rfl rfl rfl mem
  subst hf
  constructor
  case ip => rfl
  case fp => exact Vector.getElem_set_self _
  case sp => exact newLocals_one _ _ _
  case pfp => exact newLocals_zero _ _ _
  case saved =>
    refine ⟨_, rfl, rfl, fun v hv => ?returnIp, fun i hi => ?others⟩
    case returnIp =>
      subst hv
      exact Vector.getElem_set_self _
    case others => exact Vector.getElem_set_ne (by decide) i.isLt fun e => hi (Fin.ext e.symm)
  case faultIp => exact bytesAt_belowFrame words (i := 15) (j := 4) rfl rfl
  case faultType => exact bytesAt_belowFrame words (i := 14) (j := 8) rfl rfl
  case savedAc => exact bytesAt_belowFrame words (i := 13) (j := 12) rfl rfl
  case savedPc =>
    rw [← hp]
    exact bytesAt_belowFrame words (i := 12) (j := 16) rfl rfl
  case faultData =>
    intro v hv
    subst hv
    exact bytesAt_belowFrame words (i := 10) (j := 24) rfl rfl
  case globals =>
    intro r h16 h31
    rw [← enterFrame_global (faultFrame nsp) 1 s h16 h31]
    refine global_congr ?_ h16
    rfl
  case memory => exact others
  case rest => rfl

end

/-! ## Faults with tracing off -/

section
variable {s : State}

/-- Where tracing is off or idle, the call of a fault handler is no trace event (60_exceptions.md
R721). -/
theorem traceFaultCall_untraced (h : s.te = false ∨ s.untraced) (made : List Access) :
    traceFaultCall made s = .next s := by
  rcases h with te | ⟨tc, -, -, hb⟩
  · rw [traceFaultCall, if_neg (ne_true_of_eq_false te)]
  · have flags : s.dataFlags [] made = 0 := by simp [State.dataFlags, dabMatch, hb, field, bitAt]
    have call : bit s.tc 3 = false := traceMode_bit tc 3 rfl
    simp [traceFaultCall, flags, call, bitAt]

/-- With tracing off a fault keeps no trace. -/
theorem raise_quiet (te : s.te = false) (trap : Trap) (ev : Events) (next : Word) :
    raise trap ev next s =
      faultCall (s.bump.faultRecord trap.code s.ip (trap.rip next s.ip) trap.data) s.bump
        traceFaultCall := by
  have off : s.keptTrace trap.keepsTrace ev = none := by
    rw [State.keptTrace, te]
    rfl
  rw [raise, te, if_neg (by simp), off]
  rfl

/-- A fault handler's frame is entered as one of a call that is not traced. -/
theorem callQuiet_untraced {pc : Word} (h : bit pc 0 = false ∨ s.untraced) (b : Bool) :
    (bit pc 0 && bit s.tc 3 && b) = false :=
  Bool.and_eq_false_imp.2 fun traced => absurd traced
    (ne_true_of_eq_false (callTraced_untraced h))

/-- Tracing is off or idle in the handler. -/
theorem FaultEntry.untraced {t : State} {code : Nat × Word} {fip target nfp pc : Word}
    {rip data : Option Word} (he : FaultEntry s t code fip rip data target nfp (pc &&& pcMask))
    (h : bit pc 0 = false ∨ s.untraced) : t.te = false ∨ t.untraced := by
  rw [he.rest]
  exact h.imp (bit_zero_mask pc).trans id

/-- With tracing off a fault that reaches its handler, where nothing is traced either. -/
theorem raise_reaches (te : s.te = false) (trap : Trap) (ev : Events) (next : Word)
    {f : FaultRecord} {h : Handler} {nsp : Word}
    (hf : f = s.bump.faultRecord trap.code s.ip (trap.rip next s.ip) trap.data)
    (hr : s.bump.Reaches f h nsp) (q : bit (faultPc f h.kind s.bump) 0 = false ∨ s.untraced) :
    ∃ t, raise trap ev next s = .next t ∧
      FaultEntry s t trap.code s.ip (trap.rip next s.ip) trap.data (h.target &&& 0xFFFFFFFC)
        (faultFrame nsp) (faultPc f h.kind s.bump &&& pcMask) := by
  obtain ⟨made, t, call, entry⟩ := faultCall_entry (s := s) (p := s.pc) (n := s.fresh + 1) rfl hf hr
    traceFaultCall
  refine ⟨t, ?_, entry⟩
  rw [raise_quiet te, ← hf]
  exact call.trans (traceFaultCall_untraced (entry.untraced q) made)

end

/-- No trap is a TRACE fault. -/
theorem Trap.isTrace_faultRecord (trap : Trap) (s : State) (fip : Word) (rip data : Option Word) :
    (s.faultRecord trap.code fip rip data).isTrace = false := by
  cases trap <;> rfl

/-- Settles O54. -/
theorem faultThroughLocalHandler : Obligations.FaultThroughLocalHandler := by
  intro s trap ev next e te hu hentry hlocal hpush hrec
  have clear : e &&& 0xFFFFFFFC = e := and_mask_of_clear hlocal
  have reaches : s.bump.Reaches (s.bump.faultRecord trap.code s.ip (trap.rip next s.ip) trap.data)
      { kind := .localCall, target := e
        reads := [tableRead (s.faultBase + BitVec.ofNat 32 (8 * trap.code.1))] } s.sp :=
    { undisturbed := undisturbed_congr rfl rfl hu
      selected := selectHandler_local (undisturbed_congr rfl rfl hu)
        (holds_of_busView (s := s) rfl hentry) hlocal
      kind := by rw [Trap.isTrace_faultRecord]; rfl
      fits := hpush
      stack := rfl
      storable := mayRecord_congr (supervisor_setPc s s.pc) rfl rfl rfl rfl hrec
      quiet := callQuiet_untraced (.inl te) _ }
  obtain ⟨t, made, entry⟩ := raise_reaches te trap ev next rfl reaches (.inl te)
  refine ⟨t, made, ?_⟩
  rw [clear] at entry
  cases trap <;> exact entry

/-- Settles O55. -/
theorem faultThroughSupervisorHandler : Obligations.FaultThroughSupervisorHandler := by
  intro s trap ev next e p te hu hentry htype hn hproc hkind pc nsp q hpush hrec
  generalize hf : s.bump.faultRecord trap.code s.ip (trap.rip next s.ip) trap.data = f
  have noTrace : f.isTrace = false := hf ▸ trap.isTrace_faultRecord _ _ _ _
  obtain ⟨reads, selected⟩ := selectHandler_procedure (s := s.bump) (undisturbed_congr rfl rfl hu)
    (holds_of_busView (s := s) rfl hentry) htype hn (holds_of_busView (s := s) rfl hproc)
  generalize hk : (if p &&& 3 = 2 then HandlerKind.supervisorCall else .localCall) = kind
    at selected
  have newPc : faultPc f kind s.bump = pc := by
    rw [← hk]
    change faultPc f _ s.bump = if p &&& 3 = 2 then _ else _
    by_cases h2 : p &&& 3 = 2
    · rw [if_pos h2, if_pos h2, faultPc, noTrace]
      rfl
    · rw [if_neg h2, if_neg h2]
      rfl
  have stack : nsp = if (decide (kind = .supervisorCall) && !s.supervisor) = true then s.ssp
      else s.sp := by
    rw [← hk]
    change (if p &&& 3 = 2 ∧ s.supervisor = false then _ else _) = _
    exact if_congr (by simp) rfl rfl
  have reaches :
      s.bump.Reaches f { kind := kind, target := p &&& 0xFFFFFFFC, reads := reads } nsp :=
    { undisturbed := undisturbed_congr rfl rfl hu
      selected := by rw [← hf]; exact selected
      kind := by rw [noTrace]; rfl
      fits := by rw [newPc]; exact canPush_mask.1 hpush
      stack := stack
      storable := by
        rw [newPc]
        exact mayRecord_congr (s := s.setPc pc) rfl rfl rfl rfl rfl hrec
      quiet := by rw [newPc]; exact callQuiet_untraced (s := s) q _ }
  obtain ⟨t, made, entry⟩ := raise_reaches te trap ev next hf.symm reaches (newPc ▸ q)
  refine ⟨t, made, ?_⟩
  have clear : p &&& 0xFFFFFFFC &&& 0xFFFFFFFC = p &&& 0xFFFFFFFC := by rw [BitVec.and_assoc]; rfl
  rw [newPc, clear] at entry
  cases trap <;> exact entry

end Sys2Proof.Machine

end

section
/-! SUPPORT. Trace events of instructions, and the fault call of a trace fault (O56). -/

namespace Sys2Proof.Machine

-- Proofs are elaborated one at a time: the check has memory for the stacks of few threads.
set_option Elab.async false

/-! ## Instructions and branches -/

/-- No breakpoint is armed. -/
def State.unarmed (s : State) : Prop := s.dbg.ipb0 = 0 ∧ s.dbg.ipb1 = 0 ∧ s.dbg.bpcon = 0

section
variable {s : State} {ev : Events} {bits : Word}

/-- With tracing on, the events of a completed instruction are one trace fault (62_tracing.md
R885). -/
theorem traceAfter_events (te : s.te = true) (hb : s.unarmed) (hf : ev.flags = 0)
    (hbits : s.traceBits 0 ev = bits) (hn : bits ≠ 0) (a : Word) :
    traceAfter a ev s = traceFault bits 0 (some a) (some s.ip) none s.bump := by
  obtain ⟨h0, h1, hb⟩ := hb
  exact traceAfter_traced a ev te h0 h1 hb hf hn hbits

/-- The same of an instruction that goes on at `next`: itself is the fault IP, `next` the return
IP. -/
theorem retire_events (te : s.te = true) (hb : s.unarmed) (hf : ev.flags = 0)
    (hbits : s.traceBits 0 ev = bits) (hn : bits ≠ 0) (next : Word) : retire ev next s =
      traceFault bits 0 (some s.ip) (some (next &&& 0xFFFFFFFC)) none (s.setIp next).bump :=
  traceAfter_events (s := s.setIp next) te hb hf hbits hn s.ip

theorem traceBits_instruction (h : s.tc &&& 0xFE = 2) : s.traceBits 0 .none = 2 := by
  rw [traceBits_modes h]
  decide

theorem traceBits_branch (h : s.tc &&& 0xFE = 4) : s.traceBits 0 { branch := true } = 4 := by
  rw [traceBits_modes h]
  decide

/-- In branch mode only an event of a branch is reported. -/
theorem traceBits_noBranch (h : s.tc &&& 0xFE = 4) : s.traceBits 0 .none = 0 := by
  rw [traceBits_modes h]
  decide

theorem traceBits_call (h : s.tc &&& 0xFE = 8) (implicit : List Access) :
    s.traceBits 0 { call := true, implicit := implicit } = 8 := by
  change s.traceBits 0 { call := true } = 8
  rw [traceBits_modes h]
  decide

theorem traceBits_supervisorCall (h : s.tc &&& 0xFE = 0x48) (implicit : List Access) :
    s.traceBits 0 { call := true, supervisor := true, implicit := implicit } = 0x48 := by
  change s.traceBits 0 { call := true, supervisor := true } = 0x48
  rw [traceBits_modes h]
  decide

theorem traceBits_return (h : s.tc &&& 0xFE = 0x10) (implicit : List Access) :
    s.traceBits 0 { ret := true, implicit := implicit } = 0x10 := by
  change s.traceBits 0 { ret := true } = 0x10
  rw [traceBits_modes h]
  decide

theorem traceBits_supervisorReturn (h : s.tc &&& 0xFE = 0x50) (implicit : List Access) :
    s.traceBits 0 { ret := true, supervisor := true, implicit := implicit } = 0x50 := by
  change s.traceBits 0 { ret := true, supervisor := true } = 0x50
  rw [traceBits_modes h]
  decide

/-- An instruction of one word in instruction mode, after it has written a register. -/
theorem advance_setReg_traced (te : s.te = true) (hb : s.unarmed) (h : s.tc &&& 0xFE = 2) (r : Reg)
    (v : Word) : advance (s.setReg r v) =
      traceFault 2 0 (some s.ip) (some ((s.ip + 4) &&& 0xFFFFFFFC)) none
        (s.setReg r v).nextInstr := by
  have event := retire_events (s := s.setReg r v) (ev := .none) (bits := 2) (by simpa using te)
    (by simpa [State.unarmed] using hb) rfl (traceBits_instruction (by simpa using h)) (by decide)
    (s.ip + 4)
  simpa [advance, State.nextInstr] using event

/-- With every trace mode off it completes. -/
theorem advance_setReg_untraced (h : s.untraced) (r : Reg) (v : Word) :
    ∃ t, advance (s.setReg r v) = .next t ∧ Effect s t [(r, v)] s.ac (s.ip + 4) := by
  have idle : (s.setReg r v).untraced := by simpa [State.untraced] using h
  exact ⟨_, retire_untraced (.inr idle) rfl rfl,
    by simpa [State.nextInstr] using Effect.ofReg s r v (s.ip + 4)⟩

/-- A taken branch in branch mode. -/
theorem takeBranch_traced (te : s.te = true) (hb : s.unarmed) (h : s.tc &&& 0xFE = 4)
    (target : Word) :
    takeBranch target s = traceFault 4 0 (some s.ip) (some (target &&& 0xFFFFFFFC)) none
      (s.setIp target).bump :=
  retire_events te hb rfl (traceBits_branch h) (by decide) target

/-- The state with the prereturn flag of the current frame set (62_tracing.md R888). -/
def State.flagged (s : State) : State := { s with r := s.r.set 0 (setBit s.pfp 3 true) }

/-- A branch with a link in call mode sets the prereturn flag after the link is written. -/
theorem branchAndLink_traced (te : s.te = true) (hb : s.unarmed) (h : s.tc &&& 0xFE = 8) (r : Reg)
    (next target : Word) : branchAndLink r next target s =
      traceFault 8 0 (some s.ip) (some (target &&& 0xFFFFFFFC)) none
        ((s.setReg r next).flagged.setIp target).bump := by
  have traced : s.callTraced s.pc = true := by
    rw [State.callTraced, show bit s.pc 0 = true from te, traceMode_bit h 3 rfl]
    rfl
  have ip : (s.setReg r next).flagged.ip = s.ip := State.setReg_ip ..
  rw [branchAndLink, traced, if_pos rfl, ← ip]
  exact retire_events (s := (s.setReg r next).flagged) ((State.setReg_te ..).trans te)
    (by simpa [State.unarmed, State.flagged] using hb) rfl
    (traceBits_call ((congrArg (· &&& 0xFE) (State.setReg_tc ..)).trans h) []) (by decide) target

end

/-! ## Calls -/

/-- A call instruction whose call is a trace event: the prereturn flag of the new frame is set
(62_tracing.md R888), then the event is reported. -/
theorem callInstruction_traced {s : State} {pc m bits : Word} (target base rrr : Word) (sup : Bool)
    (tab : List Access) (len : Word) (h : s.canPush pc) (te : bit pc 0 = true) (hb : s.unarmed)
    (htc : s.tc &&& 0xFE = m) (hm : m.getLsbD 3 = true)
    (hbits : ∀ (u : State) (implicit : List Access), u.tc &&& 0xFE = m →
      u.traceBits 0 { call := true, supervisor := sup, implicit := implicit } = bits)
    (hn : bits ≠ 0) :
    ∃ u, callInstruction target base rrr pc sup tab len s =
        traceFault bits 0 (some s.ip) (some u.ip) none u ∧
      CallEffect s u target (align16 base) (s.ip + len) (rrr ||| 8) (pc &&& pcMask) := by
  obtain ⟨u, made, hte, tc, dbg, effect⟩ := callInstruction_made target base rrr sup tab len h
  have traced : s.callTraced pc = true := by
    rw [State.callTraced, te, traceMode_bit htc 3 rfl, hm]
    rfl
  rw [traced] at effect
  refine ⟨u.bump, made.trans ?_, effect⟩
  exact traceAfter_events (hte.trans te) (by rwa [State.unarmed, dbg]) rfl
    (hbits u _ (tc ▸ htc)) hn s.ip

/-- A local call in call mode. -/
theorem localCall_traced {s : State} (te : s.te = true) (hb : s.unarmed) (htc : s.tc &&& 0xFE = 8)
    (h : s.canPush s.pc) (target len : Word) :
    ∃ u, localCall target [] len s =
        traceFault 8 0 (some s.ip) (some (target &&& 0xFFFFFFFC)) none u ∧
      CallEffect s u target (align16 s.sp) (s.ip + len) 8 (s.pc &&& pcMask) := by
  obtain ⟨u, made, effect⟩ := callInstruction_traced target s.sp 0 false [] len h te hb htc rfl
    (fun _ implicit h => traceBits_call h implicit) (by decide)
  exact ⟨u, effect.ip ▸ made, effect⟩

/-- A system call from user mode to a procedure of supervisor type, in call and supervisor mode. -/
theorem supervisorCall_traced {s : State} (hb : s.unarmed) (htc : s.tc &&& 0xFE = 0x48)
    (hte : s.sspTe = true) (h : s.canPush (setBit (setBit s.pc 1 true) 0 true)) (target : Word)
    (tab : List Access) :
    ∃ u, supervisorCall target tab s = traceFault 0x48 0 (some s.ip) (some u.ip) none u ∧
      CallEffect s u target (align16 s.ssp) (s.ip + 4) (if s.te = true then 11 else 10)
        (setBit (setBit s.pc 1 true) 0 true &&& pcMask) := by
  have low : 2 ||| bitAt s.te 0 ||| 8 = if s.te = true then (11 : Word) else 10 := by
    cases s.te <;> rfl
  rw [supervisorCall, hte, ← low]
  exact callInstruction_traced target s.ssp _ true tab 4 h (bit_setBit _ (by decide) true) hb htc
    rfl (fun _ implicit h => traceBits_supervisorCall h implicit) (by decide)

/-- From user mode a procedure of supervisor type is called so (45_call_return.md R539). -/
theorem systemCall_supervisor {s : State} {a e : Word} (hs : s.supervisor = false)
    (he : e &&& 3 = 2) : systemCall a e s = supervisorCall (e &&& 0xFFFFFFFC) [tableRead a] s := by
  have kind : field e 0 2 = 2 := by rw [field_low2, he]; rfl
  simp [systemCall, hs, kind]

/-! ## Returns -/

section
variable {s : State} {e : Frame} {older : List Frame}

/-- With prereturn mode off no `ret` is traced before it is executed. -/
theorem prereturn_off {m : Word} (h : s.tc &&& 0xFE = m) (hm : m.getLsbD 5 = false) :
    s.prereturn = false := by
  rw [State.prereturn, traceMode_bit h 5 rfl, hm, Bool.and_false]

/-- The return operation by the return type, where no prereturn trace comes before it
(45_call_return.md R560). -/
theorem exec_ret_untraced (hp : s.prereturn = false) (h : s.returnsTo e older) :
    (s.pfp &&& 7 = 0 → exec .ret s = localReturn s) ∧
      (s.pfp &&& 7 = 3 → exec .ret s = supervisorReturn true s) := by
  change (_ → execRet s = _) ∧ (_ → execRet s = _)
  unfold execRet
  rw [hp, h.clean, field_low3]
  exact ⟨fun ht => by rw [ht]; rfl, fun ht => by rw [ht]; rfl⟩

/-- A local return in return mode. -/
theorem exec_ret_localTraced (te : s.te = true) (hb : s.unarmed) (htc : s.tc &&& 0xFE = 0x10)
    (h : s.returnsTo e older) (ht : s.pfp &&& 7 = 0) :
    ∃ u, exec .ret s = traceFault 0x10 0 (some s.ip) (some u.ip) none u ∧
      ReturnEffect s u e.addr e.regs older s.ac s.pc s.intc.blockNmi := by
  obtain ⟨hlocal, -⟩ := exec_ret_untraced (prereturn_off htc rfl) h
  obtain ⟨u, hget, tc, dbg, pc, effect, -⟩ := returnEffect_cached h
  refine ⟨u.bump, ?_, effect⟩
  rw [hlocal ht, localReturn, hget, orRaise_ok]
  exact traceAfter_events (by rwa [State.te, pc]) (by rwa [State.unarmed, dbg]) rfl
    (traceBits_return (by rwa [tc]) _) (by decide) s.ip

/-- A return to user mode in return and supervisor mode. -/
theorem exec_ret_supervisorTraced (hs : s.supervisor = true) (hb : s.unarmed)
    (htc : s.tc &&& 0xFE = 0x50) (h : s.returnsTo e older) (ht : s.pfp &&& 7 = 3) :
    ∃ u, exec .ret s = traceFault 0x50 0 (some s.ip) (some u.ip) none u ∧
      ReturnEffect s u e.addr e.regs older s.ac (setBit (setBit s.pc 1 false) 0 true &&& pcMask)
        s.intc.blockNmi := by
  obtain ⟨-, hsup⟩ := exec_ret_untraced (prereturn_off htc rfl) h
  obtain ⟨u, hget, tc, dbg, -, -, effect⟩ := returnEffect_cached h
  refine ⟨_, ?_, effect (setBit (setBit s.pc 1 false) 0 true)⟩
  simp only [hsup ht, supervisorReturn, hget, orRaise_ok, hs, if_true]
  exact traceAfter_events (s := u.setPc _) ((te_setPc u _).trans (bit_setBit _ (by decide) true))
    (by rwa [State.unarmed, State.setPc_dbg, dbg]) rfl
    (traceBits_supervisorReturn (by rwa [State.setPc_tc, tc]) _) (by decide) s.ip

/-- A `ret` in prereturn mode, where the frame's flag is set (45_call_return.md R567). -/
theorem exec_ret_prereturn (te : s.te = true) (htc : s.tc.getLsbD 5 = true)
    (hflag : s.pfp.getLsbD 3 = true) : exec .ret s = prereturnTrace s := by
  have traced : s.prereturn = true := by
    simp only [State.prereturn, bit, te, htc, hflag, Bool.and_self]
  exact if_pos traced

end

/-! ## The trace fault -/

/-- A word of implemented bits, one of them set. -/
theorem setBit_true_and {v m : Word} (h : v &&& m = v) {i : Nat}
    (hi : (1 : Word) <<< i &&& m = (1 : Word) <<< i) : setBit v i true &&& m = setBit v i true := by
  rw [setBit, if_pos rfl, BitVec.and_comm, BitVec.and_or_distrib_left, BitVec.and_comm, h,
    BitVec.and_comm, hi]

/-- One of them cleared. -/
theorem setBit_false_and {v m : Word} (h : v &&& m = v) (i : Nat) :
    setBit v i false &&& m = setBit v i false := by
  rw [setBit, if_neg Bool.false_ne_true, BitVec.and_assoc, BitVec.and_comm (~~~_),
    ← BitVec.and_assoc, h]

/-- Clearing a bit twice. -/
theorem setBit_false_idem (v : Word) (i : Nat) :
    setBit (setBit v i false) i false = setBit v i false := by
  simp only [setBit, Bool.false_eq_true, if_false, BitVec.and_assoc, BitVec.and_self]

/-- Process controls of the handler of a trace fault (60_exceptions.md R720, R741). -/
def tracePc (pc : Word) : Word := setBit (setBit (setBit pc 10 false) 1 true) 0 false

theorem tracePc_and {pc : Word} (h : pc &&& pcMask = pc) : tracePc pc &&& pcMask = tracePc pc :=
  setBit_false_and (setBit_true_and (setBit_false_and h 10) (by decide)) 0

/-- The state in which the fault call of a trace fault is made: the event flags set in TC, the
pending-trace flag of PC clear (60_exceptions.md R741, 62_tracing.md R897). -/
def State.traceFaulting (s : State) (flags : Word) : State :=
  ({ s with tc := s.tc ||| flags } : State).faulting (setBit s.pc 10 false) s.fresh

theorem traceFaulting_supervisor (s : State) (flags : Word) :
    (s.traceFaulting flags).supervisor = s.supervisor :=
  setBit_getLsbD_of_ne s.pc (by decide) false

/-- A trace fault in a legal state. -/
theorem traceFault_of_legal {s : State} {flags : Word} (hs : s.Legal)
    (hflags : flags &&& ~~~0x0F000000 = 0) (bits fip rip : Word) :
    traceFault bits flags (some fip) (some rip) none s =
      faultCall ((s.traceFaulting flags).faultRecord (1, bits) fip (some rip) none)
        (s.traceFaulting flags) fun _ s => .next s := by
  have eventFlags : flags &&& tcMask = flags :=
    calc flags &&& tcMask = flags &&& 0x0F000000 &&& tcMask := by rw [and_mask_of_clear hflags]
      _ = flags &&& 0x0F000000 := by rw [BitVec.and_assoc]; rfl
      _ = flags := and_mask_of_clear hflags
  have htc : (s.tc ||| flags) &&& tcMask = s.tc ||| flags := by
    rw [BitVec.and_comm, BitVec.and_or_distrib_left, BitVec.and_comm, and_mask_of_clear hs.tc,
      BitVec.and_comm, eventFlags]
  have hpc := setBit_false_and (and_mask_of_clear hs.pc) 10
  simp only [traceFault, State.setTc, State.setPc, htc, hpc]
  rfl

section
variable {s : State} {e p sp : Word}

/-- A trace fault whose handler is a system procedure of supervisor type reaches it: on the
supervisor stack from user mode, with PC.te = 0 (60_exceptions.md R720). -/
theorem traceFaulting_reaches (hu : s.undisturbed) (hentry : s.holds (s.faultBase + 8) e)
    (htype : e &&& 3 = 2) (hn : e.toNat / 4 ≤ 259)
    (hproc : s.holds (s.sptBase + 48 + BitVec.ofNat 32 (4 * (e.toNat / 4))) p) (hkind : p &&& 3 = 2)
    (hsp : sp = if s.supervisor = true then s.sp else s.ssp) (hpush : s.canPush (tracePc s.pc))
    (hrec : (s.setPc (setBit s.pc 1 true)).mayRecord (faultFrame sp) 64) (flags bits fip : Word)
    (rip data : Option Word) :
    ∃ reads, (s.traceFaulting flags).Reaches
      ((s.traceFaulting flags).faultRecord (1, bits) fip rip data)
      { kind := .supervisorCall, target := p &&& 0xFFFFFFFC, reads := reads } sp := by
  have hu' : (s.traceFaulting flags).undisturbed := undisturbed_congr (s := s) rfl rfl hu
  obtain ⟨reads, selected⟩ := selectHandler_procedure (tt := 1) hu'
    (holds_of_busView (s := s) rfl hentry) htype hn (holds_of_busView (s := s) rfl hproc)
  rw [if_pos hkind] at selected
  refine ⟨reads, hu', selected, rfl, hpush, ?stack, ?storable, ?quiet⟩
  case stack =>
    rw [traceFaulting_supervisor, hsp]
    cases s.supervisor <;> rfl
  case storable =>
    have mode : ((s.traceFaulting flags).setPc (tracePc s.pc)).supervisor =
        (s.setPc (setBit s.pc 1 true)).supervisor := by
      rw [supervisor_setPc, supervisor_setPc, bit_setBit _ (by decide)]
      exact (setBit_getLsbD_of_ne _ (by decide) false).trans (bit_setBit _ (by decide) true)
    exact mayRecord_congr mode rfl rfl rfl rfl hrec
  case quiet => exact Bool.and_false _

/-- What the fault call of a trace fault leaves. -/
theorem traceFault_entry {flags bits fip rip : Word} {reads : List Access} (hs : s.Legal)
    (hflags : flags &&& ~~~0x0F000000 = 0)
    (hr : (s.traceFaulting flags).Reaches
      ((s.traceFaulting flags).faultRecord (1, bits) fip (some rip) none)
      { kind := .supervisorCall, target := p &&& 0xFFFFFFFC, reads := reads } sp) :
    ∃ t, traceFault bits flags (some fip) (some rip) none s = .next t ∧
      FaultEntry { s with tc := s.tc ||| flags } t (1, bits) fip (some rip) none (p &&& 0xFFFFFFFC)
        (faultFrame sp) (tracePc s.pc) := by
  obtain ⟨made, t, call, entry⟩ := faultCall_entry (s := { s with tc := s.tc ||| flags })
    (setBit_false_idem s.pc 10) rfl hr fun _ s => .next s
  refine ⟨t, (traceFault_of_legal hs hflags bits fip rip).trans call, ?_⟩
  have clear : p &&& 0xFFFFFFFC &&& 0xFFFFFFFC = p &&& 0xFFFFFFFC := by rw [BitVec.and_assoc]; rfl
  rw [← clear, ← tracePc_and (and_mask_of_clear hs.pc)]
  exact entry

end

/-- Settles O56. -/
theorem traceFaultEntry : Obligations.TraceFaultEntry := by
  refine ⟨?instruction, ?branch, ?callReturn, ?fault⟩
  case instruction =>
    intro s s1 s2 d a b r te h1 h2 hd h0 h1' hb
    have run : exec (.addo s1 s2 d) s = advance (s.setReg r (b + a)) := withDst_of h1 h2 hd
    rw [run]
    exact ⟨fun htc => advance_setReg_traced te ⟨h0, h1', hb⟩ htc r _,
      fun htc => advance_setReg_untraced ⟨htc, h0, h1', hb⟩ r _⟩
  case branch =>
    intro s disp m d te h0 h1 hb target traced linked
    have unarmed : s.unarmed := ⟨h0, h1, hb⟩
    refine ⟨fun htc =>
        ⟨takeBranch_traced te unarmed htc _, takeBranch_traced te unarmed htc _, ?be⟩,
      fun htc => ⟨branchAndLink_traced te unarmed htc _ _ _, fun hd => ?balx, fun hpush =>
        ⟨localCall_traced te unarmed htc hpush _ 4, localCall_traced te unarmed htc hpush _ m.len⟩⟩⟩
    case be =>
      change branchIf _ _ _ = _
      rw [branchIf, if_congr (cond_equal s) rfl rfl]
      refine if_congr Iff.rfl (takeBranch_traced te unarmed htc _) ?_
      exact traceAfter_calm (s := s.setIp _) _ _ h0 h1 hb rfl (traceBits_noBranch htc)
    case balx =>
      change execBalx m d s = _
      rw [execBalx, destGroup_one_of_ne hd]
      exact branchAndLink_traced te unarmed htc _ _ _
  case callReturn =>
    intro s x n entry e older
    refine ⟨fun h0 h1 hb => ?_, exec_ret_prereturn⟩
    have unarmed : s.unarmed := ⟨h0, h1, hb⟩
    refine ⟨fun te htc h ht => exec_ret_localTraced te unarmed htc h ht,
      fun hs htc h ht => exec_ret_supervisorTraced hs unarmed htc h ht,
      fun hs hte htc hu hx hn hentry htype hpush => ?calls⟩
    case calls =>
      rw [exec_calls hx hn hu hentry, systemCall_supervisor hs htype]
      exact supervisorCall_traced unarmed htc hte hpush _ _
  case fault =>
    intro s bits flags fip rip e p sp hs hu hflags hentry htype hn hproc hkind hsp pc hpush hrec
    obtain ⟨reads, reaches⟩ := traceFaulting_reaches hu hentry htype hn hproc hkind hsp hpush hrec
      flags bits fip (some rip) none
    exact traceFault_entry hs hflags reaches

end Sys2Proof.Machine

end

section
/-! SUPPORT. The delivery of an interrupt, of whatever kind (O57). -/

namespace Sys2Proof.Machine

-- Proofs are elaborated one at a time: the check has memory for the stacks of few threads.
set_option Elab.async false

/-! ## The record of an interrupt -/

/-- A word stays where its four bytes are kept. -/
theorem holds_kept {s t : State} {a v : Word} (ha : t.atu = s.atu) (hm : t.mc = s.mc)
    (hb : t.board = s.board) (h : s.holds a v)
    (hkept : ∀ j, j < 4 → t.peek (a + BitVec.ofNat 32 j) = s.peek (a + BitVec.ofNat 32 j)) :
    t.holds a v := by
  obtain ⟨k, hp, hread⟩ := h
  refine holds_of_bytesAt (key := k) (fun i hi => (cell_congr ha hm hb _).trans (hp i hi)) ?_
  intro j hj
  have hj4 : j < 4 := hj
  rw [hkept j hj4, peek_eq, hp j hj4, Option.map_some]
  have byte := Memory.readBytes_get s.mem k 4 j hj4
  rw [hread, List.getElem?_eq_getElem hj] at byte
  exact byte.symm

theorem peek_of_busView {s t : State} (e : t.busView = s.busView) (a : Word) :
    t.peek a = s.peek a := by
  simp only [State.busView, Prod.mk.injEq] at e
  obtain ⟨hmem, ha, hm, hb, -, -⟩ := e
  exact peek_congr ha hm hb hmem a

/-- The words below the frame of an interrupt handler (61_interrupts.md R821): `u` is `s` with PC,
AC and the vector number stored from `a` on. -/
structure InterruptRecord (s u : State) (a : Word) (vec : Nat) : Prop where
  pc : u.bytesAt a (wordBytes s.pc)
  ac : u.bytesAt (a + 4) (wordBytes s.ac)
  vector : u.bytesAt (a + 8) (wordBytes (BitVec.ofNat 32 vec))
  others : ∀ x, outside a 16 x → u.peek x = s.peek x

/-- The record is written where it may be. -/
theorem interruptRecord_stored {s : State} {a : Word} (hu : s.undisturbed)
    (h : s.mayRecord (a + 16) 16) (vec : Nat) :
    ∃ m st, storeEach a [s.pc, s.ac, BitVec.ofNat 32 vec, 0] s = .ok () (s.withMem m st) ∧
      InterruptRecord s (s.withMem m st) a vec := by
  obtain ⟨⟨k, hk⟩, ht⟩ := h
  have place : a + 16 - BitVec.ofNat 32 16 = a := BitVec.add_sub_cancel a 16
  rw [place] at hk ht
  obtain ⟨st, stored⟩ := storeEach_plain (ws := [s.pc, s.ac, BitVec.ofNat 32 vec, 0]) hu ht hk
  obtain ⟨words, others⟩ := record_bytes (t := s.withMem _ st) (n := 4)
    (ws := [s.pc, s.ac, BitVec.ofNat 32 vec, 0]) rfl hk rfl rfl rfl fun _ => rfl
  have first := words 0 (by simp)
  rw [Nat.mul_zero, BitVec.add_zero] at first
  exact ⟨_, st, stored, first, words 1 (by simp), words 2 (by simp), others⟩

/-! ## Delivery -/

/-- Only a hardware interrupt saves IMSK and perhaps clears it (R837). -/
def InterruptKind.masked (kind : InterruptKind) (s : State) : State :=
  match kind with
  | .hardware _ => saveMask s
  | _ => s

/-- The state in which the vector is fetched: the interrupted frame cached with its return IP, the
record written, the handler's frame and PC in force. -/
def State.interrupted (s : State) (kind : InterruptKind) (vec : Nat) (rec0 : Word)
    (m : List Host.Cell) (st : List (Nat × Word)) : State :=
  kind.masked ((enterFrame (rec0 + 16) 7 ((s.pushed s.ip).withMem m st)).setPc
    (interruptPc (vec / 8)))

section
variable (s : State) (kind : InterruptKind) (vec : Nat) (rec0 : Word) (m : List Host.Cell)
  (st : List (Nat × Word))

theorem interrupted_busView :
    (s.interrupted kind vec rec0 m st).busView = (s.withMem m st).busView := by
  cases kind <;> rfl

theorem interrupted_intBase : (s.interrupted kind vec rec0 m st).intBase = s.intBase := by
  cases kind <;> rfl

theorem interrupted_icon : (s.interrupted kind vec rec0 m st).intc.icon = s.intc.icon := by
  cases kind <;> rfl

/-- IMSK goes to r3 alone. -/
theorem interrupted_local {i : Nat} (hi : i < 16) (h3 : i ≠ 3) :
    (s.interrupted kind vec rec0 m st).r[i] =
      (newLocals s.fresh ((s.fp &&& 0xFFFFFFF0) ||| 7) (rec0 + 16 + 64))[i] := by
  cases kind
  case hardware => exact Vector.getElem_set_ne (by decide) hi h3.symm
  all_goals rfl

theorem interrupted_pc :
    (s.interrupted kind vec rec0 m st).pc = interruptPc (vec / 8) &&& pcMask := by
  cases kind <;> rfl

theorem interrupted_globals :
    (s.interrupted kind vec rec0 m st).g = (enterFrame (rec0 + 16) 7 s).g := by
  cases kind <;> rfl

theorem interrupted_rc : (s.interrupted kind vec rec0 m st).rc =
    { addr := s.fp &&& 0xFFFFFFF0, regs := s.r.set 2 s.ip } :: s.rc := by
  cases kind <;> rfl

end

/-- The handler is entered at `e`, a halted core goes on. -/
def State.atVector (s : State) (e : Word) : State := { s with halted := false }.setIp e

/-- Every bit of the PC of an interrupt handler is implemented. -/
theorem interruptPc_and {p : Nat} (h : p < 32) : interruptPc p &&& pcMask = interruptPc p := by
  have all : ∀ p : Fin 32, interruptPc p &&& pcMask = interruptPc p := by decide
  exact all ⟨p, h⟩

/-- The vector of number `vec` is fetched from `a`, whatever else the state is. -/
def State.fetchesVector (s : State) (vec : Nat) (a : Word) : Prop :=
  ∀ t : State, t.intBase = s.intBase → t.intc.icon = s.intc.icon → vectorEntry vec t = loadWord a t

section
variable {s : State} {vec : Nat} {rec0 : Word}

theorem fetchesVector_nmi : s.fetchesVector 248 0 := fun _ _ _ => if_pos rfl

/-- With vector caching off a vector lies in the interrupt table (R845). -/
theorem fetchesVector_table (hv : vec ≠ 248) (hi : s.intc.icon.getLsbD 13 = false) :
    s.fetchesVector vec (s.intBase + 4 + BitVec.ofNat 32 (4 * vec)) := by
  intro t hbase hicon
  have uncached : bit t.intc.icon 13 = false := by rw [hicon]; exact hi
  rw [vectorEntry, if_neg hv, uncached, Bool.false_and, if_neg Bool.false_ne_true, hbase,
    BitVec.ofNat_mul]
  rfl

/-- The state after a delivery to the entry `e`. -/
theorem interrupted_entry {kind : InterruptKind} {m : List Host.Cell} {st : List (Nat × Word)}
    (hv : vec / 8 < 32) (hrec : InterruptRecord s (s.withMem m st) rec0 vec) (e : Word) :
    InterruptEntry s ((s.interrupted kind vec rec0 m st).atVector e).bump
      vec (e &&& 0xFFFFFFFC) (rec0 + 16) := by
  have view := interrupted_busView s kind vec rec0 m st
  have peek (x : Word) : ((s.interrupted kind vec rec0 m st).atVector e).bump.peek x =
      (s.withMem m st).peek x := peek_of_busView view x
  have bytes {a a' : Word} {bs : List Byte} (h : (s.withMem m st).bytesAt a bs) (ha : a' = a) :
      ((s.interrupted kind vec rec0 m st).atVector e).bump.bytesAt a' bs :=
    fun i hi => by rw [peek, ha, h i hi]
  have below : rec0 + 16 - 16 = rec0 := BitVec.add_sub_cancel rec0 16
  constructor
  case ip => rfl
  case fp =>
    have g := interrupted_globals s kind vec rec0 m st
    exact (congrArg (·[15]) g).trans (Vector.getElem_set_self _)
  case sp => exact (interrupted_local s kind vec rec0 m st _ (by decide)).trans (newLocals_one ..)
  case pfp => exact (interrupted_local s kind vec rec0 m st _ (by decide)).trans (newLocals_zero ..)
  case pc => exact (interrupted_pc s kind vec rec0 m st).trans (interruptPc_and hv)
  case saved => exact interrupted_rc s kind vec rec0 m st
  case savedPc => exact bytes hrec.pc below
  case savedAc => exact bytes hrec.ac (by bv_omega)
  case vector => exact bytes hrec.vector (by bv_omega)
  case globals =>
    intro n h16 h31
    rw [← enterFrame_global (rec0 + 16) 7 s h16 h31]
    exact global_congr (t := ((s.interrupted kind vec rec0 m st).atVector e).bump)
      (interrupted_globals s kind vec rec0 m st) h16
  case memory =>
    intro x hx
    rw [below] at hx
    exact (peek x).trans (hrec.others x hx)
  case rest => cases kind <;> rfl

/-- An interrupt of number `vec` can be delivered, with its record at `rec0`: the frame fits in the
cache, the record may be written, and the vector `e` at `a` is apart from it. -/
structure State.Delivers (s : State) (vec : Nat) (rec0 a e : Word) : Prop where
  undisturbed : s.undisturbed
  prio : vec / 8 < 32
  base : rec0 = align16 (if bit s.pc 13 = true then s.sp else s.isp)
  fits : s.canPush (interruptPc (vec / 8))
  storable : s.mayRecord (rec0 + 16) 16
  fetches : s.fetchesVector vec a
  entry : s.holds a e
  apart : ∀ j, j < 4 → outside rec0 16 (a + BitVec.ofNat 32 j)
  normal : bit e 0 = false

/-- The same whatever has become of the interrupt controller but for ICON. -/
theorem State.Delivers.of_intc {a e : Word} (h : s.Delivers vec rec0 a e) {i : Intc}
    (hi : i.icon = s.intc.icon) : State.Delivers { s with intc := i } vec rec0 a e where
  undisturbed := undisturbed_congr rfl rfl h.undisturbed
  prio := h.prio
  base := h.base
  fits := h.fits
  storable := mayRecord_congr (s := s) rfl rfl rfl rfl rfl h.storable
  fetches := fun t ht hicon => h.fetches t ht (hicon.trans hi)
  entry := holds_of_busView (s := s) rfl h.entry
  apart := h.apart
  normal := h.normal

/-- The record is written and the vector is fetched. -/
theorem deliver_recorded {a e : Word} (h : s.Delivers vec rec0 a e) (kind : InterruptKind) :
    ∃ m st, deliver kind vec s = .ok () ((s.interrupted kind vec rec0 m st).atVector e) ∧
      InterruptRecord s (s.withMem m st) rec0 vec := by
  have hu₁ : (s.pushed s.ip).undisturbed := undisturbed_congr rfl rfl h.undisturbed
  obtain ⟨m, st, stored, hrec⟩ := interruptRecord_stored (s := s.pushed s.ip) (a := rec0) hu₁
    (mayRecord_congr (State.pushed_supervisor s s.ip) rfl rfl rfl rfl h.storable) vec
  have record : InterruptRecord s (s.withMem m st) rec0 vec :=
    { pc := hrec.pc, ac := hrec.ac, vector := hrec.vector, others := hrec.others }
  refine ⟨m, st, ?_, record⟩
  have view := interrupted_busView s kind vec rec0 m st
  have hu₂ : (s.withMem m st).undisturbed := undisturbed_congr (s := s) rfl rfl h.undisturbed
  have kept : (s.withMem m st).holds a e :=
    holds_kept (s := s) rfl rfl rfl h.entry fun j hj => record.others _ (h.apart j hj)
  have fetch : vectorEntry vec (s.interrupted kind vec rec0 m st) =
      .ok e (s.interrupted kind vec rec0 m st) := by
    rw [h.fetches _ (interrupted_intBase ..) (interrupted_icon ..)]
    exact loadWord_holds (holds_of_busView view kept) ((undisturbed_of_busView view hu₂).alone a 4)
  have below : rec0 + 16 - 16 = rec0 := BitVec.add_sub_cancel rec0 16
  have hu₃ : ((s.pushed s.ip).withMem m st).undisturbed :=
    undisturbed_congr (s := s) rfl rfl h.undisturbed
  simp only [deliver, ← h.base, pushFrame_pushed h.fits, Eff.andGap_ok _ hu₁, Eff.bind_ok, below,
    stored, Eff.andGap_ok _ hu₃]
  change (vectorEntry vec (s.interrupted kind vec rec0 m st)).bind _ = _
  rw [fetch, Eff.bind_ok, h.normal, if_neg Bool.false_ne_true]
  rfl

/-- A delivery, and what it leaves. -/
theorem deliver_entry {a e : Word} (h : s.Delivers vec rec0 a e) (kind : InterruptKind) :
    ∃ m st, deliver kind vec s = .ok () ((s.interrupted kind vec rec0 m st).atVector e) ∧
      InterruptEntry s ((s.interrupted kind vec rec0 m st).atVector e).bump vec (e &&& 0xFFFFFFFC)
        (rec0 + 16) := by
  obtain ⟨m, st, made, record⟩ := deliver_recorded h kind
  exact ⟨m, st, made, interrupted_entry h.prio record e⟩

end

/-- What the interrupt controller was before does not matter to what a delivery leaves. -/
theorem InterruptEntry.of_intc {s t : State} {i : Intc} {vec : Nat} {target nfp : Word}
    (h : InterruptEntry { s with intc := i } t vec target nfp) :
    InterruptEntry s t vec target nfp where
  ip := h.ip
  fp := h.fp
  sp := h.sp
  pfp := h.pfp
  pc := h.pc
  saved := h.saved
  savedPc := h.savedPc
  savedAc := h.savedAc
  vector := h.vector
  globals := h.globals
  memory := h.memory
  rest := h.rest

/-- An interrupt that is delivered is a step. -/
theorem takeInterrupt_delivered {kind : InterruptKind} {s t : State}
    (h : deliverInterrupt kind s = .ok () t) : takeInterrupt kind s = .next t.bump := by
  rw [takeInterrupt, h]
  rfl

end Sys2Proof.Machine

end

section
/-! SUPPORT. Interrupts: NMI, the hardware sources, the vectors of the interrupt table (O57). -/

namespace Sys2Proof.Machine

-- Proofs are elaborated one at a time: the check has memory for the stacks of few threads.
set_option Elab.async false

/-! ## One bit of a word -/

section
variable {w : Nat}

/-- A power of two has one bit. -/
theorem ofNat_two_pow_getLsbD {i j : Nat} (hj : j < w) :
    (BitVec.ofNat w (2 ^ i)).getLsbD j = decide (i = j) := by
  rw [BitVec.getLsbD_ofNat, decide_eq_true hj, Bool.true_and, Nat.testBit_two_pow]

theorem ofNat_two_pow (i : Nat) : BitVec.ofNat w (2 ^ i) = BitVec.twoPow w i := by
  refine BitVec.eq_of_getLsbD_eq fun j hj => ?_
  rw [ofNat_two_pow_getLsbD hj, BitVec.getLsbD_twoPow]
  by_cases h : i = j
  · simp [h, hj]
  · simp [h]

/-- A bit that is set may be taken away. -/
theorem ofNat_sub_two_pow {z : BitVec w} {b : Nat} (hb : b < w) (h : z.getLsbD b = true) :
    BitVec.ofNat w (z.toNat - 2 ^ b) = z &&& ~~~(BitVec.ofNat w (2 ^ b)) := by
  have parts : z = (z &&& ~~~(BitVec.ofNat w (2 ^ b))) + BitVec.ofNat w (2 ^ b) := by
    have apart : (z &&& ~~~(BitVec.ofNat w (2 ^ b))) &&& BitVec.ofNat w (2 ^ b) = 0 := by
      rw [BitVec.and_assoc, BitVec.and_comm (~~~_), BitVec.and_not_self]
      exact BitVec.and_zero
    rw [BitVec.add_eq_or_of_and_eq_zero _ _ apart]
    refine BitVec.eq_of_getLsbD_eq fun j hj => ?_
    rw [BitVec.getLsbD_or, BitVec.getLsbD_and, BitVec.getLsbD_not, ofNat_two_pow_getLsbD hj,
      decide_eq_true hj, Bool.true_and]
    by_cases hbj : b = j
    · subst hbj; simp [h]
    · simp [hbj]
  rw [← BitVec.ofNat_sub_ofNat_of_le _ _ (Nat.pow_lt_pow_right (by omega) hb)
    (Nat.ge_two_pow_of_testBit h), BitVec.ofNat_toNat, BitVec.setWidth_eq]
  exact BitVec.sub_eq_iff_eq_add.2 parts

/-- Nothing is left of a word of one bit alone. -/
theorem sub_two_pow_eq_zero {z : BitVec w} {b : Nat} (hb : b < w) (h : z.getLsbD b = true) :
    z.toNat - 2 ^ b = 0 ↔ z = BitVec.ofNat w (2 ^ b) := by
  have hle : 2 ^ b ≤ z.toNat := Nat.ge_two_pow_of_testBit h
  rw [← BitVec.toNat_inj, BitVec.toNat_ofNat, Nat.mod_eq_of_lt (Nat.pow_lt_pow_right (by omega) hb)]
  omega

end

/-! ## Hardware sources -/

section
variable {c : Intc}

/-- The best source is an active one. -/
theorem bestSource_active {active : Word} {l : List Nat} {k : Nat}
    (h : c.bestSource active l = some k) : bit active k = true := by
  induction l generalizing k with
  | nil => cases h
  | cons i l ih =>
    rw [Intc.bestSource] at h
    split at h
    · split_ifs at h with hi
      cases h
      exact (Bool.and_eq_true_iff.1 hi).1
    next j hj =>
      split_ifs at h with hi
      · cases h
        exact (Bool.and_eq_true_iff.1 hi).1
      · cases h
        exact ih hj

theorem eq_of_bit_two_pow {i k : Nat} (h : bit (BitVec.ofNat 32 (2 ^ i)) k = true) : k = i := by
  by_cases hk : k < 32
  · rw [bit, ofNat_two_pow_getLsbD hk, decide_eq_true_eq] at h
    exact h.symm
  · rw [bit, BitVec.getLsbD_of_ge _ _ (by omega)] at h
    cases h

/-- A source that is active alone is the best. -/
theorem bestSource_single {l : List Nat} {i : Nat} (h32 : i < 32) (hi : i ∈ l)
    (hf : c.mapField i ≠ 0) : c.bestSource (BitVec.ofNat 32 (2 ^ i)) l = some i := by
  have active : bit (BitVec.ofNat 32 (2 ^ i)) i = true := by
    rw [bit, ofNat_two_pow_getLsbD h32, decide_eq_true rfl]
  induction l with
  | nil => cases hi
  | cons j l ih =>
    rw [Intc.bestSource]
    cases hrest : c.bestSource (BitVec.ofNat 32 (2 ^ i)) l with
    | none =>
      rcases List.mem_cons.1 hi with rfl | hi
      · dsimp only
        rw [active, Bool.true_and, if_pos (bne_iff_ne.2 hf)]
      · rw [ih hi] at hrest
        cases hrest
    | some k =>
      obtain rfl : k = i := eq_of_bit_two_pow (bestSource_active hrest)
      dsimp only
      split_ifs with hj
      · exact congrArg some (eq_of_bit_two_pow (Bool.and_eq_true_iff.1 hj).1)
      · rfl

/-- The sources of the hardware interrupts (61_interrupts.md R851). -/
def isSource (i : Nat) : Prop := i < 8 ∨ i = 12 ∨ i = 13

theorem isSource.lt {i : Nat} (h : isSource i) : i < 32 := by
  unfold isSource at h
  omega

theorem isSource.mem {i : Nat} (h : isSource i) : i ∈ [13, 12, 7, 6, 5, 4, 3, 2, 1, 0] := by
  unfold isSource at h
  simp only [List.mem_cons, List.not_mem_nil]
  omega

/-- The one source that is pending and unmasked is selected (R832, R834). -/
theorem hardwareSource_single {i : Nat} (hi : isSource i) (hf : c.mapField i ≠ 0)
    (h : c.imsk &&& c.ipnd = BitVec.ofNat 32 (2 ^ i)) : c.hardwareSource = some i := by
  have nonzero : BitVec.ofNat 32 (2 ^ i) ≠ 0 := fun e => by
    have bit := ofNat_two_pow_getLsbD (i := i) hi.lt
    rw [e] at bit
    simp at bit
  rw [Intc.hardwareSource, h, if_neg nonzero]
  exact bestSource_single hi.lt hi.mem hf

/-- The IMAP field of a source. -/
theorem mapField_eq {i : Nat} (hi : isSource i) : c.mapField i =
    if i < 4 then c.imap0.toNat / 2 ^ (4 * i) % 16
    else if i < 8 then c.imap1.toNat / 2 ^ (4 * (i - 4)) % 16
    else c.imap2.toNat / 2 ^ (4 * (i - 8)) % 16 := by
  unfold Intc.mapField
  by_cases h4 : i < 4
  · rw [if_pos h4, if_pos h4]
    rfl
  by_cases h8 : i < 8
  · rw [if_neg h4, if_neg h4, if_pos h8, if_pos h8]
    rfl
  · rw [if_neg h4, if_neg h4, if_neg h8, if_neg h8]
    obtain h | rfl | rfl := hi
    · exact absurd h h8
    · rfl
    · rfl

theorem mapField_lt (i : Nat) : c.mapField i < 16 := by
  unfold Intc.mapField field
  split_ifs <;> omega

end

/-! ## Selection -/

section
variable {s : State}

/-- A pending NMI that is not blocked comes first (R834). -/
theorem selectInterrupt_nmi (h : s.intc.nmiPending = true) (hb : s.intc.blockNmi = false) :
    s.selectInterrupt = some .nmi := by
  rw [State.selectInterrupt, h, hb]
  rfl

/-- With interrupts on and no NMI the higher of the hardware and the software priority is compared
with that of the process (R834). -/
theorem selectInterrupt_maskable (hn : s.intc.nmiPending = false) (hb : s.intc.blockNmi = false)
    (hg : s.intc.icon.getLsbD 10 = false) {p : Nat}
    (hp : p = max s.intc.hardwarePriority s.intc.swPrio.toNat)
    (habove : p = 31 ∨ priority s.pc < p) : s.selectInterrupt =
      if s.intc.hardwarePriority < s.intc.swPrio.toNat then some .software
      else s.intc.hardwareSource.map .hardware := by
  have on : bit s.intc.icon 10 = false := hg
  have above : (decide (p = 31) || decide (priority s.pc < p)) = true := by
    rw [Bool.or_eq_true, decide_eq_true_eq, decide_eq_true_eq]
    exact habove
  simp only [State.selectInterrupt, hn, hb, on, ← hp, above, Bool.false_and, Bool.or_self,
    Bool.false_eq_true, if_false, if_true]

theorem selectInterrupt_hardware {i : Nat} (hn : s.intc.nmiPending = false)
    (hb : s.intc.blockNmi = false) (hg : s.intc.icon.getLsbD 10 = false)
    (hsource : s.intc.hardwareSource = some i) (hsw : s.intc.swPrio.toNat ≤ 2 * s.intc.mapField i)
    (hprio : priority s.pc < 2 * s.intc.mapField i) : s.selectInterrupt = some (.hardware i) := by
  have hw : s.intc.hardwarePriority = 2 * s.intc.mapField i := by
    rw [Intc.hardwarePriority, hsource]
  rw [selectInterrupt_maskable hn hb hg (hw ▸ (max_eq_left hsw).symm) (.inr hprio), hw,
    if_neg (Nat.not_lt.2 hsw), hsource]
  rfl

theorem selectInterrupt_software {y : Nat} (hn : s.intc.nmiPending = false)
    (hb : s.intc.blockNmi = false) (hg : s.intc.icon.getLsbD 10 = false)
    (hmask : s.intc.imsk &&& s.intc.ipnd = 0) (hsw : s.intc.swPrio.toNat = y) (hy : 0 < y)
    (hprio : y = 31 ∨ priority s.pc < y) : s.selectInterrupt = some .software := by
  have hw : s.intc.hardwarePriority = 0 := by
    rw [Intc.hardwarePriority, Intc.hardwareSource, hmask, if_pos rfl]
  rw [selectInterrupt_maskable hn hb hg (by rw [hw, hsw, Nat.zero_max]) hprio, hw, hsw, if_pos hy]

end

/-! ## Software vectors -/

/-- Vector `8 * y + b` is the highest that the interrupt table at hand posts: `w` are its pending
priorities, `z` the pending vectors of priority `y`, and both may be written (61_interrupts.md
R814). -/
structure State.Posts (s : State) (w : Word) (z : Byte) (y b key : Nat) : Prop where
  undisturbed : s.undisturbed
  prio_lt : y < 32
  bit_lt : b < 8
  prio : w.getLsbD y = true
  prioHighest : ∀ j, y < j → j < 32 → w.getLsbD j = false
  vector : z.getLsbD b = true
  vectorHighest : ∀ j, b < j → j < 8 → z.getLsbD j = false
  table : s.plainW s.intBase 36 key
  wordStorable : s.storeTrap s.intBase 4 = none
  byteStorable : s.storeTrap (s.intBase + 4 + BitVec.ofNat 32 y) 1 = none
  word : s.bytesAt s.intBase (wordBytes w)
  byte : s.peek (s.intBase + 4 + BitVec.ofNat 32 y) = some z

/-- The pending priorities once the vector is taken out: priority `y` stays while another vector of
it is pending (R836). -/
def prioritiesLeft (w : Word) (z : Byte) (y b : Nat) : Word :=
  if z = BitVec.ofNat 8 (2 ^ b) then setBit w y false else w

theorem prioritiesLeft_getLsbD (w : Word) (z : Byte) (y b : Nat) {j : Nat} (hj : j < 32) :
    (prioritiesLeft w z y b).getLsbD j =
      (w.getLsbD j && !(decide (j = y) && decide (z = BitVec.ofNat 8 (2 ^ b)))) := by
  unfold prioritiesLeft
  by_cases hz : z = BitVec.ofNat 8 (2 ^ b)
  · rw [if_pos hz, decide_eq_true hz, Bool.and_true]
    by_cases hy : j = y
    · subst hy
      rw [decide_eq_true rfl, Bool.not_true, Bool.and_false]
      exact bit_setBit w hj false
    · rw [setBit_getLsbD_of_ne w hy, decide_eq_false hy, Bool.not_false, Bool.and_true]
  · rw [if_neg hz, decide_eq_false hz, Bool.and_false, Bool.not_false, Bool.and_true]

section
variable {s : State} {w : Word} {z : Byte} {y b key : Nat}

/-- The table once the vector is taken out of it: the byte is written, then the word. -/
theorem vectorTaken_stored (h : s.Posts w z y b key) (w' : Word) (z' : Byte) :
    ∃ m₁ st₁ m st,
      store (s.intBase + 4 + BitVec.ofNat 32 y) [z'] s = .ok () (s.withMem m₁ st₁) ∧
      storeWord s.intBase w' (s.withMem m₁ st₁) = .ok () (s.withMem m st) ∧
      (s.withMem m st).bytesAt s.intBase (wordBytes w') ∧
      (s.withMem m st).peek (s.intBase + 4 + BitVec.ofNat 32 y) = some z' ∧
      ∀ x, outside s.intBase 4 x → x ≠ s.intBase + 4 + BitVec.ofNat 32 y →
        (s.withMem m st).peek x = s.peek x := by
  have apart := pendingByte_outside_word (a := s.intBase) h.prio_lt
  obtain ⟨m₁, st₁, storeByte, inByte, outByte⟩ := store_stored (bs := [z']) h.byteStorable
    (pendingByte_plainW h.prio_lt h.table) (.inl rfl) (h.undisturbed.alone _ _)
  have hu₁ : (s.withMem m₁ st₁).undisturbed := undisturbed_congr (s := s) rfl rfl h.undisturbed
  obtain ⟨m, st, storeW, inWord, outWord⟩ := store_stored (s := s.withMem m₁ st₁)
    (bs := wordBytes w') h.wordStorable (State.plainW_take h.table (j := 4) (by omega))
    (by simp [isSize]) (hu₁.alone _ _)
  refine ⟨m₁, st₁, m, st, storeByte, storeW, inWord,
    (outWord _ apart).trans (bytesAt_singleton.1 inByte), fun x hx hne =>
      (outWord x hx).trans (outByte x ?_)⟩
  intro i hi
  obtain rfl : i = 0 := by simpa using hi
  simpa using hne

/-- The highest posted vector is taken out of the table and delivered, the software priority being
that of the next (R836). -/
theorem checkTable_delivers (h : s.Posts w z y b key) (hp : y = 31 ∨ priority s.pc < y) :
    ∃ m st, checkTable s = deliver .software (8 * y + b) (s.posted m st (prioritiesLeft w z y b)) ∧
      (s.withMem m st).bytesAt s.intBase (wordBytes (prioritiesLeft w z y b)) ∧
      (s.withMem m st).peek (s.intBase + 4 + BitVec.ofNat 32 y) =
        some (z &&& ~~~(BitVec.ofNat 8 (2 ^ b))) ∧
      ∀ x, outside s.intBase 4 x → x ≠ s.intBase + 4 + BitVec.ofNat 32 y →
        (s.withMem m st).peek x = s.peek x := by
  obtain ⟨m₁, st₁, m, st, storeByte, storeW, leaves⟩ :=
    vectorTaken_stored h (prioritiesLeft w z y b) (z &&& ~~~(BitVec.ofNat 8 (2 ^ b)))
  refine ⟨m, st, ?_, leaves⟩
  have readWord := loadWord_holds (holds_of_bytesAt
    (State.plain_of_plainW (State.plainW_take h.table (j := 4) (by omega))) h.word)
    (h.undisturbed.alone _ _)
  have readByte := load_byte h.undisturbed.1
    (State.plain_of_plainW (pendingByte_plainW h.prio_lt h.table)) h.byte
  have topPrio : topBit w.toNat 32 = some y := topBit_eq_some h.prio_lt h.prio h.prioHighest
  have topVector : topBit z.toNat 8 = some b := topBit_eq_some h.bit_lt h.vector h.vectorHighest
  have above : (decide (y ≠ 31) && decide (y ≤ priority s.pc)) = false := by
    rw [Bool.and_eq_false_iff, decide_eq_false_iff_not, decide_eq_false_iff_not]
    omega
  have value : (bytesToWord [z]).toNat = z.toNat := by
    rw [bytesToWord_singleton, BitVec.toNat_setWidth_of_le (by decide)]
  have left : (if z.toNat - 2 ^ b = 0 then setBit w y false else w) = prioritiesLeft w z y b :=
    if_congr (sub_two_pow_eq_zero h.bit_lt h.vector) rfl rfl
  have hu : (s.posted m st (prioritiesLeft w z y b)).undisturbed :=
    undisturbed_congr (s := s) rfl rfl h.undisturbed
  simp only [checkTable, readWord, Eff.bind_ok, topPrio, above, Bool.false_eq_true, if_false,
    readByte, value, topVector, left, ofNat_sub_two_pow h.bit_lt h.vector, storeByte,
    State.withMem_intBase, storeW]
  change (gap (s.posted m st (prioritiesLeft w z y b))).bind _ = _
  rw [gap_undisturbed hu, Eff.bind_ok]

end

/-! ## The three kinds -/

section
variable {s : State} {e rec0 : Word}

/-- NMI: its vector 248 lies in the data RAM, and it blocks itself (R836, R845). -/
theorem takeInterrupt_nmi (h : s.Delivers 248 rec0 0 e) :
    ∃ t, takeInterrupt .nmi s = .next t ∧
      InterruptEntry s t 248 (e &&& 0xFFFFFFFC) (rec0 + 16) ∧
      t.intc = { s.intc with blockNmi := true, nmiPending := false } := by
  obtain ⟨m, st, made, entry⟩ := deliver_entry (s := { s with intc :=
    { s.intc with blockNmi := true, nmiPending := false } }) (h.of_intc rfl) .nmi
  exact ⟨_, takeInterrupt_delivered made, entry.of_intc, rfl⟩

/-- The pending bit of a hardware source is cleared unless its input is still low (R836). -/
def State.acknowledged (s : State) (i : Nat) : State :=
  { s with intc := { s.intc with ipnd := setBit s.intc.ipnd i false ||| s.inputs } }

/-- A hardware interrupt: IMSK is saved in r3 and, as ICON.mo says, cleared (R837). -/
theorem takeInterrupt_hardware {i f : Nat} {a : Word} (hf : s.intc.mapField i = f)
    (hmo : field s.intc.icon 11 2 < 2) (h : s.Delivers (16 * f + 2) rec0 a e) :
    ∃ t, takeInterrupt (.hardware i) s = .next t ∧
      InterruptEntry s t (16 * f + 2) (e &&& 0xFFFFFFFC) (rec0 + 16) ∧ t.r[3] = s.intc.imsk ∧
      t.intc = { s.intc with
        ipnd := setBit s.intc.ipnd i false ||| s.inputs
        imsk := if field s.intc.icon 11 2 = 1 then 0 else s.intc.imsk } := by
  obtain ⟨m, st, made, entry⟩ := deliver_entry (s := s.acknowledged i) (h.of_intc rfl) (.hardware i)
  have vector : deliverInterrupt (.hardware i) s =
      deliver (.hardware i) (16 * f + 2) (s.acknowledged i) := by
    rw [deliverInterrupt, if_neg (Nat.not_le.2 hmo), hf, Nat.mul_comm]
    rfl
  exact ⟨_, takeInterrupt_delivered (vector.trans made), entry.of_intc, Vector.getElem_set_self _,
    rfl⟩

/-- The entry of a vector lies above the pending bits of the table. -/
theorem vectorEntry_apart (a : Word) {y n j : Nat} (hy : y < 32) (hn : 8 ≤ n) (hn' : n < 256)
    (hj : j < 4) : outside a 4 (a + 4 + BitVec.ofNat 32 (4 * n) + BitVec.ofNat 32 j) ∧
      a + 4 + BitVec.ofNat 32 (4 * n) + BitVec.ofNat 32 j ≠ a + 4 + BitVec.ofNat 32 y := by
  refine ⟨fun i hi => ?_, ?_⟩ <;> bv_omega

/-- The table may be changed before the delivery of vector `n` in it. -/
theorem State.Delivers.posted {n y : Nat} {w' : Word} {m : List Host.Cell} {st : List (Nat × Word)}
    (h : s.Delivers n rec0 (s.intBase + 4 + BitVec.ofNat 32 (4 * n)) e) (hy : y < 32) (hn : 8 ≤ n)
    (hkept : ∀ x, outside s.intBase 4 x → x ≠ s.intBase + 4 + BitVec.ofNat 32 y →
      (s.withMem m st).peek x = s.peek x) :
    (s.posted m st w').Delivers n rec0 (s.intBase + 4 + BitVec.ofNat 32 (4 * n)) e where
  undisturbed := undisturbed_congr (s := s) rfl rfl h.undisturbed
  prio := h.prio
  base := h.base
  fits := h.fits
  storable := mayRecord_congr (s := s) rfl rfl rfl rfl rfl h.storable
  fetches := h.fetches
  entry := holds_kept (s := s) rfl rfl rfl h.entry fun j hj => by
    have hn' := h.prio
    obtain ⟨word, byte⟩ := vectorEntry_apart s.intBase hy hn (by omega) hj
    exact hkept _ word byte
  apart := h.apart
  normal := h.normal

end

/-- Clearing a bit of a word. -/
theorem setBit_false_eq (v : Word) (i : Nat) :
    setBit v i false = v &&& ~~~(BitVec.ofNat 32 (2 ^ i)) := by
  rw [ofNat_two_pow, BitVec.twoPow_eq]
  rfl

/-- Settles O57. -/
theorem interruptDelivery : Obligations.InterruptDelivery := by
  intro s e base hu hbase he rec0 off
  have hrec0 : rec0 = align16 (if bit s.pc 13 = true then s.sp else s.isp) := hbase ▸ rfl
  refine ⟨fun hn hb => ⟨selectInterrupt_nmi hn hb, fun hentry hpush hrec hout => ?nmi⟩,
    fun i f hi hf hf0 => ?hardware, fun w z y b key hy hb hv hr hwy hwtop hzb hztop => ?software⟩
  case nmi =>
    exact takeInterrupt_nmi (rec0 := rec0)
      { undisturbed := hu, prio := by decide, base := hrec0, fits := hpush, storable := hrec
        fetches := fetchesVector_nmi, entry := hentry
        apart := fun j hj => by rw [show (0 : Word) + _ = _ from BitVec.zero_add _]; exact hout j hj
        normal := he }
  case hardware =>
    obtain rfl : s.intc.mapField i = f := (mapField_eq hi).trans hf.symm
    have hlt := mapField_lt (c := s.intc) i
    have prio : (16 * s.intc.mapField i + 2) / 8 = 2 * s.intc.mapField i := by omega
    refine ⟨fun hn hb hg hsource hsw hpc => selectInterrupt_hardware hn hb hg
      (hardwareSource_single hi hf0 hsource) hsw hpc,
      fun hmo hicon hentry hpush hrec hout => ?deliver⟩
    case deliver =>
      have taken := takeInterrupt_hardware (s := s) (i := i) (rec0 := rec0) rfl hmo
        { undisturbed := hu, prio := by omega, base := hrec0, fits := by rw [prio]; exact hpush
          storable := hrec, fetches := fetchesVector_table (by omega) hicon, entry := hentry
          apart := hout, normal := he }
      rwa [setBit_false_eq] at taken
  case software =>
    have hy0 : 0 < y := by omega
    refine ⟨fun hn hb hg hmask hsw hpc => selectInterrupt_software hn hb hg hmask hsw hy0 hpc,
      fun hpc htable hword hbyte hw hz hicon hentry hpush hrec hout => ?deliver⟩
    case deliver =>
      have posts : s.Posts w z y b key :=
        ⟨hu, hy, hb, hwy, hwtop, hzb, hztop, htable, hword, hbyte, hw, hz⟩
      obtain ⟨m, st, check, inWord, inByte, others⟩ := checkTable_delivers posts hpc
      have prio : (8 * y + b) / 8 = y := by omega
      have delivers : s.Delivers (8 * y + b) rec0 (off (8 * y + b)) e :=
        { undisturbed := hu, prio := by omega, base := hrec0, fits := by rw [prio]; exact hpush
          storable := hrec, fetches := fetchesVector_table (by omega) hicon, entry := hentry
          apart := hout, normal := he }
      have peek (x : Word) : (s.posted m st (prioritiesLeft w z y b)).peek x =
          (s.withMem m st).peek x := peek_of_busView (s := s.withMem m st) rfl x
      obtain ⟨m', st', made, entry⟩ := deliver_entry
        (delivers.posted (w' := prioritiesLeft w z y b) hy hv others) .software
      refine ⟨s.posted m st (prioritiesLeft w z y b), _, prioritiesLeft w z y b,
        takeInterrupt_delivered (check.trans made), entry, rfl,
        fun j hj => prioritiesLeft_getLsbD w z y b hj, fun i hi => (peek _).trans (inWord i hi),
        (peek _).trans inByte, fun x hx hne => (peek x).trans (others x hx hne), fun h0 => ?last,
        highestPriority_pending, fun j hj _ => highestPriority_highest hj, rfl⟩
      case last =>
        rw [h0]
        exact highestPriority_zero

end Sys2Proof.Machine

end
